-- ==== Sys2Proof/Word.lean ====
section
/-! DEFINITION. The widths of the T940 (R11, R221) and the plainest arithmetic on them: reading a
64-bit pair, splitting it, and the number of one bits. Everything a test could show wrong stands in
the files under Machine/. -/

namespace Sys2Proof

abbrev Byte := BitVec 8
/-- A lane register, a bound snapshot, an instruction word. -/
abbrev W32 := BitVec 32
/-- A uniform register, an address, a system register. -/
abbrev W64 := BitVec 64
/-- A hypervector (R372). -/
abbrev HVec := BitVec 4096

/-- The low word of a 64-bit lane pair (R13). -/
def W64.low (x : W64) : W32 := x.setWidth 32
/-- The high word of a 64-bit lane pair (R13). -/
def W64.high (x : W64) : W32 := (x >>> 32).setWidth 32
/-- A pair read as one 64-bit value, the even register least significant (R13). -/
def pair (lo hi : W32) : W64 := hi ++ lo

/-- The number of one bits of a number below `2 ^ n`. -/
def popNat : Nat → Nat → Nat
  | 0, _ => 0
  | n + 1, x => x % 2 + popNat n (x / 2)

/-- The number of one bits of a word. -/
def popcount {w : Nat} (x : BitVec w) : Nat := popNat w x.toNat

/-- Quotient rounded up. -/
def ceilDiv (a b : Nat) : Nat := (a + b - 1) / b

end Sys2Proof
end

