-- ==== Sys2Proof/Syntax.lean ====
section
/-! DEFINITION. The syntax of the T940: one constructor of `Instr` for every row of
spec/opcode_table.json. 172 rows are instruction words (R226, R230), whose operands stand here with
the raw encodings gone. 96 rows are operations and events of the part (95_what_each_step_holds.md),
whose operands name the subject of the event and, for a request from outside, what it brings. -/

namespace Sys2Proof

/-! ## Names of places -/

/-- A thread slot of a bank set of a core (R30). -/
structure TId where
  core : Nat
  bank : Nat
  slot : Nat
  deriving DecidableEq, Repr

/-- A group slot of a bank set of a core (R30). -/
structure GId where
  core : Nat
  bank : Nat
  slot : Nat
  deriving DecidableEq, Repr

/-! ## Operands of instruction words -/

/-- A 6-bit register field: v, s or t by its position (R223). -/
abbrev Reg := Fin 64
/-- A p, q, b or h register. -/
abbrev Reg8 := Fin 8
/-- A counter set or an accumulator. -/
abbrev Reg4 := Fin 4
/-- The lookahead field (R230, R233). -/
abbrev La := Fin 16

/-- An operand of a format with bound-register class bits (R223). -/
inductive LOp where
  | v (r : Reg)
  | b (k : Reg8)
  deriving DecidableEq, Repr

/-- The base of a lane memory operand: a v or an s register (R16). -/
inductive Base where
  | v (r : Reg)
  | s (r : Reg)
  deriving DecidableEq, Repr

/-- TY, integer (R224). -/
inductive ITy where
  | i32 | n32 | i64 | n64
  deriving DecidableEq, Repr
/-- TY of `mad` (R251). -/
inductive MadTy where
  | b32 | i64 | n64
  deriving DecidableEq, Repr
/-- SZ (R224). -/
inductive Sz where
  | b8 | b16 | b32 | b64
  deriving DecidableEq, Repr
/-- TY, float (R224). -/
inductive FTy where
  | f32 | bf16x2 | f16x2
  deriving DecidableEq, Repr
/-- The five rounding modes (R92). -/
inductive Rm where
  | rn | rz | ru | rd | rs
  deriving DecidableEq, Repr
/-- RM, arithmetic (R224). -/
inductive Rm4 where
  | rn | rz | ru | rd
  deriving DecidableEq, Repr
/-- The ordering flavours (R123, R224). -/
inductive Ord where
  | rlx | acq | rel | ar
  deriving DecidableEq, Repr
/-- The scopes (R122, R224). -/
inductive Sc where
  | grp | team | dev | sys
  deriving DecidableEq, Repr
/-- The replacement hints (R224, R279). -/
inductive Hint where
  | normal | ef | el
  deriving DecidableEq, Repr
/-- COND (R224). -/
inductive Cond where
  | eq | ne | lt | le | gt | ge
  deriving DecidableEq, Repr
/-- The conversion types of `fcvt` (R227). -/
inductive CTy where
  | f32 | f16 | bf16 | e4m3 | e5m2 | e3m2 | e2m3 | e2m1 | e8m0
  | i8 | i16 | i32 | i64 | n8 | n16 | n32 | n64 | bf16x2 | f16x2
  deriving DecidableEq, Repr
/-- The modes of `shfl` (R268). -/
inductive ShflMode where
  | pick | rot | shift | flip
  deriving DecidableEq, Repr
/-- The forms of `vote` with their destination and threshold (R228, R269). -/
inductive VoteForm where
  | mask (d : Reg)
  | count (d : Reg)
  | quorum (pd : Reg8) (b : Reg)
  | unan (pd : Reg8)
  deriving DecidableEq, Repr
/-- OP of `red` and `scan` (R228). -/
inductive RedOp where
  | add | min | max | and | or | xor
  deriving DecidableEq, Repr
/-- The type of `red` and `scan` (R228). -/
inductive RedTy where
  | n32 | i32 | f32
  deriving DecidableEq, Repr
/-- OP and S of `atom` (R229, R281). -/
inductive AtomOp where
  | add | exch | and | or | xor | min (signed : Bool) | max (signed : Bool)
  deriving DecidableEq, Repr
/-- ORD of `fence` (R229). -/
inductive FenceOrd where
  | acq | rel | ar
  deriving DecidableEq, Repr
/-- SRC of MMA8 and MMA16 with its A and B fields (R230, R344). -/
inductive MmaSrc where
  | vv | vd | dd | dv
  deriving DecidableEq, Repr
/-- RM of `tcopy`, the conversion codes less `.rs` (R230 and the tile forms). -/
inductive TileRm where
  | rn | rz | ru | rd
  deriving DecidableEq, Repr
/-- The system registers (R232). -/
inductive SysReg where
  | fpstat | nbv | perflvl | seqstep | trapvec
  | trappc | trapcause | rngstate | framebase | cpbase | trailbase
  | partid | pmc (n : Fin 16)
  deriving DecidableEq, Repr

/-! ## Operands of events -/

/-- Why a fetched word is illegal (R222, R223). -/
inductive Illegal where
  | undef | rsvd
  deriving DecidableEq, Repr
/-- What a store buffer or a cache sends home in a STORE_PUBLICATION: the oldest store of a thread
(R125), or the dirty bytes of an evicted line: an SM line of a core (R119), a line of a die's LLC or of a system cache
(R24, R279). -/
inductive Publish where
  | store (t : TId)
  | smLine (core line : Nat)
  | llcLine (die line : Nat)
  | sysLine (io line : Nat)
  deriving DecidableEq, Repr
/-- The agent of a REGISTER_WRITE. -/
inductive Agent where
  | service
  | host (port : Nat)
  | preley
  | other
  deriving DecidableEq, Repr
/-- What reads a clean line when an error strikes it (R207). -/
inductive LineReader where
  | thread (t : TId)
  | copy (core cmd chunk : Nat)
  | tile (g : GId)
  deriving DecidableEq, Repr
/-- The structures of R207, with the place of the word or line that the error strikes. -/
inductive ErrPlace where
  | laneReg (t : TId) (r : Reg)
  | predicate (t : TId)
  | boundReg (t : TId) (k : Reg8)
  | uniformReg (g : GId) (r : Reg)
  | uniformPred (g : GId)
  | hvecWord (g : GId) (h : Reg8) (word : Fin 64)
  | accWord (core bank block word : Nat)
  | counterSet (core set word : Nat)
  | scratchpad (core byte : Nat)
  | glasshouse (cluster entry : Nat)
  | dirtyLine (line : Nat)
  /-- the dirty bytes of an SM line in a core's L1 (R119) -/
  | dirtyCopy (core line : Nat)
  | cleanLine (reader : LineReader) (line : Nat)
  | translation
  | hbm (byte : Nat)
  | trellis (t : TId)
  | directory (t : TId)
  | partitionState (part : Nat)
  deriving DecidableEq, Repr
/-- One die's readings in a telemetry sample (R408, R411). -/
structure DieReading where
  power : Nat      -- mW, at the die's stage-2 converter
  tmax : Nat       -- hottest monitor, 0.1 degrees C
  hotcl : Nat      -- the cluster that holds it
  deriving DecidableEq, Repr
/-- The readings of one 10 us interval (R408 to R410). -/
structure Readings where
  input : W64                -- stage word of the 50 V input
  stage1 : List W64          -- stage words of the four stage-1 converters
  stage2 : List W64          -- stage words of the six stage-2 converters
  dies : List DieReading
  clusters : List (Nat × Nat × Nat × Nat)   -- cluster, temperature, core voltage, process code
  meters : List (Nat × Nat)  -- partition, mean power in mW without filler energy
  deriving DecidableEq, Repr
/-- One link's measurement in a 1 ms window (R415, R416). -/
structure LinkReading where
  port : Nat
  eye : Nat
  wlane : Nat
  deriving DecidableEq, Repr
/-- What an inbound peer request asks for (R401). -/
inductive PeerOp where
  | load (size : Nat)
  | store (bytes : List Byte)
  | atom (op : AtomOp) (size : Nat) (operand : W64)
  deriving DecidableEq, Repr
/-- MetaValue of a host MemRd or MemInv (R395). -/
inductive Meta where
  | invalid | shared | any
  deriving DecidableEq, Repr

/-! ## The instructions and events -/

/-- One constructor per row of spec/opcode_table.json, for the words in the order of 10_instruction_encoding.md. -/
inductive Instr where
  -- INT, SHIFT, DIV, MAD, TRI, ADDI, MOVI, UNI, BF, SEL, CMP (R248 to R258)
  | add (d a b : LOp) (ty : ITy)
  | sub (d a b : LOp) (ty : ITy)
  | mul (d a b : LOp) (ty : ITy)
  | mulhi (d a b : LOp) (ty : ITy)
  | min (d a b : LOp) (ty : ITy)
  | max (d a b : LOp) (ty : ITy)
  | shl (d a b : LOp) (ty : ITy)
  | shr (d a b : LOp) (ty : ITy)
  | sar (d a b : LOp) (ty : ITy)
  | rot (d a b : LOp) (ty : ITy)
  | shlCount (d a : LOp) (n : Reg) (ty : ITy)
  | shrCount (d a : LOp) (n : Reg) (ty : ITy)
  | sarCount (d a : LOp) (n : Reg) (ty : ITy)
  | rotCount (d a : LOp) (n : Reg) (ty : ITy)
  | div (d a b : Reg) (ty : ITy) (la : La)
  | rem (d a b : Reg) (ty : ITy) (la : La)
  | mad (d a b c : Reg) (ty : MadTy)
  | tri (d a b : Reg) (tt : Byte)
  | addi (d a : Reg) (imm : BitVec 14)
  | movi (d : Reg) (imm : BitVec 19)
  | mvh (d : Reg) (imm : BitVec 16)
  | mov (d a : LOp) (ty : ITy)
  | abs (d a : LOp) (ty : ITy)
  | popc (d a : LOp) (ty : ITy)
  | clz (d a : LOp) (ty : ITy)
  | brev (d a : LOp) (ty : ITy)
  | rand (d : LOp) (ty : ITy)
  | bfx (d a : Reg) (pos len1 : Fin 32) (sgn : Bool)
  | bfi (d a : Reg) (pos len1 : Fin 32)
  | sel (d a b : LOp) (p : Reg8) (wide : Bool)
  | cmp (pd : Reg8) (a b : LOp) (cond : Cond) (ty : ITy)
  -- FAR, FMA, FMAC, FCMP, FCVT, FSPEC (R259 to R266)
  | fadd (d a b : Reg) (rm : Rm4) (ty : FTy)
  | fsub (d a b : Reg) (rm : Rm4) (ty : FTy)
  | fmul (d a b : Reg) (rm : Rm4) (ty : FTy)
  | fmin (d a b : Reg) (ty : FTy)
  | fmax (d a b : Reg) (ty : FTy)
  | fma (d a b c : Reg)
  | fms (d a b c : Reg)
  | fnma (d a b c : Reg)
  | fnms (d a b c : Reg)
  | fmacFma (d a b : Reg) (rm : Rm4) (ty : FTy)
  | fmacFms (d a b : Reg) (rm : Rm4) (ty : FTy)
  | fmacFnma (d a b : Reg) (rm : Rm4) (ty : FTy)
  | fmacFnms (d a b : Reg) (rm : Rm4) (ty : FTy)
  | fcmp (pd : Reg8) (a b : Reg) (cond : Cond)
  | fcvt (d a : Reg) (dt st : CTy) (rm : Rm) (sat : Bool)
  | frcp (d a : Reg) (la : La)
  | frsq (d a : Reg) (la : La)
  | fsqrt (d a : Reg) (la : La)
  | fexp2 (d a : Reg) (la : La)
  | flog2 (d a : Reg) (la : La)
  | fsin (d a : Reg) (la : La)
  | fcos (d a : Reg) (la : La)
  | fclass (d a : Reg)
  -- XLANE (R267 to R272)
  | shfl (d a b : Reg) (mode : ShflMode)
  | vote (form : VoteForm) (pk : Reg8)
  | red (op : RedOp) (ty : RedTy) (d a : Reg)
  | scan (op : RedOp) (ty : RedTy) (ex : Bool) (d a : Reg)
  | matchLanes (d a : Reg) (wide : Bool)
  -- LDX, LDA, STX, STA, ATOM, MEM (R277 to R285)
  | ldx (d base idx : Reg) (sz : Sz) (imm : Fin 4) (la : La)
  | lda (d : Reg) (base : Base) (sz : Sz) (acq : Bool) (sc : Sc) (hint : Hint) (imm : Fin 4) (la : La)
  | stx (data base idx : Reg) (sz : Sz) (imm : Fin 4)
  | sta (data : Reg) (base : Base) (sz : Sz) (rel : Bool) (sc : Sc) (hint : Hint) (imm : Fin 4)
  | atom (d : Reg) (base : Base) (op : AtomOp) (wide : Bool) (ord : Ord) (sc : Sc) (la : La)
  | cas (d : Reg) (base : Base) (wide : Bool) (ord : Ord) (sc : Sc) (la : La)
  | pf (base : Base) (hint : Hint) (imm : BitVec 14)
  | stt (data : Reg) (base : Base) (sz : Sz) (imm : BitVec 8)
  | fence (ord : FenceOrd) (sc : Sc)
  -- BIND (R287 to R298)
  | ldb (k : Reg8) (base : Base) (imm : BitVec 9) (la : La)
  | bwait (mask : Byte) (t : Reg)
  | bsync
  | badd (k : Reg8) (s : Reg) (ord : Ord) (sc : Sc) (la : La)
  | bunb (k : Reg8)
  | bqry (d : Reg) (k : Reg8)
  | stBound (k : Reg8) (rel : Bool) (sc : Sc)
  -- BRANCH, CTRL, SEARCH (R299 to R320)
  | bra (off : BitVec 25)
  | brc (p : Reg8) (off : BitVec 21)
  | jmpi (a : Reg)
  | land
  | call (d : Reg) (off : BitVec 17)
  | ret (a : Reg)
  | exit
  | spawn (a : Reg) (off : BitVec 17)
  | yield
  | nop
  | try_ (d c m : Reg)
  | fail (pd : Reg8)
  | cut (a : Reg)
  | prune (base : Base) (imm : BitVec 16)
  | steal (pd : Reg8)
  | cpd (d : Reg)
  -- GALU to GBR (R324 to R327)
  | gAdd (d a b : Reg) (ty : ITy)
  | gSub (d a b : Reg) (ty : ITy)
  | gMul (d a b : Reg) (ty : ITy)
  | gMin (d a b : Reg) (ty : ITy)
  | gMax (d a b : Reg) (ty : ITy)
  | gShl (d a b : Reg) (ty : ITy)
  | gShr (d a b : Reg) (ty : ITy)
  | gSar (d a b : Reg) (ty : ITy)
  | gAddI (d a : Reg) (imm : Byte) (ty : ITy)
  | gSubI (d a : Reg) (imm : Byte) (ty : ITy)
  | gMulI (d a : Reg) (imm : Byte) (ty : ITy)
  | gMinI (d a : Reg) (imm : Byte) (ty : ITy)
  | gMaxI (d a : Reg) (imm : Byte) (ty : ITy)
  | gShlI (d a : Reg) (imm : Byte) (ty : ITy)
  | gShrI (d a : Reg) (imm : Byte) (ty : ITy)
  | gSarI (d a : Reg) (imm : Byte) (ty : ITy)
  | gaddi (d a : Reg) (imm : BitVec 14)
  | gPopc (d a : Reg) (ty : ITy)
  | gClz (d a : Reg) (ty : ITy)
  | gTri (d a b : Reg) (tt : Byte)
  | gCmp (qd : Reg8) (a b : Reg) (cond : Cond) (ty : ITy)
  | gSel (d a b : Reg) (q : Reg8)
  | gMovi (d : Reg) (imm : BitVec 19)
  | gMvh (d : Reg) (imm : BitVec 16)
  | gld (d base : Reg) (sz : Sz) (acq : Bool) (sc : Sc) (imm : BitVec 5) (la : La)
  | gst (data base : Reg) (sz : Sz) (rel : Bool) (sc : Sc) (imm : BitVec 9)
  | bru (q : Reg8) (off : BitVec 22)
  | loop (c : Reg) (off : BitVec 19)
  -- MMA8, MMA16, MCTL, TGEMM, TILE, TID (R337 to R361)
  | mmaE4m3 (acc : Reg4) (a b : Reg) (sh : Fin 16) (src : MmaSrc) (sp : Bool) (la : La)
  | mmaE5m2 (acc : Reg4) (a b : Reg) (sh : Fin 16) (src : MmaSrc) (sp : Bool) (la : La)
  | mmaBf16 (acc : Reg4) (a b : Reg) (sh : Fin 16) (src : MmaSrc) (sp : Bool) (la : La)
  | mmaF16 (acc : Reg4) (a b : Reg) (sh : Fin 16) (src : MmaSrc) (sp : Bool) (la : La)
  | mfence
  | mwait
  | acczero (acc : Reg4)
  | accmov (acc : Reg4) (d : Reg) (col : Reg)
  | tgemm (tc ta tb : Reg) (bar : Fin 16) (la : La)
  | tquant (td ts : Reg) (bar : Fin 16) (la : La)
  | tcopy (td ts : Reg) (rm : TileRm) (sat : Bool) (bar : Fin 16) (la : La)
  | tidget (s t : Reg) (w : Reg4)
  | tidset (t : Reg) (w : Reg4) (s : Reg)
  -- CPY, CPYG, CPYS, BAR, CR (R362 to R371)
  | cpy (dst src n : Reg) (bar : Fin 16) (la : La)
  | cpyg (dst src n : Reg) (bar : Fin 16) (la : La)
  | cpys (dst src n : Reg) (bar : Fin 16) (la : La)
  | barInit (team : Bool) (base s : Reg) (imm : BitVec 10)
  | barArrive (team : Bool) (base : Reg) (imm : BitVec 10)
  | barExpect (team : Bool) (base s : Reg) (imm : BitVec 10)
  | barWait (team : Bool) (base : Reg) (imm : BitVec 10)
  | barTest (team : Bool) (base : Reg) (qd : Reg8) (imm : BitVec 10)
  | barSync (team : Bool) (base : Reg) (imm : BitVec 10)
  | wbr (base len : Reg) (imm : BitVec 12)
  | invr (base len : Reg) (imm : BitVec 12)
  | invrD (base len : Reg) (imm : BitVec 12)
  | pfr (base len : Reg) (imm : BitVec 12)
  -- HV, HVM, AM, HVN (R372 to R388)
  | hvmovToH (hd : Reg8) (v s : Reg)
  | hvmovToV (ha : Reg8) (v s : Reg)
  | hvxor (hd ha hb : Reg8)
  | hvrot (hd ha : Reg8) (imm : BitVec 12)
  | hvrotReg (hd ha : Reg8) (s : Reg)
  | hvtri (hd ha hb : Reg8) (tt : Byte)
  | hvbnd (c : Reg4) (ha : Reg8) (w : Fin 16)
  | hvthr (hd : Reg8) (c : Reg4)
  | hvclr (c : Reg4)
  | hvtie (c : Reg4) (ha : Reg8)
  | hvpop (s : Reg) (ha : Reg8)
  | hvdist (s : Reg) (ha hb : Reg8)
  | hvseed (hd : Reg8) (s : Reg)
  | hvld (h : Reg8) (base : Reg) (imm : BitVec 12) (la : La)
  | hvst (h : Reg8) (base : Reg) (imm : BitVec 12)
  | amw (s : Reg) (h : Reg8)
  | amclr (lo n : Reg)
  | hvnear (si sd : Reg) (h : Reg8) (sl : Reg) (la : La)
  | hvneark (si : Reg) (k1 : Reg4) (h : Reg8) (sl : Reg) (la : La)
  -- SYS (R328 to R336)
  | nexttile (d : Reg)
  | condw (base v : Reg) (imm : BitVec 11)
  | perf (l : Reg)
  | trap (imm : BitVec 16)
  | srd (d : Reg) (v : Bool) (sr : SysReg)
  | swr (s : Reg) (v : Bool) (sr : SysReg)
  | bkpt (imm : BitVec 16)
  | uint (g : Reg)
  -- words that name no instruction; stores, links, clocks and register writes
  | registerWrite (agent : Agent) (pa : Nat) (value : W64)
  | illegalInstruction (why : Illegal)
  | storePublication (what : Publish)
  | hostMemInv (port pa : Nat) (wants : Meta)
  | linkLevelReplay (port flits : Nat)
  | frequencySettle (cluster : Nat)
  | clusterGate (cluster : Nat)
  | clusterWake (cluster : Nat)
  -- issue, waits and clocks
  | loadResultReturn (id : Nat)
  | pageWalkComplete (id : Nat)
  | pathAged (g : GId) (pc : W64)
  | yieldIntervalEnd (t : TId)
  | bwaitWake (t : TId)
  | bwaitTimeout (t : TId)
  | bindingOverflowSweep (core : Nat)
  | clockGate (core : Nat)
  | coreRestart (core : Nat)
  -- the Summerhouse
  | progressSwap (core : Nat)
  | priorityPreemption (launch : Nat)
  | contextReturn (core : Nat)
  | swapComplete (core : Nat)
  | bankSpill (core bank k : Nat)
  | bankReload (core bank k : Nat)
  | uintDelivery (t : TId)
  -- Pergola
  | submitGraph (queue : Nat)
  | submissionFence (queue : Nat)
  | submissionInvalidKind (queue : Nat)
  | launchNode (graph node : Nat)
  | launchComplete (launch : Nat)
  | tileCopyNode (graph node : Nat)
  | tileCopyNodeComplete (graph node : Nat)
  | conditionalNode (graph node : Nat)
  | whileNode (graph node : Nat)
  | eventWaitNode (graph node : Nat)
  | hostSignalNode (graph node : Nat)
  | regionAdmit (queue : Nat)
  | graphComplete (graph : Nat)
  | placeTeam (launch : Nat)
  | scheduleTableWrite (core count : Nat)
  | spawnBinTimeout (core bin : Nat)
  | spawnBinFire (core bin : Nat)
  | overflowQueueMove (core : Nat)
  -- engines
  | copyCommandAccept (g : GId)
  | copyChunkLand (core cmd chunk : Nat)
  | mmaPerform (g : GId) (quarter : Nat)
  | acczeroPerform (g : GId) (quarter : Nat)
  | mfenceComplete (g : GId) (quarter : Nat)
  | mwaitComplete (g : GId) (quarter : Nat)
  | tileSequencerStep (g : GId)
  | stealLandingComplete (t : TId)
  | glasshouseReply (id : Nat)
  -- outside memory
  | secondTierTimeout (id : Nat)
  | peerInboundRequest (peer pa : Nat) (op : PeerOp)
  | peerPortRecovery (port : Nat)
  | snpInv (line : Nat) (stored : List Host.Cell)
  | snpData (line : Nat)
  | snpCur (line : Nat)
  | hostMemRd (port pa : Nat) (wants : Meta)
  | hostMemWr (port pa : Nat) (bytes : List Byte)
  -- trap-queue answers and soft errors
  | resumeReplay (part handle : Nat)
  | resumeEndLaunch (part handle : Nat)
  | resumeHandToThread (part handle : Nat)
  | resumeActionIgnored (part handle : Nat)
  | tqconsWrite (part value : Nat)
  | softError (place : ErrPlace) (corrected : Bool)
  -- Preley calls
  | createSubmissionQueue (mailbox : Nat)
  | destroySubmissionQueue (mailbox : Nat)
  | invalidateTranslations (mailbox : Nat)
  | biasFlip (mailbox : Nat)
  | enablePartition (mailbox : Nat)
  | disablePartition (mailbox : Nat)
  | peerMap (mailbox : Nat)
  | attachDebugger (mailbox : Nat)
  | userInterruptCall (mailbox : Nat)
  | debuggerHalt (mailbox : Nat)
  | debuggerResume (mailbox : Nat)
  | debuggerFreeze (mailbox : Nat)
  | debuggerRead (mailbox : Nat)
  | debuggerWrite (mailbox : Nat)
  | debuggerDetach (mailbox : Nat)
  | mailboxUnknownCall (mailbox : Nat)
  -- SPDM
  | getVersion (port : Nat)
  | getCapabilities (port : Nat)
  | negotiateAlgorithms (port : Nat)
  | getDigests (port : Nat)
  | getCertificate (port slot : Nat)
  | challenge (port : Nat) (nonce : Nat)
  | getMeasurements (port : Nat) (index : Option Nat)
  | spdmUnsupportedRequest (port code : Nat)
  -- power, health and links
  | powerOnBoot (firmwareOk preleyOk : Bool)
  | telemetrySample (r : Readings)
  | powerFail (millivolts : Nat)
  | currentSlopeFill (die fromAmp toAmp : Nat)
  | linkHealthWindow (links : List LinkReading)
  | linkDown (port : Nat)
  | linkTrained (port : Nat)
  deriving DecidableEq, Repr

/-- The size in bytes of an access (R275). -/
def Sz.bytes : Sz → Nat
  | .b8 => 1
  | .b16 => 2
  | .b32 => 4
  | .b64 => 8

/-- Whether a type is 64 bits wide (R246). -/
def ITy.wide : ITy → Bool
  | .i32 => false
  | .n32 => false
  | .i64 => true
  | .n64 => true

/-- Whether a type compares and divides signed (R248). -/
def ITy.signed : ITy → Bool
  | .i32 => true
  | .n32 => false
  | .i64 => true
  | .n64 => false

/-- The width of a type in bits. -/
def ITy.bits (ty : ITy) : Nat := if ty.wide then 64 else 32

end Sys2Proof
end

