-- ==== Sys2Proof/Machine/Fields.lean ====
section
/-! DEFINITION. What R222 checks of a word beyond its layout: the codes that are not accepted
together (check 2) and the register fields (check 4, R223); and which constructors are instruction
words. They stand under Machine/ so that a test can mend them. -/

namespace Sys2Proof.Machine

/-- How an instruction reaches the machine: to the lane pipes per thread, to the uniform units per
arriving portion (R221), or as an operation or event of the part. -/
inductive Kind where
  | lane | group | event
  deriving DecidableEq, Repr

/-- The kind of an instruction, by the L-set and G-set opcode maps (R226, R230). -/
def kindOf : Instr → Kind
  | .add .. | .sub .. | .mul .. | .mulhi .. | .min .. | .max .. | .shl .. | .shr .. | .sar ..
  | .rot .. | .shlCount .. | .shrCount .. | .sarCount .. | .rotCount .. | .div .. | .rem ..
  | .mad .. | .tri .. | .addi .. | .movi .. | .mvh .. | .mov .. | .abs .. | .popc .. | .clz ..
  | .brev .. | .rand .. | .bfx .. | .bfi .. | .sel .. | .cmp .. | .fadd .. | .fsub .. | .fmul ..
  | .fmin .. | .fmax .. | .fma .. | .fms .. | .fnma .. | .fnms .. | .fmacFma .. | .fmacFms ..
  | .fmacFnma .. | .fmacFnms .. | .fcmp .. | .fcvt .. | .frcp .. | .frsq .. | .fsqrt ..
  | .fexp2 .. | .flog2 .. | .fsin .. | .fcos .. | .fclass .. | .shfl .. | .vote .. | .red ..
  | .scan .. | .matchLanes .. | .ldx .. | .lda .. | .stx .. | .sta .. | .atom .. | .cas ..
  | .pf .. | .stt .. | .fence .. | .ldb .. | .bwait .. | .bsync | .badd .. | .bunb .. | .bqry ..
  | .stBound .. | .bra .. | .brc .. | .jmpi .. | .land | .call .. | .ret .. | .exit | .spawn ..
  | .yield | .nop | .try_ .. | .fail .. | .cut .. | .prune .. | .steal .. | .cpd .. => .lane
  | .gAdd .. | .gSub .. | .gMul .. | .gMin .. | .gMax .. | .gShl .. | .gShr .. | .gSar ..
  | .gAddI .. | .gSubI .. | .gMulI .. | .gMinI .. | .gMaxI .. | .gShlI .. | .gShrI .. | .gSarI ..
  | .gaddi .. | .gPopc .. | .gClz .. | .gTri .. | .gCmp .. | .gSel .. | .gMovi .. | .gMvh ..
  | .gld .. | .gst .. | .bru .. | .loop .. | .mmaE4m3 .. | .mmaE5m2 .. | .mmaBf16 .. | .mmaF16 ..
  | .mfence | .mwait | .acczero .. | .accmov .. | .tgemm .. | .tquant .. | .tcopy .. | .tidget ..
  | .tidset .. | .cpy .. | .cpyg .. | .cpys .. | .barInit .. | .barArrive .. | .barExpect ..
  | .barWait .. | .barTest .. | .barSync .. | .wbr .. | .invr .. | .invrD .. | .pfr ..
  | .hvmovToH .. | .hvmovToV .. | .hvxor .. | .hvrot .. | .hvrotReg .. | .hvtri .. | .hvbnd ..
  | .hvthr .. | .hvclr .. | .hvtie .. | .hvpop .. | .hvdist .. | .hvseed .. | .hvld .. | .hvst ..
  | .amw .. | .amclr .. | .hvnear .. | .hvneark .. | .nexttile .. | .condw .. | .perf .. | .trap ..
  | .srd .. | .swr .. | .bkpt .. | .uint .. => .group
  | .loadResultReturn .. | .pageWalkComplete .. | .pathAged .. | .yieldIntervalEnd ..
  | .bwaitWake .. | .bwaitTimeout .. | .bindingOverflowSweep .. | .clockGate .. | .coreRestart ..
  | .progressSwap .. | .priorityPreemption .. | .contextReturn .. | .swapComplete ..
  | .bankSpill .. | .bankReload .. | .uintDelivery .. | .submitGraph .. | .submissionFence ..
  | .submissionInvalidKind .. | .launchNode .. | .launchComplete .. | .tileCopyNode ..
  | .tileCopyNodeComplete .. | .conditionalNode .. | .whileNode .. | .eventWaitNode ..
  | .hostSignalNode .. | .regionAdmit .. | .graphComplete .. | .placeTeam ..
  | .scheduleTableWrite .. | .spawnBinTimeout .. | .spawnBinFire .. | .overflowQueueMove ..
  | .copyCommandAccept .. | .copyChunkLand .. | .mmaPerform .. | .acczeroPerform ..
  | .mfenceComplete .. | .mwaitComplete .. | .tileSequencerStep .. | .stealLandingComplete ..
  | .glasshouseReply .. | .secondTierTimeout .. | .peerInboundRequest .. | .peerPortRecovery ..
  | .snpInv .. | .snpData .. | .snpCur .. | .hostMemRd .. | .hostMemWr .. | .resumeReplay ..
  | .resumeEndLaunch .. | .resumeHandToThread .. | .resumeActionIgnored .. | .tqconsWrite ..
  | .softError .. | .createSubmissionQueue .. | .destroySubmissionQueue ..
  | .invalidateTranslations .. | .biasFlip .. | .enablePartition .. | .disablePartition ..
  | .peerMap .. | .attachDebugger .. | .userInterruptCall .. | .debuggerHalt ..
  | .debuggerResume .. | .debuggerFreeze .. | .debuggerRead .. | .debuggerWrite ..
  | .debuggerDetach .. | .mailboxUnknownCall .. | .getVersion .. | .getCapabilities ..
  | .negotiateAlgorithms .. | .getDigests .. | .getCertificate .. | .challenge ..
  | .getMeasurements .. | .spdmUnsupportedRequest .. | .powerOnBoot .. | .telemetrySample ..
  | .powerFail .. | .frequencySettle .. | .currentSlopeFill .. | .linkHealthWindow ..
  | .linkDown .. | .linkTrained .. | .clusterGate .. | .clusterWake .. | .registerWrite ..
  | .illegalInstruction .. | .storePublication .. | .hostMemInv .. | .linkLevelReplay .. => .event

/-- Whether an instruction is an instruction word (R221). -/
def isWord (i : Instr) : Bool := !(kindOf i == .event)

/-! ## Check 2: codes not accepted together -/

/-- The integer conversion codes 0x09 to 0x10 (R227). -/
def CTy.isInt : CTy → Bool
  | .i8 | .i16 | .i32 | .i64 | .n8 | .n16 | .n32 | .n64 => true
  | _ => false

/-- The packed conversion codes 0x11 and 0x12 (R227). -/
def CTy.isPacked : CTy → Bool
  | .bf16x2 | .f16x2 => true
  | _ => false

/-- A 64-bit conversion code, which names an even register (R227). -/
def CTy.isWide : CTy → Bool
  | .i64 | .n64 => true
  | _ => false

/-- The pairs of codes, the roundings and the saturations that `fcvt` accepts (R227, R94). -/
def fcvtAccepted (dt st : CTy) (rm : Rm) (sat : Bool) : Bool :=
  dt != st
    && !(CTy.isInt dt && CTy.isInt st)
    && (CTy.isPacked dt == CTy.isPacked st)
    && !(rm == .rs && (CTy.isInt dt || dt == .e8m0))
    && !(sat && CTy.isInt dt)

/-- `.f32` is accepted with `.add`, `.min` and `.max` only (R228). -/
def redAccepted (op : RedOp) (ty : RedTy) : Bool :=
  !(ty == .f32 && (op == .and || op == .or || op == .xor))

/-- With SP 1 both operands are descriptors and SH is at most 14 (R230, R344). -/
def mmaAccepted (sh : Fin 16) (src : MmaSrc) (sp : Bool) : Bool :=
  !sp || (src == .dd && sh.val != 15)

/-- Whether a system register is thread-scoped (R232). -/
def SysReg.isThread : SysReg → Bool
  | .trappc | .trapcause | .rngstate | .framebase | .cpbase | .trailbase => true
  | _ => false

/-- Check 2 of R222 for the codes that a word holds together. A code marked UNDEF by itself has no
constructor argument, so `Decode` refuses it before this. -/
def codesOk : Instr → Bool
  | .abs _ _ ty => ty.signed
  | .fcvt _ _ dt st rm sat => fcvtAccepted dt st rm sat
  | .red op ty _ _ => redAccepted op ty
  | .scan op ty _ _ _ => redAccepted op ty
  | .mmaE4m3 _ _ _ sh src sp _ => mmaAccepted sh src sp
  | .mmaE5m2 _ _ _ sh src sp _ => mmaAccepted sh src sp
  | .mmaBf16 _ _ _ sh src sp _ => mmaAccepted sh src sp
  | .mmaF16 _ _ _ sh src sp _ => mmaAccepted sh src sp
  | .hvbnd _ _ w => w.val != 0
  | .hvneark si k1 _ _ _ => decide (si.val + 2 * (k1.val + 1) ≤ 64)
  | .srd _ v sr => !v || SysReg.isThread sr
  | .swr _ v sr => !v || SysReg.isThread sr
  | _ => true

/-! ## Check 4: register fields -/

/-- The cause of a word whose register field holds `r` but must be a multiple of `n` (R223). -/
def alignCheck (n : Nat) (r : Reg) : Option Illegal :=
  if r.val % n = 0 then none else some .rsvd

/-- An operand with a class bit, of a 64-bit type or not (R223). -/
def lopCheck (wide : Bool) : LOp → Option Illegal
  | .v r => if wide then alignCheck 2 r else none
  | .b _ => if wide then some .undef else none

/-- A lane register field of a 64-bit or 32-bit operand (R223). -/
def pairCheck (wide : Bool) (r : Reg) : Option Illegal :=
  if wide then alignCheck 2 r else none

/-- The register fields of INT and SHIFT by register (R223, R249). -/
def intCheck (d a b : LOp) (wide : Bool) : Option Illegal :=
  (lopCheck wide d).or ((lopCheck wide a).or (lopCheck wide b))

/-- The register fields of SHIFT by register: the count is a 32-bit operand for every type (R249). -/
def shiftCheck (d a b : LOp) (wide : Bool) : Option Illegal :=
  (lopCheck wide d).or ((lopCheck wide a).or (lopCheck false b))

/-- A matrix operand: a multiple of 4 in lane registers (R342), at most 62 as a descriptor (R230). -/
def mmaOperand (desc : Bool) (r : Reg) : Option Illegal :=
  if desc then (if r.val ≤ 62 then none else some .undef) else alignCheck 4 r

/-- The operands of an `mma` by its SRC code (R230). -/
def mmaCheck (a b : Reg) (src : MmaSrc) : Option Illegal :=
  (mmaOperand (src == .dd || src == .dv) a).or (mmaOperand (src == .vd || src == .dd) b)

/-- Check 4 of R222, so far as it needs no state: the first register field, in the order of the
operands, that breaks R223 and the cause R223 gives. -/
def fieldCheck : Instr → Option Illegal
  | .add d a b ty | .sub d a b ty | .mul d a b ty | .mulhi d a b ty | .min d a b ty
  | .max d a b ty => intCheck d a b ty.wide
  | .shl d a b ty | .shr d a b ty | .sar d a b ty | .rot d a b ty => shiftCheck d a b ty.wide
  | .shlCount d a _ ty | .shrCount d a _ ty | .sarCount d a _ ty | .rotCount d a _ ty =>
    (lopCheck ty.wide d).or (lopCheck ty.wide a)
  | .div d a b ty _ | .rem d a b ty _ =>
    (pairCheck ty.wide d).or ((pairCheck ty.wide a).or (pairCheck ty.wide b))
  | .mad d _ _ c ty => (pairCheck (ty != .b32) d).or (pairCheck (ty != .b32) c)
  | .mov d a ty | .abs d a ty | .brev d a ty => (lopCheck ty.wide d).or (lopCheck ty.wide a)
  | .popc d a ty | .clz d a ty => (lopCheck false d).or (lopCheck ty.wide a)
  | .rand d ty => lopCheck ty.wide d
  | .sel d a b _ wide => intCheck d a b wide
  | .cmp _ a b _ ty => (lopCheck ty.wide a).or (lopCheck ty.wide b)
  | .fcvt d a dt st _ _ => (pairCheck (CTy.isWide dt) d).or (pairCheck (CTy.isWide st) a)
  | .matchLanes _ a wide => pairCheck wide a
  | .ldx d _ _ sz _ _ => pairCheck (sz == .b64) d
  | .lda d _ sz _ _ _ _ _ => pairCheck (sz == .b64) d
  | .stx data _ _ sz _ => pairCheck (sz == .b64) data
  | .sta data _ sz _ _ _ _ => pairCheck (sz == .b64) data
  | .stt data _ sz _ => pairCheck (sz == .b64) data
  | .atom d _ _ wide _ _ _ => pairCheck wide d
  | .cas d _ wide _ _ _ => alignCheck (if wide then 4 else 2) d
  | .jmpi a => alignCheck 2 a
  | .ret a => alignCheck 2 a
  | .spawn a _ => alignCheck 2 a
  | .call d _ => alignCheck 2 d
  | .mmaE4m3 _ a b _ src _ _ | .mmaE5m2 _ a b _ src _ _ | .mmaBf16 _ a b _ src _ _
  | .mmaF16 _ a b _ src _ _ => mmaCheck a b src
  | .cpyg _ _ n _ _ | .cpys _ _ n _ _ => alignCheck 2 n
  | .srd d v _ => pairCheck v d
  | .swr s v _ => pairCheck v s
  | _ => none

/-- A word of an entry without its reserved bits, which read as zero (R5, R114). -/
def tidMask (w : Nat) (x : W64) : W64 := if w = 3 then x &&& 0x3FFFFFFFFFFFFFFF else x

end Sys2Proof.Machine
end

