-- ==== Sys2Proof/WellFormed.lean ====
section
/-! DEFINITION. Which terms of `Instr` an instruction word can stand for: the constructor is a word,
its codes are accepted together and its register fields keep R223. -/

namespace Sys2Proof

/-- An instruction that an encoder can write and the decoder gives back. -/
def Instr.wellFormed (i : Instr) : Bool :=
  Machine.isWord i && Machine.codesOk i && (Machine.fieldCheck i).isNone

/-- `Instr.wellFormed` as a proposition. -/
abbrev Instr.WellFormed (i : Instr) : Prop := i.wellFormed = true

end Sys2Proof
end

