-- ==== Sys2Proof/Decode.lean ====
section
/-! DEFINITION. Instruction words (R221 to R233): what each field of a word holds, the order of the
checks of R222, and the encoder, both written from the opcode maps R226 to R232. Words and fields
are natural numbers; a field is cut out by division and remainder.

A word is read in three stages. `readWord` follows the opcode maps and answers nothing where the
major or a code is marked UNDEF. A reserved bit of the word is then a bit that the encoding of what
was read does not have. The register fields come last. -/

namespace Sys2Proof

/-! ## Fields -/

/-- Bits `lo + n - 1 : lo` of a word. -/
def fld (w lo n : Nat) : Nat := w / 2 ^ lo % 2 ^ n
/-- A 6-bit register field. -/
def regAt (w lo : Nat) : Reg := Fin.ofNat 64 (w / 2 ^ lo)
/-- A 3-bit register field. -/
def reg8At (w lo : Nat) : Reg8 := Fin.ofNat 8 (w / 2 ^ lo)
/-- A 2-bit field. -/
def reg4At (w lo : Nat) : Reg4 := Fin.ofNat 4 (w / 2 ^ lo)
/-- A 4-bit field: lookahead, short register, weight. -/
def nibAt (w lo : Nat) : Fin 16 := Fin.ofNat 16 (w / 2 ^ lo)
/-- A 5-bit position. -/
def fiveAt (w lo : Nat) : Fin 32 := Fin.ofNat 32 (w / 2 ^ lo)
/-- An immediate of `n` bits. -/
def immAt (n w lo : Nat) : BitVec n := BitVec.ofNat n (w / 2 ^ lo)
/-- One bit. -/
def bitAt (w lo : Nat) : Bool := w / 2 ^ lo % 2 == 1

/-- An operand with a class bit at `c`: bK by bits 2:0 where the bit is 1 (R223). -/
def lopAt (w lo c : Nat) : LOp := if bitAt w c then .b (reg8At w lo) else .v (regAt w lo)
/-- A base register with its BS bit at `c` (R226). -/
def baseAt (w lo c : Nat) : Base := if bitAt w c then .s (regAt w lo) else .v (regAt w lo)

/-! ## Shared codes (R224) -/

def ityOf : Nat → ITy
  | 0 => .i32
  | 1 => .n32
  | 2 => .i64
  | _ => .n64
def szOf : Nat → Sz
  | 0 => .b8
  | 1 => .b16
  | 2 => .b32
  | _ => .b64
def ftyOf : Nat → Option FTy
  | 0 => some .f32
  | 1 => some .bf16x2
  | 2 => some .f16x2
  | _ => none
def rm4Of : Nat → Rm4
  | 0 => .rn
  | 1 => .rz
  | 2 => .ru
  | _ => .rd
def rmOf : Nat → Option Rm
  | 0 => some .rn
  | 1 => some .rz
  | 2 => some .ru
  | 3 => some .rd
  | 4 => some .rs
  | _ => none
def ordOf : Nat → Ord
  | 0 => .rlx
  | 1 => .acq
  | 2 => .rel
  | _ => .ar
def scOf : Nat → Sc
  | 0 => .grp
  | 1 => .team
  | 2 => .dev
  | _ => .sys
def hintOf : Nat → Option Hint
  | 0 => some .normal
  | 1 => some .ef
  | 2 => some .el
  | _ => none
def condOf : Nat → Option Cond
  | 0 => some .eq
  | 1 => some .ne
  | 2 => some .lt
  | 3 => some .le
  | 4 => some .gt
  | 5 => some .ge
  | _ => none
/-- TY of `mad` (R226, MAJ 0x04). -/
def madTyOf : Nat → Option MadTy
  | 0 => some .b32
  | 1 => some .i64
  | 2 => some .n64
  | _ => none
/-- DT and ST of FCVT (R227). -/
def ctyOf : Nat → Option CTy
  | 0x00 => some .f32
  | 0x01 => some .f16
  | 0x02 => some .bf16
  | 0x03 => some .e4m3
  | 0x04 => some .e5m2
  | 0x05 => some .e3m2
  | 0x06 => some .e2m3
  | 0x07 => some .e2m1
  | 0x08 => some .e8m0
  | 0x09 => some .i8
  | 0x0A => some .i16
  | 0x0B => some .i32
  | 0x0C => some .i64
  | 0x0D => some .n8
  | 0x0E => some .n16
  | 0x0F => some .n32
  | 0x10 => some .n64
  | 0x11 => some .bf16x2
  | 0x12 => some .f16x2
  | _ => none
/-- SUB 1:0 of `shfl` (R228). -/
def shflOf : Nat → ShflMode
  | 0 => .pick
  | 1 => .rot
  | 2 => .shift
  | _ => .flip
/-- SUB 4:2 of `red` and `scan` (R228). -/
def redOpOf : Nat → Option RedOp
  | 0 => some .add
  | 1 => some .min
  | 2 => some .max
  | 3 => some .and
  | 4 => some .or
  | 5 => some .xor
  | _ => none
/-- SUB 1:0 of `red` and `scan` (R228). -/
def redTyOf : Nat → Option RedTy
  | 0 => some .n32
  | 1 => some .i32
  | 2 => some .f32
  | _ => none
/-- OP and S of `atom` (R229); S counts with min and max only. -/
def atomOpOf (s : Bool) : Nat → AtomOp
  | 0 => .add
  | 1 => .exch
  | 2 => .and
  | 3 => .or
  | 4 => .xor
  | 5 => .min s
  | _ => .max s
/-- ORD of `fence` (R229). -/
def fenceOrdOf : Nat → Option FenceOrd
  | 1 => some .acq
  | 2 => some .rel
  | 3 => some .ar
  | _ => none
/-- SRC of MMA8 and MMA16 (R230). -/
def srcOf : Nat → MmaSrc
  | 0 => .vv
  | 1 => .vd
  | 2 => .dd
  | _ => .dv
/-- RM of `tcopy` (R230, R359): the conversion codes less `.rs`. -/
def tileRmOf : Nat → Option TileRm
  | 0 => some .rn
  | 1 => some .rz
  | 2 => some .ru
  | 3 => some .rd
  | _ => none
/-- The system-register numbers (R232). -/
def sysRegOf : Nat → Option SysReg
  | 0x000 => some .fpstat
  | 0x001 => some .nbv
  | 0x002 => some .perflvl
  | 0x003 => some .seqstep
  | 0x004 => some .trapvec
  | 0x010 => some .trappc
  | 0x011 => some .trapcause
  | 0x012 => some .rngstate
  | 0x013 => some .framebase
  | 0x014 => some .cpbase
  | 0x015 => some .trailbase
  | 0x020 => some .partid
  | n => if n / 16 = 3 then some (.pmc (Fin.ofNat 16 n)) else none

/-! ## The L-set opcode map (R226 to R229) -/

/-- D 25:20, A 19:14 and B 13:8 with the class bits CD 2, CA 1 and CB 0, and TY 4:3. -/
def readInt (w : Nat) : Option Instr :=
  let d := lopAt w 20 2; let a := lopAt w 14 1; let b := lopAt w 8 0
  let ty := ityOf (fld w 3 2)
  match fld w 5 3 with
  | 0 => some (.add d a b ty)
  | 1 => some (.sub d a b ty)
  | 2 => some (.mul d a b ty)
  | 3 => some (.mulhi d a b ty)
  | 4 => some (.min d a b ty)
  | 5 => some (.max d a b ty)
  | _ => none

def readShift (w : Nat) : Option Instr :=
  let d := lopAt w 20 2; let a := lopAt w 14 1; let b := lopAt w 8 0; let n := regAt w 8
  let ty := ityOf (fld w 3 2)
  match fld w 5 3 with
  | 0 => some (.shl d a b ty)
  | 1 => some (.shr d a b ty)
  | 2 => some (.sar d a b ty)
  | 3 => some (.rot d a b ty)
  | 4 => some (.shlCount d a n ty)
  | 5 => some (.shrCount d a n ty)
  | 6 => some (.sarCount d a n ty)
  | _ => some (.rotCount d a n ty)

def readDiv (w : Nat) : Option Instr :=
  if bitAt w 7 then some (.rem (regAt w 20) (regAt w 14) (regAt w 8) (ityOf (fld w 5 2)) (nibAt w 0))
  else some (.div (regAt w 20) (regAt w 14) (regAt w 8) (ityOf (fld w 5 2)) (nibAt w 0))

def readMad (w : Nat) : Option Instr :=
  (madTyOf (fld w 0 2)).map fun ty => .mad (regAt w 20) (regAt w 14) (regAt w 8) (regAt w 2) ty

def readMovi (w : Nat) : Option Instr :=
  if bitAt w 19 then some (.mvh (regAt w 20) (immAt 16 w 0))
  else some (.movi (regAt w 20) (immAt 19 w 0))

def readUni (w : Nat) : Option Instr :=
  let d := lopAt w 20 1; let a := lopAt w 14 0; let ty := ityOf (fld w 9 2)
  match fld w 11 3 with
  | 0 => some (.mov d a ty)
  | 1 => some (.abs d a ty)
  | 2 => some (.popc d a ty)
  | 3 => some (.clz d a ty)
  | 4 => some (.brev d a ty)
  | 5 => some (.rand d ty)
  | _ => none

def readBf (w : Nat) : Option Instr :=
  if bitAt w 3 then some (.bfi (regAt w 20) (regAt w 14) (fiveAt w 9) (fiveAt w 4))
  else some (.bfx (regAt w 20) (regAt w 14) (fiveAt w 9) (fiveAt w 4) (bitAt w 2))

def readCmp (w : Nat) : Option Instr :=
  (condOf (fld w 8 3)).map fun c =>
    .cmp (reg8At w 23) (lopAt w 17 5) (lopAt w 11 4) c (ityOf (fld w 6 2))

def readFar (w : Nat) : Option Instr :=
  let d := regAt w 20; let a := regAt w 14; let b := regAt w 8; let rm := rm4Of (fld w 3 2)
  match ftyOf (fld w 1 2) with
  | none => none
  | some ty =>
    match fld w 5 3 with
    | 0 => some (.fadd d a b rm ty)
    | 1 => some (.fsub d a b rm ty)
    | 2 => some (.fmul d a b rm ty)
    | 3 => some (.fmin d a b ty)
    | 4 => some (.fmax d a b ty)
    | _ => none

def readFma (w : Nat) : Option Instr :=
  let d := regAt w 20; let a := regAt w 14; let b := regAt w 8; let c := regAt w 2
  match fld w 0 2 with
  | 0 => some (.fma d a b c)
  | 1 => some (.fms d a b c)
  | 2 => some (.fnma d a b c)
  | _ => some (.fnms d a b c)

def readFmac (w : Nat) : Option Instr :=
  let d := regAt w 20; let a := regAt w 14; let b := regAt w 8; let rm := rm4Of (fld w 4 2)
  (ftyOf (fld w 2 2)).map fun ty =>
    match fld w 6 2 with
    | 0 => .fmacFma d a b rm ty
    | 1 => .fmacFms d a b rm ty
    | 2 => .fmacFnma d a b rm ty
    | _ => .fmacFnms d a b rm ty

def readFcmp (w : Nat) : Option Instr :=
  (condOf (fld w 8 3)).map fun c => .fcmp (reg8At w 23) (regAt w 17) (regAt w 11) c

def readFcvt (w : Nat) : Option Instr :=
  match ctyOf (fld w 9 5), ctyOf (fld w 4 5), rmOf (fld w 1 3) with
  | some dt, some st, some rm => some (.fcvt (regAt w 20) (regAt w 14) dt st rm (bitAt w 0))
  | _, _, _ => none

def readFspec (w : Nat) : Option Instr :=
  let d := regAt w 20; let a := regAt w 14; let la := nibAt w 0
  match fld w 11 3 with
  | 0 => some (.frcp d a la)
  | 1 => some (.frsq d a la)
  | 2 => some (.fsqrt d a la)
  | 3 => some (.fexp2 d a la)
  | 4 => some (.flog2 d a la)
  | 5 => some (.fsin d a la)
  | 6 => some (.fcos d a la)
  | _ => some (.fclass d a)

/-- The vote forms (R228). -/
def readVote (w : Nat) : VoteForm :=
  match fld w 0 2 with
  | 0 => .mask (regAt w 17)
  | 1 => .count (regAt w 17)
  | 2 => .quorum (reg8At w 17) (regAt w 5)
  | _ => .unan (reg8At w 17)

def readXlane (w : Nat) : Option Instr :=
  let d := regAt w 17; let a := regAt w 11
  match fld w 23 3 with
  | 0 => some (.shfl d a (regAt w 5) (shflOf (fld w 0 2)))
  | 1 => some (.vote (readVote w) (reg8At w 11))
  | 2 =>
    match redOpOf (fld w 2 3), redTyOf (fld w 0 2) with
    | some op, some ty => some (.red op ty d a)
    | _, _ => none
  | 3 =>
    match redOpOf (fld w 2 3), redTyOf (fld w 0 2) with
    | some op, some ty => some (.scan op ty (bitAt w 5) d a)
    | _, _ => none
  | 4 => if bitAt w 1 then none else some (.matchLanes d a (bitAt w 0))
  | _ => none

def readLdx (w : Nat) : Option Instr :=
  some (.ldx (regAt w 20) (regAt w 14) (regAt w 8) (szOf (fld w 6 2)) (reg4At w 4) (nibAt w 0))

def readLda (w : Nat) : Option Instr :=
  (hintOf (fld w 6 2)).map fun h =>
    .lda (regAt w 20) (baseAt w 14 13) (szOf (fld w 11 2)) (bitAt w 10) (scOf (fld w 8 2)) h
      (reg4At w 4) (nibAt w 0)

def readStx (w : Nat) : Option Instr :=
  some (.stx (regAt w 20) (regAt w 14) (regAt w 8) (szOf (fld w 6 2)) (reg4At w 4))

def readSta (w : Nat) : Option Instr :=
  (hintOf (fld w 6 2)).map fun h =>
    .sta (regAt w 20) (baseAt w 14 13) (szOf (fld w 11 2)) (bitAt w 10) (scOf (fld w 8 2)) h
      (reg4At w 4)

def readAtom (w : Nat) : Option Instr :=
  let d := regAt w 20; let base := baseAt w 14 13; let wide := bitAt w 9
  let ord := ordOf (fld w 7 2); let sc := scOf (fld w 5 2); let la := nibAt w 0
  match fld w 10 3 with
  | 7 => some (.cas d base wide ord sc la)
  | n => some (.atom d base (atomOpOf (bitAt w 4) n) wide ord sc la)

def readMem (w : Nat) : Option Instr :=
  match fld w 23 3 with
  | 0 => (hintOf (fld w 14 2)).map fun h => .pf (baseAt w 17 16) h (immAt 14 w 0)
  | 1 => some (.stt (regAt w 17) (baseAt w 11 10) (szOf (fld w 8 2)) (immAt 8 w 0))
  | 2 => (fenceOrdOf (fld w 21 2)).map fun o => .fence o (scOf (fld w 19 2))
  | _ => none

def readBind (w : Nat) : Option Instr :=
  let k := reg8At w 20
  match fld w 23 3 with
  | 0 => some (.ldb k (baseAt w 14 13) (immAt 9 w 4) (nibAt w 0))
  | 1 => some (.bwait (immAt 8 w 6) (regAt w 14))
  | 2 => some .bsync
  | 3 => some (.badd k (regAt w 14) (ordOf (fld w 12 2)) (scOf (fld w 10 2)) (nibAt w 0))
  | 4 => some (.bunb k)
  | 5 => some (.bqry (regAt w 14) k)
  | 6 => some (.stBound k (bitAt w 12) (scOf (fld w 10 2)))
  | _ => none

def readBranch (w : Nat) : Option Instr :=
  if bitAt w 25 then some (.brc (reg8At w 22) (immAt 21 w 0)) else some (.bra (immAt 25 w 0))

def readCtrl (w : Nat) : Option Instr :=
  let r := regAt w 17; let off := immAt 17 w 0
  match fld w 23 3 with
  | 0 => some (.jmpi r)
  | 1 => some .land
  | 2 => some (.call r off)
  | 3 => some (.ret r)
  | 4 => some .exit
  | 5 => some (.spawn r off)
  | 6 => some .yield
  | _ => some .nop

def readSearch (w : Nat) : Option Instr :=
  match fld w 23 3 with
  | 0 => some (.try_ (regAt w 17) (regAt w 11) (regAt w 5))
  | 1 => some (.fail (reg8At w 20))
  | 2 => some (.cut (regAt w 17))
  | 3 => some (.prune (baseAt w 17 16) (immAt 16 w 0))
  | 4 => some (.steal (reg8At w 20))
  | 5 => some (.cpd (regAt w 17))
  | _ => none

/-- The L-set majors (R226). -/
def readLset (w : Nat) : Option Instr :=
  let d := regAt w 20; let a := regAt w 14; let b := regAt w 8
  match fld w 26 5 with
  | 0x01 => readInt w
  | 0x02 => readShift w
  | 0x03 => readDiv w
  | 0x04 => readMad w
  | 0x05 => some (.tri d a b (immAt 8 w 0))
  | 0x06 => some (.addi d a (immAt 14 w 0))
  | 0x07 => readMovi w
  | 0x08 => readUni w
  | 0x09 => readBf w
  | 0x0A => some (.sel (lopAt w 20 3) (lopAt w 14 2) (lopAt w 8 1) (reg8At w 5) (bitAt w 4))
  | 0x0B => readCmp w
  | 0x0C => readFar w
  | 0x0D => readFma w
  | 0x0E => readFmac w
  | 0x0F => readFcmp w
  | 0x10 => readFcvt w
  | 0x11 => readFspec w
  | 0x12 => readXlane w
  | 0x13 => readLdx w
  | 0x14 => readLda w
  | 0x15 => readStx w
  | 0x16 => readSta w
  | 0x17 => readAtom w
  | 0x18 => readMem w
  | 0x19 => readBind w
  | 0x1A => readBranch w
  | 0x1B => readCtrl w
  | 0x1C => readSearch w
  | _ => none

/-! ## The G-set opcode map (R230 to R232) -/

def readGalu (w : Nat) : Option Instr :=
  let d := regAt w 20; let a := regAt w 14; let b := regAt w 2; let m := immAt 8 w 0
  let ty := ityOf (fld w 8 2)
  if bitAt w 13 then
    match fld w 10 3 with
    | 0 => some (.gAddI d a m ty)
    | 1 => some (.gSubI d a m ty)
    | 2 => some (.gMulI d a m ty)
    | 3 => some (.gMinI d a m ty)
    | 4 => some (.gMaxI d a m ty)
    | 5 => some (.gShlI d a m ty)
    | 6 => some (.gShrI d a m ty)
    | _ => some (.gSarI d a m ty)
  else
    match fld w 10 3 with
    | 0 => some (.gAdd d a b ty)
    | 1 => some (.gSub d a b ty)
    | 2 => some (.gMul d a b ty)
    | 3 => some (.gMin d a b ty)
    | 4 => some (.gMax d a b ty)
    | 5 => some (.gShl d a b ty)
    | 6 => some (.gShr d a b ty)
    | _ => some (.gSar d a b ty)

def readGun (w : Nat) : Option Instr :=
  if bitAt w 13 then some (.gClz (regAt w 20) (regAt w 14) (ityOf (fld w 11 2)))
  else some (.gPopc (regAt w 20) (regAt w 14) (ityOf (fld w 11 2)))

def readGcmp (w : Nat) : Option Instr :=
  (condOf (fld w 8 3)).map fun c =>
    .gCmp (reg8At w 23) (regAt w 17) (regAt w 11) c (ityOf (fld w 6 2))

def readGmov (w : Nat) : Option Instr :=
  if bitAt w 19 then some (.gMvh (regAt w 20) (immAt 16 w 0))
  else some (.gMovi (regAt w 20) (immAt 19 w 0))

def readGld (w : Nat) : Option Instr :=
  some (.gld (regAt w 20) (regAt w 14) (szOf (fld w 12 2)) (bitAt w 11) (scOf (fld w 9 2))
    (immAt 5 w 4) (nibAt w 0))

def readGst (w : Nat) : Option Instr :=
  some (.gst (regAt w 20) (regAt w 14) (szOf (fld w 12 2)) (bitAt w 11) (scOf (fld w 9 2))
    (immAt 9 w 0))

def readGbr (w : Nat) : Option Instr :=
  if bitAt w 25 then some (.loop (regAt w 19) (immAt 19 w 0))
  else some (.bru (reg8At w 22) (immAt 22 w 0))

/-- MMA8 and MMA16: ACC 25:24, A 23:18, B 17:12, SH 11:8, SRC 7:6, SP 5, FMT 4, LA 3:0. -/
def readMma (eight : Bool) (w : Nat) : Option Instr :=
  let acc := reg4At w 24; let a := regAt w 18; let b := regAt w 12; let sh := nibAt w 8
  let src := srcOf (fld w 6 2); let sp := bitAt w 5; let la := nibAt w 0
  if eight then
    if bitAt w 4 then some (.mmaE5m2 acc a b sh src sp la) else some (.mmaE4m3 acc a b sh src sp la)
  else
    if bitAt w 4 then some (.mmaF16 acc a b sh src sp la) else some (.mmaBf16 acc a b sh src sp la)

def readMctl (w : Nat) : Option Instr :=
  match fld w 24 2 with
  | 0 => some .mfence
  | 1 => some .mwait
  | 2 => some (.acczero (reg4At w 22))
  | _ => some (.accmov (reg4At w 22) (regAt w 16) (regAt w 10))

def readTile (w : Nat) : Option Instr :=
  if bitAt w 13 then
    (tileRmOf (fld w 10 3)).map fun rm =>
      .tcopy (regAt w 20) (regAt w 14) rm (bitAt w 9) (nibAt w 4) (nibAt w 0)
  else some (.tquant (regAt w 20) (regAt w 14) (nibAt w 4) (nibAt w 0))

def readTid (w : Nat) : Option Instr :=
  if bitAt w 25 then some (.tidset (regAt w 19) (reg4At w 11) (regAt w 13))
  else some (.tidget (regAt w 13) (regAt w 19) (reg4At w 11))

def readBar (w : Nat) : Option Instr :=
  let tm := bitAt w 22; let base := regAt w 16; let s := regAt w 10; let m := immAt 10 w 0
  match fld w 23 3 with
  | 0 => some (.barInit tm base s m)
  | 1 => some (.barArrive tm base m)
  | 2 => some (.barExpect tm base s m)
  | 3 => some (.barWait tm base m)
  | 4 => some (.barTest tm base (reg8At w 10) m)
  | 5 => some (.barSync tm base m)
  | _ => none

def readCr (w : Nat) : Option Instr :=
  let base := regAt w 18; let len := regAt w 12; let m := immAt 12 w 0
  match fld w 24 2 with
  | 0 => some (.wbr base len m)
  | 1 => some (.invr base len m)
  | 2 => some (.invrD base len m)
  | _ => some (.pfr base len m)

/-- The minors of HV (R231): HD 21:19, HA 18:16, HB 15:13. -/
def readHv (w : Nat) : Option Instr :=
  let hd := reg8At w 19; let ha := reg8At w 16; let hb := reg8At w 13; let c := reg4At w 11
  let s := regAt w 7
  match fld w 22 4 with
  | 0x0 => some (.hvmovToH hd s (regAt w 1))
  | 0x1 => some (.hvmovToV ha s (regAt w 1))
  | 0x2 => some (.hvxor hd ha hb)
  | 0x3 => if bitAt w 12 then some (.hvrotReg hd ha (regAt w 6)) else some (.hvrot hd ha (immAt 12 w 0))
  | 0x4 => some (.hvtri hd ha hb (immAt 8 w 5))
  | 0x5 => some (.hvbnd c ha (nibAt w 7))
  | 0x6 => some (.hvthr hd c)
  | 0x7 => some (.hvclr c)
  | 0x8 => some (.hvtie c ha)
  | 0x9 => some (.hvpop s ha)
  | 0xA => some (.hvdist s ha hb)
  | 0xB => some (.hvseed hd s)
  | _ => none

def readHvm (w : Nat) : Option Instr :=
  if bitAt w 25 then some (.hvst (reg8At w 22) (regAt w 16) (immAt 12 w 4))
  else some (.hvld (reg8At w 22) (regAt w 16) (immAt 12 w 4) (nibAt w 0))

def readAm (w : Nat) : Option Instr :=
  if bitAt w 25 then some (.amclr (regAt w 19) (regAt w 13))
  else some (.amw (regAt w 19) (reg8At w 16))

def readHvn (w : Nat) : Option Instr :=
  if bitAt w 25 then some (.hvneark (regAt w 19) (reg4At w 17) (reg8At w 10) (regAt w 4) (nibAt w 0))
  else some (.hvnear (regAt w 19) (regAt w 13) (reg8At w 10) (regAt w 4) (nibAt w 0))

/-- The SYS minors (R232). -/
def readSys (w : Nat) : Option Instr :=
  let r := regAt w 17
  match fld w 23 3 with
  | 0 => some (.nexttile r)
  | 1 => some (.condw r (regAt w 11) (immAt 11 w 0))
  | 2 => some (.perf r)
  | 3 => some (.trap (immAt 16 w 0))
  | 4 => (sysRegOf (fld w 0 10)).map fun sr => .srd r (bitAt w 16) sr
  | 5 => (sysRegOf (fld w 0 10)).map fun sr => .swr r (bitAt w 16) sr
  | 6 => some (.bkpt (immAt 16 w 0))
  | _ => some (.uint r)

/-- The G-set majors (R230). -/
def readGset (w : Nat) : Option Instr :=
  let d := regAt w 20; let a := regAt w 14; let b := regAt w 8
  match fld w 26 5 with
  | 0x01 => readGalu w
  | 0x02 => some (.gaddi d a (immAt 14 w 0))
  | 0x03 => readGun w
  | 0x04 => some (.gTri d a b (immAt 8 w 0))
  | 0x05 => readGcmp w
  | 0x06 => some (.gSel d a b (reg8At w 5))
  | 0x07 => readGmov w
  | 0x08 => readGld w
  | 0x09 => readGst w
  | 0x0A => readGbr w
  | 0x0B => readMma true w
  | 0x0C => readMma false w
  | 0x0D => readMctl w
  | 0x0E => some (.tgemm d a b (nibAt w 4) (nibAt w 0))
  | 0x0F => readTile w
  | 0x10 => readTid w
  | 0x11 => some (.cpy d a b (nibAt w 4) (nibAt w 0))
  | 0x12 => some (.cpyg d a b (nibAt w 4) (nibAt w 0))
  | 0x13 => some (.cpys d a b (nibAt w 4) (nibAt w 0))
  | 0x14 => readBar w
  | 0x15 => readCr w
  | 0x16 => readHv w
  | 0x17 => readHvm w
  | 0x18 => readAm w
  | 0x19 => readHvn w
  | 0x1A => readSys w
  | _ => none

/-- What the majors and the codes of a word say, its reserved bits unread (R222, checks 1 and 2). -/
def readWord (w : Nat) : Option Instr := if bitAt w 31 then readGset w else readLset w

/-! ## The encoder -/

/-- The values of fields at their places, summed. -/
def place : List (Nat × Nat) → Nat
  | [] => 0
  | (lo, x) :: rest => x * 2 ^ lo + place rest

/-- An L-set word of major `maj`. -/
def lWord (maj : Nat) (fs : List (Nat × Nat)) : Nat := place ((26, maj) :: fs)
/-- A G-set word of major `maj`. -/
def gWord (maj : Nat) (fs : List (Nat × Nat)) : Nat := place ((31, 1) :: (26, maj) :: fs)

def LOp.field : LOp → Nat
  | .v r => r.val
  | .b k => k.val
def LOp.cls : LOp → Nat
  | .v _ => 0
  | .b _ => 1
def Base.field : Base → Nat
  | .v r => r.val
  | .s r => r.val
def Base.bs : Base → Nat
  | .v _ => 0
  | .s _ => 1
def ITy.code : ITy → Nat
  | .i32 => 0
  | .n32 => 1
  | .i64 => 2
  | .n64 => 3
def MadTy.code : MadTy → Nat
  | .b32 => 0
  | .i64 => 1
  | .n64 => 2
def Sz.code : Sz → Nat
  | .b8 => 0
  | .b16 => 1
  | .b32 => 2
  | .b64 => 3
def FTy.code : FTy → Nat
  | .f32 => 0
  | .bf16x2 => 1
  | .f16x2 => 2
def Rm4.code : Rm4 → Nat
  | .rn => 0
  | .rz => 1
  | .ru => 2
  | .rd => 3
def Rm.code : Rm → Nat
  | .rn => 0
  | .rz => 1
  | .ru => 2
  | .rd => 3
  | .rs => 4
def Ord.code : Ord → Nat
  | .rlx => 0
  | .acq => 1
  | .rel => 2
  | .ar => 3
def Sc.code : Sc → Nat
  | .grp => 0
  | .team => 1
  | .dev => 2
  | .sys => 3
def Hint.code : Hint → Nat
  | .normal => 0
  | .ef => 1
  | .el => 2
def Cond.code : Cond → Nat
  | .eq => 0
  | .ne => 1
  | .lt => 2
  | .le => 3
  | .gt => 4
  | .ge => 5
def CTy.code : CTy → Nat
  | .f32 => 0x00
  | .f16 => 0x01
  | .bf16 => 0x02
  | .e4m3 => 0x03
  | .e5m2 => 0x04
  | .e3m2 => 0x05
  | .e2m3 => 0x06
  | .e2m1 => 0x07
  | .e8m0 => 0x08
  | .i8 => 0x09
  | .i16 => 0x0A
  | .i32 => 0x0B
  | .i64 => 0x0C
  | .n8 => 0x0D
  | .n16 => 0x0E
  | .n32 => 0x0F
  | .n64 => 0x10
  | .bf16x2 => 0x11
  | .f16x2 => 0x12
def ShflMode.code : ShflMode → Nat
  | .pick => 0
  | .rot => 1
  | .shift => 2
  | .flip => 3
def RedOp.code : RedOp → Nat
  | .add => 0
  | .min => 1
  | .max => 2
  | .and => 3
  | .or => 4
  | .xor => 5
def RedTy.code : RedTy → Nat
  | .n32 => 0
  | .i32 => 1
  | .f32 => 2
def AtomOp.code : AtomOp → Nat
  | .add => 0
  | .exch => 1
  | .and => 2
  | .or => 3
  | .xor => 4
  | .min _ => 5
  | .max _ => 6
def AtomOp.signBit : AtomOp → Nat
  | .min s => s.toNat
  | .max s => s.toNat
  | _ => 0
def FenceOrd.code : FenceOrd → Nat
  | .acq => 1
  | .rel => 2
  | .ar => 3
def MmaSrc.code : MmaSrc → Nat
  | .vv => 0
  | .vd => 1
  | .dd => 2
  | .dv => 3
def TileRm.code : TileRm → Nat
  | .rn => 0
  | .rz => 1
  | .ru => 2
  | .rd => 3
def SysReg.number : SysReg → Nat
  | .fpstat => 0x000
  | .nbv => 0x001
  | .perflvl => 0x002
  | .seqstep => 0x003
  | .trapvec => 0x004
  | .trappc => 0x010
  | .trapcause => 0x011
  | .rngstate => 0x012
  | .framebase => 0x013
  | .cpbase => 0x014
  | .trailbase => 0x015
  | .partid => 0x020
  | .pmc n => 0x030 + n.val

/-- INT and SHIFT by register. -/
def encInt (maj mnr : Nat) (d a b : LOp) (ty : ITy) : Nat :=
  lWord maj [(20, d.field), (14, a.field), (8, b.field), (5, mnr), (3, ty.code), (2, d.cls),
    (1, a.cls), (0, b.cls)]
/-- SHIFT by the count in the word. -/
def encCount (mnr : Nat) (d a : LOp) (n : Reg) (ty : ITy) : Nat :=
  lWord 0x02 [(20, d.field), (14, a.field), (8, n.val), (5, mnr), (3, ty.code), (2, d.cls), (1, a.cls)]
def encDiv (mnr : Nat) (d a b : Reg) (ty : ITy) (la : La) : Nat :=
  lWord 0x03 [(20, d.val), (14, a.val), (8, b.val), (7, mnr), (5, ty.code), (0, la.val)]
def encUni (mnr : Nat) (d a : LOp) (ty : ITy) : Nat :=
  lWord 0x08 [(20, d.field), (14, a.field), (11, mnr), (9, ty.code), (1, d.cls), (0, a.cls)]
def encFar (mnr : Nat) (d a b : Reg) (rm : Nat) (ty : FTy) : Nat :=
  lWord 0x0C [(20, d.val), (14, a.val), (8, b.val), (5, mnr), (3, rm), (1, ty.code)]
def encFma (mnr : Nat) (d a b c : Reg) : Nat :=
  lWord 0x0D [(20, d.val), (14, a.val), (8, b.val), (2, c.val), (0, mnr)]
def encFmac (mnr : Nat) (d a b : Reg) (rm : Rm4) (ty : FTy) : Nat :=
  lWord 0x0E [(20, d.val), (14, a.val), (8, b.val), (6, mnr), (4, rm.code), (2, ty.code)]
def encFspec (mnr : Nat) (d a : Reg) (la : Nat) : Nat :=
  lWord 0x11 [(20, d.val), (14, a.val), (11, mnr), (0, la)]
def encVote (form : VoteForm) (pk : Reg8) : Nat :=
  match form with
  | .mask d => lWord 0x12 [(23, 1), (17, d.val), (11, pk.val), (0, 0)]
  | .count d => lWord 0x12 [(23, 1), (17, d.val), (11, pk.val), (0, 1)]
  | .quorum pd b => lWord 0x12 [(23, 1), (17, pd.val), (11, pk.val), (5, b.val), (0, 2)]
  | .unan pd => lWord 0x12 [(23, 1), (17, pd.val), (11, pk.val), (0, 3)]
def encGalu (mnr : Nat) (d a b : Reg) (ty : ITy) : Nat :=
  gWord 0x01 [(20, d.val), (14, a.val), (10, mnr), (8, ty.code), (2, b.val)]
def encGaluI (mnr : Nat) (d a : Reg) (m : Byte) (ty : ITy) : Nat :=
  gWord 0x01 [(20, d.val), (14, a.val), (13, 1), (10, mnr), (8, ty.code), (0, m.toNat)]
def encMma (maj fmt : Nat) (acc : Reg4) (a b : Reg) (sh : Fin 16) (src : MmaSrc) (sp : Bool)
    (la : La) : Nat :=
  gWord maj [(24, acc.val), (18, a.val), (12, b.val), (8, sh.val), (6, src.code), (5, sp.toNat),
    (4, fmt), (0, la.val)]
def encCpy (maj : Nat) (d s n : Reg) (bar : Fin 16) (la : La) : Nat :=
  gWord maj [(20, d.val), (14, s.val), (8, n.val), (4, bar.val), (0, la.val)]
def encBar (mnr : Nat) (tm : Bool) (base : Reg) (s : Nat) (m : BitVec 10) : Nat :=
  gWord 0x14 [(23, mnr), (22, tm.toNat), (16, base.val), (10, s), (0, m.toNat)]
def encCr (mnr : Nat) (base len : Reg) (m : BitVec 12) : Nat :=
  gWord 0x15 [(24, mnr), (18, base.val), (12, len.val), (0, m.toNat)]

/-- The word of an instruction, every reserved bit zero; 0 for an event, which has no word. -/
def encode : Instr → Nat
  | .add d a b ty => encInt 0x01 0 d a b ty
  | .sub d a b ty => encInt 0x01 1 d a b ty
  | .mul d a b ty => encInt 0x01 2 d a b ty
  | .mulhi d a b ty => encInt 0x01 3 d a b ty
  | .min d a b ty => encInt 0x01 4 d a b ty
  | .max d a b ty => encInt 0x01 5 d a b ty
  | .shl d a b ty => encInt 0x02 0 d a b ty
  | .shr d a b ty => encInt 0x02 1 d a b ty
  | .sar d a b ty => encInt 0x02 2 d a b ty
  | .rot d a b ty => encInt 0x02 3 d a b ty
  | .shlCount d a n ty => encCount 4 d a n ty
  | .shrCount d a n ty => encCount 5 d a n ty
  | .sarCount d a n ty => encCount 6 d a n ty
  | .rotCount d a n ty => encCount 7 d a n ty
  | .div d a b ty la => encDiv 0 d a b ty la
  | .rem d a b ty la => encDiv 1 d a b ty la
  | .mad d a b c ty => lWord 0x04 [(20, d.val), (14, a.val), (8, b.val), (2, c.val), (0, ty.code)]
  | .tri d a b tt => lWord 0x05 [(20, d.val), (14, a.val), (8, b.val), (0, tt.toNat)]
  | .addi d a m => lWord 0x06 [(20, d.val), (14, a.val), (0, m.toNat)]
  | .movi d m => lWord 0x07 [(20, d.val), (0, m.toNat)]
  | .mvh d m => lWord 0x07 [(20, d.val), (19, 1), (0, m.toNat)]
  | .mov d a ty => encUni 0 d a ty
  | .abs d a ty => encUni 1 d a ty
  | .popc d a ty => encUni 2 d a ty
  | .clz d a ty => encUni 3 d a ty
  | .brev d a ty => encUni 4 d a ty
  | .rand d ty => encUni 5 d (.v 0) ty
  | .bfx d a pos len1 sgn =>
    lWord 0x09 [(20, d.val), (14, a.val), (9, pos.val), (4, len1.val), (2, sgn.toNat)]
  | .bfi d a pos len1 => lWord 0x09 [(20, d.val), (14, a.val), (9, pos.val), (4, len1.val), (3, 1)]
  | .sel d a b p wide => lWord 0x0A [(20, d.field), (14, a.field), (8, b.field), (5, p.val),
      (4, wide.toNat), (3, d.cls), (2, a.cls), (1, b.cls)]
  | .cmp pd a b c ty => lWord 0x0B [(23, pd.val), (17, a.field), (11, b.field), (8, c.code),
      (6, ty.code), (5, a.cls), (4, b.cls)]
  | .fadd d a b rm ty => encFar 0 d a b rm.code ty
  | .fsub d a b rm ty => encFar 1 d a b rm.code ty
  | .fmul d a b rm ty => encFar 2 d a b rm.code ty
  | .fmin d a b ty => encFar 3 d a b 0 ty
  | .fmax d a b ty => encFar 4 d a b 0 ty
  | .fma d a b c => encFma 0 d a b c
  | .fms d a b c => encFma 1 d a b c
  | .fnma d a b c => encFma 2 d a b c
  | .fnms d a b c => encFma 3 d a b c
  | .fmacFma d a b rm ty => encFmac 0 d a b rm ty
  | .fmacFms d a b rm ty => encFmac 1 d a b rm ty
  | .fmacFnma d a b rm ty => encFmac 2 d a b rm ty
  | .fmacFnms d a b rm ty => encFmac 3 d a b rm ty
  | .fcmp pd a b c => lWord 0x0F [(23, pd.val), (17, a.val), (11, b.val), (8, c.code)]
  | .fcvt d a dt st rm sat => lWord 0x10 [(20, d.val), (14, a.val), (9, dt.code), (4, st.code),
      (1, rm.code), (0, sat.toNat)]
  | .frcp d a la => encFspec 0 d a la.val
  | .frsq d a la => encFspec 1 d a la.val
  | .fsqrt d a la => encFspec 2 d a la.val
  | .fexp2 d a la => encFspec 3 d a la.val
  | .flog2 d a la => encFspec 4 d a la.val
  | .fsin d a la => encFspec 5 d a la.val
  | .fcos d a la => encFspec 6 d a la.val
  | .fclass d a => encFspec 7 d a 0
  | .shfl d a b mode =>
    lWord 0x12 [(23, 0), (17, d.val), (11, a.val), (5, b.val), (0, mode.code)]
  | .vote form pk => encVote form pk
  | .red op ty d a => lWord 0x12 [(23, 2), (17, d.val), (11, a.val), (2, op.code), (0, ty.code)]
  | .scan op ty ex d a =>
    lWord 0x12 [(23, 3), (17, d.val), (11, a.val), (5, ex.toNat), (2, op.code), (0, ty.code)]
  | .matchLanes d a wide => lWord 0x12 [(23, 4), (17, d.val), (11, a.val), (0, wide.toNat)]
  | .ldx d base idx sz m la => lWord 0x13 [(20, d.val), (14, base.val), (8, idx.val), (6, sz.code),
      (4, m.val), (0, la.val)]
  | .lda d base sz acq sc h m la => lWord 0x14 [(20, d.val), (14, base.field), (13, base.bs),
      (11, sz.code), (10, acq.toNat), (8, sc.code), (6, h.code), (4, m.val), (0, la.val)]
  | .stx data base idx sz m => lWord 0x15 [(20, data.val), (14, base.val), (8, idx.val),
      (6, sz.code), (4, m.val)]
  | .sta data base sz rel sc h m => lWord 0x16 [(20, data.val), (14, base.field), (13, base.bs),
      (11, sz.code), (10, rel.toNat), (8, sc.code), (6, h.code), (4, m.val)]
  | .atom d base op wide ord sc la => lWord 0x17 [(20, d.val), (14, base.field), (13, base.bs),
      (10, op.code), (9, wide.toNat), (7, ord.code), (5, sc.code), (4, op.signBit), (0, la.val)]
  | .cas d base wide ord sc la => lWord 0x17 [(20, d.val), (14, base.field), (13, base.bs),
      (10, 7), (9, wide.toNat), (7, ord.code), (5, sc.code), (0, la.val)]
  | .pf base h m => lWord 0x18 [(23, 0), (17, base.field), (16, base.bs), (14, h.code), (0, m.toNat)]
  | .stt data base sz m => lWord 0x18 [(23, 1), (17, data.val), (11, base.field), (10, base.bs),
      (8, sz.code), (0, m.toNat)]
  | .fence o sc => lWord 0x18 [(23, 2), (21, o.code), (19, sc.code)]
  | .ldb k base m la => lWord 0x19 [(23, 0), (20, k.val), (14, base.field), (13, base.bs),
      (4, m.toNat), (0, la.val)]
  | .bwait mask t => lWord 0x19 [(23, 1), (14, t.val), (6, mask.toNat)]
  | .bsync => lWord 0x19 [(23, 2)]
  | .badd k s ord sc la => lWord 0x19 [(23, 3), (20, k.val), (14, s.val), (12, ord.code),
      (10, sc.code), (0, la.val)]
  | .bunb k => lWord 0x19 [(23, 4), (20, k.val)]
  | .bqry d k => lWord 0x19 [(23, 5), (20, k.val), (14, d.val)]
  | .stBound k rel sc => lWord 0x19 [(23, 6), (20, k.val), (12, rel.toNat), (10, sc.code)]
  | .bra off => lWord 0x1A [(0, off.toNat)]
  | .brc p off => lWord 0x1A [(25, 1), (22, p.val), (0, off.toNat)]
  | .jmpi a => lWord 0x1B [(23, 0), (17, a.val)]
  | .land => lWord 0x1B [(23, 1)]
  | .call d off => lWord 0x1B [(23, 2), (17, d.val), (0, off.toNat)]
  | .ret a => lWord 0x1B [(23, 3), (17, a.val)]
  | .exit => lWord 0x1B [(23, 4)]
  | .spawn a off => lWord 0x1B [(23, 5), (17, a.val), (0, off.toNat)]
  | .yield => lWord 0x1B [(23, 6)]
  | .nop => lWord 0x1B [(23, 7)]
  | .try_ d c m => lWord 0x1C [(23, 0), (17, d.val), (11, c.val), (5, m.val)]
  | .fail pd => lWord 0x1C [(23, 1), (20, pd.val)]
  | .cut a => lWord 0x1C [(23, 2), (17, a.val)]
  | .prune base m => lWord 0x1C [(23, 3), (17, base.field), (16, base.bs), (0, m.toNat)]
  | .steal pd => lWord 0x1C [(23, 4), (20, pd.val)]
  | .cpd d => lWord 0x1C [(23, 5), (17, d.val)]
  | .gAdd d a b ty => encGalu 0 d a b ty
  | .gSub d a b ty => encGalu 1 d a b ty
  | .gMul d a b ty => encGalu 2 d a b ty
  | .gMin d a b ty => encGalu 3 d a b ty
  | .gMax d a b ty => encGalu 4 d a b ty
  | .gShl d a b ty => encGalu 5 d a b ty
  | .gShr d a b ty => encGalu 6 d a b ty
  | .gSar d a b ty => encGalu 7 d a b ty
  | .gAddI d a m ty => encGaluI 0 d a m ty
  | .gSubI d a m ty => encGaluI 1 d a m ty
  | .gMulI d a m ty => encGaluI 2 d a m ty
  | .gMinI d a m ty => encGaluI 3 d a m ty
  | .gMaxI d a m ty => encGaluI 4 d a m ty
  | .gShlI d a m ty => encGaluI 5 d a m ty
  | .gShrI d a m ty => encGaluI 6 d a m ty
  | .gSarI d a m ty => encGaluI 7 d a m ty
  | .gaddi d a m => gWord 0x02 [(20, d.val), (14, a.val), (0, m.toNat)]
  | .gPopc d a ty => gWord 0x03 [(20, d.val), (14, a.val), (11, ty.code)]
  | .gClz d a ty => gWord 0x03 [(20, d.val), (14, a.val), (13, 1), (11, ty.code)]
  | .gTri d a b tt => gWord 0x04 [(20, d.val), (14, a.val), (8, b.val), (0, tt.toNat)]
  | .gCmp qd a b c ty => gWord 0x05 [(23, qd.val), (17, a.val), (11, b.val), (8, c.code),
      (6, ty.code)]
  | .gSel d a b q => gWord 0x06 [(20, d.val), (14, a.val), (8, b.val), (5, q.val)]
  | .gMovi d m => gWord 0x07 [(20, d.val), (0, m.toNat)]
  | .gMvh d m => gWord 0x07 [(20, d.val), (19, 1), (0, m.toNat)]
  | .gld d base sz acq sc m la => gWord 0x08 [(20, d.val), (14, base.val), (12, sz.code),
      (11, acq.toNat), (9, sc.code), (4, m.toNat), (0, la.val)]
  | .gst data base sz rel sc m => gWord 0x09 [(20, data.val), (14, base.val), (12, sz.code),
      (11, rel.toNat), (9, sc.code), (0, m.toNat)]
  | .bru q off => gWord 0x0A [(22, q.val), (0, off.toNat)]
  | .loop c off => gWord 0x0A [(25, 1), (19, c.val), (0, off.toNat)]
  | .mmaE4m3 acc a b sh src sp la => encMma 0x0B 0 acc a b sh src sp la
  | .mmaE5m2 acc a b sh src sp la => encMma 0x0B 1 acc a b sh src sp la
  | .mmaBf16 acc a b sh src sp la => encMma 0x0C 0 acc a b sh src sp la
  | .mmaF16 acc a b sh src sp la => encMma 0x0C 1 acc a b sh src sp la
  | .mfence => gWord 0x0D [(24, 0)]
  | .mwait => gWord 0x0D [(24, 1)]
  | .acczero acc => gWord 0x0D [(24, 2), (22, acc.val)]
  | .accmov acc d col => gWord 0x0D [(24, 3), (22, acc.val), (16, d.val), (10, col.val)]
  | .tgemm tc ta tb bar la => encCpy 0x0E tc ta tb bar la
  | .tquant td ts bar la => gWord 0x0F [(20, td.val), (14, ts.val), (4, bar.val), (0, la.val)]
  | .tcopy td ts rm sat bar la => gWord 0x0F [(20, td.val), (14, ts.val), (13, 1), (10, rm.code),
      (9, sat.toNat), (4, bar.val), (0, la.val)]
  | .tidget s t w => gWord 0x10 [(19, t.val), (13, s.val), (11, w.val)]
  | .tidset t w s => gWord 0x10 [(25, 1), (19, t.val), (13, s.val), (11, w.val)]
  | .cpy d s n bar la => encCpy 0x11 d s n bar la
  | .cpyg d s n bar la => encCpy 0x12 d s n bar la
  | .cpys d s n bar la => encCpy 0x13 d s n bar la
  | .barInit tm base s m => encBar 0 tm base s.val m
  | .barArrive tm base m => encBar 1 tm base 0 m
  | .barExpect tm base s m => encBar 2 tm base s.val m
  | .barWait tm base m => encBar 3 tm base 0 m
  | .barTest tm base qd m => encBar 4 tm base qd.val m
  | .barSync tm base m => encBar 5 tm base 0 m
  | .wbr base len m => encCr 0 base len m
  | .invr base len m => encCr 1 base len m
  | .invrD base len m => encCr 2 base len m
  | .pfr base len m => encCr 3 base len m
  | .hvmovToH hd v s => gWord 0x16 [(22, 0x0), (19, hd.val), (7, v.val), (1, s.val)]
  | .hvmovToV ha v s => gWord 0x16 [(22, 0x1), (16, ha.val), (7, v.val), (1, s.val)]
  | .hvxor hd ha hb => gWord 0x16 [(22, 0x2), (19, hd.val), (16, ha.val), (13, hb.val)]
  | .hvrot hd ha m => gWord 0x16 [(22, 0x3), (19, hd.val), (16, ha.val), (0, m.toNat)]
  | .hvrotReg hd ha s => gWord 0x16 [(22, 0x3), (19, hd.val), (16, ha.val), (12, 1), (6, s.val)]
  | .hvtri hd ha hb tt => gWord 0x16 [(22, 0x4), (19, hd.val), (16, ha.val), (13, hb.val),
      (5, tt.toNat)]
  | .hvbnd c ha w => gWord 0x16 [(22, 0x5), (16, ha.val), (11, c.val), (7, w.val)]
  | .hvthr hd c => gWord 0x16 [(22, 0x6), (19, hd.val), (11, c.val)]
  | .hvclr c => gWord 0x16 [(22, 0x7), (11, c.val)]
  | .hvtie c ha => gWord 0x16 [(22, 0x8), (16, ha.val), (11, c.val)]
  | .hvpop s ha => gWord 0x16 [(22, 0x9), (16, ha.val), (7, s.val)]
  | .hvdist s ha hb => gWord 0x16 [(22, 0xA), (16, ha.val), (13, hb.val), (7, s.val)]
  | .hvseed hd s => gWord 0x16 [(22, 0xB), (19, hd.val), (7, s.val)]
  | .hvld h base m la => gWord 0x17 [(22, h.val), (16, base.val), (4, m.toNat), (0, la.val)]
  | .hvst h base m => gWord 0x17 [(25, 1), (22, h.val), (16, base.val), (4, m.toNat)]
  | .amw s h => gWord 0x18 [(19, s.val), (16, h.val)]
  | .amclr lo n => gWord 0x18 [(25, 1), (19, lo.val), (13, n.val)]
  | .hvnear si sd h sl la => gWord 0x19 [(19, si.val), (13, sd.val), (10, h.val), (4, sl.val),
      (0, la.val)]
  | .hvneark si k1 h sl la => gWord 0x19 [(25, 1), (19, si.val), (17, k1.val), (10, h.val),
      (4, sl.val), (0, la.val)]
  | .nexttile d => gWord 0x1A [(23, 0), (17, d.val)]
  | .condw base v m => gWord 0x1A [(23, 1), (17, base.val), (11, v.val), (0, m.toNat)]
  | .perf l => gWord 0x1A [(23, 2), (17, l.val)]
  | .trap m => gWord 0x1A [(23, 3), (0, m.toNat)]
  | .srd d v sr => gWord 0x1A [(23, 4), (17, d.val), (16, v.toNat), (0, sr.number)]
  | .swr s v sr => gWord 0x1A [(23, 5), (17, s.val), (16, v.toNat), (0, sr.number)]
  | .bkpt m => gWord 0x1A [(23, 6), (0, m.toNat)]
  | .uint g => gWord 0x1A [(23, 7), (17, g.val)]
  | _ => 0

/-! ## The decoder -/

/-- Decoding stops at the first check of R222 that fails, with the cause of its trap (DESIGN CHOICE, log 12). -/
def decode (w : Nat) : Except Illegal Instr :=
  match readWord w with
  | none => .error .undef
  | some i =>
    if Machine.codesOk i = false then .error .undef
    else if encode i ≠ w then .error .rsvd
    else
      match Machine.fieldCheck i with
      | some cause => .error cause
      | none => .ok i

/-- The bytes of a word as memory holds them, the lowest address first (R221). -/
def wordBytes (w : Nat) : List Byte :=
  [BitVec.ofNat 8 w, BitVec.ofNat 8 (w / 2 ^ 8), BitVec.ofNat 8 (w / 2 ^ 16),
    BitVec.ofNat 8 (w / 2 ^ 24)]

/-- A number from its bytes, the lowest address least significant (R221). -/
def leNat : List Byte → Nat
  | [] => 0
  | b :: bs => b.toNat + 256 * leNat bs

/-- The instruction of four bytes at rising addresses, with the bytes after it. Fewer than four
bytes hold no instruction word. -/
def decodeBytes : List Byte → Option (Except Illegal Instr × List Byte)
  | a :: b :: c :: d :: rest => some (decode (leNat [a, b, c, d]), rest)
  | _ => none

/-- What the decoder reads from an instruction whose bits are `w`, as spec/opcode_table.json numbers
them. Every instruction is one word; an event has no word, so a row of no bits reads as the all-zero
word, which is UNDEF. -/
def decodeTableWord (nbits w : Nat) : Option Instr :=
  match decodeBytes (wordBytes (w % 2 ^ nbits)) with
  | some (.ok i, _) => some i
  | _ => none

end Sys2Proof
end

