-- ==== Sys2Proof/Config.lean ====
section
/-! DEFINITION. What an implementation fixes, and the free values: constants with no body, so that a
claim that mentions one holds whatever it is. A free value takes the step's counter and, where several
are drawn at once, a place. -/

namespace Sys2Proof.Config

/-! ## Free values -/

/-- A 32-bit value the spec leaves undefined (DESIGN CHOICE, log 6). -/
opaque freeWord : Nat → Nat → W32
/-- A 64-bit value the spec leaves undefined. -/
opaque freeWord64 : Nat → Nat → W64
/-- One byte the spec leaves undefined. -/
opaque freeByte : Nat → Nat → Byte
/-- A choice between two outcomes that the spec leaves undefined. -/
opaque freeBit : Nat → Nat → Bool
/-- A number the spec leaves undefined (an order, an index among candidates). -/
opaque freeNat : Nat → Nat → Nat

/-! ## What an implementation fixes -/

/-- The save area of a context, in units of 2 MiB, by the context's number (R215) (DESIGN CHOICE, log 35). -/
opaque saveArea : Nat → Nat
/-- The number of a launch that the save-area header, a debugger's event record and a halt call show, and
the handle of a debugger attachment, by the model's own numbers (R215, R219, R220) (DESIGN CHOICE, log 84). -/
opaque launchNumber : Nat → W64
opaque debugHandle : Nat → W64
/-- The doorbell register and the consumer index of a submission queue, by the queue's number (R55)
(DESIGN CHOICE, log 72). -/
opaque doorbellAddr : Nat → Nat
opaque consumerAddr : Nat → Nat
/-- The 64-byte SHAKE256 digest of bytes as a number (R83, R190), and its bytes. -/
opaque shakeDigest : List Byte → BitVec 512
def shake256 (bs : List Byte) : List Byte := (List.range 64).map fun i => ((shakeDigest bs) >>> (8 * i)).setWidth 8
/-- The 64-byte SHA3-512 digest of bytes (R192). -/
opaque sha3Digest : List Byte → BitVec 512
def sha3 (bs : List Byte) : List Byte := (List.range 64).map fun i => ((sha3Digest bs) >>> (8 * i)).setWidth 8
/-- The certificate chain of the device identity key, in slot 0 (R192). -/
opaque certChain : List Byte
/-- The fused identity of the package: what measurement index 1 digests (R191). -/
opaque romIdentity : List Byte
/-- The service-core firmware image (R190). -/
opaque firmwareImage : List Byte
/-- The Preley image (R190). -/
opaque preleyImage : List Byte
/-- An SPDM answer whose contents DMTF's standard gives, by request code and port (R192)
(DESIGN CHOICE, log 70). -/
opaque spdmBody : Nat → Nat → List Byte
/-- A signature of the device identity key (R192). -/
opaque deviceSign : List Byte → List Byte
/-- How the device configuration is laid out as the bytes that measurement index 4 digests: its memory, its links and
the numbers of the enabled partitions (R191) (DESIGN CHOICE, log 70). -/
opaque deviceConfig : List (List Nat) → List Byte
/-- The set of a cache that a line falls in: the spec gives sizes and no associativity (R24, R279)
(DESIGN CHOICE, log 85). -/
opaque cacheSet : Nat → Nat
/-- How many lines the snoop filter of the home directory holds: the spec gives no number (R395) (DESIGN CHOICE, log 55). -/
opaque filterSize : Nat
/-- Whether a peer's check admits a request to an address of its HBM for a partition of its own, by the peer's number, the
partition and the address: what its RANGE registers hold (R401) (DESIGN CHOICE, log 57). -/
opaque peerAdmits : Nat → Nat → Nat → Bool
/-- A part of a save-area header or system block that is implementation-specific (R6, R215). -/
opaque implByte : Nat → Byte

end Sys2Proof.Config
end

