-- ==== Sys2Proof/Machine/Flags.lean ====
section
/-! DEFINITION. The arithmetic promise (R84 to R113): formats, the five rounding modes, status flags,
and the exact sums of the matrix path. A code of a format is a natural number below two to its width;
a value is an exact dyadic number or a special value, and rounding is the only step that loses
anything. -/

namespace Sys2Proof.Machine

/-! ## Status flags (R98) -/

/-- FPSTAT bits 4:0. -/
abbrev Flags := BitVec 5

def Flags.none : Flags := 0
def Flags.nv : Flags := 16
def Flags.dz : Flags := 8
def Flags.ovf : Flags := 4
def Flags.uf : Flags := 2
def Flags.nx : Flags := 1
/-- The flag `f` where `c` holds. -/
def Flags.only (c : Bool) (f : Flags) : Flags := if c then f else 0

/-! ## Values -/

/-- An exact value: a NaN, an infinity, or `m * 2 ^ e` with a sign that zero keeps (R92). -/
inductive XReal where
  | nan (signalling : Bool)
  | inf (neg : Bool)
  | fin (neg : Bool) (m : Nat) (e : Int)
  deriving DecidableEq, Repr

def XReal.zero : XReal := .fin false 0 0

def XReal.isNan : XReal → Bool
  | .nan _ => true
  | _ => false
def XReal.isSignalling : XReal → Bool
  | .nan s => s
  | _ => false
def XReal.isInf : XReal → Bool
  | .inf _ => true
  | _ => false
def XReal.isZero : XReal → Bool
  | .fin _ m _ => m == 0
  | _ => false
def XReal.neg : XReal → XReal
  | .nan s => .nan s
  | .inf s => .inf (!s)
  | .fin s m e => .fin (!s) m e
def XReal.sign : XReal → Bool
  | .nan _ => false
  | .inf s => s
  | .fin s _ _ => s
def XReal.abs : XReal → XReal
  | .nan s => .nan s
  | .inf _ => .inf false
  | .fin _ m e => .fin false m e
/-- The value of an integer. -/
def XReal.ofInt (x : Int) : XReal := .fin (decide (x < 0)) x.natAbs 0
/-- A power of two. -/
def XReal.pow2 (p : Int) : XReal := .fin false 1 p

/-- `2 ^ e` for a non-negative exponent, 1 below. -/
def pow2Nat (e : Int) : Nat := 2 ^ e.toNat

/-- The signed mantissa of a finite value at exponent `e0`, which is at most its own. -/
def mantAt (e0 : Int) (s : Bool) (m : Nat) (e : Int) : Int :=
  let x : Nat := m * pow2Nat (e - e0)
  if s then -(x : Int) else (x : Int)

/-- A finite value from a signed mantissa; a zero takes the sign `z`. -/
def ofMant (x : Int) (e : Int) (z : Bool) : XReal :=
  if x = 0 then .fin z 0 0 else .fin (decide (x < 0)) x.natAbs e

/-- Whether one finite value is below another. -/
def ltFin (s1 : Bool) (m1 : Nat) (e1 : Int) (s2 : Bool) (m2 : Nat) (e2 : Int) : Bool :=
  let e0 := min e1 e2
  decide (mantAt e0 s1 m1 e1 < mantAt e0 s2 m2 e2)

/-- a < b for values that are not NaN; −0 and +0 compare equal. -/
def XReal.lt : XReal → XReal → Bool
  | .inf s, .inf t => s && !t
  | .inf s, .fin .. => s
  | .fin .., .inf t => !t
  | .fin s m e, .fin t n f => ltFin s m e t n f
  | _, _ => false
/-- a = b for values that are not NaN; −0 and +0 compare equal (R262). -/
def XReal.eqv (a b : XReal) : Bool :=
  !a.isNan && !b.isNan && !(a.lt b) && !(b.lt a)

/-! ## Formats (R84, R86 to R88) -/

/-- What the top codes of a format are: IEEE 754 infinities and NaNs, the one NaN code of E4M3, or
numbers only. -/
inductive Specials where
  | ieee | e4m3 | none
  deriving DecidableEq, Repr

/-- A floating-point format: exponent and fraction widths, bias, and its special codes. -/
structure Fmt where
  ebits : Nat
  fbits : Nat
  bias : Nat
  sp : Specials
  deriving DecidableEq, Repr

def fp32 : Fmt := ⟨8, 23, 127, .ieee⟩
def fp16 : Fmt := ⟨5, 10, 15, .ieee⟩
def bf16 : Fmt := ⟨8, 7, 127, .ieee⟩
def e5m2 : Fmt := ⟨5, 2, 15, .ieee⟩
def e4m3 : Fmt := ⟨4, 3, 7, .e4m3⟩
def e3m2 : Fmt := ⟨3, 2, 3, .none⟩
def e2m3 : Fmt := ⟨2, 3, 1, .none⟩
def e2m1 : Fmt := ⟨2, 1, 1, .none⟩

/-- The width of a code in bits, its sign among them. -/
def Fmt.width (f : Fmt) : Nat := 1 + f.ebits + f.fbits
/-- The exponent of the smallest normal magnitude. -/
def Fmt.emin (f : Fmt) : Int := 1 - f.bias
/-- The sign bit as a number. -/
def Fmt.signBit (f : Fmt) (neg : Bool) : Nat := if neg then 2 ^ (f.ebits + f.fbits) else 0
/-- The code of the largest finite magnitude. -/
def Fmt.maxCode (f : Fmt) : Nat :=
  match f.sp with
  | .ieee => (2 ^ f.ebits - 1) * 2 ^ f.fbits - 1
  | .e4m3 => 2 ^ (f.ebits + f.fbits) - 2
  | .none => 2 ^ (f.ebits + f.fbits) - 1
/-- The canonical NaN; +0 for a format that has none (R93). -/
def Fmt.nanCode (f : Fmt) : Nat :=
  match f.sp with
  | .ieee => (2 ^ f.ebits - 1) * 2 ^ f.fbits + 2 ^ (f.fbits - 1)
  | .e4m3 => 2 ^ (f.ebits + f.fbits) - 1
  | .none => 0
/-- The code of an infinity of an IEEE format. -/
def Fmt.infCode (f : Fmt) (neg : Bool) : Nat := f.signBit neg + (2 ^ f.ebits - 1) * 2 ^ f.fbits

/-- The value of a code (R84, R86 to R88). The bits above the format's width are ignored (R264). -/
def Fmt.decode (f : Fmt) (code : Nat) : XReal :=
  let fr := code % 2 ^ f.fbits
  let ex := code / 2 ^ f.fbits % 2 ^ f.ebits
  let neg := code / 2 ^ (f.ebits + f.fbits) % 2 == 1
  let finite : XReal :=
    if ex = 0 then .fin neg fr (f.emin - f.fbits)
    else .fin neg (2 ^ f.fbits + fr) ((ex : Int) - f.bias - f.fbits)
  match f.sp with
  | .ieee =>
    if ex = 2 ^ f.ebits - 1 then
      if fr = 0 then .inf neg else .nan (fr / 2 ^ (f.fbits - 1) == 0)
    else finite
  | .e4m3 => if ex = 2 ^ f.ebits - 1 && fr = 2 ^ f.fbits - 1 then .nan false else finite
  | .none => finite

/-- The value of an E8M0 code (R89). -/
def e8m0Decode (code : Nat) : XReal :=
  if code % 256 = 255 then .nan false else .pow2 ((code % 256 : Nat) - 127)

/-! ## Rounding (R92 to R96) -/

/-- floor(log2 (n / d)) for positive n and d. -/
def floorLog2 (n d : Nat) : Int :=
  let k : Int := (Nat.log2 n : Int) - (Nat.log2 d : Int)
  if d * pow2Nat k ≤ n * pow2Nat (-k) then k else k - 1

/-- A magnitude n / d in units of 2 ^ g: quotient, remainder and divisor. -/
def inUnits (n d : Nat) (g : Int) : Nat × Nat × Nat :=
  let num := n * pow2Nat (-g)
  let den := d * pow2Nat g
  (num / den, num % den, den)

/-- Whether a magnitude with quotient `q` and remainder `r` of `den` rounds up in a mode (R92); under
RS, by the draw `g` (R96). -/
def roundsUp (mode : Rm) (neg : Bool) (q r den g : Nat) : Bool :=
  match mode with
  | .rn => decide (den < 2 * r) || (decide (2 * r = den) && q % 2 == 1)
  | .rz => false
  | .ru => !neg && r != 0
  | .rd => neg && r != 0
  | .rs => decide (2 ^ 32 ≤ r * 2 ^ 32 / den + g)

/-- The result of an overflow of an IEEE format in a mode (R93). -/
def overflowCode (f : Fmt) (mode : Rm) (sat neg : Bool) : Nat :=
  let big := f.signBit neg + f.maxCode
  if sat then big
  else
    match mode with
    | .rn => f.infCode neg
    | .rs => f.infCode neg
    | .rz => big
    | .ru => if neg then big else f.infCode neg
    | .rd => if neg then f.infCode neg else big

/-- What a rounding needs beside its value: the mode, `.sat`, the draw of RS, and whether the E4M3
overflow of NBV 1 applies (R109). -/
structure RoundCtl where
  mode : Rm
  sat : Bool := false
  draw : Nat := 0
  nbv1 : Bool := false
  deriving DecidableEq, Repr

def rnCtl : RoundCtl := ⟨.rn, false, 0, false⟩

/-- The magnitude n / d > 0 rounded into a format with its sign (R92, R93, R96). -/
def roundMag (f : Fmt) (c : RoundCtl) (neg : Bool) (n d : Nat) : Nat × Flags :=
  let p := max (floorLog2 n d) f.emin
  let (q, r, den) := inUnits n d (p - f.fbits)
  let up := roundsUp c.mode neg q r den c.draw
  let code := (p - f.emin).toNat * 2 ^ f.fbits + q + up.toNat
  let inexact := r != 0
  if f.maxCode < code then
    let flags := Flags.ovf ||| Flags.nx
    match f.sp with
    | .ieee => (overflowCode f c.mode c.sat neg, flags)
    | .e4m3 => (if c.nbv1 && !c.sat then f.nanCode else f.signBit neg + f.maxCode, flags)
    | .none => (f.signBit neg + f.maxCode, flags)
  else
    -- tininess after rounding, the exponent unbounded below (R85); under RS on the format's own grid
    let p1 := floorLog2 n d
    let (q1, r1, den1) := inUnits n d (p1 - f.fbits)
    let tiny : Bool :=
      match c.mode with
      | .rs => decide (code < 2 ^ f.fbits)
      | _ => decide (p1 < f.emin) &&
          !(decide (p1 + 1 = f.emin) && decide (q1 + (roundsUp c.mode neg q1 r1 den1 0).toNat = 2 ^ (f.fbits + 1)))
    (f.signBit neg + code, Flags.only inexact .nx ||| Flags.only (inexact && tiny) .uf)

/-- RoundToFormat into a floating-point format but E8M0 (R92, R93). -/
def roundTo (f : Fmt) (c : RoundCtl) (x : XReal) : Nat × Flags :=
  match x with
  | .nan s =>
    match f.sp with
    | .none => (0, .nv)
    | _ => (f.nanCode, Flags.only s .nv)
  | .inf neg =>
    match f.sp with
    | .ieee => if c.sat then (f.signBit neg + f.maxCode, .nv) else (f.infCode neg, 0)
    | .e4m3 => (if c.sat then f.signBit neg + f.maxCode else f.nanCode, .nv)
    | .none => (f.signBit neg + f.maxCode, .nv)
  | .fin neg m e =>
    if m = 0 then (f.signBit neg, 0)
    else roundMag f c neg (m * pow2Nat e) (pow2Nat (-e))

/-- RoundToFP32(x, mode) (R92). -/
def toF32 (mode : Rm) (x : XReal) : Nat × Flags := roundTo fp32 ⟨mode, false, 0, false⟩ x
/-- The value of an FP32 code. -/
def ofF32 (code : Nat) : XReal := fp32.decode code

/-- Conversion to E8M0 (R94). -/
def toE8m0 (mode : Rm) (sat : Bool) (x : XReal) : Nat × Flags :=
  match x with
  | .nan _ => (0xFF, .nv)
  | .inf true => (0xFF, .nv)
  | .inf false => (if sat then 0xFE else 0xFF, .nv)
  | .fin neg m e =>
    if m = 0 then (0x00, .nx)
    else if neg then (0xFF, .nv)
    else
      let n := m * pow2Nat e
      let d := pow2Nat (-e)
      let p := floorLog2 n d
      let (_, r, den) := inUnits n d p
      let p1 : Int :=
        if r = 0 then p
        else
          match mode with
          | .ru => p + 1
          | .rn =>
            if den < 2 * r then p + 1
            else if 2 * r < den then p
            else if (p + 127) % 2 = 0 then p else p + 1
          | _ => p
      if 127 < p1 then (if sat then 0xFE else 0xFF, .ovf ||| .nx)
      else if p1 < -127 then (0x00, .uf ||| .nx)
      else ((p1 + 127).toNat, Flags.only (r != 0) .nx)

/-- A value rounded to an integer in a mode, and whether that changed it (R265). -/
def roundInt (mode : Rm) (neg : Bool) (m : Nat) (e : Int) : Int × Bool :=
  let (q, r, den) := inUnits (m * pow2Nat e) (pow2Nat (-e)) 0
  let k : Nat := q + (roundsUp mode neg q r den 0).toNat
  (if neg then -(k : Int) else (k : Int), r != 0)

/-- Conversion to an integer type with the limits `lo` and `hi` (R93, R265). -/
def toIntType (mode : Rm) (lo hi : Int) (x : XReal) : Int × Flags :=
  match x with
  | .nan _ => (0, .nv)
  | .inf neg => (if neg then lo else hi, .nv)
  | .fin neg m e =>
    let (k, changed) := roundInt mode neg m e
    if k < lo then (lo, .nv) else if hi < k then (hi, .nv) else (k, Flags.only changed .nx)

/-! ## Exact operations (R100, R259, R261) -/

/-- NV of a signalling operand (R85). -/
def signalled (a b : XReal) : Flags := Flags.only (a.isSignalling || b.isSignalling) .nv

/-- The exact sum; a zero sum of opposite values is −0 in mode RD and +0 otherwise (R92). -/
def addExact (rd : Bool) (a b : XReal) : XReal × Flags :=
  match a, b with
  | .nan s, b => (.nan false, Flags.only (s || b.isSignalling) .nv)
  | a, .nan s => (.nan false, Flags.only (s || a.isSignalling) .nv)
  | .inf s, .inf t => if s == t then (.inf s, 0) else (.nan false, .nv)
  | .inf s, _ => (.inf s, 0)
  | _, .inf t => (.inf t, 0)
  | .fin s m e, .fin t n f =>
    let e0 := min e f
    let z := if m = 0 && n = 0 && s == t then s else rd
    (ofMant (mantAt e0 s m e + mantAt e0 t n f) e0 z, 0)

/-- The exact product. -/
def mulExact (a b : XReal) : XReal × Flags :=
  match a, b with
  | .nan s, b => (.nan false, Flags.only (s || b.isSignalling) .nv)
  | a, .nan s => (.nan false, Flags.only (s || a.isSignalling) .nv)
  | .inf s, .inf t => (.inf (s != t), 0)
  | .inf s, .fin t n _ => if n = 0 then (.nan false, .nv) else (.inf (s != t), 0)
  | .fin s m _, .inf t => if m = 0 then (.nan false, .nv) else (.inf (s != t), 0)
  | .fin s m e, .fin t n f => (.fin (s != t) (m * n) (e + f), 0)

/-- FMAExact: `(±)(a × b) ± c` (R261). NV of 0 × ∞ stays even when c is a quiet NaN. -/
def fmaExact (rd negProd negAdd : Bool) (a b c : XReal) : XReal × Flags :=
  let (p, f1) := mulExact a b
  let p := if negProd then p.neg else p
  let c := if negAdd then c.neg else c
  let (s, f2) := addExact rd p c
  (s, f1 ||| f2)

/-- Whether a mode rounds toward −∞. -/
def isRd : Rm → Bool
  | .rd => true
  | _ => false
/-- An arithmetic rounding mode among the five. -/
def Rm4.mode : Rm4 → Rm
  | .rn => .rn
  | .rz => .rz
  | .ru => .ru
  | .rd => .rd
def TileRm.mode : TileRm → Rm
  | .rn => .rn
  | .rz => .rz
  | .ru => .ru
  | .rd => .rd

/-- An exact result rounded once, the flags joined. -/
def finish (f : Fmt) (mode : Rm) (x : XReal × Flags) : Nat × Flags :=
  let (code, g) := roundTo f ⟨mode, false, 0, false⟩ x.1
  (code, x.2 ||| g)

def fAdd (f : Fmt) (mode : Rm) (a b : Nat) : Nat × Flags :=
  finish f mode (addExact (isRd mode) (f.decode a) (f.decode b))
def fSub (f : Fmt) (mode : Rm) (a b : Nat) : Nat × Flags :=
  finish f mode (addExact (isRd mode) (f.decode a) (f.decode b).neg)
def fMul (f : Fmt) (mode : Rm) (a b : Nat) : Nat × Flags :=
  finish f mode (mulExact (f.decode a) (f.decode b))
def fFma (f : Fmt) (mode : Rm) (negProd negAdd : Bool) (a b c : Nat) : Nat × Flags :=
  finish f mode (fmaExact (isRd mode) negProd negAdd (f.decode a) (f.decode b) (f.decode c))

/-- minimumNumber and maximumNumber (R260): −0 below +0, a number before a NaN. -/
def fMinMax (f : Fmt) (isMax : Bool) (a b : Nat) : Nat × Flags :=
  let x := f.decode a
  let y := f.decode b
  let flags := signalled x y
  if x.isNan then (if y.isNan then f.nanCode else b % 2 ^ f.width, flags)
  else if y.isNan then (a % 2 ^ f.width, flags)
  else
    let less := x.lt y || (x.eqv y && x.sign && !y.sign)
    (if less != isMax then a % 2 ^ f.width else b % 2 ^ f.width, flags)

/-- `fcmp` (R262): the truth of the condition, and NV. -/
def fCompare (cond : Cond) (a b : Nat) : Bool × Flags :=
  let x := ofF32 a
  let y := ofF32 b
  let quiet : Bool :=
    match cond with
    | .eq => true
    | .ne => true
    | _ => false
  if x.isNan || y.isNan then
    (cond == .ne, if quiet then signalled x y else .nv)
  else
    let r : Bool :=
      match cond with
      | .eq => x.eqv y
      | .ne => !(x.eqv y)
      | .lt => x.lt y
      | .le => !(y.lt x)
      | .gt => y.lt x
      | .ge => !(x.lt y)
    (r, 0)

/-- `fclass` (R263): the bit of the class of an FP32 code. -/
def fClass (a : Nat) : Nat :=
  let ex := a / 2 ^ 23 % 256
  match ofF32 a with
  | .nan true => 2 ^ 8
  | .nan false => 2 ^ 9
  | .inf true => 2 ^ 0
  | .inf false => 2 ^ 7
  | .fin true m _ => if m = 0 then 2 ^ 3 else if ex = 0 then 2 ^ 2 else 2 ^ 1
  | .fin false m _ => if m = 0 then 2 ^ 4 else if ex = 0 then 2 ^ 5 else 2 ^ 6

/-- The element format of a float type (R224). -/
def FTy.fmt : FTy → Fmt
  | .f32 => fp32
  | .bf16x2 => bf16
  | .f16x2 => fp16

/-- An operation on each element of a register, bits 15:0 before bits 31:16, the flags joined (R90,
R259). -/
def perElement (ty : FTy) (op : Fmt → Nat → Nat → Nat → Nat × Flags) (a b c : W32) : W32 × Flags :=
  match ty with
  | .f32 =>
    let (r, f) := op fp32 a.toNat b.toNat c.toNat
    (BitVec.ofNat 32 r, f)
  | _ =>
    let k := FTy.fmt ty
    let (r0, f0) := op k (a.toNat % 2 ^ 16) (b.toNat % 2 ^ 16) (c.toNat % 2 ^ 16)
    let (r1, f1) := op k (a.toNat / 2 ^ 16) (b.toNat / 2 ^ 16) (c.toNat / 2 ^ 16)
    (BitVec.ofNat 32 (r0 + r1 * 2 ^ 16), f0 ||| f1)

/-! ## The generator (R96, R97) -/

/-- The seed of R96 and R97. -/
def rngSeed : W64 := 0x9E3779B97F4A7C15

/-- RngStep: the new state (R96). -/
def rngStep (x : W64) : W64 :=
  let x := if x = 0 then rngSeed else x
  let x := x ^^^ (x <<< 13)
  let x := x ^^^ (x >>> 7)
  x ^^^ (x <<< 17)

/-- RNGSTATE of a placed thread (R97). -/
def rngInit (team tti : Nat) : W64 := rngSeed ^^^ BitVec.ofNat 64 (team * 2 ^ 11 + tti)

/-! ## Conversions (R264, R265) -/

/-- The floating-point format of a conversion code, where it is one. -/
def CTy.fmt : CTy → Option Fmt
  | .f32 => some fp32
  | .f16 | .f16x2 => some fp16
  | .bf16 | .bf16x2 => some bf16
  | .e4m3 => some e4m3
  | .e5m2 => some e5m2
  | .e3m2 => some e3m2
  | .e2m3 => some e2m3
  | .e2m1 => some e2m1
  | _ => none

/-- The width and signedness of an integer conversion code. -/
def CTy.int : CTy → Option (Nat × Bool)
  | .i8 => some (8, true)
  | .i16 => some (16, true)
  | .i32 => some (32, true)
  | .i64 => some (64, true)
  | .n8 => some (8, false)
  | .n16 => some (16, false)
  | .n32 => some (32, false)
  | .n64 => some (64, false)
  | _ => none

/-- A number of `w` bits read as two's complement or unsigned. -/
def asInt (w : Nat) (signed : Bool) (x : Nat) : Int :=
  let x := x % 2 ^ w
  if signed && decide (2 ^ (w - 1) ≤ x) then (x : Int) - 2 ^ w else (x : Int)
/-- The lower and upper limit of an integer type. -/
def intLo (w : Nat) (signed : Bool) : Int := if signed then -(2 ^ (w - 1)) else 0
def intHi (w : Nat) (signed : Bool) : Int := if signed then 2 ^ (w - 1) - 1 else 2 ^ w - 1

/-- The exact value of a conversion source (R264). -/
def convSource (st : CTy) (x : Nat) : XReal :=
  match CTy.int st with
  | some (w, s) => .ofInt (asInt w s x)
  | none =>
    match CTy.fmt st with
    | some f => f.decode x
    | none => e8m0Decode x

/-- The width of a conversion destination's code. -/
def CTy.width (t : CTy) : Nat :=
  match CTy.int t with
  | some (w, _) => w
  | none =>
    match CTy.fmt t with
    | some f => f.width
    | none => 8

/-- One element converted (R95, R264, R265): its code and flags. -/
def convert (dt : CTy) (c : RoundCtl) (x : XReal) : Nat × Flags :=
  match CTy.int dt with
  | some (w, s) =>
    let (k, f) := toIntType c.mode (intLo w s) (intHi w s) x
    ((k % 2 ^ w).toNat, f)
  | none =>
    match CTy.fmt dt with
    | some f => roundTo f c x
    | none => toE8m0 c.mode c.sat x

/-- Whether RS rounds an element, and so draws (R96): it is finite and not zero. -/
def rsDraws (x : XReal) : Bool :=
  match x with
  | .fin _ m _ => m != 0
  | _ => false

/-- One element of `fcvt` with its draw: the code, the flags and the generator after it. -/
def convElement (dt st : CTy) (rm : Rm) (sat nbv1 : Bool) (rng : W64) (src : Nat) :
    Nat × Flags × W64 :=
  let x := convSource st src
  if rm == .rs && rsDraws x then
    let rng := rngStep rng
    let (k, f) := convert dt ⟨rm, sat, (rng.setWidth 32).toNat, nbv1⟩ x
    (k, f, rng)
  else
    let (k, f) := convert dt ⟨rm, sat, 0, nbv1⟩ x
    (k, f, rng)

/-- `fcvt` on a register or pair (R264): packed types element by element, bits 15:0 first. -/
def convWord (dt st : CTy) (rm : Rm) (sat nbv1 : Bool) (rng : W64) (src : Nat) :
    Nat × Flags × W64 :=
  match st with
  | .bf16x2 | .f16x2 =>
    let (k0, f0, rng) := convElement dt st rm sat nbv1 rng (src % 2 ^ 16)
    let (k1, f1, rng) := convElement dt st rm sat nbv1 rng (src / 2 ^ 16 % 2 ^ 16)
    (k0 + k1 * 2 ^ 16, f0 ||| f1, rng)
  | _ => convElement dt st rm sat nbv1 rng src

/-! ## The matrix path (R104 to R113) -/

/-- The state of an exact block sum: NaN with its NV, an infinity, or an exact value; and whether
every product so far is −0 (R108). -/
structure SumAcc where
  val : XReal
  flags : Flags
  anyNegInf : Bool
  anyPosInf : Bool
  allNegZero : Bool
  count : Nat
  deriving DecidableEq, Repr

def SumAcc.start : SumAcc := ⟨.zero, 0, false, false, true, 0⟩

/-- One product joined to the sum. -/
def SumAcc.join (s : SumAcc) (a b : XReal) : SumAcc :=
  let (p, f) := mulExact a b
  let count := s.count + 1
  match p with
  | .nan _ => ⟨.nan false, s.flags ||| f ||| .nv, s.anyNegInf, s.anyPosInf, false, count⟩
  | .inf neg =>
    ⟨s.val, s.flags ||| f, s.anyNegInf || neg, s.anyPosInf || !neg, false, count⟩
  | .fin neg m _ =>
    let v := if s.val.isNan then s.val else (addExact false s.val p).1
    ⟨v, s.flags ||| f, s.anyNegInf, s.anyPosInf, s.allNegZero && neg && m == 0, count⟩

/-- The exact sum of the joined products (R108). -/
def SumAcc.value (s : SumAcc) : XReal × Flags :=
  if s.val.isNan then (.nan false, s.flags)
  else if s.anyNegInf && s.anyPosInf then (.nan false, s.flags ||| .nv)
  else if s.anyPosInf then (.inf false, s.flags)
  else if s.anyNegInf then (.inf true, s.flags)
  else if s.val.isZero then (.fin (s.allNegZero && s.count != 0) 0 0, s.flags)
  else (s.val, s.flags)

/-- ExactBlockSum of a list of operand pairs (R108). -/
def exactBlockSum (ps : List (XReal × XReal)) : XReal × Flags :=
  (ps.foldl (fun s p => s.join p.1 p.2) SumAcc.start).value

/-- One FP32 addition by RN, used by accumulators. -/
def accAdd (acc x : Nat) : Nat × Flags := fAdd fp32 .rn acc x

/-- One `mma` block added to an accumulator element (R110). -/
def mmaElement (acc : Nat) (ps : List (XReal × XReal)) : Nat × Flags :=
  let (s, f) := exactBlockSum ps
  let (x, g) := toF32 .rn s
  let (r, h) := accAdd acc x
  (r, f ||| g ||| h)

/-- A list cut into pieces of `n`, the fuel being at least the number of pieces. -/
def chunksOf {α : Type} (n : Nat) : Nat → List α → List (List α)
  | 0, _ => []
  | fuel + 1, xs =>
    match xs with
    | [] => []
    | _ => xs.take n :: chunksOf n fuel (xs.drop n)

/-- The sum of a K-block as NBV 1 forms it: sub-blocks of 32, each rounded, added in order (R109,
R111). -/
def nbv1Sum (ps : List (Option (XReal × XReal))) : Nat × Flags :=
  let parts := (chunksOf 32 (ps.length + 1) ps).map fun c =>
    let (s, f) := exactBlockSum (c.filterMap id)
    let (x, g) := toF32 .rn s
    (x, f ||| g)
  match parts with
  | [] => (0, 0)
  | (x0, f0) :: rest =>
    rest.foldl (fun (acc : Nat × Flags) p =>
      let (x, g) := accAdd acc.1 p.1
      (x, acc.2 ||| p.2 ||| g)) (x0, f0)

/-- The promotion of one K-block into an accumulator element (R111). A skipped product of a sparse
form is `none`: it is absent (R108) but keeps its place in the cut into sub-blocks. -/
def promote (nbv1 : Bool) (acc scaleA scaleB : Nat) (ps : List (Option (XReal × XReal))) : Nat × Flags :=
  let (x, f) :=
    if nbv1 then nbv1Sum ps
    else
      let (s, g) := exactBlockSum (ps.filterMap id)
      let (x, h) := toF32 .rn s
      (x, g ||| h)
  let (x, f1) := fMul fp32 .rn x scaleA
  let (x, f2) := fMul fp32 .rn x scaleB
  let (r, f3) := accAdd acc x
  (r, f ||| f1 ||| f2 ||| f3)

/-! ## Element formats by code (R91) and block records (R104 to R106) -/

/-- An element format named by code. -/
inductive EFmt where
  | flt (f : Fmt)
  | e8m0
  | int (w : Nat)
  | blk (f : Fmt)
  deriving DecidableEq, Repr

/-- The formats of R91; nothing for an invalid code. -/
def eFmtOf : Nat → Option EFmt
  | 0x00 => some (.flt fp32)
  | 0x01 => some (.flt fp16)
  | 0x02 => some (.flt bf16)
  | 0x03 => some (.flt e4m3)
  | 0x04 => some (.flt e5m2)
  | 0x05 => some (.flt e3m2)
  | 0x06 => some (.flt e2m3)
  | 0x07 => some (.flt e2m1)
  | 0x08 => some .e8m0
  | 0x09 => some (.int 8)
  | 0x0A => some (.int 4)
  | 0x0B => some (.int 32)
  | 0x10 => some (.blk e2m1)
  | 0x11 => some (.blk e3m2)
  | 0x12 => some (.blk e2m3)
  | 0x13 => some (.blk e4m3)
  | _ => none

def EFmt.isBlock : EFmt → Bool
  | .blk _ => true
  | _ => false

/-- The bits of an element, or of an element of a block. -/
def EFmt.bits : EFmt → Nat
  | .flt f => f.width
  | .e8m0 => 8
  | .int w => w
  | .blk f => f.width

/-- The bytes of a block record (R104). -/
def recordBytes (f : Fmt) : Nat := 1 + 4 * f.width

/-- The bytes of one grain of a format: a record of a block format, else one. -/
def EFmt.record : EFmt → Nat
  | .blk f => recordBytes f
  | _ => 1

/-- The bytes that `n` elements of a row of dimension 0 take (R90, R104). -/
def EFmt.rowBytes (k : EFmt) (n : Nat) : Nat :=
  match k with
  | .blk f => ceilDiv n 32 * recordBytes f
  | _ => ceilDiv (n * k.bits) 8

/-- The value of an element code of a format that is not a block. -/
def EFmt.value (k : EFmt) (code : Nat) : XReal :=
  match k with
  | .flt f => f.decode code
  | .e8m0 => e8m0Decode code
  | .int w => .ofInt (asInt w true code)
  | .blk f => f.decode code

/-- A block element with its scale code (R105), exact. -/
def blockValue (f : Fmt) (scale code : Nat) : XReal :=
  if scale % 256 = 255 then .nan false
  else
    match f.decode code with
    | .nan _ => .nan false
    | .inf s => .inf s
    | .fin s m e => .fin s m (e + ((scale % 256 : Nat) - 127))

/-- Rounding into an element format that is not a block. -/
def EFmt.round (k : EFmt) (c : RoundCtl) (x : XReal) : Nat × Flags :=
  match k with
  | .flt f => roundTo f c x
  | .e8m0 => toE8m0 c.mode c.sat x
  | .int w =>
    let (i, f) := toIntType c.mode (intLo w true) (intHi w true) x
    ((i % 2 ^ w).toNat, f)
  | .blk f => roundTo f c x

/-- The largest magnitude of a list; a NaN if any is a NaN. -/
def maxMag : List XReal → XReal
  | [] => .zero
  | x :: xs =>
    let m := maxMag xs
    if x.isNan || m.isNan then .nan false
    else if m.lt x.abs then x.abs else m

/-- emax of R106. -/
def blockEmax (f : Fmt) : Int :=
  if f = e4m3 then 8 else if f = e3m2 then 4 else 2

/-- 32 values encoded as a block (R106): the scale code, the element codes and the flags. -/
def encodeBlock (f : Fmt) (xs : List XReal) : Nat × List Nat × Flags :=
  let amax := maxMag xs
  match amax with
  | .fin _ m e =>
    if m = 0 then (0x7F, xs.map fun _ => 0, 0)
    else
      let p0 := floorLog2 (m * pow2Nat e) (pow2Nat (-e)) - blockEmax f
      let p := max (-127) (min 127 p0)
      let rs := xs.map fun x =>
        match x with
        | .fin s m e => roundTo f ⟨.rn, true, 0, false⟩ (.fin s m (e - p))
        | y => roundTo f ⟨.rn, true, 0, false⟩ y
      ((p + 127).toNat, rs.map Prod.fst, rs.foldl (fun a r => a ||| r.2) 0)
  | _ => (0xFF, xs.map fun _ => 0, if xs.any (· == .nan true) then .nv else 0)

/-- The scale of a vector of `tquant`, from its largest magnitude (R113). -/
def quantScale (amax : XReal) : Nat × Flags :=
  match amax with
  | .fin _ m e =>
    if m = 0 then (0x3F800000, 0)
    else roundMag fp32 rnCtl false (m * pow2Nat e) (448 * pow2Nat (-e))
  | x => toF32 .rn x

/-- x / scale rounded into E4M3, the quotient exact (R113). A scale that rounds to 0 or is infinite divides as IEEE 754
does: x/0 is infinite, 0/0 a NaN, ∞/∞ a NaN with NV, x/∞ a zero (DESIGN CHOICE, log 93). -/
def quantElement (x scale : XReal) : Nat × Flags :=
  let c : RoundCtl := ⟨.rn, true, 0, false⟩
  match x, scale with
  | .fin s m e, .fin t n f =>
    if m = 0 then
      if n = 0 then roundTo e4m3 c (.nan false) else roundTo e4m3 c (.fin (s != t) 0 0)
    else if n = 0 then roundTo e4m3 c (.inf (s != t))
    else roundMag e4m3 c (s != t) (m * pow2Nat (e - f)) (n * pow2Nat (f - e))
  | .nan q, _ => roundTo e4m3 c (.nan q)
  | _, .nan _ => roundTo e4m3 c (.nan false)
  | .inf _, .inf _ => (e4m3.nanCode, .nv)
  | .inf s, .fin t _ _ => roundTo e4m3 c (.inf (s != t))
  | .fin s _ _, .inf t => roundTo e4m3 c (.fin (s != t) 0 0)

end Sys2Proof.Machine
end

