-- ==== Sys2Proof/Machine/Table.lean ====
section
/-! DEFINITION. Tables: finite maps from keys to values, held as lists of pairs so that a state is
plain data. A key that no pair names reads as the table's default, which each reader gives. -/

namespace Sys2Proof.Machine

/-- A finite map. A key stands at most once when the table is built by `Tbl.put`. -/
abbrev Tbl (κ α : Type) := List (κ × α)

/-- The value at a key. -/
def Tbl.find {κ α : Type} [DecidableEq κ] : Tbl κ α → κ → Option α
  | [], _ => none
  | (k, a) :: rest, x => if k = x then some a else Tbl.find rest x

/-- The value at a key, or a default. -/
def Tbl.getD {κ α : Type} [DecidableEq κ] (t : Tbl κ α) (x : κ) (d : α) : α := (Tbl.find t x).getD d

/-- The table with the key's value replaced, or joined at the end. -/
def Tbl.put {κ α : Type} [DecidableEq κ] : Tbl κ α → κ → α → Tbl κ α
  | [], x, a => [(x, a)]
  | (k, b) :: rest, x, a => if k = x then (k, a) :: rest else (k, b) :: Tbl.put rest x a

/-- The table without the key. -/
def Tbl.drop {κ α : Type} [DecidableEq κ] (t : Tbl κ α) (x : κ) : Tbl κ α := t.filter fun p => p.1 ≠ x

/-- Whether the table names the key. -/
def Tbl.has {κ α : Type} [DecidableEq κ] (t : Tbl κ α) (x : κ) : Bool := (Tbl.find t x).isSome

end Sys2Proof.Machine
end

