-- ==== Sys2Proof/Machine/State.lean ====
section
/-! DEFINITION. The state of the package: everything the spec gives the machine. Slots, cores,
partitions and the objects of Pergola and Preley stand in tables keyed by their numbers; a key that a
table does not name is at its reset value. Memory holds the whole physical address space (R26), and
with it what the core windows show of scratchpads, accumulators, counter sets and tie vectors (R29). -/

namespace Sys2Proof.Machine

/-! ## Stops -/

/-- Why a step stops with a fault. -/
inductive Fault where
  /-- Raised by an instruction word when no thread of the issuing core stands in the pack or portion.
  SAFE: the hardware issues no word for no thread. -/
  | noThread
  deriving DecidableEq, Repr

/-- Why a step has no meaning. -/
inductive Refusal where
  /-- Raised by an arm of `exec` whose instruction has no meaning yet. SAFE. -/
  | notModelled (mnemonic : String)
  deriving DecidableEq, Repr

/-! ## Small types -/

/-- A memory type (R118). -/
inductive MemTy where
  | wb | sm | hb | uc | spad
  deriving DecidableEq, Repr

/-- A kind of access (R175). -/
inductive Access where
  | load | store | rmw | exec | hint
  deriving DecidableEq, Repr

/-- The domain of a collective (R52). -/
inductive Domain where
  | quarter | group | team
  deriving DecidableEq, Repr

/-- Where an instruction of an engine or a thread stands when it stops for a system fault: what may
hold an access for replay (R200, R204). -/
inductive Requester where
  | thread (t : TId)
  | portion (ts : List TId)
  | copy (core cmd chunk : Nat)
  | tile (g : GId)
  | matrix (g : GId) (quarter : Nat)
  | completion (graph : Nat)
  /-- an access of Pergola for a node -/
  | node (graph node : Nat)
  | spill (core bank k : Nat)
  /-- an outstanding result that a second-tier request is to give -/
  | outload (id : Nat)
  | walkers (ts : List TId)
  | none
  deriving DecidableEq, Repr

/-- A request held for a gated cluster, with the access that its record would show (R200, R418, R419). -/
structure Held where
  who : Requester
  access : Nat := 0
  va : Nat := 0
  ipa : Nat := 0
  pa : Nat := 0
  deriving DecidableEq, Repr

/-- A system fault record (R200). -/
structure Rec where
  kind : Nat
  sev : Nat
  wher : Nat := 0
  access : Nat := 0
  req : Nat := 0
  ucause : Nat := 0
  core : Nat := 0
  slot : Nat := 0
  tti : Nat := 0
  va : Nat := 0
  ipa : Nat := 0
  pa : Nat := 0
  pc : Nat := 0
  tag : W64 := 0
  step : Nat := 0
  seq : Nat := 0
  /-- the graph of its requester, and a number of its own (the model's own; not in its 64 bytes: DEDUCED,
  log 26) -/
  graph : Option Nat := none
  key : Nat := 0
  deriving DecidableEq, Repr

/-! ## Happens-before (R127, R128) -/

/-- Who writes or releases, as happens-before counts it: a thread by its launch, team and team thread index, or the engine
work that counts against a barrier (R138, R141). -/
inductive Actor where
  | thread (launch team tti : Nat)
  | engine (bar : Nat)
  deriving DecidableEq, Repr

/-- The step up to which the actions of each agent happen before a point; of an agent that it does not name, none do. -/
abbrev Clock := Tbl Actor Nat

/-- What hands the order of a release on to an acquire: a word of memory, a store in a buffer, the engine work of a
barrier, the spawn records of a team (R306), an interrupt of a group (R209). -/
inductive Carrier where
  | word (n : Nat)
  | buffered (seq : Nat)
  | work (bar : Nat)
  | spawned (launch team : Nat)
  | interrupt (launch team tgi : Nat)
  deriving DecidableEq, Repr

/-- The order that releases and acquires have made. -/
structure Order where
  /-- what happens before each thread's next access -/
  before : Tbl Actor Clock := []
  /-- the step of each thread's last load that read what a release wrote, with its order: an acquire fence after it is
  an acquire -/
  loads : Tbl Actor (Nat × Clock) := []
  /-- of each thread that a release fence has passed, what happens before its next store -/
  fences : Tbl Actor Clock := []
  carried : Tbl Carrier Clock := []
  deriving DecidableEq, Repr

/-! ## Threads (R31, R149, R197, R307) -/

/-- A bound register (R31, R289, R290). -/
structure Bound where
  value : W32 := 0
  bound : Bool := false
  changed : Bool := false
  pa : Nat := 0
  va : W64 := 0
  revoked : Bool := false
  ovf : Bool := false
  deriving DecidableEq, Repr

/-- A choice point (R310). -/
structure Choice where
  saved : List W32
  /-- the saved registers that hold poison (R208) -/
  savedBad : List Reg := []
  mask : W64
  rpc : Nat
  dreg : Reg
  tmark : Nat
  stolen : Bool
  owner : Nat
  nxt : Nat
  fin : Nat
  pw : Nat
  /-- a program stored into it (R309) -/
  spoiled : Bool := false
  /-- the step at which it came to stand in its thread's stack: a steal that it happens before sees it (R318, R433) -/
  madeAt : Nat := 0
  deriving DecidableEq, Repr

/-- A trail entry (R311). -/
structure Trail where
  addr : Nat
  szl : Nat
  old : W64
  psn : Bool
  /-- a program stored into it (R309) -/
  spoiled : Bool := false
  deriving DecidableEq, Repr

/-- A store that has left its thread and is not published (R125). `held` gives the scope within which
a narrow-held store is visible (R131); `rel` marks a release (DEDUCED, log 17). -/
structure StoreEnt where
  pa : Nat
  bytes : List Byte
  ty : MemTy
  sc : Sc
  rel : Bool
  held : Option Sc := none
  poison : Bool := false
  seq : Nat := 0
  /-- the bound register that wrote it, which its marks pass over (R135) -/
  via : Option Reg8 := none
  /-- a release fence stands after it: no later store passes it (R123) -/
  fenced : Bool := false
  /-- the step at which it issued: the stores of one pack share it (R278) -/
  step : Nat := 0
  /-- a host load has found it, before it is published: a plain store stands in no order toward the host (R125, R448) -/
  shown : Bool := false
  deriving DecidableEq, Repr

/-- What an outstanding result is: a value already read, or a load still to be satisfied (R126). -/
inductive OutVal where
  | known (x : W64) (poison : Bool)
  | load (pa n : Nat) (ty : MemTy) (acq : Option Sc)
  /-- the words of a search, one for each register it names (R387: known when it issues) -/
  | words (xs : List W64)
  /-- a vector already read, and one still to be read, 64 bytes from each address -/
  | hyp (x : HVec) (poison : BitVec 64)
  | hypLoad (blocks : List (Nat × MemTy))
  /-- the result of a portion: it stands with the portion's access thread -/
  | joint
  deriving DecidableEq, Repr

/-- Bytes that a load still to come has taken before the thread's earlier accesses, with their poison (R126). -/
structure Early where
  pa : Nat
  bytes : List (Byte × Bool)
  /-- the order that the stores of them carry (R127) -/
  order : Clock := []
  deriving DecidableEq, Repr

/-- Where an outstanding result goes. -/
inductive OutDest where
  /-- a lane register, or a pair -/
  | lane (d : Reg) (wide : Bool)
  | bound (k : Reg8)
  /-- uniform registers of the group -/
  | uni (ds : List Reg)
  | hyp (h : Reg8)
  /-- no register: the acceptance of a group's tile operation, which its lookahead counts to (R234) -/
  | accept
  deriving DecidableEq, Repr

/-- An outstanding long-latency result with the instructions its lookahead still lets issue (R15,
R50, R234). -/
structure Out where
  id : Nat
  /-- the instruction, its address and the intermediate address -/
  pc : W64 := 0
  va : Nat := 0
  ipa : Nat := 0
  dest : OutDest
  left : Nat
  val : OutVal
  /-- registers of the destination, or 32-bit words of the vector, that an instruction of the lookahead has written
  (R234) -/
  contested : List Nat := []
  /-- a refresh follows when it lands (R133) -/
  acq : Bool := false
  /-- the flags it raises when it completes (R99) -/
  flags : Flags := 0
  /-- its record is answered: it performs its access again, from the translation on (R204) -/
  again : Bool := false
  deriving DecidableEq, Repr

/-- The architectural waits and holds of a thread (R149). -/
inductive Wait where
  | none
  /-- `bwait` on the named registers, with a finite timeout or none -/
  | bound (mask : Byte) (finite : Bool)
  /-- `bar.wait` or `bar.sync` for the phase after `parity` of the barrier at a physical address -/
  | barrier (pa : Nat) (parity : Bool)
  /-- arrived at a collective of a domain -/
  | collective (dom : Domain)
  /-- the next instruction touches a uniform register whose result, the named one, is outstanding (R322) -/
  | parked (out : Nat)
  /-- a clear presence bit of a scratchpad line -/
  | presence (line : Nat)
  /-- a page walk, of a load or atomic where `load` is true -/
  | walk (id : Nat) (load : Bool)
  | stealLanding
  /-- an `mfence` (`fence` true) or `mwait` that has executed and not completed -/
  | matrix (fence : Bool)
  /-- a quarter's full matrix queue, or a busy tile sequencer where none is named -/
  | queue (quarter : Option Nat)
  | table
  | spawn
  /-- no free copy command number -/
  | copySlot
  /-- a request held for a cluster whose ingress is closed (R418), of a load or atomic where `load` is true -/
  | remote (cluster : Nat) (load : Bool)
  /-- a filed record of the partition awaits an answer -/
  | fault (part handle : Nat)
  /-- a replayable fault waits for space in the trap queue: the number of its record -/
  | space (key : Nat)
  | yield
  /-- a trap within a lookahead, taken once the outstanding results have landed (R234) -/
  | trap (cause detail : Nat) (info : W32)
  /-- no trap handler and no record could hold the thread: halted partition -/
  | stopped
  deriving DecidableEq, Repr

/-- Whether a wait is one of the architectural waits of R149: a wait for a free command number, for the results that a
trap awaits, or for the walk or a gated cluster of a store or a fetch is none. -/
def Wait.isArch : Wait → Bool
  | .none | .copySlot | .trap _ _ _ => false
  | .walk _ load | .remote _ load => load
  | _ => true

/-- The registers an access was formed from, kept while it is held (R204). -/
structure Snap where
  v : Vector W32 64
  s : Vector W64 64
  h : Vector HVec 8
  /-- the step at which it was held: the threads of one portion share it -/
  since : Nat
  /-- the word -/
  word : Nat := 0
  deriving DecidableEq, Repr

/-- A pending user-level interrupt: who raised it (R209, R334). -/
inductive Uint where
  | program
  | preley
  deriving DecidableEq, Repr

/-- The state of a thread slot. -/
structure Thread where
  live : Bool := false
  tti : Nat := 0
  pc : W64 := 0
  v : Vector W32 64 := Vector.replicate 64 0
  p : Byte := 1
  b : Vector Bound 8 := Vector.replicate 8 {}
  fresh : Byte := 0
  lastto : Bool := false
  rng : W64 := 0
  trappc : W64 := 0
  trapcause : W64 := 0
  framebase : W64 := 0
  cpbase : W64 := 0
  trailbase : W64 := 0
  /-- the choice stack, newest first; DEPTH is its length -/
  stk : List Choice := []
  /-- the trail, newest first; TTOP is its length -/
  trl : List Trail := []
  /-- its search frame is still to be zeroed: a page of it did not translate (R308) -/
  frameDue : Bool := false
  wait : Wait := .none
  /-- instructions issued since the thread left its last architectural wait, at most 256 (R151) -/
  since : Nat := 256
  /-- an architectural wait has ended, and it has issued nothing since (R159) -/
  woken : Bool := false
  age : Nat := 0
  lastIssue : Nat := 0
  /-- the page walk of the instruction at `pc` has completed -/
  walked : Bool := false
  /-- the instruction at `pc` has issued before and is performed again (the model's own) -/
  again : Bool := false
  /-- what the device keeps of the access it holds (R204) -/
  snap : Option Snap := none
  /-- the word at `pc` was held by a record before it was fetched, or in a refresh: no interrupt comes before it (R204) -/
  owed : Bool := false
  /-- the step at which its portion came to wait for a schedule entry: the threads of one portion share it (R51, R76) -/
  portion : Option Nat := none
  /-- a line whose clean copy a soft error has struck, until it is read (R207) -/
  struck : Option Nat := none
  uint : Option Uint := none
  /-- a thread of a spawn group has not yet issued: its first instruction is an acquire (R306) -/
  firstAcquire : Bool := false
  /-- refresh before the next instruction: the context was restored (R210) -/
  restored : Bool := false
  sb : List StoreEnt := []
  outs : List Out := []
  /-- what loads still to come have taken early (R126) -/
  early : List Early := []
  /-- it goes on, though loads stand whose lookahead has ended: they may be satisfied after its later accesses (R126) -/
  beyond : Bool := false
  /-- the narrow scope of a release fence whose first store is still to come (R127, R131) -/
  fence : Option Sc := none
  vPoison : BitVec 64 := 0
  pPoison : Byte := 0
  bPoison : Byte := 0
  /-- a soft error of its Trellis or directory entries waits for it (R207) -/
  trellisError : Bool := false
  directoryError : Bool := false
  /-- when each lane register was last written (R348) -/
  stamps : Tbl Nat Nat := []
  deriving DecidableEq, Repr

/-! ## Groups (R32, R98, R109, R336, R338, R355, R369) -/

/-- An operand of an `mma`: lane registers of its format, or a descriptor's two words (R340, R342). -/
inductive MatOpnd where
  | lanes (r : Reg) (fmt : Nat)
  | desc (w0 w1 : W64)
  deriving DecidableEq, Repr

/-- What an operation of a matrix queue does, with the uniform registers it read (R338, R345). -/
inductive MatKind where
  | mma (a b : MatOpnd) (shape : W64) (sparse : Option W64) (fp8 : Bool)
  | zero
  deriving DecidableEq, Repr

/-- An operation of a matrix queue. -/
structure MatOp where
  acc : Nat
  kind : MatKind
  pc : W64 := 0
  /-- lanes of the quarter that held a live thread when it was accepted -/
  lanes : List Nat := []
  /-- the start of its stability window, and what happens before that (R348) -/
  window : Nat := 0
  before : Clock := []
  performed : Bool := false
  /-- the rows and columns it has computed -/
  rows : List Nat := []
  cols : List Nat := []
  deriving DecidableEq, Repr

/-- Which tile instruction runs. -/
inductive TileKind where
  | gemm
  | quant
  | copy (rm : TileRm) (sat : Bool)
  deriving DecidableEq, Repr

/-- A tile operation in progress (R355): its entries read, its NBV latched. -/
structure TileOp where
  kind : TileKind
  dst : Vector W64 4
  srcA : Vector W64 4
  srcB : Vector W64 4
  /-- the physical address of its barrier -/
  bar : Nat
  nbv1 : Bool
  pc : W64
  /-- held for a replay, and the number of the record that holds it -/
  held : Bool := false
  key : Nat := 0
  /-- a touched working accumulator leaves the tiles not yet written undefined (R357) -/
  spoiled : Bool := false
  deriving DecidableEq, Repr

/-- The kind of a copy command (R362). -/
inductive CopyKind where
  | flat | gather | scatter
  deriving DecidableEq, Repr

/-- A copy command with the registers it read (R362, R364). -/
structure CopyCmd where
  kind : CopyKind
  dst : W64
  src : W64
  count : W64
  idx : W64
  /-- the physical address of its barrier -/
  bar : Nat
  group : GId
  slots : List Nat
  pc : W64
  /-- chunks landed, and chunks held for a replay -/
  landed : List Nat := []
  held : List Nat := []
  bytesLanded : Nat := 0
  /-- scratchpad lines it cleared, with the bytes it has still to land in each (R365) -/
  cleared : Tbl Nat Nat := []
  /-- its place in the order of issue (R163), and the chunks that an answer lets replay (R211) -/
  seq : Nat := 0
  again : List Nat := []
  /-- its place in the order of acceptance (R365) -/
  accepted : Nat := 0
  /-- elements of a `cpys` that have not landed, with the index that was read for each, whose lines are cleared (R365) -/
  indexed : Tbl Nat Nat := []
  /-- bytes that the command both reads and writes and has written, as they stood before, with their poison (R366) -/
  kept : Tbl Nat (Byte × Bool) := []
  /-- the context of its group, which a spill may take from its place (R213) -/
  ctx : Nat := 0
  deriving DecidableEq, Repr

/-- A barrier token (R369). -/
structure Token where
  addr : Nat
  parity : Bool
  deriving DecidableEq, Repr

/-- The state of a group slot. -/
structure Group where
  live : Bool := false
  /-- before placement 16 (DESIGN CHOICE, log 3) -/
  width : Nat := 16
  launch : Nat := 0
  team : Nat := 0
  tgi : Nat := 0
  s : Vector W64 64 := Vector.replicate 64 0
  q : Byte := 1
  h : Vector HVec 8 := Vector.replicate 8 0
  accFirst : Nat := 0
  accCount : Nat := 0
  /-- the pool set of each ck, where it is mapped -/
  cmap : Vector (Option Nat) 4 := Vector.replicate 4 none
  fpstat : Flags := 0
  /-- the cycle of its core in which it last raised flags, and those (R99) -/
  flagsAt : Nat := 0
  flagsNow : Flags := 0
  nbv1 : Bool := false
  level : Nat := 23
  busy : Bool := false
  stepNo : Nat := 0
  trapvec : W64 := 0
  tile : Option TileOp := none
  /-- the operations of each quarter, oldest first, until the `mwait` after them returns -/
  mq : Tbl Nat (List MatOp) := []
  /-- when each quarter's latest `mfence` completed, and what happened before it -/
  fenceAt : Tbl Nat Nat := []
  fenceOrder : Tbl Nat Clock := []
  /-- accumulator blocks changed since the latest `mwait`, as they stood at it (R218) -/
  accOld : Tbl Nat (List Byte) := []
  placedAt : Nat := 0
  /-- the number of its context -/
  ctx : Nat := 0
  /-- newest first -/
  tokens : List Token := []
  /-- commands of portions that wait for a free command number (R364) -/
  copyWait : List CopyCmd := []
  /-- a launch-fatal record of its matrix units is filed (the model's own) -/
  fatal : Bool := false
  sPoison : BitVec 64 := 0
  qPoison : Byte := 0
  /-- poisoned 64-bit words of h0 to h7, word i of hk at bit 64k + i -/
  hPoison : BitVec 512 := 0
  deriving DecidableEq, Repr

/-! ## Contexts (R210 to R216) -/

/-- What a spilled bank leaves behind in the implementation-specific parts of its save area. -/
structure SpilledBank where
  threads : Tbl TId Thread := []
  groups : Tbl GId Group := []
  deriving DecidableEq, Repr

/-- A scratchpad allocation of a team (R68). -/
structure SpadAlloc where
  launch : Nat
  team : Nat
  base : Nat
  size : Nat
  deriving DecidableEq, Repr

/-- A context: the groups of one launch on one core, in one bank set (R210). Its number gives its save
area (R215). -/
structure Ctx where
  core : Nat := 0
  bank : Nat := 0
  launch : Nat := 0
  /-- t0 to t63, those not named being zero -/
  tid : Tbl Nat (Vector W64 4) := []
  /-- where it stands in the order of displacement; nothing while it is active -/
  displaced : Option Nat := none
  /-- displaced by a progress swap (R158), not by a priority pre-emption -/
  byProgress : Bool := false
  spilled : Tbl Nat SpilledBank := []
  /-- counter sets with the team that holds each, scratchpad allocations, and the absent lines of
  those, spilled whole (R213) -/
  spilledSets : Tbl Nat Nat := []
  spilledSpad : List SpadAlloc := []
  spilledAbsent : List Nat := []
  /-- its save area, in units of 2 MiB (R215) -/
  save : Nat := 0
  deriving DecidableEq, Repr

/-! ## Cores and clusters -/

/-- A record of a spawn bin or an overflow queue (R72). -/
structure SpawnRec where
  arg : W64
  parent : Nat
  deriving DecidableEq, Repr

/-- A spawn bin that is not empty (R72). -/
structure Bin where
  entry : W64
  launch : Nat
  team : Nat
  recs : List SpawnRec
  /-- its timer ended, or it is full: it fires as soon as room frees (R74) -/
  due : Bool := false
  deriving DecidableEq, Repr

/-- What comes in when a swap completes (R157, R210, R213): a team of a launch, with its group count
on this core and the first of its group indices; the contexts of one displacement; or the held-back
spawn bins of a launch. -/
inductive SwapKind where
  | incoming (launch team first count : Nat)
  | returning (order : Nat)
  | spawned (launch : Nat)
  | empty
  deriving DecidableEq, Repr

/-- A launch's schedule table on a core with its cursor (R75, R76): an entry not yet written is none. -/
structure Schedule where
  entries : List (Option W32)
  cursor : Nat := 0
  deriving DecidableEq, Repr

structure Core where
  act : Nat := 0
  swap : Option SwapKind := none
  allocs : List SpadAlloc := []
  /-- counter sets of the pool in use, with the context and team that hold each -/
  sets : Tbl Nat (Nat × Nat) := []
  copies : Tbl Nat CopyCmd := []
  bins : Tbl Nat Bin := []
  /-- the schedule table of each launch on this core (R75) -/
  tables : Tbl Nat Schedule := []
  /-- bytes of SM lines in its L1, with the dirty mask, and those of them that are poisoned (R119, R207) -/
  smL1 : List (Nat × Byte × Bool) := []
  smBad : List Nat := []
  gated : Bool := false
  /-- restarting after a waking event (R155) -/
  restarting : Bool := false
  /-- the issue slot that chooses next, and the threads that slot 1 chooses from: those ready when slot 0
  chose, which it did not take (R44, R46) -/
  slot : Nat := 0
  offered : List TId := []
  /-- threads of the paths that have issued in this cycle (R45), and those that slot 0 issued, which stand at their next
  word from the next cycle on -/
  issued : List TId := []
  taken : List TId := []
  /-- the pack of slot 0 that lets slot 1's take a schedule entry first (R76) -/
  deferred : List TId := []
  cycle : Nat := 0
  deriving DecidableEq, Repr

structure Cluster where
  owner : Option Nat := none
  /-- Glasshouse entries that are valid (R383) -/
  entries : Tbl Nat HVec := []
  entryPoison : List Nat := []
  level : Nat := 0
  settling : Option Nat := none
  /-- no partition owns it after reset, so it is gated (R165); its health word shows that beside the reset value 0 of R409
  (DESIGN CHOICE, log 95) -/
  gated : Bool := true
  /-- requests held while it is gated, in arrival order (R418) -/
  heldReqs : List Held := []
  /-- the last sample's temperature, core voltage and process code (R410) -/
  temp : Nat := 0
  volt : Nat := 0
  process : Nat := 0
  /-- the partition whose context last issued matrix work on it (R414) -/
  lastMatrix : Option Nat := none
  /-- its ceiling by the boiling limit, before the first sample 23 (DESIGN CHOICE, log 8) -/
  boil : Nat := 23
  deriving DecidableEq, Repr

structure Die where
  /-- bytes of SM lines in its LLC, and those of them that are poisoned (R119, R207) -/
  smLlc : List (Nat × Byte) := []
  smLlcBad : List Nat := []
  cap : Nat := 900
  slope : Nat := 40
  tsat : Nat := 560
  super : Nat := 25
  /-- how many of a partition's regions were in flight when its Pergola context on the die last found no room for a
  node's (R67, R183) -/
  regionStop : Tbl Nat Nat := []
  power : Nat := 0
  hot : Bool := false
  trip : Bool := false
  hotcl : Nat := 0
  tmax : Nat := 0
  /-- filler energy since reset in nJ: FILLMJ shows it in mJ (R414) -/
  fill : Nat := 0
  sece : Nat := 0
  seue : Nat := 0
  /-- the partition whose walk its walker last took from those that waited (R180) -/
  lastWalk : Nat := 0
  deriving DecidableEq, Repr

/-! ## Partitions -/

/-- A physical range register (R167). -/
structure Range where
  en : Bool := false
  base : Nat := 0
  limit : Nat := 0
  deriving DecidableEq, Repr

/-- The scope a debugger halts (R217). -/
inductive HaltScope where
  | group | team | launch
  deriving DecidableEq, Repr

/-- What a halted scope holds. -/
inductive Halted where
  | group (g : GId)
  | team (launch team : Nat)
  | launch (launch : Nat)
  deriving DecidableEq, Repr

/-- A debugger attachment (R219, R220). -/
structure Debugger where
  handle : Nat
  mailbox : Nat
  scope : HaltScope
  area : Nat
  vector : Nat
  events : Nat := 0
  halted : List Halted := []
  frozen : Bool := false
  deriving DecidableEq, Repr

/-- A peer that a peer-map call has mapped (R400, R405): the first bytes of its identity key's digest,
the partition its requests act for, and the Oluhus ports that carry it. -/
structure Peer where
  digest : W64
  part : Nat
  ports : BitVec 12
  deriving DecidableEq, Repr

structure Partition where
  state : Nat := 0
  clusters : BitVec 80 := 0
  s2root : Nat := 0
  allot : Nat := 0
  meter : Nat := 0
  overrun : Bool := false
  /-- filler energy charged since the last sample, in nJ (R185, R414) -/
  fill : Nat := 0
  hostports : BitVec 16 := 0
  ranges : Vector Range 16 := Vector.replicate 16 {}
  tqbase : Nat := 0
  tqen : Bool := false
  /-- records filed and consumed, as unbounded counts; the registers show them modulo 2 ^ 32 -/
  tqprod : Nat := 0
  tqcons : Nat := 0
  fxv : Bool := false
  fatalx : List Byte := []
  waiting : List (Rec × Requester) := []
  opened : Tbl Nat (Rec × Requester) := []
  ceiling : Nat := 23
  debugger : Option Debugger := none
  measured : Option (List Byte) := none
  /-- peers that may be reached, by peer number (R400) -/
  peers : Tbl Nat Peer := []
  deriving DecidableEq, Repr

/-! ## Pergola (R55 to R83) -/

structure Queue where
  part : Nat
  mailbox : Nat := 0
  ring : W64
  logn : Nat
  root1 : Nat
  asn : Nat
  die : Nat := 0
  prod : W64 := 0
  cons : W64 := 0
  /-- the physical addresses of its doorbell register and its consumer index (R55) -/
  doorbell : Nat := 0
  consumer : Nat := 0
  destroyed : Bool := false
  deriving DecidableEq, Repr

/-- A kernel descriptor (R241). -/
structure Kernel where
  entry : W64 := 0
  nwords : Nat := 0
  group : Nat := 32
  team : Nat := 32
  regs : Nat := 64
  acc : Nat := 0
  hvc : Nat := 8
  ncset : Nat := 0
  spad : Nat := 0
  frame : Nat := 0
  binto : Nat := 512
  binq : Nat := 1024
  params : List W64 := []
  tidmap : List Nat := []
  deriving DecidableEq, Repr

/-- A tile region (R65, R78): base, bytes past the base of its last byte, read and written. -/
structure Region where
  lo : Nat
  hi : Nat
  empty : Bool
  rd : Bool
  wr : Bool
  deriving DecidableEq, Repr

/-- The kinds of nodes (R60, R79). -/
inductive NodeKind where
  | launch (kernel : Kernel) (teams : Nat)
  | tileCopy (src dst : Nat)
  | cond (addr : W64)
  | loop (addr : W64) (limit : Nat)
  | event (addr value : W64)
  | signal (addr value : W64) (vector : Nat)
  deriving DecidableEq, Repr

/-- Where a node instance stands. -/
inductive NodePhase where
  | waiting | ready | admitted | running | done | skipped
  deriving DecidableEq, Repr

structure Node where
  kind : NodeKind
  regions : List Region := []
  phase : NodePhase := .waiting
  iters : Nat := 0
  /-- its index in the binary; of an instance that an earlier iteration left incomplete, also when that iteration
  ended and the nodes of the body (R64, R66) -/
  index : Nat := 0
  past : Option Nat := none
  body : List Nat := []
  deriving DecidableEq, Repr

/-- The kinds of edges (R80). -/
inductive EdgeKind where
  | order | ifTrue | ifFalse | body | exit | back
  deriving DecidableEq, Repr

structure Edge where
  src : Nat
  dst : Nat
  kind : EdgeKind
  /-- nothing while unresolved; whether it is taken -/
  taken : Option Bool := none
  deriving DecidableEq, Repr

structure Graph where
  queue : Nat
  prio : Nat
  addr : W64
  done : W64
  value : W64
  tag : W64
  /-- its place in the submission order of its queue -/
  order : Nat := 0
  nodes : List Node := []
  edges : List Edge := []
  /-- the memory plan: schedule tables, templates, overflow rings and search pool -/
  tables : List (List W32) := []
  templates : Tbl Nat (Vector W64 4) := []
  overflow : List (Nat × Nat) := []
  pool : Option (Nat × Nat) := none
  status : Option Nat := none
  complete : Bool := false
  /-- its completion record, which a gated cluster held, is to be stored (R418) -/
  due : Bool := false
  /-- iterations begun by its while nodes (the model's own) -/
  turns : Nat := 0
  deriving DecidableEq, Repr

/-- The ring of a team's overflow queue (R74): base, capacity, head and count. -/
structure Overflow where
  base : Nat
  cap : Nat
  head : Nat := 0
  count : Nat := 0
  deriving DecidableEq, Repr

structure Launch where
  /-- the number that the save area and the debugger show (R215, R220) -/
  number : W64 := 0
  graph : Nat
  node : Nat
  part : Nat
  prio : Nat := 0
  root1 : Nat := 0
  asn : Nat := 0
  tag : W64 := 0
  kernel : Kernel := {}
  teams : Nat := 1
  nextTeam : Nat := 0
  /-- team group indices used by each team -/
  nextTgi : Tbl Nat Nat := []
  tables : List (List W32) := []
  placedCores : List Nat := []
  templates : Tbl Nat (Vector W64 4) := []
  pool : Option (Nat × Nat) := none
  /-- search records in use, with the team and team thread index of the thread of each -/
  poolTaken : Tbl Nat (Nat × Nat) := []
  overflow : Tbl Nat Overflow := []
  ended : Bool := false
  complete : Bool := false
  deriving DecidableEq, Repr

/-- A tile-copy node whose bytes are written and whose completion is to come (R60, R62). -/
structure NodeCopy where
  graph : Nat
  node : Nat
  deriving DecidableEq, Repr

/-! ## Preley, links and outputs -/

structure Mailbox where
  base : Nat := 0
  en : Bool := false
  logn : Nat := 0
  prod : Nat := 0
  done : Nat := 0
  msix : Nat := 0xFFFF
  parts : BitVec 20 := 0
  port : Nat := 0
  deriving DecidableEq, Repr

structure Link where
  eye : Nat := 0
  wlane : Nat := 0
  corr : Nat := 0
  hdmerr : Nat := 0
  eyeth : Nat := 20
  corrth : Nat := 1000
  degraded : Bool := false
  down : Bool := true
  /-- flits corrected since the last window; windows of low eye margin, and of neither condition, in a
  row (R416) -/
  count : Nat := 0
  lowEye : Nat := 0
  good : Nat := 0
  deriving DecidableEq, Repr

/-- MESI on the device side (R392). -/
inductive Mesi where
  | m | e | s
  deriving DecidableEq, Repr

/-- A request on CXL.cache from the device to the host (R389). -/
inductive CacheReq where
  | rdShared | rdOwn | rdCurr | cleanEvict | dirtyEvict
  deriving DecidableEq, Repr
/-- A back-invalidate snoop of CXL.mem (R389). -/
inductive BackSnoop where
  | data | inv | cur
  deriving DecidableEq, Repr

/-- What the package sends out. -/
inductive Output where
  | msix (port vector : Nat)
  | serviceSignal (part : Nat)
  | preleySignal (mailbox : Nat)
  | spdm (port : Nat) (bytes : List Byte)
  /-- ERROR with UnsupportedRequest (R192) -/
  | spdmError (port code : Nat)
  /-- the answer to a host's read of device memory, with its MetaValue (R394, R395) -/
  | hostData (port pa : Nat) (bytes : List Byte) (meta_ : Meta)
  | cache (req : CacheReq) (pa : Nat)
  | backSnoop (kind : BackSnoop) (pa : Nat)
  | snoopData (pa : Nat) (bytes : List Byte)
  | peerData (peer pa : Nat) (bytes : List Byte)
  | poisoned (port pa : Nat)
  /-- the error response to a host request beyond HDMSIZE (R390) -/
  | hostError (port pa : Nat)
  /-- a peer's request that fails its check (R401) -/
  | peerRefused (peer pa : Nat)
  deriving DecidableEq, Repr

structure Boot where
  /-- the ROM has run -/
  started : Bool := false
  firmwareOk : Bool := false
  preleyOk : Bool := false
  m1 : List Byte := []
  m2 : List Byte := []
  m3 : List Byte := []
  deriving DecidableEq, Repr

/-- The health block (R409). -/
structure Health where
  input : W64 := 0
  st1 : Vector W64 4 := Vector.replicate 4 0
  st2 : Vector W64 6 := Vector.replicate 6 0
  /-- HLBASE as written: the base and EN -/
  hlbase : Nat := 0
  hlprod : Nat := 0
  hllost : Nat := 0
  hevec : Nat := 0xFFFF
  lowInput : Bool := false
  deriving DecidableEq, Repr

/-- A key that Preley holds for a partition (R83). -/
structure SigningKey where
  part : Nat
  key : List Byte
  deriving DecidableEq, Repr

/-- An expander of a root port, or a group of 2, 4 or 8 of equal capacity that are interleaved at 4 KiB (R398): the
ports in the order of their ways, and the capacity of each in bytes. -/
structure Expander where
  ports : List Nat
  capacity : Nat
  deriving DecidableEq, Repr

/-- What the device configuration sets, fixed until the next reset (R191) (DESIGN CHOICE, log 71). -/
structure Device where
  /-- the ports in host mode (R389): X0 alone where the configuration names none -/
  hostPorts : List Nat := [0]
  /-- device memory that hosts map, in bytes (R390) -/
  hdmSize : Nat := 0
  /-- the expanders of second-tier memory, alone or in interleaved groups (R398) -/
  expanders : List Expander := []
  /-- the first 8 bytes of the identity-key digest that each peer presents (R405) -/
  peerIdentity : Tbl Nat W64 := []
  /-- the keys that Preley holds for partitions (R83) -/
  keys : List SigningKey := []
  /-- the signatures that are valid: the key, the digest signed, and the 114 bytes of the signature (R83) -/
  signed : List (List Byte × List Byte × List Byte) := []
  deriving DecidableEq, Repr

/-- The permissions of a leaf: R, W and X (R174). -/
structure Perm where
  r : Bool
  w : Bool
  x : Bool
  deriving DecidableEq, Repr

/-- A translation that a cluster's TLBs hold since a walk of the tables gave it: a 4 KiB region of a partition and ASN,
its intermediate and physical address, the permissions of both stages and the memory type (R179). -/
structure TlbEntry where
  cluster : Nat
  part : Nat
  asn : Nat
  page : Nat
  ipa : Nat
  pa : Nat
  p1 : Perm
  p2 : Perm
  ty : MemTy
  deriving DecidableEq, Repr

/-- A non-leaf entry of the tables that a die's walk cache holds (R179): of a stage, a partition and, in stage 1, an ASN,
the region that it maps at its level, the intermediate address that it was read at in stage 1, and its word. -/
structure WalkEntry where
  die : Nat
  part : Nat
  asn : Nat
  two : Bool
  level : Nat
  region : Nat
  place : Nat
  raw : Nat
  deriving DecidableEq, Repr

/-- A page walk under way with the threads merged onto it (R180). -/
structure Walk where
  part : Nat
  asn : Nat
  page : Nat
  va : Nat
  access : Access
  ts : List TId
  /-- the die whose walker it is of; one beyond the walker's 64 has not started -/
  die : Nat := 0
  started : Bool := true
  deriving DecidableEq, Repr

/-! ## Caches (R25, R279) -/

/-- A cache of the package: a core's L1, a die's LLC, or the device system cache of an I/O die (R24). -/
inductive CacheId where
  | l1 (core : Nat) | llc (die : Nat) | sys (io : Nat)
  deriving DecidableEq, Repr

/-- A line of a cache with its replacement priority (R279): the priority its fill gave it, the one it has now,
and when it was last used. Priorities are 0 evict-first, 1 normal, 2 evict-last. -/
structure CacheLine where
  cache : CacheId
  line : Nat
  filled : Nat
  prio : Nat
  used : Nat
  deriving DecidableEq, Repr

/-! ## What moves next (the model's own) -/

/-- The pack or portion that issues: thread slots of one bank set of a core, in order (R47, R48). -/
structure Cur where
  core : Nat
  bank : Nat
  slots : List Nat
  deriving DecidableEq, Repr

/-- What moves next: an event, an issue slot of a core, a portion that replays, a load that passes the accesses before
it, or a thread that goes on past its loads (DESIGN CHOICE, log 1). -/
inductive Move where
  | event (i : Instr)
  | issue (core : Nat)
  | replay (c : Cur)
  /-- a load of a thread still to come takes bytes at an address before the thread's earlier accesses (R126) -/
  | early (t : TId) (pa n : Nat)
  /-- a thread goes on past the lookahead of its outstanding loads, which its later accesses pass (R126) -/
  | beyond (t : TId)
  deriving DecidableEq, Repr

/-- How an access goes: its result lands at once, later, or after a page walk, or the expander it asks gives no answer
(R399) (DESIGN CHOICE, log 5). -/
inductive Delay where
  | now | late | walk | lost
  deriving DecidableEq, Repr

/-! ## The state -/

structure State where
  mem : List Host.Cell := []
  /-- poisoned 8-byte words of memory, by number -/
  poison : List Nat := []
  /-- scratchpad lines whose presence bit is clear, by number: physical address / 128 (R36) -/
  absent : List Nat := []
  /-- the step of the latest write of each scratchpad byte, and who made it (R348) -/
  spadStamps : Tbl Nat (Nat × Option Actor) := []
  /-- what releases and acquires have ordered (R127) -/
  order : Order := {}
  /-- the nine bytes of fields that the latest barrier update left at each barrier that was initialised (R367) -/
  bars : Tbl Nat (List Byte) := []
  threads : Tbl TId Thread := []
  groups : Tbl GId Group := []
  ctxs : Tbl Nat Ctx := []
  cores : Tbl Nat Core := []
  clusters : Tbl Nat Cluster := []
  dies : Tbl Nat Die := []
  parts : Tbl Nat Partition := []
  /-- the performance counters of each partition, those not named being zero (R189) -/
  pmcs : Tbl Nat (Vector W64 16) := []
  queues : Tbl Nat Queue := []
  graphs : Tbl Nat Graph := []
  launches : Tbl Nat Launch := []
  nodeCopies : List NodeCopy := []
  walks : Tbl Nat Walk := []
  /-- translations that walks have left in the TLBs (R179), newest first -/
  tlb : List TlbEntry := []
  /-- the non-leaf entries that the dies' walk caches hold (R179), newest first -/
  walkCache : List WalkEntry := []
  mailboxes : Tbl Nat Mailbox := []
  links : Tbl Nat Link := []
  /-- lines of host-backed memory the system caches hold (R392) -/
  hbLines : Tbl Nat Mesi := []
  /-- what the host's own cache holds of those lines, as its requests and the device's say (R392) -/
  hostHalf : Tbl Nat Mesi := []
  /-- HBM pages in host bias (R393); lines the host holds, as Any where true and else as S (R395) -/
  hostBias : List Nat := []
  snoopFilter : Tbl Nat Bool := []
  device : Device := {}
  health : Health := {}
  boot : Boot := {}
  outputs : List Output := []
  /-- lines written by a release at a narrow scope while stores it orders are unpublished, with the releasing
  thread and the scope (R131) -/
  narrow : List (Nat × TId × Sc) := []
  /-- the lines that the caches hold (R279) -/
  lines : List CacheLine := []
  /-- the model's own: the agenda, the plan, the pack that issues and its word, the fresh numbers, the counter -/
  agenda : List Move := []
  plan : List Delay := []
  cur : Option Cur := none
  curWord : Nat := 0
  fresh : Nat := 0
  tick : Nat := 0
  /-- the event that moved found nothing to do (the model's own) -/
  idle : Bool := false
  deriving DecidableEq, Repr

/-- The package right after reset: nothing placed, no partition enabled, no memory written
(DESIGN CHOICE, log 3) (DEDUCED, log 4). -/
def State.reset : State := {}

end Sys2Proof.Machine
end

