-- ==== Sys2Proof/Machine/Mem.lean ====
section
/-! DEFINITION. Memory as cells: the byte at a physical address, writes that keep the canonical form
(addresses strictly rising, no cell equal to what an unlisted address reads as), and the little-endian
values of wider accesses, decided here once. -/

namespace Sys2Proof.Machine

/-- What a byte of memory that nothing has written reads as: zero (log 2; R171 zeroes granted memory)
(DESIGN CHOICE, log 2). -/
def unlisted : Byte := 0

/-- The byte at an address. -/
def readCell : List Host.Cell → Nat → Byte
  | [], _ => unlisted
  | (k, x) :: rest, a => if a < k then unlisted else if a = k then x else readCell rest a

/-- A cell to stand before `rest`, or none where it reads as unlisted. -/
def consCell (a : Nat) (x : Byte) (rest : List Host.Cell) : List Host.Cell :=
  if x = unlisted then rest else (a, x) :: rest

/-- Memory with one byte written. -/
def writeCell : List Host.Cell → Nat → Byte → List Host.Cell
  | [], a, x => consCell a x []
  | (k, y) :: rest, a, x =>
    if a < k then consCell a x ((k, y) :: rest)
    else if a = k then consCell a x rest
    else (k, y) :: writeCell rest a x

/-- Addresses above `lo` strictly rising and no cell unlisted. -/
def wfFrom : Option Nat → List Host.Cell → Bool
  | _, [] => true
  | lo, (k, x) :: rest =>
    (match lo with
      | none => true
      | some l => decide (l < k)) && x != unlisted && wfFrom (some k) rest

/-- The canonical form of memory. -/
def Memory.wf (m : List Host.Cell) : Bool := wfFrom none m

/-- `n` bytes from an address upward. -/
def readBytes (m : List Host.Cell) (a : Nat) : Nat → List Byte
  | 0 => []
  | n + 1 => readCell m a :: readBytes m (a + 1) n

/-- Memory with bytes written from an address upward. -/
def writeBytes (m : List Host.Cell) (a : Nat) : List Byte → List Host.Cell
  | [] => m
  | x :: xs => writeBytes (writeCell m a x) (a + 1) xs

/-- The number that bytes hold, the lowest address least significant (R221, R31). -/
def ofBytes : List Byte → Nat
  | [] => 0
  | x :: xs => x.toNat + 256 * ofBytes xs

/-- The `n` low bytes of a number, the least significant first. -/
def toBytes : Nat → Nat → List Byte
  | 0, _ => []
  | n + 1, x => BitVec.ofNat 8 x :: toBytes n (x / 256)

/-- The number in `n` bytes of memory. -/
def readLE (m : List Host.Cell) (a n : Nat) : Nat := ofBytes (readBytes m a n)
/-- Memory with a number written into `n` bytes. -/
def writeLE (m : List Host.Cell) (a n x : Nat) : List Host.Cell := writeBytes m a (toBytes n x)

/-- Whether `n` bytes at `a` and `k` bytes at `b` share one. -/
def overlaps (a n b k : Nat) : Bool := decide (a < b + k) && decide (b < a + n)

/-- Bits `hi : lo` of a number. -/
def bitsOf (x hi lo : Nat) : Nat := x / 2 ^ lo % 2 ^ (hi - lo + 1)

end Sys2Proof.Machine
end

