-- ==== Sys2Proof/Machine/Ops.lean ====
section
/-! DEFINITION. The named operations over the state: reading and replacing each object, the owners of
slots, counters, wakes, filing a system fault record (R200 to R202), taking a trap (R198) and the
return from one (R302), which every family shares. -/

namespace Sys2Proof.Machine

/-! ## Objects of the state -/

def State.thread (s : State) (t : TId) : Thread := Tbl.getD s.threads t {}
def State.setThread (s : State) (t : TId) (x : Thread) : State := { s with threads := Tbl.put s.threads t x }
def State.modThread (s : State) (t : TId) (f : Thread → Thread) : State := s.setThread t (f (s.thread t))

def State.group (s : State) (g : GId) : Group := Tbl.getD s.groups g {}
def State.setGroup (s : State) (g : GId) (x : Group) : State := { s with groups := Tbl.put s.groups g x }
def State.modGroup (s : State) (g : GId) (f : Group → Group) : State := s.setGroup g (f (s.group g))

def State.ctx (s : State) (c : Nat) : Ctx := Tbl.getD s.ctxs c {}
def State.setCtx (s : State) (c : Nat) (x : Ctx) : State := { s with ctxs := Tbl.put s.ctxs c x }
def State.modCtx (s : State) (c : Nat) (f : Ctx → Ctx) : State := s.setCtx c (f (s.ctx c))

def State.core (s : State) (c : Nat) : Core := Tbl.getD s.cores c {}
def State.setCore (s : State) (c : Nat) (x : Core) : State := { s with cores := Tbl.put s.cores c x }
def State.modCore (s : State) (c : Nat) (f : Core → Core) : State := s.setCore c (f (s.core c))

def State.cluster (s : State) (n : Nat) : Cluster := Tbl.getD s.clusters n {}
def State.setCluster (s : State) (n : Nat) (x : Cluster) : State := { s with clusters := Tbl.put s.clusters n x }
def State.modCluster (s : State) (n : Nat) (f : Cluster → Cluster) : State := s.setCluster n (f (s.cluster n))

def State.die (s : State) (d : Nat) : Die := Tbl.getD s.dies d {}
def State.setDie (s : State) (d : Nat) (x : Die) : State := { s with dies := Tbl.put s.dies d x }
def State.modDie (s : State) (d : Nat) (f : Die → Die) : State := s.setDie d (f (s.die d))

def State.part (s : State) (p : Nat) : Partition := Tbl.getD s.parts p {}
def State.setPart (s : State) (p : Nat) (x : Partition) : State := { s with parts := Tbl.put s.parts p x }
def State.modPart (s : State) (p : Nat) (f : Partition → Partition) : State := s.setPart p (f (s.part p))

def State.launch? (s : State) (l : Nat) : Option Launch := Tbl.find s.launches l
def State.launch (s : State) (l : Nat) : Launch := Tbl.getD s.launches l { graph := 0, node := 0, part := 0 }
def State.setLaunch (s : State) (l : Nat) (x : Launch) : State := { s with launches := Tbl.put s.launches l x }
def State.modLaunch (s : State) (l : Nat) (f : Launch → Launch) : State := s.setLaunch l (f (s.launch l))

def State.graph? (s : State) (g : Nat) : Option Graph := Tbl.find s.graphs g
def State.setGraph (s : State) (g : Nat) (x : Graph) : State := { s with graphs := Tbl.put s.graphs g x }

def State.queue? (s : State) (q : Nat) : Option Queue := Tbl.find s.queues q
def State.setQueue (s : State) (q : Nat) (x : Queue) : State := { s with queues := Tbl.put s.queues q x }

def State.mailbox (s : State) (m : Nat) : Mailbox := Tbl.getD s.mailboxes m {}
def State.setMailbox (s : State) (m : Nat) (x : Mailbox) : State := { s with mailboxes := Tbl.put s.mailboxes m x }

def State.link (s : State) (k : Nat) : Link := Tbl.getD s.links k {}
def State.setLink (s : State) (k : Nat) (x : Link) : State := { s with links := Tbl.put s.links k x }

def State.setMem (s : State) (m : List Host.Cell) : State := { s with mem := m }
def State.emit (s : State) (o : Output) : State := { s with outputs := s.outputs ++ [o] }
/-- An MSI-X vector raised on a host port: there are 2,048, and 0xFFFF names none (R389). -/
def State.raise (s : State) (port vector : Nat) : State := if vector < 2048 then s.emit (.msix port vector) else s
def State.setPmcs (s : State) (m : Tbl Nat (Vector W64 16)) : State := { s with pmcs := m }
def State.setCur (s : State) (c : Option Cur) : State := { s with cur := c }

/-- A number no object has had. -/
def State.takeFresh (s : State) : Nat × State := (s.fresh, { s with fresh := s.fresh + 1 })

/-- The place of a free value drawn for a thread's register: one number for each. -/
def drawPlace (t : TId) (r : Nat) : Nat := ((t.core * 2 + t.bank) * 1024 + t.slot) * 4096 + r
/-- The place of a free value drawn for a group. -/
def drawGroup (g : GId) (r : Nat) : Nat := ((g.core * 2 + g.bank) * 64 + g.slot) * 65536 + r

/-! ## Slots and their owners (R22, R23, R30) -/

/-- The first thread slot of a group slot. -/
def gidFirst (g : GId) : Nat := 16 * g.slot

/-- Whether a thread slot lies in the slots of a group of width `w`. -/
def inGroup (g : GId) (w slot : Nat) : Bool := decide (gidFirst g ≤ slot) && decide (slot < gidFirst g + w)

/-- The group a thread slot belongs to: the slots of a group begin at a multiple of its width, so the
group slot is one of three (R30). -/
def groupOf (s : State) (t : TId) : GId :=
  let g64 : GId := ⟨t.core, t.bank, t.slot / 64 * 4⟩
  let g32 : GId := ⟨t.core, t.bank, t.slot / 32 * 2⟩
  if (s.group g64).live && (s.group g64).width == 64 then g64
  else if (s.group g32).live && (s.group g32).width == 32 then g32
  else ⟨t.core, t.bank, t.slot / 16⟩

/-- The home lane: the slot modulo the group's width (R30). -/
def homeLane (s : State) (t : TId) : Nat := t.slot % (s.group (groupOf s t)).width
/-- The lane bank (R30). -/
def laneBank (t : TId) : Nat := t.slot % 32

/-- A thread slot of a group by home lane. -/
def gidThread (g : GId) (lane : Nat) : TId := ⟨g.core, g.bank, gidFirst g + lane⟩
/-- The thread slots of a group, in ascending home lane. -/
def groupThreads (s : State) (g : GId) : List TId := (List.range (s.group g).width).map fun i => gidThread g i
/-- The live threads of a group, in ascending home lane. -/
def liveThreads (s : State) (g : GId) : List TId := (groupThreads s g).filter fun t => (s.thread t).live

/-- The groups that a launch has, with the team they belong to. -/
def groupsOfLaunch (s : State) (l : Nat) : List GId :=
  (s.groups.filter fun p => p.2.live && p.2.launch == l).map Prod.fst
/-- The groups of a team. -/
def groupsOfTeam (s : State) (l team : Nat) : List GId :=
  (s.groups.filter fun p => p.2.live && p.2.launch == l && p.2.team == team).map Prod.fst
/-- The live threads of a team. -/
def teamThreads (s : State) (l team : Nat) : List TId :=
  (groupsOfTeam s l team).flatMap fun g => liveThreads s g

/-- The context of a group. -/
def ctxOf (s : State) (g : GId) : Nat := (s.group g).ctx
/-- Whether a group's context is active: its bank set is, and nothing displaced it (R210). -/
def isActive (s : State) (g : GId) : Bool :=
  (s.core g.core).act == g.bank && (s.ctx (ctxOf s g)).displaced.isNone

/-- The groups and threads in the save areas of displaced contexts, with their contexts (R213). -/
def spilledGroups (s : State) : List (GId × Group) :=
  s.ctxs.flatMap fun c => c.2.spilled.flatMap fun k => k.2.groups
def spilledThreads (s : State) : List (TId × Thread) :=
  s.ctxs.flatMap fun c => c.2.spilled.flatMap fun k => k.2.threads
/-- Whether a team, or a launch, has a group whose bank is spilled. -/
def teamSpilled (s : State) (l team : Nat) : Bool :=
  (spilledGroups s).any fun p => p.2.live && p.2.launch == l && p.2.team == team
def launchSpilled (s : State) (l : Nat) : Bool := (spilledGroups s).any fun p => p.2.live && p.2.launch == l
/-- The group of a spilled thread. -/
def SpilledBank.owner (k : SpilledBank) (t : TId) : GId × Group :=
  (k.groups.find? fun p => p.2.live && decide (16 * p.1.slot ≤ t.slot) && decide (t.slot < 16 * p.1.slot + p.2.width)).getD
    (⟨t.core, t.bank, t.slot / 16⟩, {})
/-- Every spilled thread changed. -/
def mapSpilled (s : State) (f : GId → Group → Thread → Thread) : State :=
  let bank (k : Nat × SpilledBank) : Nat × SpilledBank :=
    (k.1, { k.2 with threads := k.2.threads.map fun p => (p.1, f (k.2.owner p.1).1 (k.2.owner p.1).2 p.2) })
  { s with ctxs := s.ctxs.map fun c => (c.1, { c.2 with spilled := c.2.spilled.map bank }) }

/-- The accumulator blocks of a group: width ÷ 8 quarters of ACC blocks each (R32). -/
def groupBlocks (g : Group) : Nat := g.width / 8 * g.accCount
/-- The banks of its bank set that a group occupies: that of its slots and those of its blocks (R212). -/
def groupBanks (g : GId) (x : Group) : List Nat :=
  (List.range 16).filter fun k =>
    g.slot / 4 == k || (List.range (groupBlocks x)).any fun i => (x.accFirst + i) / 8 == k
/-- Whether a bank of a context is spilled. -/
def bankSpilled (s : State) (c k : Nat) : Bool := Tbl.has (s.ctx c).spilled k
/-- Whether every bank that a group occupies is in place. -/
def inPlace (s : State) (g : GId) : Bool :=
  (s.ctx (ctxOf s g)).spilled.isEmpty || (groupBanks g (s.group g)).all fun k => !bankSpilled s (ctxOf s g) k
/-- Whether an accumulator block of a group's bank set is in its place. -/
def blockInPlace (s : State) (x : Group) (block : Nat) : Bool :=
  (s.ctx x.ctx).spilled.isEmpty || !bankSpilled s x.ctx (block / 8)

/-- A list without repeats. -/
def dedup (xs : List Nat) : List Nat := xs.foldl (fun acc x => if acc.contains x then acc else acc ++ [x]) []

/-- The compute die of a core or cluster (R22). -/
def dieOfCore (c : Nat) : Nat := c / 40
def dieOfCluster (n : Nat) : Nat := n / 20
/-- The partition that owns a core (R165). -/
def partOfCore (s : State) (c : Nat) : Option Nat := (s.cluster (c / 2)).owner

/-- The launch a thread belongs to. -/
def launchOf (s : State) (t : TId) : Nat := (s.group (groupOf s t)).launch

/-! ## Counters (R189) -/

/-- The performance counters of a partition. -/
def State.pmc (s : State) (p : Nat) : Vector W64 16 := Tbl.getD s.pmcs p (Vector.replicate 16 0)
/-- PMCn of a partition advanced by `k`. -/
def countPmc (s : State) (p n k : Nat) : State :=
  s.setPmcs (Tbl.put s.pmcs p ((s.pmc p).set! n (((s.pmc p).getD n 0) + BitVec.ofNat 64 k)))
/-- PMCn of the partition that owns a core. -/
def countCore (s : State) (core n k : Nat) : State :=
  match partOfCore s core with
  | some p => countPmc s p n k
  | none => s

/-! ## Waking (R150, R155) -/

/-- The end of a yield interval: the thread goes on at the next word (R150). -/
def endYield (x : Thread) : Thread := { x with wait := .none, since := 0, woken := true, pc := x.pc + 4, walked := false }

/-- TRAPCAUSE.ACTIVE. -/
def isHandling (x : Thread) : Bool := x.trapcause.getLsbD 16
/-- Whether a pending interrupt comes before a thread's next instruction: not while it handles another trap, and not
before an access that the device holds for it has completed (R204, R209). -/
def interruptDue (x : Thread) : Bool := x.uint.isSome && !isHandling x && x.snap.isNone && !x.owed

/-- A waking event reaches a core: a gated core begins to restart, and the yield intervals of its
threads end (R150, R155), but for one that an interrupt abandons (R209). -/
def wakeCore (s : State) (core : Nat) : State :=
  let s := if (s.core core).gated then s.modCore core fun c => { c with restarting := true } else s
  let wake (p : TId × Thread) : TId × Thread :=
    if p.1.core = core && p.2.wait == .yield && !interruptDue p.2 then (p.1, endYield p.2) else p
  { s with threads := s.threads.map wake }

/-- A thread leaves an architectural wait: its count starts again (R151). -/
def endWait (s : State) (t : TId) : State :=
  s.modThread t fun x =>
    { x with wait := .none, since := if x.wait.isArch then 0 else x.since, woken := x.woken || x.wait.isArch }
/-- A thread whose wait has ended performs the instruction at its pc again. One that stood before it without having
issued it counts it then (R151). -/
def retry (x : Thread) : Thread :=
  let since := match x.wait with
    | .parked _ => 1
    | w => if w.isArch then 0 else if x.again then x.since else Nat.min 256 (x.since + 1)
  { x with wait := .none, since := since, woken := x.woken || x.wait.isArch, again := true }
/-- The wait of a thread ends, and it performs the instruction at its pc again. -/
def retryThread (s : State) (t : TId) : State := s.modThread t retry
/-- Every thread whose wait `f` holds of performs its instruction again (DEDUCED, log 40). -/
def retryWaits (s : State) (f : TId → Wait → Bool) : State :=
  { s with threads := s.threads.map fun p => if f p.1 p.2.wait then (p.1, retry p.2) else p }
/-- A thread enters a wait: an architectural one discards its count (R151). -/
def enterWait (s : State) (t : TId) (w : Wait) : State :=
  s.modThread t fun x => { x with wait := w, since := if w.isArch then 0 else x.since }

/-! ## Poison of memory (R207, R208) -/

/-- Whether `n` bytes at an address touch a poisoned word. -/
def memPoisoned (s : State) (pa n : Nat) : Bool :=
  s.poison.any fun w => overlaps pa n (w * 8) 8
/-- The words that `n` bytes at an address touch are marked, or lose their marks when written clean. -/
def setMemPoison (s : State) (pa n : Nat) (p : Bool) : State :=
  let ws := (List.range ((pa + n + 7) / 8 - pa / 8)).map fun i => pa / 8 + i
  let cleared := if s.poison.isEmpty then s.poison else s.poison.filter fun w => !ws.contains w
  { s with poison := if p then cleared ++ ws else cleared }

/-! ## Bindings and their marks (R135, R289) -/

/-- Whether a binding watches a word through a directory entry (R289). -/
def watches (b : Bound) (word : Nat) : Bool := b.bound && !b.ovf && b.pa / 4 == word

/-- A thread with the bindings of a word marked changed, but for the register that wrote it. -/
def markThread (x : Thread) (word : Nat) (skip : Option Reg8) : Thread :=
  { x with b := x.b.mapIdx fun i b =>
      if watches b word && !(skip.map Fin.val == some i) then { b with changed := true } else b }

/-- Whether a thread has a binding of a word to mark. -/
def marksThread (x : Thread) (word : Nat) (skip : Option Reg8) : Bool :=
  (List.range 8).any fun i => watches (x.b.getD i {}) word && !(skip.map Fin.val == some i)

/-- How many marks a store of a word sets in a thread: its bindings of the word that are not marked yet. -/
def newMarks (x : Thread) (word : Nat) (skip : Option Reg8) : Nat :=
  ((List.range 8).filter fun i =>
    watches (x.b.getD i {}) word && !(x.b.getD i {}).changed && !(skip.map Fin.val == some i)).length

/-- The bindings of one word marked by a partition's store: those of every thread of the partition that `who`
holds of (R135, R137), but for `via`, the register that wrote it. A mark is counted (R189) and is a waking event
(R155). -/
def markWord (s : State) (part : Option Nat) (word : Nat) (via : Option (TId × Reg8))
    (who : TId → Bool := fun _ => true) : State :=
  s.threads.foldl (fun s p =>
    let skip := match via with
      | some (t, k) => if t = p.1 then some k else none
      | none => none
    let mine := match part with
      | some q => partOfCore s p.1.core == some q
      | none => true
    if mine && who p.1 && marksThread (s.thread p.1) word skip then
      let n := newMarks (s.thread p.1) word skip
      let s := s.modThread p.1 fun x => markThread x word skip
      wakeCore (countCore s p.1.core 11 n) p.1.core
    else s) s

/-- The bindings of the words that `n` bytes at an address touch. -/
def markBytes (s : State) (part : Option Nat) (pa n : Nat) (via : Option (TId × Reg8))
    (who : TId → Bool := fun _ => true) : State :=
  (List.range ((pa + n + 3) / 4 - pa / 4)).foldl (fun s i => markWord s part (pa / 4 + i) via who) s

/-! ## Host-backed lines (R392): the device side of CXL.cache -/

def hbLine (pa : Nat) : Nat := pa / 128
/-- A device load holds the line at least in S: RdShared brings it, and a host that held it alone keeps S. -/
def hbRead (s : State) (pa : Nat) : State :=
  if Tbl.has s.hbLines (hbLine pa) then s
  else
    let half := if Tbl.has s.hostHalf (hbLine pa) then Tbl.put s.hostHalf (hbLine pa) .s else s.hostHalf
    { s with hbLines := Tbl.put s.hbLines (hbLine pa) .s, hostHalf := half }.emit (.cache .rdShared (hbLine pa * 128))
/-- A device store or atomic holds the line in M: where the device does not hold it alone, RdOwn takes it from the host. -/
def hbWrite (s : State) (pa : Nat) : State :=
  let s := match Tbl.find s.hbLines (hbLine pa) with
    | some .m => s
    | some .e => s
    | _ => { s with hostHalf := Tbl.drop s.hostHalf (hbLine pa) }.emit (.cache .rdOwn (hbLine pa * 128))
  { s with hbLines := Tbl.put s.hbLines (hbLine pa) .m }
/-- A line of host memory leaves its system cache (R389): dirty data goes to the host. -/
def hbEvict (s : State) (line : Nat) : State :=
  match Tbl.find s.hbLines line with
  | none => s
  | some x =>
    { s with hbLines := Tbl.drop s.hbLines line }.emit (.cache (if x == Mesi.m then .dirtyEvict else .cleanEvict) (line * 128))

/-! ## Lines and their replacement priority (R25, R279) -/

/-- The priority a hint gives. -/
def hintPrio : Hint → Nat
  | .ef => 0
  | .normal => 1
  | .el => 2

/-- Whether an entry is a cache's copy of a line. -/
def CacheLine.isOf (l : CacheLine) (c : CacheId) (line : Nat) : Bool := l.cache == c && l.line == line

/-- An access uses a line of a cache: it fills it with the access's priority, or raises its priority to it. -/
def touchLine (s : State) (c : CacheId) (line p : Nat) : State :=
  match s.lines.find? fun l => l.isOf c line with
  | some l =>
    { s with lines := { l with prio := Nat.max l.prio p, used := s.tick } :: s.lines.filter fun l => !l.isOf c line }
  | none => { s with lines := ⟨c, line, p, p, s.tick⟩ :: s.lines }

/-- Caches that `f` holds of lose their copies of a line. -/
def dropLine (s : State) (line : Nat) (f : CacheId → Bool) : State :=
  { s with lines := s.lines.filter fun l => !(l.line == line && f l.cache) }

/-- Whether an entry is another cache's than an L1. -/
def CacheId.isL1 : CacheId → Bool
  | .l1 _ => true
  | _ => false

/-- Whether a cache may choose a line as its victim: none of the line's set has a lower priority, or the same
and an older use (R279). A line of no recorded use may go. -/
def mayEvict (s : State) (c : CacheId) (line : Nat) : Bool :=
  match s.lines.find? fun l => l.isOf c line with
  | none => true
  | some l => s.lines.all fun o =>
      o.cache != c || Config.cacheSet o.line != Config.cacheSet line || decide (l.prio < o.prio)
        || (l.prio == o.prio && decide (l.used ≤ o.used))

/-! ## Back-invalidate snoops (R395) -/

/-- What the host returns of a line that it may have modified, where it has: values the device cannot know, written to
the line's home as host stores are (DESIGN CHOICE, log 56). -/
def hostReturns (s : State) (line : Nat) : State :=
  if Config.freeBit s.tick (2 ^ 67 + line) then
    let bytes := (List.range 16).flatMap fun i => toBytes 8 (Config.freeWord64 s.tick (line * 16 + i)).toNat
    markBytes (s.setMem (writeBytes s.mem (line * 128) bytes)) none (line * 128) 128 none
  else s

/-- Before a device load of a line: BISnpData where the host holds it as Any, which leaves the host S. -/
def snoopRead (s : State) (pa : Nat) : State :=
  match Tbl.find s.snoopFilter (pa / 128) with
  | some true =>
    { hostReturns s (pa / 128) with snoopFilter := (pa / 128, false) :: Tbl.drop s.snoopFilter (pa / 128) }.emit (.backSnoop .data (pa / 128 * 128))
  | _ => s

/-- Before a device store or atomic: BISnpInv where the host holds the line. -/
def snoopWrite (s : State) (pa : Nat) : State :=
  match Tbl.find s.snoopFilter (pa / 128) with
  | none => s
  | some any =>
    let s := if any then hostReturns s (pa / 128) else s
    { s with snoopFilter := Tbl.drop s.snoopFilter (pa / 128) }.emit (.backSnoop .inv (pa / 128 * 128))
/-- Before a device reads, or writes, bytes of HBM that no line of a thread's access names: each line of them. -/
def snoopReads (s : State) (pa n : Nat) : State :=
  (List.range ((pa + n + 127) / 128 - pa / 128)).foldl (fun s i => snoopRead s ((pa / 128 + i) * 128)) s
def snoopWrites (s : State) (pa n : Nat) : State :=
  (List.range ((pa + n + 127) / 128 - pa / 128)).foldl (fun s i => snoopWrite s ((pa / 128 + i) * 128)) s

/-! ## System fault records (R200 to R202) -/

/-- The bytes of a record (R200). -/
def Rec.bytes (r : Rec) : List Byte :=
  toBytes 1 r.kind ++ toBytes 1 r.sev ++ toBytes 1 r.wher ++ toBytes 1 r.access ++ toBytes 1 r.req
    ++ toBytes 1 r.ucause ++ toBytes 2 r.core ++ toBytes 2 r.slot ++ toBytes 2 0 ++ toBytes 4 r.tti
    ++ toBytes 8 r.va ++ toBytes 8 r.ipa ++ toBytes 8 r.pa ++ toBytes 8 r.pc ++ toBytes 8 r.tag.toNat
    ++ toBytes 4 r.step ++ toBytes 4 r.seq

/-- The occupancy of a partition's trap queue (R202). -/
def Partition.occupancy (x : Partition) : Nat := x.tqprod - x.tqcons

/-- The event records of an attached debugger (R220). -/
structure DbgEvent where
  kind : Nat
  core : Nat := 0
  slot : Nat := 0
  tti : Nat := 0xFFFFFFFF
  pc : Nat := 0
  imm : Nat := 0
  launch : Nat := 0
  deriving DecidableEq, Repr

/-- Preley writes an event record and raises the vector of the attachment (R220). -/
def debugEvent (s : State) (p : Nat) (e : DbgEvent) : State :=
  match (s.part p).debugger with
  | none => s
  | some d =>
    let bytes := toBytes 1 e.kind ++ toBytes 7 0 ++ toBytes 2 e.core ++ toBytes 2 e.slot
      ++ toBytes 4 e.tti ++ toBytes 8 e.pc ++ toBytes 2 e.imm ++ toBytes 6 0 ++ toBytes 8 e.launch
      ++ toBytes 4 d.events ++ toBytes 20 0
    let at0 := d.area + d.events % 64 * 64
    let s := snoopWrites s at0 64
    let s := s.setMem (writeBytes s.mem at0 bytes)
    let s := s.modPart p fun x => { x with debugger := some { d with events := d.events + 1 } }
    s.raise (s.mailbox d.mailbox).port d.vector

/-- The partition of a graph. -/
def graphPart (s : State) (g : Graph) : Option Nat := (s.queue? g.queue).map Queue.part

/-- Whether a copy command is of the group that stands at its place. -/
def ownsCopy (s : State) (g : GId) (c : CopyCmd) : Bool := c.group == g && c.ctx == (s.group g).ctx
/-- The group of a copy command, in its place or in a save area. -/
def copyGroup (s : State) (c : CopyCmd) : Group :=
  if ownsCopy s c.group c then s.group c.group
  else ((s.ctx c.ctx).spilled.findSome? fun k => (k.2.groups.find? fun p => p.1 == c.group).map Prod.snd).getD (s.group c.group)

/-- The copy commands that `h` holds of stop, with those that groups which `f` holds of wait to give: they set again
every presence bit they cleared (R365), and the loads parked on those lines are ready. -/
def stopCopies (s : State) (f : GId → Bool) (h : CopyCmd → Bool) : State :=
  let mine := s.cores.flatMap fun c => c.2.copies.filter fun k => h k.2
  let lines := mine.flatMap fun k => k.2.cleared.map Prod.fst
  let s := { s with
    cores := s.cores.map fun c => (c.1, { c.2 with copies := c.2.copies.filter fun k => !h k.2 })
    groups := s.groups.map fun g => if f g.1 then (g.1, { g.2 with copyWait := [] }) else g
    absent := s.absent.filter fun l => !lines.contains l }
  retryWaits s fun _ w =>
    match w with
    | .presence l => lines.contains l
    | _ => false

/-- A halt of a partition: STATE becomes 2, its bindings end, those in save areas too (R202, R287), and its copies stop. Its
submissions in progress complete with status 4 by GRAPH_COMPLETE. -/
def haltPart (s : State) (p : Nat) : State :=
  let free (x : Thread) : Thread := { x with b := x.b.map fun b => { b with bound := false, changed := false, ovf := false } }
  let unbind (q : TId × Thread) : TId × Thread := if partOfCore s q.1.core == some p then (q.1, free q.2) else q
  let fail (q : Nat × Graph) : Nat × Graph :=
    if graphPart s q.2 == some p && !q.2.complete && q.2.status.isNone then
      (q.1, { q.2 with status := some 4 })
    else q
  let s := s.modPart p fun x => { x with state := 2 }
  let s := { s with threads := s.threads.map unbind, graphs := s.graphs.map fail }
  let s := mapSpilled s fun g _ x => if partOfCore s g.core == some p then free x else x
  let s := stopCopies s (fun g => partOfCore s g.core == some p) fun c => partOfCore s c.group.core == some p
  debugEvent s p { kind := 4 }

/-- The graph of a launch. -/
def graphOfLaunch (s : State) (l : Nat) : Option Nat := (s.launch? l).map Launch.graph

/-- The graph whose launch a requester belongs to, while it is in its place. -/
def Requester.graph (s : State) : Requester → Option Nat
  | .thread t => graphOfLaunch s (launchOf s t)
  | .portion ts | .walkers ts => (ts.head?).bind fun t => graphOfLaunch s (launchOf s t)
  | .copy core cmd _ => (Tbl.find (s.core core).copies cmd).bind fun c => graphOfLaunch s (copyGroup s c).launch
  | .tile g | .matrix g _ => graphOfLaunch s (s.group g).launch
  | .completion g | .node g _ => some g
  | .outload id => (s.threads.find? fun p => p.2.outs.any fun o => o.id == id).bind fun p => graphOfLaunch s (launchOf s p.1)
  | .spill _ _ _ | .none => Option.none

/-- A record written into the queue of a partition, the device's count advanced (R201). -/
def enqueueRec (s : State) (p : Nat) (r : Rec) (who : Requester) : State :=
  let x := s.part p
  let n := x.tqprod
  let r := { r with seq := n % 2 ^ 32 }
  let s := if x.tqen then snoopWrites s (x.tqbase + n % 4096 * 64) 64 else s
  let m := if x.tqen then writeBytes s.mem (x.tqbase + n % 4096 * 64) r.bytes else s.mem
  let s := s.setMem m
  let s := s.setPart p { x with tqprod := n + 1, opened := Tbl.put x.opened (n % 4096) (r, who) }
  let s := countPmc s p 10 1
  s.emit (.serviceSignal p)

/-- Files a record (R202): a replayable one below 4,088, else it waits for space; a fatal one below
4,096, else it is latched and halts the partition, or is dropped; a latched record counts in PMC10 (R189)
(DESIGN CHOICE, log 50). Answers the handle when filed. -/
def fileRec (s : State) (p : Nat) (r : Rec) (who : Requester) : State × Option Nat :=
  let r := { r with key := s.fresh, graph := r.graph.or (who.graph s) }
  let s := s.takeFresh.2
  let x := s.part p
  let h := x.tqprod % 4096
  if r.sev = 0 then
    if x.occupancy < 4088 && x.waiting.isEmpty then (enqueueRec s p r who, some h)
    else (s.setPart p { x with waiting := x.waiting ++ [(r, who)] }, none)
  else if x.occupancy < 4096 then
    let s := enqueueRec s p r who
    (if r.sev = 2 then haltPart s p else s, some h)
  else if x.fxv then (s, none)
  else
    let s := s.setPart p { x with fxv := true, fatalx := { r with seq := x.tqprod % 2 ^ 32 }.bytes }
    (haltPart (countPmc s p 10 1) p, none)

/-- Whether a record holds a requester: filed and awaiting an answer, or waiting for space. -/
def recordHolds (s : State) (p : Nat) (who : Requester) : Bool :=
  (s.part p).opened.any (fun o => o.2.2 == who) || (s.part p).waiting.any fun o => o.2 == who

/-! ## Why an instruction stops -/

/-- A system fault before it is filed (R176, R200). `soft` tells a soft error of the directory (1) or
of the Trellis (2), or of a clean line (3), which stops its thread once (R207). -/
structure SysFault where
  kind : Nat
  soft : Nat := 0
  wher : Nat := 0
  access : Nat := 0
  va : Nat := 0
  ipa : Nat := 0
  pa : Nat := 0
  deriving DecidableEq, Repr

/-- Why an instruction does not complete for a thread. -/
inductive Stop where
  /-- Trap(cause) with its detail and info (R197, R198) -/
  | trap (cause : Nat) (info : W32)
  /-- SysFault(kind) (R177) -/
  | fault (f : SysFault)
  /-- the thread waits and executes the instruction again -/
  | wait (w : Wait)
  /-- a page walk under way: the address and the kind of access -/
  | walk (va : Nat) (access : Access)
  /-- a request held for a gated cluster, with the access that a record of it would show (R418) -/
  | remote (cluster : Nat) (f : SysFault)
  deriving DecidableEq, Repr

/-! The causes of R196. -/
def cUNDEF : Nat := 0x01
def cRSVD : Nat := 0x02
def cALIGN : Nat := 0x03
def cIJMP : Nat := 0x04
def cBINDTYPE : Nat := 0x05
def cBARCNT : Nat := 0x06
def cCOLL : Nat := 0x07
def cTID : Nat := 0x08
def cDIVZ : Nat := 0x09
def cFRAME : Nat := 0x0A
def cSOFT : Nat := 0x0B
def cBKPT : Nat := 0x0C
def cUINT : Nat := 0x0D
def cSYSF : Nat := 0x0E

/-! The kinds of R176 and R200. -/
def kNOTPRESENT : Nat := 0x01
def kPERM : Nat := 0x02
def kMALFORMED : Nat := 0x03
def kADDRFORM : Nat := 0x04
def kPADDR : Nat := 0x05
def kPARTVIOL : Nat := 0x06
def kPROTECTED : Nat := 0x07
def kTIMEOUT : Nat := 0x08
def kPOISON : Nat := 0x09
def kDOUBLE : Nat := 0x0A
def kUNHANDLED : Nat := 0x0B
def kSTATE : Nat := 0x0C

/-- The cause of an illegal word (R222). -/
def illegalCause : Illegal → Nat
  | .undef => cUNDEF
  | .rsvd => cRSVD

/-- The severity of a kind (R200). A poison record on a clean line is filed by the error itself. -/
def sevOf (kind : Nat) : Nat :=
  if kind = kNOTPRESENT || kind = kTIMEOUT then 0 else if kind = kSTATE then 2 else 1

/-- The severity of a fault: poison on a clean line is replayed (R200, R207). -/
def SysFault.sev (f : SysFault) : Nat := if f.soft = 3 then 0 else sevOf f.kind

/-- The code of an access kind (R200). -/
def Access.code : Access → Nat
  | .load => 0
  | .store => 1
  | .rmw => 2
  | .exec => 3
  | .hint => 0

/-- The TAG of a launch's submission (R56). -/
def tagOf (s : State) (l : Nat) : W64 := (s.launch l).tag

/-- The CORE field of a record (R200). -/
def coreField (core bank : Nat) : Nat := core + bank * 2 ^ 15

/-- A record of a thread's fault. -/
def threadRec (s : State) (t : TId) (f : SysFault) : Rec :=
  { kind := f.kind, sev := f.sev, wher := f.wher, access := f.access, req := 0
    core := coreField t.core t.bank, slot := t.slot, tti := (s.thread t).tti, va := f.va, ipa := f.ipa
    pa := f.pa, pc := (s.thread t).pc.toNat, tag := tagOf s (launchOf s t) }

/-- The number of the record of a partition that last joined those waiting for space. -/
def lastKey (s : State) (p : Nat) : Nat :=
  match (s.part p).waiting.getLast? with
  | some o => o.1.key
  | none => 0

/-- A thread held by a record: awaiting an answer, or space in the queue (R149, R202). -/
def holdThread (s : State) (t : TId) (p : Nat) (sev : Nat) (h : Option Nat) : State :=
  match h with
  | some n => enterWait s t (.fault p n)
  | none => enterWait s t (if sev = 0 then .space (lastKey s p) else .stopped)

/-- A fault of a translation: page not present and malformed entry are found by a walk, which the accesses
of a pack to one region share (R180, R181) (DEDUCED, log 24). -/
def walkStop (f : SysFault) (va : Nat) (k : Access) : Stop :=
  if f.kind = kNOTPRESENT || f.kind = kMALFORMED then .walk va k else .fault f

/-- A soft error that a fault tells of has stopped its thread. -/
def clearSoft (s : State) (f : SysFault) (t : TId) : State :=
  if f.soft = 0 then s
  else s.modThread t fun x =>
    { x with directoryError := x.directoryError && f.soft != 1, trellisError := x.trellisError && f.soft != 2
             struck := if f.soft = 3 then none else x.struck }

/-- A system fault of a thread (R177, R200). -/
def threadFault (s : State) (t : TId) (f : SysFault) : State :=
  match partOfCore s t.core with
  | none => enterWait s t .stopped
  | some p =>
    let r := threadRec s t f
    let (s, h) := fileRec s p r (.thread t)
    holdThread (clearSoft s f t) t p r.sev h
/-- The same, of a fetch or a refresh: the word is not performed before it (R204). -/
def oweFault (s : State) (t : TId) (f : SysFault) : State :=
  threadFault (s.modThread t fun x => { x with owed := true }) t f

/-! ## Taking a trap and returning from one (R197, R198, R302) -/

/-- TRAPCAUSE as Trap writes it: ACTIVE set. -/
def causeWord (cause detail : Nat) (info : W32) : W64 :=
  BitVec.ofNat 64 (info.toNat * 2 ^ 32 + 2 ^ 16 + detail % 256 * 2 ^ 8 + cause % 256)
/-- An unhandled or double trap: a record of severity 1 holds the thread, and an attached debugger is
told (R198, R220). -/
def unhandled (s : State) (t : TId) (kind cause : Nat) : State :=
  match partOfCore s t.core with
  | none => enterWait s t .stopped
  | some p =>
    let r := { threadRec s t { kind := kind } with sev := 1, ucause := cause }
    let (s, h) := fileRec s p r (.thread t)
    let s := holdThread s t p 1 h
    debugEvent s p { kind := 3, core := coreField t.core t.bank, slot := t.slot
                     tti := (s.thread t).tti, pc := (s.thread t).pc.toNat, launch := (s.launch (launchOf s t)).number.toNat }

/-- Trap(cause) for a thread (R198): TRAPPC and TRAPCAUSE are saved and the pc goes to the handler. -/
def takeTrap (s : State) (t : TId) (cause detail : Nat) (info : W32) : State :=
  let x := s.thread t
  let vec := (s.group (groupOf s t)).trapvec
  if vec = 0 then unhandled s t kUNHANDLED cause
  else if isHandling x then unhandled s t kDOUBLE cause
  else
    s.setThread t
      { x with trappc := x.pc, trapcause := causeWord cause detail info, pc := vec, wait := .none, walked := false
               again := false, snap := none, owed := false, portion := none, beyond := false }

/-- TRAPCAUSE with ACTIVE clear. -/
def clearActive (w : W64) : W64 := w &&& ~~~(BitVec.ofNat 64 (2 ^ 16))

/-- Whether a jump returns from the handler: ACTIVE set and the target TRAPPC or TRAPPC + 4 (R198). -/
def returnsFromTrap (x : Thread) (target : W64) : Bool :=
  isHandling x && (target == x.trappc || target == x.trappc + 4)

/-- The return from a handler: ACTIVE clears as the thread jumps (R198, R302). -/
def trapReturn (s : State) (t : TId) (target : W64) : State :=
  s.modThread t fun x =>
    { x with trapcause := clearActive x.trapcause, pc := target, walked := false, again := false, snap := none
             owed := false, portion := none, beyond := false }

end Sys2Proof.Machine
end

