-- ==== Sys2Proof/Machine/Order.lean ====
section
/-! DEFINITION. Happens-before (R127, R128): what a release hands on, and what an acquire learns of it. The operand words
of an `mma` (R348) and the choice points that a steal sees (R433) are judged by it. -/

namespace Sys2Proof.Machine

/-- A thread as happens-before names it: a swap moves it to other slots. -/
def actorOf (s : State) (t : TId) : Actor :=
  let g := s.group (groupOf s t)
  .thread g.launch g.team (s.thread t).tti

def State.setOrder (s : State) (o : Order) : State := { s with order := o }

/-- What happens before one of two points. -/
def Clock.join (a b : Clock) : Clock := b.foldl (fun a e => if Tbl.getD a e.1 0 < e.2 || !Tbl.has a e.1 then Tbl.put a e.1 e.2 else a) a
/-- Whether an agent's action of a step happens before. -/
def Clock.holds (c : Clock) (a : Actor) (step : Nat) : Bool :=
  match Tbl.find c a with
  | some n => decide (step ≤ n)
  | none => false

/-- What happens before an agent's next access. -/
def beforeOf (s : State) (a : Actor) : Clock := Tbl.getD s.order.before a []
/-- The actions of an agent so far, with what happens before them. -/
def knownTo (s : State) (a : Actor) : Clock := Clock.join (beforeOf s a) [(a, s.tick)]
/-- The order that a carrier hands on. -/
def carriedBy (s : State) (p : Carrier) : Clock := Tbl.getD s.order.carried p []
/-- A carrier hands on an order from now on. -/
def carry (s : State) (p : Carrier) (c : Clock) : State :=
  if c.isEmpty && !Tbl.has s.order.carried p then s
  else s.setOrder { s.order with carried := if c.isEmpty then Tbl.drop s.order.carried p else Tbl.put s.order.carried p c }
/-- A carrier hands on an order beside what it carries. -/
def carryMore (s : State) (p : Carrier) (c : Clock) : State := if c.isEmpty then s else carry s p (Clock.join (carriedBy s p) c)

/-- The words that bytes of memory touch. -/
def wordsOf (pa n : Nat) : List Carrier := (List.range ((pa + n + 3) / 4 - pa / 4)).map fun i => .word (pa / 4 + i)
/-- What the words of some bytes carry. -/
def wordClock (s : State) (pa n : Nat) : Clock :=
  if s.order.carried.isEmpty then [] else (wordsOf pa n).foldl (fun c p => Clock.join c (carriedBy s p)) []

/-- A thread learns what happens before its later accesses. -/
def learn (s : State) (t : TId) (c : Clock) : State :=
  if c.isEmpty then s
  else s.setOrder { s.order with before := Tbl.put s.order.before (actorOf s t) (Clock.join (beforeOf s (actorOf s t)) c) }
/-- A load of a thread reads values that carry an order: those of one step are one load (R127: the last load before an
acquire fence) (DEDUCED, log 86). -/
def noteLoad (s : State) (t : TId) (c : Clock) : State :=
  let a := actorOf s t
  let put (c : Clock) : State :=
    s.setOrder { s.order with loads := if c.isEmpty then Tbl.drop s.order.loads a else Tbl.put s.order.loads a (s.tick, c) }
  match Tbl.find s.order.loads a with
  | some (at_, old) => put (if at_ = s.tick then Clock.join old c else c)
  | none => if c.isEmpty then s else put c
/-- The order that a thread's last load has read. -/
def loadedBy (s : State) (t : TId) : Clock :=
  match Tbl.find s.order.loads (actorOf s t) with
  | some (_, c) => c
  | none => []

/-- What a store or atomic of a thread hands on: a release all before it, the first store after a release fence what the
fence put before it. -/
def releaseClock (s : State) (t : TId) (rel : Bool) : Clock :=
  Clock.join (if rel then knownTo s (actorOf s t) else []) (Tbl.getD s.order.fences (actorOf s t) [])
/-- A store of a thread at some carriers; an atomic, `keep`, hands on what stood there too (R128). -/
def carryStore (s : State) (t : TId) (rel keep : Bool) (ps : List Carrier) : State :=
  let c := releaseClock s t rel
  let a := actorOf s t
  let s := if Tbl.has s.order.fences a then s.setOrder { s.order with fences := Tbl.drop s.order.fences a } else s
  ps.foldl (fun s p => if keep then carryMore s p c else carry s p c) s
/-- A release fence of a thread: its next store hands on all before the fence. -/
def noteFence (s : State) (t : TId) (c : Clock) : State :=
  s.setOrder { s.order with fences := Tbl.put s.order.fences (actorOf s t) c }
/-- What threads that act together have done, with what happens before it. -/
def knownToAll (s : State) (ts : List TId) : Clock := ts.foldl (fun c t => Clock.join c (knownTo s (actorOf s t))) []

/-- A buffered store reaches its home: its words hand on what it carries, and nothing else (R128). -/
def publishOrder (s : State) (e : StoreEnt) : State :=
  if s.order.carried.isEmpty then s
  else
    let c := carriedBy s (.buffered e.seq)
    carry ((wordsOf e.pa e.bytes.length).foldl (fun s p => carry s p c) s) (.buffered e.seq) []

/-- A thread that has exited: its place in the order is free for another. -/
def dropActor (s : State) (a : Actor) : State :=
  let o := s.order
  if Tbl.has o.before a || Tbl.has o.loads a || Tbl.has o.fences a then
    s.setOrder { o with before := Tbl.drop o.before a, loads := Tbl.drop o.loads a, fences := Tbl.drop o.fences a }
  else s

end Sys2Proof.Machine
end

