-- ==== Sys2Proof/Machine/Xlat.lean ====
section
/-! DEFINITION. The physical map (R26, R27), the core windows (R29 to R37), the scratchpad windows (R38,
R39) and the two stages of translation (R172 to R178). Tables are read from memory at each access; no
translation is cached, so an invalidation changes only write-revoked bits (R182, R290). -/

namespace Sys2Proof.Machine

/-! ## The physical map (R26) -/

/-- What lies at a physical address. -/
inductive Place where
  | hbm | host | peer (n : Nat) | second | device | window (core off : Nat) | unbacked
  deriving DecidableEq, Repr

/-- The first physical address of the core windows. -/
def windowBase : Nat := 0xF000000000000
/-- The physical address of an offset of a core window (R29). -/
def windowAddr (core off : Nat) : Nat := windowBase + core * 2 ^ 24 + off
/-- The first byte of a core's scratchpad in the on-chip map. -/
def spadAddr (core off : Nat) : Nat := windowAddr core (0x100000 + off)

def placeOf (pa : Nat) : Place :=
  if pa < 0x8000000000 then .hbm
  else if pa < 0x1000000000000 then .unbacked
  else if pa < 0x2000000000000 then .host
  else if pa < 0x4000000000000 then .peer ((pa - 0x2000000000000) / 2 ^ 40)
  else if pa < 0x8000000000000 then .unbacked
  else if pa < 0xE000000000000 then .second
  else if pa < 0xF000000000000 then .device
  else if pa < windowBase + 160 * 2 ^ 24 then
    .window ((pa - windowBase) / 2 ^ 24) ((pa - windowBase) % 2 ^ 24)
  else .unbacked

/-- The compute die that homes an HBM or second-tier line (R28). -/
def homeDie (pa : Nat) : Nat :=
  match placeOf pa with
  | .second => pa / 2 ^ 12 % 4
  | _ => pa / 2 ^ 37 % 4
/-- The I/O die whose device system cache homes a host-backed line (R28). -/
def homeIo (pa : Nat) : Nat := pa / 2 ^ 12 % 2

/-- Whether a host carries an HB address: pa<47> picks the port (R391). -/
def hostBacked (s : State) (pa : Nat) : Bool := s.device.hostPorts.contains (if pa / 2 ^ 47 % 2 = 0 then 0 else 8)

/-- The bytes that an expander or group places: each capacity rounded down to 1 GiB (R398). -/
def Expander.size (e : Expander) : Nat := e.ports.length * (e.capacity / 2 ^ 30 * 2 ^ 30)
/-- Expanders in ascending port order. -/
def insertExpander (e : Expander) : List Expander → List Expander
  | [] => [e]
  | x :: xs => if e.ports.headD 0 ≤ x.ports.headD 0 then e :: x :: xs else x :: insertExpander e xs
/-- Where the expanders stand: one after the other from the start of the second-tier range (R398) (DESIGN CHOICE, log 71). -/
def placeExpanders : Nat → List Expander → List (Nat × Expander)
  | _, [] => []
  | base, e :: es => (base, e) :: placeExpanders (base + Expander.size e) es
/-- The expanders with the address of each: those of ports in root-port mode (R389, R398). -/
def Device.placed (d : Device) : List (Nat × Expander) :=
  placeExpanders 0x8000000000000
    ((d.expanders.filter fun e => e.ports.all fun p => decide (p < 16) && !d.hostPorts.contains p).foldr insertExpander [])
/-- The ranges of second-tier memory: base and size. -/
def Device.secondTier (d : Device) : List (Nat × Nat) := (Device.placed d).map fun p => (p.1, Expander.size p.2)
/-- The root port whose expander serves an address: its way in the group (R398). -/
def expanderPort (d : Device) (pa : Nat) : Option Nat :=
  ((Device.placed d).find? fun p => decide (p.1 ≤ pa) && decide (pa < p.1 + Expander.size p.2)).bind fun p =>
    p.2.ports[(pa - p.1) / 4096 % max 1 p.2.ports.length]?

/-- Whether an expander backs a second-tier address (R398). -/
def secondBacked (s : State) (pa : Nat) : Bool :=
  (Device.secondTier s.device).any fun r => decide (r.1 ≤ pa) && decide (pa < r.1 + r.2)

/-- Whether the place is populated and the map allows it the type (R26, R27, R400). -/
def typeAllowed (s : State) (part pa : Nat) (ty : MemTy) : Bool :=
  match placeOf pa with
  | .hbm => ty == .wb || ty == .sm
  | .host => ty == .hb && hostBacked s pa
  | .peer n => ty == .sm && Tbl.has (s.part part).peers n && decide (pa % 2 ^ 40 < 2 ^ 39)
  | .second => (ty == .wb || ty == .sm) && secondBacked s pa
  | .device => ty == .uc
  | .window _ _ => ty == .uc
  | .unbacked => false

/-- InRanges(pa) (R178). -/
def inRanges (s : State) (part pa : Nat) : Bool :=
  (match placeOf pa with
    | .window _ _ => true
    | _ => false) ||
  (s.part part).ranges.toList.any fun r => r.en && decide (r.base ≤ pa) && decide (pa ≤ r.limit + 0xFFF)

/-! ## Tables (R173, R174) -/

/-- The fields of a table entry. -/
structure Entry where
  raw : Nat
  deriving DecidableEq, Repr
def Entry.bit (e : Entry) (i : Nat) : Bool := e.raw / 2 ^ i % 2 == 1
def Entry.addr (e : Entry) : Nat := bitsOf e.raw 51 12 * 2 ^ 12
def Entry.mtype (e : Entry) : Nat := bitsOf e.raw 8 6

def Entry.perm (e : Entry) : Perm := ⟨e.bit 2, e.bit 3, e.bit 4⟩

/-- A malformed entry of a stage at a level (R174). -/
def malformed (stage2 : Bool) (level : Nat) (e : Entry) : Bool :=
  let leaf := e.bit 1
  bitsOf e.raw 63 52 != 0 || e.bit 9
    || (leaf && decide (3 ≤ level))
    || (!leaf && level == 0)
    || (!(stage2 && leaf) && e.mtype != 0)
    || (stage2 && leaf && decide (4 ≤ e.mtype))
    || (e.bit 5 && !(leaf && level == 0))
    || (!leaf && (e.bit 2 || e.bit 3 || e.bit 4))
    || (e.bit 3 && !e.bit 2)
    || (leaf && level == 2 && bitsOf e.raw 29 12 != 0)
    || (leaf && level == 1 && bitsOf e.raw 20 12 != 0)

/-- The memory type of a stage-2 leaf. -/
def mtyOf : Nat → MemTy
  | 0 => .wb
  | 1 => .sm
  | 2 => .hb
  | _ => .uc

/-- A fault of a walk: kind, stage and level. -/
structure WalkFault where
  kind : Nat
  stage : Nat
  level : Nat
  deriving DecidableEq, Repr
/-- WHERE of a record (R200). -/
def WalkFault.wher (f : WalkFault) : Nat := f.stage * 16 + f.level

/-- The index of an address at a level (R173). -/
def levelIndex (stage2 : Bool) (level a : Nat) : Nat :=
  if stage2 && level == 4 then bitsOf a 51 48 else a / 2 ^ (12 + 9 * level) % 512
/-- The bytes of a page that a leaf at a level maps. -/
def pageSize (level : Nat) : Nat := 2 ^ (12 + 9 * level)

/-- The 16 level-0 entries of the 64 KiB block that an entry stands in (R174). -/
def contBlock (m : List Host.Cell) (table idx : Nat) : List Entry :=
  (List.range 16).map fun i => ⟨readLE m (table + (idx / 16 * 16 + i) * 8) 8⟩

/-- Whether 16 leaves that all carry CONT agree but in SW and in a contiguous ADDR run aligned to
64 KiB (R174). -/
def contAgrees (es : List Entry) : Bool :=
  match es with
  | [] => true
  | e0 :: _ =>
    (e0.addr % 0x10000 == 0) &&
      (List.range 16).all fun i =>
        let e := es.getD i e0
        e.raw / 2 ^ 52 == e0.raw / 2 ^ 52 && e.addr == e0.addr + i * 0x1000 && (e.raw / 2 ^ 6 % 16 == e0.raw / 2 ^ 6 % 16) && e.raw % 2 ^ 6 == e0.raw % 2 ^ 6

/-- The leaf that an access within a CONT block uses, with the base its page offset is added to: any
one of entries that disagree, extended over the 64 KiB, and the entry's own 4 KiB where not all 16 are valid with
CONT (R174) (DESIGN CHOICE, log 44); nothing where that one is malformed. -/
def contLeaf (s : State) (two : Bool) (table idx : Nat) (e : Entry) (a : Nat) : Option (Entry × Nat) :=
  let own := (e, e.addr + a % 0x1000)
  if e.bit 5 then
    let es := contBlock s.mem table idx
    if es.all (fun x => x.bit 5 && x.bit 0) && !contAgrees es then
      let x := es.getD (Config.freeNat s.tick a % 16) e
      if malformed two 0 x then none else some (x, x.addr / 0x10000 * 0x10000 + a % 0x10000)
    else some own
  else some own

/-! ## Walk caches (R179) -/

/-- The word of a non-leaf entry in a die's walk cache, where the cache still holds it: a free bit says so
(DESIGN CHOICE, log 42). -/
def cachedEntry (s : State) (die part asn : Nat) (two : Bool) (level a : Nat) : Option Nat :=
  ((s.walkCache.find? fun e => e.die == die && e.part == part && e.asn == asn && e.two == two && e.level == level
      && e.region == a / pageSize level).filter
    fun _ => Config.freeBit s.tick (2 ^ 70 + a / pageSize level * 16 + level * 2 + two.toNat)).map WalkEntry.raw

/-- Stage 2 from a level down: the physical address, the leaf's permissions and its type. -/
def walk2 (s : State) (die part a : Nat) : Nat → Nat → Except WalkFault (Nat × Perm × MemTy)
  | 0, table =>
    let idx := levelIndex true 0 a
    let e : Entry := ⟨readLE s.mem (table + idx * 8) 8⟩
    if e.bit 0 = false then .error ⟨kNOTPRESENT, 2, 0⟩
    else if malformed true 0 e then .error ⟨kMALFORMED, 2, 0⟩
    else
      match contLeaf s true table idx e a with
      | some (x, pa) => .ok (pa, x.perm, mtyOf x.mtype)
      | none => .error ⟨kMALFORMED, 2, 0⟩
  | level + 1, table =>
    let at0 := table + levelIndex true (level + 1) a * 8
    let e : Entry := ⟨(cachedEntry s die part 0 true (level + 1) a).getD (readLE s.mem at0 8)⟩
    if e.bit 0 = false then .error ⟨kNOTPRESENT, 2, level + 1⟩
    else if malformed true (level + 1) e then .error ⟨kMALFORMED, 2, level + 1⟩
    else if e.bit 1 then .ok (e.addr + a % pageSize (level + 1), e.perm, mtyOf e.mtype)
    else walk2 s die part a level e.addr

/-- Walk(STAGE2, ipa) for a partition, by the walker of a die. -/
def stage2 (s : State) (die part ipa : Nat) : Except WalkFault (Nat × Perm × MemTy) :=
  walk2 s die part ipa 4 (s.part part).s2root

/-! ## The issuer of an access -/

/-- Whose tables and windows an access uses: the partition, the stage-1 root of the submission queue
(R172), and for the scratchpad windows the core, launch and team (R38, R39). -/
structure Issuer where
  part : Nat
  root1 : Nat
  asn : Nat := 0
  core : Nat
  launch : Nat
  team : Nat
  deriving DecidableEq, Repr
/-- The die whose walker serves an issuer. -/
def Issuer.die (i : Issuer) : Nat := dieOfCore i.core

/-- Stage 1 from a level down; each table address goes through stage 2 before its use (R172, R177), where no walk cache
holds the entry. -/
def walk1 (s : State) (i : Issuer) (va : Nat) : Nat → Nat → Except WalkFault (Nat × Perm)
  | 0, table => do
    let idx := levelIndex false 0 va
    let (pa, _, _) ← stage2 s i.die i.part (table + idx * 8)
    let e : Entry := ⟨readLE s.mem pa 8⟩
    if e.bit 0 = false then .error ⟨kNOTPRESENT, 1, 0⟩
    else if malformed false 0 e then .error ⟨kMALFORMED, 1, 0⟩
    else
      match contLeaf s false (pa - idx * 8) idx e va with
      | some (x, ipa) => .ok (ipa, x.perm)
      | none => .error ⟨kMALFORMED, 1, 0⟩
  | level + 1, table =>
    match cachedEntry s i.die i.part i.asn false (level + 1) va with
    | some raw => walk1 s i va level (Entry.addr ⟨raw⟩)
    | none => do
      let (pa, _, _) ← stage2 s i.die i.part (table + levelIndex false (level + 1) va * 8)
      let e : Entry := ⟨readLE s.mem pa 8⟩
      if e.bit 0 = false then .error ⟨kNOTPRESENT, 1, level + 1⟩
      else if malformed false (level + 1) e then .error ⟨kMALFORMED, 1, level + 1⟩
      else if e.bit 1 then .ok (e.addr + va % pageSize (level + 1), e.perm)
      else walk1 s i va level e.addr

/-- The issuer of a group's accesses. -/
def issuerOf (s : State) (g : GId) : Issuer :=
  let x := s.group g
  let l := s.launch x.launch
  ⟨(partOfCore s g.core).getD 0, l.root1, l.asn, g.core, x.launch, x.team⟩

/-- Bytes of the leaf that maps an address at a stage from a level down, as the tables stand; `read` gives an entry. -/
def leafSize (read : Nat → Nat → Option Nat) (a : Nat) : Nat → Nat → Option Nat
  | 0, table =>
    match read 0 table with
    | some raw => if raw % 2 == 1 then some (if raw / 32 % 2 == 1 then 2 ^ 16 else 2 ^ 12) else none
    | none => none
  | level + 1, table =>
    match read (level + 1) table with
    | some raw =>
      if raw % 2 == 0 then none
      else if raw / 2 % 2 == 1 then some (pageSize (level + 1))
      else leafSize read a level (Entry.addr ⟨raw⟩)
    | none => none
/-- The state as its tables stand, with no walk cache before them. -/
def State.uncached (s : State) : State := { s with walkCache := [] }
/-- The page that maps an intermediate address at stage 2. -/
def size2 (s : State) (part ipa : Nat) : Option Nat :=
  leafSize (fun level table => some (readLE s.mem (table + levelIndex true level ipa * 8) 8)) ipa 4 (s.part part).s2root
/-- The page that maps a virtual address at stage 1. -/
def size1 (s : State) (i : Issuer) (va : Nat) : Option Nat :=
  if i.root1 = 0 then none
  else
    leafSize (fun level table =>
      match stage2 s.uncached i.die i.part (table + levelIndex false level va * 8) with
      | .ok (pa, _, _) => some (readLE s.mem pa 8)
      | .error _ => none) va 4 i.root1

/-- The issuer of an access of a launch's engines and nodes with no core of their own. -/
def launchIssuer (s : State) (l : Nat) : Issuer :=
  let x := s.launch l
  ⟨x.part, x.root1, x.asn, 0, l, 0⟩

/-! ## Scratchpad windows (R38, R39) -/

/-- The allocation of a team on a core. -/
def allocOf (s : State) (core launch team : Nat) : Option SpadAlloc :=
  (s.core core).allocs.find? fun a => a.launch == launch && a.team == team

/-- Whether a scratchpad byte of a core lies in an allocation of a launch. -/
def inLaunchAlloc (s : State) (core launch off : Nat) : Bool :=
  (s.core core).allocs.any fun a => a.launch == launch && decide (a.base ≤ off) && decide (off < a.base + a.size)

/-- A byte of the team's allocation on the issuing core. -/
def coreWindowByte (s : State) (i : Issuer) (x : Nat) : Option Nat :=
  match allocOf s i.core i.launch i.team with
  | some a => if x < a.size then some (spadAddr i.core (a.base + x)) else none
  | none => none
/-- A byte of the cluster scratchpad. -/
def clusterWindowByte (s : State) (i : Issuer) (x : Nat) : Option Nat :=
  let core := i.core / 2 * 2 + x / 2 ^ 19 % 2
  let off := x % 2 ^ 19
  if inLaunchAlloc s core i.launch off then some (spadAddr core off) else none

/-- ScratchpadWindow(va): the on-chip byte, where R38 and R39 allow the access. -/
def scratchpadWindow (s : State) (i : Issuer) (va : Nat) : Option Nat :=
  let x := va % 2 ^ 48
  if va / 2 ^ 48 = 0x1F0 then (if x < 2 ^ 19 then coreWindowByte s i x else none)
  else (if x < 2 ^ 20 then clusterWindowByte s i x else none)

/-! ## Translate (R175, R177) -/

/-- Whether the permissions of both stages allow an access (R175). -/
def permits (p : Perm) (k : Access) : Bool :=
  match k with
  | .load => p.r
  | .store => p.w
  | .rmw => p.r && p.w
  | .exec => p.x
  | .hint => p.r

/-- Regions of a core window (R29). -/
inductive WinRegion where
  | regs (bank off : Nat) | accs (bank off : Nat) | spad (off : Nat) | bounds (bank off : Nat)
  | control (bank off : Nat) | groups (bank off : Nat) | counters | ties | presence (off : Nat)
  | trellis | reserved
  deriving DecidableEq, Repr

def winRegion (off : Nat) : WinRegion :=
  if off < 0x80000 then .regs (off / 0x40000) (off % 0x40000)
  else if off < 0x100000 then .accs ((off - 0x80000) / 0x40000) (off % 0x40000)
  else if off < 0x180000 then .spad (off - 0x100000)
  else if off < 0x1C0000 then .bounds ((off - 0x180000) / 0x20000) (off % 0x20000)
  else if off < 0x1C8000 then .control ((off - 0x1C0000) / 0x4000) (off % 0x4000)
  else if off < 0x200000 then .reserved
  else if off < 0x300000 then .groups ((off - 0x200000) / 0x80000) (off % 0x80000)
  else if off < 0x310000 then .counters
  else if off < 0x312000 then .ties
  else if off < 0x312200 then .presence (off - 0x312000)
  else if off < 0x320000 then .reserved
  else if off < 0x330000 then .trellis
  else .reserved

/-- Whether a group-state offset lies in a map word, ACCMAP or CMAP (R32). -/
def isMapWord (off : Nat) : Bool := decide (0x208 ≤ off % 0x2000) && decide (off % 0x2000 < 0x218)

/-- Whether a program may write a window region (R29, R33). -/
def programMayWrite (off : Nat) : Bool :=
  match winRegion off with
  | .regs _ _ | .accs _ _ | .spad _ | .counters | .ties => true
  | .groups _ o => !isMapWord o
  | _ => false

/-- The checks of R33 on a program's access to a core window. -/
def windowCheck (s : State) (part core off : Nat) (k : Access) : Option Nat :=
  if partOfCore s core != some part then some kPARTVIOL
  else
    match k with
    | .store | .rmw =>
      if winRegion off == .reserved then some kPADDR
      else if programMayWrite off then none else some kPROTECTED
    | _ => none

/-- The checks after translation (R177, R33): ranges, then type, then the core window. -/
def placeCheck (s : State) (part pa : Nat) (ty : MemTy) (k : Access) : Option Nat :=
  if !inRanges s part pa then some kPARTVIOL
  else if !typeAllowed s part pa ty then some kPADDR
  else
    match placeOf pa with
    | .window core off => windowCheck s part core off k
    | _ => none

/-- A system fault of an access. -/
def accessFault (kind : Nat) (k : Access) (va : Nat) (wher ipa pa : Nat) : SysFault :=
  { kind := kind, wher := wher, access := k.code, va := va, ipa := ipa, pa := pa }

/-- Stage 1 of an address (R172): the walk, or the identity with stage 1 off. -/
def stage1 (s : State) (i : Issuer) (va : Nat) : Except WalkFault (Nat × Perm) :=
  if i.root1 = 0 then
    if va / 2 ^ 52 = 0 then .ok (va, ⟨true, true, true⟩) else .error ⟨kADDRFORM, 0, 0⟩
  else walk1 s i va 4 i.root1

/-- The intermediate address of an access whose stage 1 completes, else 0 (R200). -/
def ipaOf (s : State) (i : Issuer) (va : Nat) : Nat :=
  match stage1 s i va with
  | .ok (ipa, _) => ipa
  | .error _ => 0

/-! ## TLBs (R179) -/

/-- The entry of a cluster's TLBs for an address, where they still hold it: a free bit says so (DESIGN CHOICE, log 42). -/
def tlbHit (s : State) (i : Issuer) (va : Nat) : Option TlbEntry :=
  (s.tlb.find? fun e => e.cluster == i.core / 2 && e.part == i.part && e.asn == i.asn && e.page == va / 4096).filter
    fun _ => Config.freeBit s.tick (2 ^ 68 + va / 4096)
/-- A walk that completes leaves its translation in the TLBs of the issuer's cluster: two L1 TLBs of 64 entries and 2,048
of its own at most. -/
def fillTlb (s : State) (i : Issuer) (va : Nat) : State :=
  match stage1 s i va with
  | .error _ => s
  | .ok (ipa, p1) =>
    match stage2 s i.die i.part ipa with
    | .error _ => s
    | .ok (pa, p2, ty) =>
      let e : TlbEntry := ⟨i.core / 2, i.part, i.asn, va / 4096, ipa / 4096 * 4096, pa / 4096 * 4096, p1, p2, ty⟩
      let other (x : TlbEntry) : Bool := !(x.cluster == e.cluster && x.part == e.part && x.asn == e.asn && x.page == e.page)
      let old := s.tlb.filter other
      let own := (old.filter fun x => x.cluster == e.cluster).take 2175
      { s with tlb := e :: own ++ old.filter fun x => x.cluster != e.cluster }

/-- Whether every port that reaches the peer of an address is down (R402). -/
def peerDown (s : State) (part pa : Nat) : Bool :=
  match placeOf pa with
  | .peer n =>
    match Tbl.find (s.part part).peers n with
    | some x => (List.range 12).all fun k => !x.ports.getLsbD k || (Tbl.getD s.links (16 + k) {}).down
    | none => false
  | _ => false
/-- Whether the peer of an address refuses a request to it: its check of the partition that the peer-map call named
fails (R401). -/
def peerRefuses (s : State) (part pa : Nat) : Bool :=
  match placeOf pa with
  | .peer n =>
    match Tbl.find (s.part part).peers n with
    | some x => !Config.peerAdmits n x.part (pa % 2 ^ 40)
    | none => false
  | _ => false
/-- The record of a request to such a peer. -/
def peerFault (s : State) (i : Issuer) (va pa : Nat) (k : Access) : SysFault :=
  accessFault kTIMEOUT k va 0 (ipaOf s i va) pa

/-- The checks on what both stages give (R177). -/
def checked (s : State) (i : Issuer) (va : Nat) (k : Access) (ipa pa : Nat) (p1 p2 : Perm) (ty : MemTy) :
    Except SysFault (Nat × MemTy) :=
  if permits p1 k && permits p2 k then
    match placeCheck s i.part pa ty k with
    | some kind => .error (accessFault kind k va 0 ipa pa)
    | none => .ok (pa, ty)
  else .error (accessFault kPERM k va 0 ipa pa)

/-- Translate(va, access) (R177): a TLB that still holds the region answers, else the tables as they stand (R179, R182). -/
def translate (s : State) (i : Issuer) (va : Nat) (k : Access) : Except SysFault (Nat × MemTy) :=
  if 2 ^ 57 ≤ va then .error (accessFault kADDRFORM k va 0 0 0)
  else if va / 2 ^ 48 = 0x1F0 || va / 2 ^ 48 = 0x1F1 then
    match scratchpadWindow s i va with
    | some pa => .ok (pa, .spad)
    | none => .error (accessFault kADDRFORM k va 0 0 0)
  else
    match tlbHit s i va with
    | some e => checked s i va k (e.ipa + va % 4096) (e.pa + va % 4096) e.p1 e.p2 e.ty
    | none =>
      match stage1 s i va with
      | .error f => .error (accessFault f.kind k va f.wher 0 0)
      | .ok (ipa, p1) =>
        match stage2 s i.die i.part ipa with
        | .error f => .error (accessFault f.kind k va f.wher ipa 0)
        | .ok (pa, p2, ty) => checked s i va k ipa pa p1 p2 ty

/-! ## What a walk reads and leaves in its caches (R172, R179, R395) -/

/-- One entry of a walk: the address that it is read at, where no walk cache holds it, and what the cache keeps of it. -/
structure WalkRead where
  read : Option Nat
  keep : Option WalkEntry

/-- The stage-2 entries of a walk of an address. -/
def trace2 (s : State) (die part a : Nat) : Nat → Nat → List WalkRead
  | 0, table => [⟨some (table + levelIndex true 0 a * 8), none⟩]
  | level + 1, table =>
    let at0 := table + levelIndex true (level + 1) a * 8
    let hit := cachedEntry s die part 0 true (level + 1) a
    let e : Entry := ⟨hit.getD (readLE s.mem at0 8)⟩
    let read := if hit.isSome then none else some at0
    if e.bit 0 && !e.bit 1 then
      ⟨read, some ⟨die, part, 0, true, level + 1, a / pageSize (level + 1), 0, e.raw⟩⟩ :: trace2 s die part a level e.addr
    else [⟨read, none⟩]
/-- The entries of both stages of a walk of an address. -/
def trace1 (s : State) (i : Issuer) (va : Nat) : Nat → Nat → List WalkRead
  | 0, table =>
    let a := table + levelIndex false 0 va * 8
    trace2 s i.die i.part a 4 (s.part i.part).s2root ++ (match stage2 s i.die i.part a with
      | .ok (pa, _, _) => [⟨some pa, none⟩]
      | .error _ => [])
  | level + 1, table =>
    match cachedEntry s i.die i.part i.asn false (level + 1) va with
    | some raw => trace1 s i va level (Entry.addr ⟨raw⟩)
    | none =>
      let a := table + levelIndex false (level + 1) va * 8
      trace2 s i.die i.part a 4 (s.part i.part).s2root ++ (match stage2 s i.die i.part a with
        | .ok (pa, _, _) =>
          let e : Entry := ⟨readLE s.mem pa 8⟩
          if e.bit 0 && !e.bit 1 then
            ⟨some pa, some ⟨i.die, i.part, i.asn, false, level + 1, va / pageSize (level + 1), a, e.raw⟩⟩
              :: trace1 s i va level e.addr
          else [⟨some pa, none⟩]
        | .error _ => [])
/-- The stage-1 part of a walk. -/
def walkStage1 (s : State) (i : Issuer) (va : Nat) : List WalkRead := if i.root1 = 0 then [] else trace1 s i va 4 i.root1
/-- The last part of a walk, of the address that stage 1 gives. -/
def walkStage2 (s : State) (i : Issuer) (va : Nat) : List WalkRead :=
  match stage1 s i va with
  | .ok (ipa, _) => trace2 s i.die i.part ipa 4 (s.part i.part).s2root
  | .error _ => []

/-- A walk is a device load of the tables it reads: the host hands back the lines of them that it may have modified
(R395). -/
def walkSnoops (s : State) (i : Issuer) (va : Nat) : State :=
  let snoop (rs : List WalkRead) (s : State) : State := (rs.filterMap WalkRead.read).foldl (fun s a => snoopReads s a 8) s
  if s.snoopFilter.isEmpty then s
  else
    let s := snoop (walkStage1 s i va) s
    snoop (walkStage2 s i va) s

/-- Two entries of one place in a walk cache. -/
def WalkEntry.same (a b : WalkEntry) : Bool :=
  a.die == b.die && a.part == b.part && a.asn == b.asn && a.two == b.two && a.level == b.level && a.region == b.region
/-- A walk leaves the non-leaf entries that it met in its die's walk cache, which holds 512. -/
def fillWalkCache (s : State) (i : Issuer) (va : Nat) : State :=
  let new := (walkStage1 s i va ++ walkStage2 s i va).filterMap WalkRead.keep
  let new := new.foldl (fun acc e => if acc.any (WalkEntry.same e) then acc else acc ++ [e]) []
  let old := s.walkCache.filter fun e => !new.any (WalkEntry.same e)
  { s with walkCache := (new ++ old.filter fun e => e.die == i.die).take 512 ++ old.filter fun e => e.die != i.die }

end Sys2Proof.Machine
end

