-- ==== Sys2Proof/Machine/Window.lean ====
section
/-! DEFINITION. The core windows as bytes (R29 to R37): what each region of the on-chip map shows of
the slots, and what a write to it changes. Scratchpads, accumulators, counter sets and tie vectors are
memory cells at their on-chip addresses; slots and presence bits are read from their tables. -/

namespace Sys2Proof.Machine

/-- A bit as a number. -/
def bit (b : Bool) (k : Nat) : Nat := if b then 2 ^ k else 0
/-- Byte `i` of a number. -/
def byteOf (x i : Nat) : Byte := BitVec.ofNat 8 (x / 256 ^ i)
/-- A number with byte `i` replaced. -/
def withByte (x i : Nat) (b : Byte) : Nat := x - (x / 256 ^ i % 256) * 256 ^ i + b.toNat * 256 ^ i

/-- Whether a slot's state shows in the window: always in the active bank set; in the other only where
a displaced context owns it (R37). -/
def slotShows (s : State) (g : GId) : Bool :=
  (s.core g.core).act == g.bank || (s.group g).live

/-- Whether an accumulator block of a bank set belongs to a displaced context (R37). -/
def blockShows (s : State) (core bank block : Nat) : Bool :=
  (s.core core).act == bank ||
    s.groups.any fun p => p.1.core == core && p.1.bank == bank && p.2.live
      && blockInPlace s p.2 block
      && decide (p.2.accFirst ≤ block) && decide (block < p.2.accFirst + p.2.width / 8 * p.2.accCount)

/-- The bound-state entry of a register as a number of 16 bytes (R31). -/
def boundEntry (b : Bound) : Nat :=
  b.value.toNat + (bit b.bound 0 + bit b.changed 1) * 2 ^ 32 + b.pa * 2 ^ 64
/-- The thread-control entry as a number of 16 bytes (R31). -/
def controlEntry (x : Thread) : Nat := x.pc.toNat + (x.p ||| 1).toNat * 2 ^ 64 + bit x.live 72
/-- ACCMAP (R32). -/
def accmapWord (g : Group) : Nat := g.accFirst % 128 + g.accCount % 8 * 2 ^ 8
/-- CMAP (R32). -/
def cmapWord (g : Group) : Nat :=
  (List.range 4).foldl (fun acc k =>
    match g.cmap.getD k none with
    | some n => acc + (n % 16 + 16) * 2 ^ (5 * k)
    | none => acc) 0

/-- A byte of the group-state entry (R32). -/
def groupByte (g : Group) (o : Nat) : Byte :=
  if o < 0x200 then byteOf (g.s.getD (o / 8) 0).toNat (o % 8)
  else if o = 0x200 then g.q ||| 1
  else if o < 0x208 then 0
  else if o < 0x210 then byteOf (accmapWord g) (o - 0x208)
  else if o < 0x218 then byteOf (cmapWord g) (o - 0x210)
  else if o < 0x1000 then 0
  else byteOf (g.h.getD ((o - 0x1000) / 512) 0).toNat ((o - 0x1000) % 512)

/-- The group-state entry with a byte written; reserved bytes and the map words keep their values. -/
def setGroupByte (g : Group) (o : Nat) (b : Byte) : Group :=
  if o < 0x200 then
    let k := o / 8
    { g with s := g.s.set! k (BitVec.ofNat 64 (withByte (g.s.getD k 0).toNat (o % 8) b))
             sPoison := g.sPoison &&& ~~~(BitVec.ofNat 64 (2 ^ k)) }
  else if o = 0x200 then { g with q := b ||| 1, qPoison := 0 }
  else if o < 0x1000 then g
  else
    let k := (o - 0x1000) / 512
    { g with h := g.h.set! k (BitVec.ofNat 4096 (withByte (g.h.getD k 0).toNat ((o - 0x1000) % 512) b))
             hPoison := g.hPoison &&& ~~~(BitVec.ofNat 512 (2 ^ (64 * k + (o - 0x1000) % 512 / 8))) }

/-- Whether an accepted `mma`, `acczero` or tile step still names an accumulator block (R35, R350,
R357). -/
def blockPending (s : State) (core bank block : Nat) : Bool :=
  s.groups.any fun p =>
    p.1.core == core && p.1.bank == bank && blockInPlace s p.2 block &&
      (p.2.mq.any (fun q => q.2.any fun op => p.2.accFirst + q.1 * p.2.accCount + op.acc == block) ||
        (match p.2.tile with
          | some o => o.kind == .gemm && (List.range 4).any fun q => p.2.accFirst + q * p.2.accCount == block
          | none => false))

/-- The group whose tile operation works in an accumulator block (R357). -/
def tileOfBlock (s : State) (core bank block : Nat) : Option GId :=
  (s.groups.find? fun p =>
    p.1.core == core && p.1.bank == bank && blockInPlace s p.2 block &&
      (match p.2.tile with
        | some o => o.kind == .gemm && (List.range 4).any fun q => p.2.accFirst + q * p.2.accCount == block
        | none => false)).map Prod.fst

/-- A scratchpad byte is written by an action of a step, of a thread or an engine, or of another agent (R348). -/
def stampByte (s : State) (pa step : Nat) (who : Option Actor) : State :=
  { s with spadStamps := Tbl.put s.spadStamps pa (step, who) }

/-- The physical address of an accumulator element (R31): FP32 element (row, column) of a block. -/
def accAddr (core bank block row col : Nat) : Nat :=
  windowAddr core (0x80000 + bank * 0x40000 + block * 2048 + row * 256 + col * 4)

/-- An accumulator block filled with undefined values (R35, R350). -/
def spoilBlock (s : State) (core bank block : Nat) : State :=
  let bytes := (List.range 512).flatMap fun i =>
    toBytes 4 (Config.freeWord s.tick (((core * 2 + bank) * 128 + block) * 512 + i)).toNat
  s.setMem (writeBytes s.mem (accAddr core bank block 0 0) bytes)

/-- A touched working accumulator spoils the tiles not yet written (R357). -/
def spoilTile (s : State) (core bank block : Nat) : State :=
  match tileOfBlock s core bank block with
  | some g => s.modGroup g fun x => { x with tile := x.tile.map fun o => { o with spoiled := true } }
  | none => s

/-- The number of a scratchpad line of a core. -/
def spadLineId (core line : Nat) : Nat := spadAddr core (line * 128) / 128

/-- A byte of a core window as a read returns it (R33 to R37) (DESIGN CHOICE, log 45). -/
def winRead (s : State) (core off : Nat) : Byte :=
  match winRegion off with
  | .regs bank o =>
    let t : TId := ⟨core, bank, o / 256⟩
    if slotShows s (groupOf s t) then byteOf ((s.thread t).v.getD (o % 256 / 4) 0).toNat (o % 4) else 0
  | .accs bank o =>
    let block := o / 2048
    if !blockShows s core bank block then 0
    else if blockPending s core bank block then Config.freeByte s.tick (windowAddr core off)
    else readCell s.mem (windowAddr core off)
  | .bounds bank o =>
    let t : TId := ⟨core, bank, o / 128⟩
    if slotShows s (groupOf s t) then byteOf (boundEntry ((s.thread t).b.getD (o % 128 / 16) {})) (o % 16) else 0
  | .control bank o =>
    let t : TId := ⟨core, bank, o / 16⟩
    if slotShows s (groupOf s t) then byteOf (controlEntry (s.thread t)) (o % 16) else 0
  | .groups bank o =>
    let g : GId := ⟨core, bank, o / 0x2000⟩
    if slotShows s g then groupByte (s.group g) (o % 0x2000) else 0
  | .presence o =>
    BitVec.ofNat 8 ((List.range 8).foldl (fun acc i =>
      acc + bit (!s.absent.contains (spadLineId core (o * 8 + i))) i) 0)
  | .spad _ | .counters | .ties => readCell s.mem (windowAddr core off)
  | .trellis => Config.implByte off
  | .reserved => 0

/-- The counter width of a pool set: that of the kernel whose context holds it, else 8 (R372). -/
def counterWidth (s : State) (core set : Nat) : Nat :=
  match Tbl.find (s.core core).sets set with
  | some (c, _) => (s.launch (s.ctx c).launch).kernel.hvc
  | none => 8
/-- The largest counter of a width. -/
def counterLimit (w : Nat) : Int := 2 ^ (w - 1) - 1
/-- A counter byte as it is stored: its low bits in two's complement, the least value raised (R374). -/
def counterByte (w : Nat) (b : Byte) : Byte :=
  BitVec.ofInt 8 (max (-(counterLimit w)) ((b.setWidth w).toInt))

/-- A window read of a working accumulator of a busy `tgemm` leaves it, and the tiles not yet written, undefined
(R357). -/
def touchRead (s : State) (pa : Nat) : State :=
  match placeOf pa with
  | .window core off =>
    match winRegion off with
    | .accs bank o =>
      match tileOfBlock s core bank (o / 2048) with
      | some _ => spoilTile (spoilBlock s core bank (o / 2048)) core bank (o / 2048)
      | none => s
    | _ => s
  | _ => s

/-- A byte of a core window written (R34 to R37). Reserved bits and the Trellis take nothing. Of a register word
that an access writes in part, the other bytes stay, and its poison mark goes (DESIGN CHOICE, log 45). -/
def winWrite (s : State) (core off : Nat) (b : Byte) : State :=
  match winRegion off with
  | .regs bank o =>
    let t : TId := ⟨core, bank, o / 256⟩
    let k := o % 256 / 4
    if slotShows s (groupOf s t) then
      s.modThread t fun x =>
        { x with v := x.v.set! k (BitVec.ofNat 32 (withByte (x.v.getD k 0).toNat (o % 4) b))
                 vPoison := x.vPoison &&& ~~~(BitVec.ofNat 64 (2 ^ k))
                 stamps := Tbl.put x.stamps k s.tick }
    else s
  | .accs bank o =>
    let block := o / 2048
    if !blockShows s core bank block then s
    else if blockPending s core bank block then spoilTile (spoilBlock s core bank block) core bank block
    else s.setMem (writeCell s.mem (windowAddr core off) b)
  | .bounds bank o =>
    let t : TId := ⟨core, bank, o / 128⟩
    let k := o % 128 / 16
    if slotShows s (groupOf s t) then
      s.modThread t fun x =>
        let e := withByte (boundEntry (x.b.getD k {})) (o % 16) b
        { x with b := x.b.set! k { x.b.getD k {} with
            value := BitVec.ofNat 32 e, bound := e / 2 ^ 32 % 2 == 1, changed := e / 2 ^ 33 % 2 == 1
            pa := e / 2 ^ 64 % 2 ^ 64 } }
    else s
  | .control bank o =>
    let t : TId := ⟨core, bank, o / 16⟩
    if slotShows s (groupOf s t) then
      s.modThread t fun x =>
        let e := withByte (controlEntry x) (o % 16) b
        { x with pc := BitVec.ofNat 64 e, p := BitVec.ofNat 8 (e / 2 ^ 64) ||| 1, live := e / 2 ^ 72 % 2 == 1 }
    else s
  | .groups bank o =>
    let g : GId := ⟨core, bank, o / 0x2000⟩
    if slotShows s g then s.modGroup g fun x => setGroupByte x (o % 0x2000) b else s
  | .presence o =>
    let line (i : Nat) : Nat := spadLineId core (o * 8 + i)
    { s with absent := (List.range 8).foldl (fun acc i =>
        if b.getLsbD i then acc.filter (· != line i)
        else if acc.contains (line i) then acc else acc ++ [line i]) s.absent }
  | .spad o =>
    let s := s.setMem (writeCell s.mem (windowAddr core off) b)
    stampByte s (spadAddr core o) s.tick none
  | .counters =>
    let w := counterWidth s core ((off - 0x300000) / 4096)
    s.setMem (writeCell s.mem (windowAddr core off) (counterByte w b))
  | .ties => s.setMem (writeCell s.mem (windowAddr core off) b)
  | .trellis | .reserved => s

/-- `n` bytes of a window read, and bytes written, in ascending address. -/
def winReadN (s : State) (core off n : Nat) : List Byte := (List.range n).map fun i => winRead s core (off + i)
def winWriteN (s : State) (core off : Nat) (bs : List Byte) : State :=
  (List.range bs.length).foldl (fun s i => winWrite s core (off + i) (bs.getD i 0)) s

end Sys2Proof.Machine
end

