-- ==== Sys2Proof/Machine/Access.lean ====
section
/-! DEFINITION. Accesses under the ordering promise (R118 to R137): loads, stores and atomics of each
memory type, the store buffer and its publication, narrow-held stores and the forced publish, the
marks of bindings and their refresh. A load that the plan lets land late is read when its result
returns, so loads pass one another as R126 allows. -/

namespace Sys2Proof.Machine

/-! ## Home memory -/

/-- Bytes written at their home, with marks, poison and the stamps of scratchpad bytes. L1 copies of a coherent
line go, but for that of the core whose store it is (R118): `by_` names its thread and the step that issued it. -/
def homeWrite (s : State) (part : Option Nat) (pa : Nat) (bs : List Byte) (ty : MemTy) (poison : Bool)
    (via : Option (TId × Reg8)) (who : TId → Bool := fun _ => true) (by_ : Option (TId × Nat) := none) : State :=
  let s := snoopWrites s pa bs.length
  let s := s.setMem (writeBytes s.mem pa bs)
  let s := setMemPoison s pa bs.length poison
  let own (c : CacheId) : Bool := by_.any fun t => c == .l1 t.1.core
  match ty with
  | .wb => markBytes (dropLine s (pa / 128) fun c => c.isL1 && !own c) part pa bs.length via who
  | .hb => markBytes (dropLine (hbWrite s pa) (pa / 128) fun c => c.isL1 && !own c) part pa bs.length via who
  | .spad =>
    (List.range bs.length).foldl (fun s i =>
      stampByte s (pa + i) ((by_.map Prod.snd).getD s.tick) (by_.map fun b => actorOf s b.1)) s
  | _ => s

/-! ## Device registers (R26, R55, R167) -/

/-- Whether an address of the device range lies in the registers that R167, R189, R201 and R216 keep for the service
cores. -/
def managedDevice (pa : Nat) : Bool := decide (0xE000000100000 ≤ pa) && decide (pa < 0xE000000200000)

/-- The fault of a thread's access to the device range: a partition violation at the registers of the service cores
(R167), its stage 1 completed (R200). -/
def deviceStop (s : State) (i : Issuer) (pa va : Nat) (k : Access) : Option SysFault :=
  match placeOf pa with
  | .device => if managedDevice pa then some (accessFault kPARTVIOL k va 0 (ipaOf s i va) pa) else none
  | _ => none

/-- Whether Pergola accepts a doorbell write (R58). -/
def doorbellOk (s : State) (q : Queue) (n : W64) : Bool :=
  !q.destroyed && (s.part q.part).state != 2 && decide ((n - q.prod).toNat ≤ 2 ^ q.logn)
    && decide ((q.cons + BitVec.ofNat 64 (2 ^ q.logn) - n).toNat ≤ 2 ^ q.logn)

/-- A doorbell write (R57, R58). -/
def writeDoorbell (s : State) (id : Nat) (q : Queue) (n : W64) : State :=
  if doorbellOk s q n then s.setQueue id { q with prod := n } else s

/-- The queue whose doorbell stands at an address. -/
def doorbellAt (s : State) (pa : Nat) : Option (Nat × Queue) := s.queues.find? fun q => q.2.doorbell == pa

/-- A write to the device range: a doorbell, or a register the spec does not describe, which changes nothing the
model holds (DESIGN CHOICE, log 11). -/
def deviceWrite (s : State) (pa : Nat) (bs : List Byte) : State :=
  match doorbellAt s pa with
  | some (id, q) => if bs.length = 8 then writeDoorbell s id q (BitVec.ofNat 64 (ofBytes bs)) else s
  | none => s

/-- A byte of the device range as a thread's access reads it: a submission queue's consumer index (R55), else a
value the spec does not state (DESIGN CHOICE, log 11). -/
def deviceByte (s : State) (a : Nat) : Byte :=
  match s.queues.find? fun q => !q.2.destroyed && decide (q.2.consumer ≤ a) && decide (a < q.2.consumer + 8) with
  | some q => byteOf q.2.cons.toNat (a - q.2.consumer)
  | none => Config.freeByte s.tick a

/-- A byte as an access at its target reads it: a core window's, the device range's, or memory's. -/
def placeByte (s : State) (a : Nat) : Byte :=
  match placeOf a with
  | .window core off => winRead s core off
  | .device => deviceByte s a
  | _ => readCell s.mem a

/-! ## SM copies (R119) -/

/-- The first byte of a line. -/
def lineBase (pa : Nat) : Nat := pa / 128 * 128

/-- The byte an SM load of a core reads: its L1 copy, the die's LLC copy, or the home. -/
def smByte (s : State) (core a : Nat) : Byte :=
  match (s.core core).smL1.find? fun e => e.1 == a with
  | some e => e.2.1
  | none =>
    match (s.die (dieOfCore core)).smLlc.find? fun e => e.1 == a with
    | some e => e.2
    | none => readCell s.mem a

/-- Whether the byte that an SM load of a core reads is poisoned (R207). -/
def smBadAt (s : State) (core a : Nat) : Bool :=
  if (s.core core).smL1.any fun e => e.1 == a then (s.core core).smBad.contains a
  else if (s.die (dieOfCore core)).smLlc.any fun e => e.1 == a then (s.die (dieOfCore core)).smLlcBad.contains a
  else memPoisoned s a 1

/-- A die's LLC takes the bytes of a line that it lacks from the home, with their poison. -/
def smFillLlc (s : State) (die line : Nat) : State :=
  let lacks := ((List.range 128).map fun i => line * 128 + i).filter fun a => !(s.die die).smLlc.any fun e => e.1 == a
  let bad := lacks.filter fun a => memPoisoned s a 1
  s.modDie die fun x =>
    { x with smLlc := x.smLlc ++ lacks.map fun a => (a, readCell s.mem a), smLlcBad := x.smLlcBad ++ bad }
/-- A load that finds a byte missing in the L1 copy fills both copies with the bytes of its line that they lack; one
that finds every byte there fetches nothing (R119). -/
def smFill (s : State) (core pa n : Nat) : State :=
  if (List.range n).all fun i => (s.core core).smL1.any fun e => e.1 == pa + i then s
  else
    let s := smFillLlc s (dieOfCore core) (pa / 128)
    let lacks := ((List.range 128).map fun i => lineBase pa + i).filter fun a => !(s.core core).smL1.any fun e => e.1 == a
    let bad := lacks.filter (smBadAt s core)
    s.modCore core fun c => { c with smL1 := c.smL1 ++ lacks.map fun a => (a, smByte s core a, false), smBad := c.smBad ++ bad }

/-- A store writes the L1 copy and its dirty mask; its poison is the copy's (R207). -/
def smStore (s : State) (core pa : Nat) (bs : List Byte) (poison : Bool) : State :=
  let mine (a : Nat) : Bool := decide (pa ≤ a) && decide (a < pa + bs.length)
  let s := s.modCore core fun c =>
    { c with smBad := c.smBad.filter (fun a => !mine a) ++ (if poison then (List.range bs.length).map (pa + ·) else []) }
  (List.range bs.length).foldl (fun s i =>
    let a := pa + i
    s.modCore core fun c =>
      { c with smL1 := (c.smL1.filter fun e => e.1 != a) ++ [(a, bs.getD i 0, true)] }) s

/-- The core's copy of a line is clean. -/
def smClean (s : State) (core line : Nat) : State :=
  s.modCore core fun c => { c with smL1 := c.smL1.map fun e => if e.1 / 128 = line then (e.1, e.2.1, false) else e }
/-- Whether a core's copy of a line holds dirty bytes. -/
def smDirty (s : State) (core line : Nat) : Bool := (s.core core).smL1.any fun e => e.2.2 && e.1 / 128 == line
/-- Whether the write-back of a line waits for a peer that no port reaches (R402). -/
def smWaits (s : State) (core line : Nat) : Bool := smDirty s core line && peerDown s ((partOfCore s core).getD 0) (line * 128)

/-- The dirty bytes of a core's line go to the home and to the die's LLC copy where it holds the byte, with their poison;
the copy stays, clean (R119, R207, R371). -/
def smSend (s : State) (core line : Nat) : State :=
  let dirty := (s.core core).smL1.filter fun e => e.2.2 && e.1 / 128 == line
  let bad := (s.core core).smBad
  let d := dieOfCore core
  let s := if dirty.isEmpty then s else snoopWrite s (line * 128)
  let s := dirty.foldl (fun s e =>
    let s := s.setMem (writeCell s.mem e.1 e.2.1)
    s.modDie d fun x =>
      { x with smLlc := x.smLlc.map fun f => if f.1 = e.1 then (f.1, e.2.1) else f
               smLlcBad := if bad.contains e.1 && (x.smLlc.any fun f => f.1 == e.1) && !x.smLlcBad.contains e.1
                 then x.smLlcBad ++ [e.1] else if bad.contains e.1 then x.smLlcBad else x.smLlcBad.filter (· != e.1) }) s
  let s := (dedup (dirty.map fun e => e.1 / 8)).foldl (fun s w =>
    setMemPoison s (w * 8) 8 (dirty.any fun e => e.1 / 8 == w && bad.contains e.1)) s
  smClean s core line
/-- A line written back. One of a peer that refuses it changes nothing there, and the sender's partition gets the record
(R401); one of a peer that no port reaches stays as it is (R402). -/
def smWriteBack (s : State) (core line : Nat) : State :=
  let p := (partOfCore s core).getD 0
  if smWaits s core line then s
  else if smDirty s core line && peerRefuses s p (line * 128) then
    let r : Rec := { kind := kPARTVIOL, sev := 1, access := Access.code .store, core := coreField core (s.core core).act
                     tti := (Config.freeWord s.tick 60007).toNat, pa := line * 128 }
    smClean (fileRec s p r .none).1 core line
  else smSend s core line

/-- The core's L1 copy of a line is dropped, dirty bytes and all. -/
def smDropL1 (s : State) (core line : Nat) : State :=
  dropLine (s.modCore core fun c => { c with smL1 := c.smL1.filter (fun e => e.1 / 128 != line)
                                             smBad := c.smBad.filter fun a => a / 128 != line }) line (· == .l1 core)
/-- A die's LLC copy of a line is dropped. -/
def smDropLlc (s : State) (die line : Nat) : State :=
  dropLine (s.modDie die fun x => { x with smLlc := x.smLlc.filter (fun e => e.1 / 128 != line)
                                           smLlcBad := x.smLlcBad.filter fun a => a / 128 != line }) line (· == .llc die)

/-! ## The store buffer (R125, R129, R131, R132) -/

/-- Whether a thread observes the stores another holds within a scope (R122). -/
def inScope (s : State) (t u : TId) (sc : Sc) : Bool :=
  match sc with
  | .grp => groupOf s t == groupOf s u
  | .team => launchOf s t == launchOf s u && (s.group (groupOf s t)).team == (s.group (groupOf s u)).team
  | .dev => true
  | .sys => true

/-- Whether a thread observes a store that another holds back: its own, or one held within a scope it stands
in (R124, R131). -/
def sees (s : State) (u t : TId) (held : Option Sc) : Bool :=
  u == t || (match held with
    | some sc => inScope s u t sc
    | none => false)

/-- A buffered store marks the bindings of the threads that observe it now and did not before (R135, R137)
(DEDUCED, log 19). -/
def markSeen (s : State) (t : TId) (e : StoreEnt) (was : TId → Bool) : State :=
  match e.ty with
  | .wb | .hb =>
    markBytes s (partOfCore s t.core) e.pa e.bytes.length (e.via.map fun k => (t, k)) fun u => sees s u t e.held && !was u
  | _ => s

/-- One store leaves a buffer for its home; it marks the bindings of the threads that did not yet observe it. -/
def publishEnt (s : State) (t : TId) (e : StoreEnt) : State :=
  homeWrite (publishOrder s e) (partOfCore s t.core) e.pa e.bytes e.ty e.poison (e.via.map fun k => (t, k))
    (fun u => !sees s u t e.held) (some (t, e.step))

/-- How many of a buffer's oldest stores reach through the last that `f` holds of. -/
def prefixThrough (f : StoreEnt → Bool) (sb : List StoreEnt) : Nat :=
  sb.length - (sb.reverse.takeWhile fun e => !f e).length

/-- A store put among others in ascending order of issue. -/
def insertStore (x : TId × StoreEnt) : List (TId × StoreEnt) → List (TId × StoreEnt)
  | [] => [x]
  | y :: ys => if x.2.seq < y.2.seq then x :: y :: ys else y :: insertStore x ys

/-- How many of a thread's oldest stores go with its narrow-held ones. -/
def heldCount (x : Thread) : Nat := prefixThrough (fun e => e.held.isSome) x.sb

/-- The narrow-held stores of a cluster's threads, and what stands before them, in order. -/
def heldStores (s : State) (core : Nat) : List (TId × StoreEnt) :=
  let own (p : TId × Thread) : List (TId × StoreEnt) :=
    if p.1.core / 2 = core / 2 then (p.2.sb.take (heldCount p.2)).map fun e => (p.1, e) else []
  (s.threads.flatMap own).foldr insertStore []

/-- The narrow-held stores of a cluster's threads are published (R132): a scope narrower than `.dev`
never reaches beyond a cluster, so what a release makes visible beyond it carries every store that was
visible within. No line is narrow-held by the cluster after it. -/
def publishHeld (s : State) (core : Nat) : State :=
  let s := if s.narrow.isEmpty then s else { s with narrow := s.narrow.filter fun e => e.2.1.core / 2 != core / 2 }
  match heldStores s core with
  | [] => s
  | es =>
    let cut (p : TId × Thread) : TId × Thread :=
      if p.1.core / 2 = core / 2 then (p.1, { p.2 with sb := p.2.sb.drop (heldCount p.2) }) else p
    es.foldl (fun s p => publishEnt s p.1 p.2) { s with threads := s.threads.map cut }

/-- Before a store that is not held leaves its buffer: the held stores of its bytes that its thread observes and
that are older stand before it in modification order (R124). -/
def publishSeen (s : State) (t : TId) (e : StoreEnt) : State :=
  s.threads.foldl (fun s p =>
    if p.1 ≠ t && (s.thread p.1).sb.any (fun f => f.held.isSome && decide (f.seq < e.seq)
        && overlaps f.pa f.bytes.length e.pa e.bytes.length && sees s t p.1 f.held)
    then publishHeld s p.1.core else s) s

/-- The oldest store of a thread leaves its buffer for its home. -/
def sendOldest (s : State) (t : TId) : State :=
  match (s.thread t).sb with
  | [] => s
  | e :: rest => publishEnt (publishSeen (s.modThread t fun x => { x with sb := rest }) t e) t e

/-- The oldest `n` stores of a thread, in order. -/
def sendN (s : State) (t : TId) : Nat → State
  | 0 => s
  | n + 1 => sendN (sendOldest s t) t n

/-- The oldest store of a thread is published, a narrow-held one with the narrow-held stores it may
order (R127, R131). -/
def publishOldest (s : State) (t : TId) : State :=
  match (s.thread t).sb with
  | [] => s
  | e :: _ => if e.held.isSome then publishHeld s t.core else sendOldest s t

/-- The oldest `n` stores of a thread are published, in order. -/
def publishN (s : State) (t : TId) (n : Nat) : State :=
  if ((s.thread t).sb.take n).any fun e => e.held.isSome then
    let before := (s.thread t).sb.length
    let s := publishHeld s t.core
    sendN s t (n - (before - (s.thread t).sb.length))
  else sendN s t n

/-- Every store of a thread is published. -/
def publishAll (s : State) (t : TId) : State := publishN s t (s.thread t).sb.length

/-- A thread's stores are published through the last that touches the bytes. -/
def publishThrough (s : State) (t : TId) (pa n : Nat) : State :=
  publishN s t (prefixThrough (fun e => overlaps e.pa e.bytes.length pa n) (s.thread t).sb)

/-- The lines that narrow-held stores of a thread stand in, or that a narrow release wrote, outside whose scope a
thread stands. -/
def heldFrom (s : State) (t u : TId) (line : Nat) : Bool :=
  (s.thread u).sb.any (fun e => e.pa / 128 == line &&
    (match e.held with
      | some sc => !inScope s t u sc
      | none => false)) ||
  s.narrow.any fun e => e.1 == line && e.2.1 == u && !inScope s t u e.2.2

/-- The forced publish (R131): before a thread's acquire of a line that is narrow-held outside its scope, every
holder publishes its narrow-held stores. -/
def forcePublish (s : State) (t : TId) (pa : Nat) : State :=
  (s.threads.map Prod.fst).foldl (fun s u => if u ≠ t && heldFrom s t u (pa / 128) then publishHeld s u.core else s) s

/-- The forced publish of an acquire fence, whose loads have read any line (R127, R131). -/
def forceAll (s : State) (t : TId) : State :=
  s.narrow.foldl (fun s e => if inScope s t e.2.1 e.2.2 then s else publishHeld s e.2.1.core) s

/-- A narrow release is performed at the home of a line: while stores it orders are unpublished, the directory
records the line as narrow-held (R131). -/
def recordNarrow (s : State) (t : TId) (pa : Nat) (sc : Sc) : State :=
  if (heldStores s t.core).isEmpty then s else { s with narrow := (pa / 128, t, sc) :: s.narrow }

/-- The narrow-held stores of any thread that touch the bytes are published: an atomic is performed at
the home, after every store already in the bytes' modification order. -/
def publishHeldAt (s : State) (pa n : Nat) : State :=
  s.threads.foldl (fun s p =>
    publishN s p.1 (prefixThrough (fun e => e.held.isSome && overlaps e.pa e.bytes.length pa n) (s.thread p.1).sb)) s

/-- The scope of a store that is held, or held anew. -/
def heldScope (e : StoreEnt) (sc : Sc) : Sc :=
  match e.held with
  | some .team => .team
  | _ => sc

/-- Whether a scope reaches beyond a cluster. -/
def Sc.isWide : Sc → Bool
  | .grp => false
  | .team => false
  | .dev => true
  | .sys => true

/-- A thread's earlier stores become visible within a scope (R131): those of `.dev` or `.sys` scope become visible
to every thread at one moment (R125), so they are published, with the stores before them. -/
def holdStores (s : State) (t : TId) (sc : Sc) : State :=
  let s := publishN s t (prefixThrough (fun e => Sc.isWide e.sc) (s.thread t).sb)
  let es := (s.thread t).sb
  let s := s.modThread t fun x => { x with sb := x.sb.map fun e => { e with held := some (heldScope e sc) } }
  es.foldl (fun s e => markSeen s t { e with held := some (heldScope e sc) } fun u => sees s u t e.held) s

/-- The stores that the other threads of a thread's group hold within the group become visible within its team, with what
stands before them: what its team release makes visible there carries every store that was visible within the group
(R127, R131). -/
def widenMates (s : State) (t : TId) : State :=
  (s.threads.map Prod.fst).foldl (fun s u =>
    if u ≠ t && groupOf s u == groupOf s t && (s.thread u).sb.any (fun e => e.held == some .grp) then
      let n := prefixThrough (fun e => e.held == some .grp) (s.thread u).sb
      let es := (s.thread u).sb.take n
      let s := s.modThread u fun x => { x with sb := es.map (fun e => { e with held := some .team }) ++ x.sb.drop n }
      es.foldl (fun s e => markSeen s u { e with held := some .team } fun v => sees s v u e.held) s
    else s) s

/-- A release of a thread at a narrow scope: its own stores, and for a team those of its group. -/
def holdNarrow (s : State) (t : TId) (sc : Sc) : State :=
  match sc with
  | .grp => holdStores s t .grp
  | _ => holdStores (widenMates s t) t .team

/-! ## Evictions (R24, R132, R279) -/

/-- The lines that a cache holds at most (R24). -/
def CacheId.lines : CacheId → Nat
  | .l1 _ => 1024
  | .llc _ => 524288
  | .sys _ => 262144

/-- A line leaves a cache. From an L1, its dirty SM bytes go home and the narrow-held stores of its bytes are published;
from a system cache, the host is told. -/
def evictLine (s : State) (c : CacheId) (line : Nat) : State :=
  match c with
  | .l1 core =>
    let s := smWriteBack (publishHeldAt s (line * 128) 128) core line
    if smDirty s core line then s else smDropL1 s core line
  | .llc die => smDropLlc s die line
  | .sys _ => dropLine (hbEvict s line) line (fun x => x == c || x.isL1)

/-- The victim of a cache that holds more lines than it has room for. -/
def victimOf (s : State) (c : CacheId) : Option Nat :=
  let mine := s.lines.filter fun l => l.cache == c
  let waits (l : CacheLine) : Bool :=
    match c with
    | .l1 core => smWaits s core l.line
    | .llc _ | .sys _ => false
  if mine.length ≤ c.lines then none else (mine.find? fun l => mayEvict s c l.line && !waits l).map CacheLine.line

/-- A cache with no more lines than it has room for, `n` being the most that leave. -/
def settleCache (c : CacheId) : Nat → State → State
  | 0, s => s
  | n + 1, s =>
    match victimOf s c with
    | some line => settleCache c n (evictLine s c line)
    | none => s

/-! ## The hint of an access (R279) -/

/-- HintLine(pa, mtype, hint) (R279): the issuing core's L1, and the LLC or system cache that holds the line. -/
def hintLine (s : State) (core pa : Nat) (ty : MemTy) (h : Hint) : State :=
  let p := hintPrio h
  let line := pa / 128
  match ty with
  | .uc | .spad => s
  | .wb => touchLine (touchLine s (.l1 core) line p) (.llc (homeDie pa)) line p
  | .sm => touchLine (touchLine s (.l1 core) line p) (.llc (dieOfCore core)) line p
  | .hb => touchLine (touchLine s (.l1 core) line p) (.sys (homeIo pa)) line p

/-- The home's cache alone, for an atomic, which is performed there (R130, R283). -/
def hintHome (s : State) (pa : Nat) (ty : MemTy) : State :=
  match ty with
  | .wb => touchLine s (.llc (homeDie pa)) (pa / 128) 1
  | .hb => touchLine s (.sys (homeIo pa)) (pa / 128) 1
  | _ => s

/-- The byte of a buffer's newest store of an address. -/
def bufferByte (sb : List StoreEnt) (a : Nat) (ok : StoreEnt → Bool) : Option (Nat × Byte × Bool) :=
  match sb.reverse.find? fun e => ok e && decide (e.pa ≤ a) && decide (a < e.pa + e.bytes.length) with
  | some e => some (e.seq, e.bytes.getD (a - e.pa) 0, e.poison)
  | none => none

/-- The newest of two visible stores of a byte. -/
def newer : Option (Nat × Byte × Bool) → Option (Nat × Byte × Bool) → Option (Nat × Byte × Bool)
  | some x, some y => if x.1 < y.1 then some y else some x
  | some x, none => some x
  | none, y => y

/-- What a thread's load of a byte of WB, HB or scratchpad memory finds before the home: its own latest
store, or one held within a scope the thread stands in (R124, R131). -/
def visibleStore (s : State) (t : TId) (a : Nat) : Option (Nat × Byte × Bool) :=
  s.threads.foldl (fun best p =>
    if p.2.sb.isEmpty then best
    else if p.1 = t then newer best (bufferByte p.2.sb a fun _ => true)
    else newer best (bufferByte p.2.sb a fun e =>
      match e.held with
      | some sc => inScope s t p.1 sc
      | none => false)) none

/-- The byte a thread's load reads at a physical address, with its poison. -/
def loadByte (s : State) (t : TId) (ty : MemTy) (a : Nat) : Byte × Bool :=
  match ty with
  | .sm => (smByte s t.core a, smBadAt s t.core a)
  | .uc => (placeByte s a, memPoisoned s a 1)
  | _ =>
    match visibleStore s t a with
    | some (_, b, p) => (b, p)
    | none => (readCell s.mem a, memPoisoned s a 1)

/-- `n` bytes as a thread's load reads them: the number they hold, and their poison (DEDUCED, log 13). -/
def loadValue (s : State) (t : TId) (ty : MemTy) (pa n : Nat) : W64 × Bool :=
  let bs := (List.range n).map fun i => loadByte s t ty (pa + i)
  (BitVec.ofNat 64 (ofBytes (bs.map Prod.fst)), bs.any Prod.snd)

/-- The bytes of a vector in blocks of 64, as a load of a thread reads them, with the poison of each of
its 64-bit words (R375). -/
def loadVector (s : State) (t : TId) (blocks : List (Nat × MemTy)) : HVec × BitVec 64 :=
  let bs := blocks.flatMap fun k => (List.range 64).map fun j => loadByte s t k.2 (k.1 + j)
  let x := BitVec.ofNat 4096 (ofBytes (bs.map Prod.fst))
  let p := (List.range 64).foldl (fun acc i =>
    acc + bit ((List.range 8).any fun j => (bs.getD (8 * i + j) (0, false)).2) i) 0
  (x, BitVec.ofNat 64 p)

/-- Whether a thread observes a store of the bytes that another holds back within a scope. -/
def seesHeld (s : State) (t : TId) (pa n : Nat) : Bool :=
  s.threads.any fun p => p.1 ≠ t && p.2.sb.any fun e =>
    e.held.isSome && overlaps e.pa e.bytes.length pa n && sees s t p.1 e.held

/-- Before a thread's access of the bytes reads them: a UC access finds scratchpad bytes at their home (R40), and
where the thread's own store and a store held by another meet in the bytes, its own takes its place in modification
order first, so that the thread never reads past it (R124, R137). -/
def settleAt (s : State) (t : TId) (ty : MemTy) (pa n : Nat) : State :=
  match ty with
  | .uc => publishHeldAt (publishThrough s t pa n) pa n
  | .sm => s
  | _ =>
    if (s.thread t).sb.any (fun e => e.held.isNone && overlaps e.pa e.bytes.length pa n) && seesHeld s t pa n then
      publishThrough s t pa n
    else s

/-- What a load leaves behind in the caches: SM copies filled, an HB line held. -/
def loadEffect (s : State) (t : TId) (ty : MemTy) (pa n : Nat) : State :=
  match ty with
  | .sm => smFill s t.core pa n
  | .hb => hbRead s pa
  | .uc => touchRead s pa
  | _ => s

/-- What the stores that a thread's load of some bytes reads hand on (R127). -/
def readClock (s : State) (t : TId) (ty : MemTy) (pa n : Nat) : Clock :=
  if s.order.carried.isEmpty then []
  else if ty == .uc || ty == .sm then wordClock s pa n
  else
    (List.range ((n + 3) / 4)).foldl (fun c i =>
      match visibleStore s t (pa + 4 * i) with
      | some (seq, _, _) => Clock.join c (carriedBy s (.buffered seq))
      | none => Clock.join c (wordClock s (pa + 4 * i) (Nat.min 4 (n - 4 * i)))) []

/-- A thread's acquire is made, of what `c` names (R127): what its loads have taken before it is of no use after it
(R123). -/
def acquire (s : State) (t : TId) (c : Clock) : State := learn (s.modThread t fun x => { x with early := [] }) t c
/-- The acquire of what a thread's last load has read: its own, or a fence's. -/
def acquireLoad (s : State) (t : TId) : State := acquire s t (loadedBy s t)

/-! ## Loads satisfied early (R126) -/

/-- What a thread has taken early of bytes that a load now reads. -/
def earlyFor (x : Thread) (pa n : Nat) (ty : MemTy) : Option Early :=
  if ty == .uc || ty == .sm then none
  else x.early.find? fun e => decide (e.pa ≤ pa) && decide (pa + n ≤ e.pa + e.bytes.length)
/-- A thread's access of bytes stands after what it took of them before: that is of no use any more (R124). -/
def dropEarly (s : State) (t : TId) (pa n : Nat) : State :=
  if (s.thread t).early.isEmpty then s
  else s.modThread t fun x => { x with early := x.early.filter fun e => !overlaps e.pa e.bytes.length pa n }
/-- The bytes of a load, `early` being what was taken of them. -/
def Early.value (e : Early) (pa n : Nat) : W64 × Bool :=
  let bs := (e.bytes.drop (pa - e.pa)).take n
  (BitVec.ofNat 64 (ofBytes (bs.map Prod.fst)), bs.any Prod.snd)
/-- The value of a load: taken early, or read now. What was taken early of its bytes goes. -/
def takeValue (s : State) (t : TId) (ty : MemTy) (pa n : Nat) : State × W64 × Bool :=
  match earlyFor (s.thread t) pa n ty with
  | some e => (noteLoad (dropEarly s t pa n) t e.order, Early.value e pa n)
  | none =>
    let s := snoopReads (settleAt s t ty pa n) pa n
    let x := loadValue s t ty pa n
    (noteLoad (dropEarly s t pa n) t (readClock s t ty pa n), x)

/-- The value of a load by its order: an acquire takes it after the forced publish, and is then made (R127, R131). -/
def takeOrdered (s : State) (t : TId) (ty : MemTy) (pa n : Nat) (acq : Option Sc) : State × W64 × Bool :=
  match acq with
  | none => takeValue s t ty pa n
  | some _ =>
    let (s, x, p) := takeValue (forcePublish s t pa) t ty pa n
    (acquireLoad s t, x, p)

/-- The value of a vector in blocks of 64 bytes, each taken early or read now. -/
def takeVector (s : State) (t : TId) (blocks : List (Nat × MemTy)) : State × HVec × BitVec 64 :=
  let s := blocks.foldl (fun s k => snoopReads (settleAt s t k.2 k.1 64) k.1 64) s
  let es : List (Nat × W64 × Bool) := (List.range 64).filterMap fun j =>
    let k := blocks.getD (j / 8) (0, .uc)
    (earlyFor (s.thread t) (k.1 + 8 * (j % 8)) 8 k.2).map fun e => (j, Early.value e (k.1 + 8 * (j % 8)) 8)
  let (x, p) := loadVector s t blocks
  let mask (j : Nat) : HVec := BitVec.ofNat 4096 ((2 ^ 64 - 1) * 2 ^ (64 * j))
  let x := es.foldl (fun (x : HVec) e => (x &&& ~~~(mask e.1)) ||| BitVec.ofNat 4096 (e.2.1.toNat * 2 ^ (64 * e.1))) x
  let p := es.foldl (fun (p : BitVec 64) e =>
    let b : BitVec 64 := BitVec.ofNat 64 (2 ^ e.1)
    if e.2.2 then p ||| b else p &&& ~~~b) p
  (blocks.foldl (fun s k => noteLoad (dropEarly s t k.1 64) t (readClock s t k.2 k.1 64)) s, x, p)

/-! ## Outstanding loads (R123, R124, R126) -/

/-- An outstanding load takes its value now. -/
def satisfyOut (s : State) (t : TId) (o : Out) : State × Out :=
  match o.val with
  | .load pa n ty acq =>
    let (s, x, p) := takeOrdered s t ty pa n acq
    (loadEffect s t ty pa n, { o with val := .known x p })
  | .hypLoad blocks =>
    let (s, x, p) := takeVector s t blocks
    (blocks.foldl (fun s k => loadEffect s t k.2 k.1 64) s, { o with val := .hyp x p })
  | _ => (s, o)

/-- The outstanding loads of a thread that `f` holds of take their values, oldest first. -/
def satisfyIf (s : State) (t : TId) (f : Out → Bool) : State :=
  if (s.thread t).outs.isEmpty then s
  else
    let (s, outs) := (s.thread t).outs.foldl (fun (acc : State × List Out) o =>
      if f o then
        let (s, o) := satisfyOut acc.1 t o
        (s, acc.2 ++ [o])
      else (acc.1, acc.2 ++ [o])) (s, [])
    s.modThread t fun x => { x with outs := outs }

/-- Whether an outstanding load must be satisfied before a later access of the bytes: it is an acquire,
or it shares a byte with them (R123, R124). -/
def orderedBefore (pa n : Nat) (o : Out) : Bool :=
  match o.val with
  | .load a k _ acq => acq.isSome || overlaps a k pa n
  | .hypLoad blocks => blocks.any fun k => overlaps k.1 64 pa n
  | _ => false
/-- Before a later access of the bytes. -/
def satisfyFor (s : State) (t : TId) (pa n : Nat) : State := satisfyIf s t (orderedBefore pa n)
/-- Before any later access: every earlier acquire (R123). -/
def satisfyAcquires (s : State) (t : TId) : State :=
  satisfyIf s t fun o =>
    match o.val with
    | .load _ _ _ acq => acq.isSome
    | _ => false
/-- Before a release or an acquire fence: every earlier load (DEDUCED, log 16). -/
def satisfyAll (s : State) (t : TId) : State := satisfyIf s t fun _ => true

/-! ## Presence bits (R36) -/

/-- The core of a scratchpad byte of the on-chip map. -/
def spadCore (pa : Nat) : Option Nat :=
  match placeOf pa with
  | .window core off =>
    match winRegion off with
    | .spad _ => some core
    | _ => none
  | _ => none

/-- Whether a load of a byte finds its line's presence bit clear. -/
def lineAbsent (s : State) (pa : Nat) : Bool := s.absent.contains (pa / 128)

/-- The wait of a thread at an absent line. -/
def presenceWait (pa : Nat) : Stop := .wait (.presence (pa / 128))

/-- A line becomes present: a waking event of its core, and the loads parked on it are ready (R36, R155). -/
def setLine (s : State) (line : Nat) : State :=
  if s.absent.contains line then
    let s := { s with absent := s.absent.filter (· != line) }
    let s := retryWaits s fun _ w => w == .presence line
    match spadCore (line * 128) with
    | some core => wakeCore s core
    | none => s
  else s

/-- Whether an accepted command has bytes still to land in a line it cleared (R365). -/
def lineAwaited (s : State) (line : Nat) : Bool := s.cores.any fun k => k.2.copies.any fun q => Tbl.has q.2.cleared line
/-- A window write clears the line's bit when it is issued and sets it when it lands, as a copy does (R36): within one
step the line ends present, but where an accepted command has bytes still to land in it (R365). -/
def setPresent (s : State) (pa : Nat) : State :=
  if (spadCore pa).isNone || lineAwaited s (pa / 128) then s else setLine s (pa / 128)

/-! ## MemRead, MemWrite, MemRMW (R133, R281) -/

/-- Whether a thread's load parks at a clear presence bit: a scratchpad line's, or one of its own core's reached
through the on-chip map (R36). -/
def parksAt (s : State) (t : TId) (pa : Nat) (ty : MemTy) : Bool :=
  match ty with
  | .spad => lineAbsent s pa
  | .uc => spadCore pa == some t.core && lineAbsent s pa
  | _ => false

/-- The checks of a thread's load after Translate. -/
def loadReady (s : State) (t : TId) (i : Issuer) (pa va : Nat) (ty : MemTy) (k : Access) : Except Stop Unit :=
  match deviceStop s i pa va k with
  | some f => .error (.fault f)
  | none => if parksAt s t pa ty then .error (presenceWait pa) else .ok ()

/-- MemRead at once, no refresh being due: the value and its poison. An acquire reads after the forced publish. -/
def readNow (s : State) (t : TId) (pa n : Nat) (ty : MemTy) (acq : Option Sc) : State × W64 × Bool :=
  let (s, x, p) := takeOrdered (satisfyFor s t pa n) t ty pa n acq
  (loadEffect s t ty pa n, x, p)

/-- A release at a scope before its store or atomic (R123, R131, R132) (DEDUCED, log 18). A store that does not go
through the thread's buffer follows what the buffer holds. -/
def releaseBefore (s : State) (t : TId) (sc : Sc) (atHome : Bool) : State :=
  let s := satisfyAll s t
  match sc with
  | .grp => holdNarrow s t .grp
  | .team => holdNarrow s t .team
  | _ =>
    let s := publishHeld s t.core
    if atHome then publishAll s t else s

/-- The earlier stores of a pack to the same bytes go first: those of lower lanes, which this step has buffered
(R278). -/
def packBefore (s : State) (t : TId) (pa n : Nat) : State :=
  (s.threads.map Prod.fst).foldl (fun s u =>
    if u ≠ t && u.core = t.core
        && (s.thread u).sb.any (fun e => e.step == s.tick && overlaps e.pa e.bytes.length pa n)
    then publishThrough s u pa n else s) s

/-- The narrow scope of the release that a store of a thread is: its own, or that of the release fence whose first
store it is (R127). -/
def narrowOf (s : State) (t : TId) (rel : Bool) (sc : Sc) : Option Sc :=
  if rel && !Sc.isWide sc then some sc else (s.thread t).fence

/-- A store of a thread makes its release: a line it writes at home is recorded, and the fence has its first store. -/
def noteRelease (s : State) (t : TId) (pa : Nat) (rel : Bool) (sc : Sc) : State :=
  let s := match narrowOf s t rel sc with
    | some sc => recordNarrow s t pa sc
    | none => s
  if (s.thread t).fence.isNone then s else s.modThread t fun x => { x with fence := none }

/-- Before a thread's store that does not go through its buffer: the buffered stores that a release fence puts
before it (R123). -/
def fencedBefore (s : State) (t : TId) : State := publishN s t (prefixThrough StoreEnt.fenced (s.thread t).sb)

/-- A store at its target: a core window, the device range, or memory. A window write clears the line's presence bit
when it is issued and sets it when it lands (R36): within one step the line ends present. -/
def ucWrite (s : State) (pa : Nat) (bs : List Byte) (poison : Bool) : State :=
  match placeOf pa with
  | .window core off => setPresent (setMemPoison (winWriteN s core off bs) pa bs.length poison) pa
  | .device => deviceWrite s pa bs
  | _ => setMemPoison (s.setMem (writeBytes s.mem pa bs)) pa bs.length poison

/-- A UC store or atomic of a thread, with the order it hands on. -/
def ucStore (s : State) (t : TId) (rel keep : Bool) (pa : Nat) (bs : List Byte) (poison : Bool) : State :=
  let s := ucWrite (carryStore s t rel keep (wordsOf pa bs.length)) pa bs poison
  match spadCore pa with
  | some _ => (List.range bs.length).foldl (fun s i => stampByte s (pa + i) s.tick (some (actorOf s t))) s
  | none => s

/-- A store of a thread enters memory: UC at once, SM into the core's copy, every other type into the
thread's store buffer, visible to the thread alone until it is held or published. A doorbell write is a release at
system scope (R57). -/
def memWrite (s : State) (t : TId) (pa : Nat) (bs : List Byte) (ty : MemTy) (rel : Bool) (sc : Sc)
    (poison : Bool) (via : Option Reg8) : State :=
  let s := dropEarly (satisfyFor s t pa bs.length) t pa bs.length
  match ty with
  | .uc =>
    let bell := (doorbellAt s pa).isSome
    let s := if bell then releaseBefore s t .sys true else if rel then releaseBefore s t sc true else fencedBefore s t
    ucStore (noteRelease (settleAt s t .uc pa bs.length) t pa rel sc) t rel false pa bs poison
  | .sm =>
    let s := if rel then releaseBefore s t sc true else fencedBefore s t
    smStore (carryStore (noteRelease s t pa rel sc) t rel false (wordsOf pa bs.length)) t.core pa bs poison
  | _ =>
    let s := if rel then releaseBefore s t sc false else s
    let s := noteRelease (packBefore s t pa bs.length) t pa rel sc
    let held : Option Sc :=
      if rel then (match sc with
        | .grp => some .grp
        | .team => some .team
        | _ => none)
      else none
    let (n, s) := s.takeFresh
    let s := carryStore s t rel false [.buffered n]
    let e : StoreEnt := ⟨pa, bs, ty, sc, rel, held, poison, n, via, false, s.tick, false⟩
    markSeen (s.modThread t fun x => { x with sb := x.sb ++ [e] }) t e fun _ => false

/-- Before an atomic: the thread's own earlier stores of the bytes and every held one stand in their modification
order, and the stores that a release fence puts before it are published (R123, R128, R130). -/
def beforeRMW (s : State) (t : TId) (pa n : Nat) : State :=
  publishHeldAt (publishThrough (dropEarly (satisfyFor (fencedBefore s t) t pa n) t pa n) t pa n) pa n

/-- The write part of an atomic: its release (R281). -/
def rmwRelease (s : State) (t : TId) (pa : Nat) (rel : Bool) (sc : Sc) : State :=
  noteRelease (if rel then releaseBefore s t sc true else s) t pa rel sc
/-- The acquire part of an atomic, or the load that it is (R281). -/
def rmwAcquire (s : State) (t : TId) (pa n : Nat) (acq : Bool) : State :=
  let s := if acq then forcePublish s t pa else s
  let s := noteLoad s t (wordClock s pa n)
  if acq then acquireLoad s t else s

/-- MemRMW (R281, R283), `beforeRMW` made; a doorbell's is a release at system scope (R57): the old value and its poison; `f` answers the value written, or nothing.
The release part orders nothing when nothing is written (R282). -/
def memRMW (s : State) (t : TId) (pa n : Nat) (ty : MemTy) (acq rel : Bool) (sc : Sc)
    (via : Option Reg8) (f : W64 → Option W64) : State × W64 × Bool :=
  let s := rmwAcquire s t pa n acq
  match ty with
  | .uc =>
    let x := BitVec.ofNat 64 (ofBytes ((List.range n).map fun i => placeByte s (pa + i)))
    let p := memPoisoned s pa n
    match f x with
    | some y =>
      let s := if (doorbellAt s pa).isSome then releaseBefore s t .sys true else s
      (ucStore (rmwRelease s t pa rel sc) t rel true pa (toBytes n y.toNat) p, x, p)
    | none => (touchRead s pa, x, p)
  | _ =>
    let line := pa / 128
    let s := if ty == .sm then smDropL1 (smWriteBack s t.core line) t.core line else s
    let s := snoopWrite s pa
    let x := BitVec.ofNat 64 (readLE s.mem pa n)
    let p := memPoisoned s pa n
    let s := match f x with
      | some y =>
        homeWrite (carryStore (rmwRelease s t pa rel sc) t rel true (wordsOf pa n)) (partOfCore s t.core) pa (toBytes n y.toNat)
          ty p (via.map fun k => (t, k)) (by_ := some (t, s.tick))
      | none => if ty == .hb then hbWrite s pa else s
    let s := if ty == .sm then smDropLlc s (dieOfCore t.core) line else s
    (hintHome s pa ty, x, p)

/-! ## Refresh() (R133, R134, R290, R297) -/

/-- Outstanding results of a bound register, contested by a refresh that writes it: which value the snapshot ends with
is undefined (R234). `64 + k` says that a refresh wrote it. -/
def contestBound (k : Nat) (outs : List Out) : List Out :=
  outs.map fun o =>
    match o.dest with
    | .bound j => if j.val = k then { o with contested := k :: (64 + k) :: o.contested } else o
    | _ => o

/-- One bound register at a refresh point: a changed binding reads its word, relaxed at system scope. One that takes a
value which a load took early stays marked, so that the store which marked it is not missed (R126, R137). -/
def refreshOne (t : TId) (acc : State × Byte) (k : Nat) : State × Byte :=
  let (s, fresh) := acc
  let b := (s.thread t).b.getD k {}
  if b.bound && b.changed then
    let ty : MemTy := match placeOf b.pa with
      | .host => .hb
      | _ => .wb
    let again := (earlyFor (s.thread t) b.pa 4 ty).isSome
    let (s, x, p) := readNow (hintLine s t.core b.pa ty .normal) t b.pa 4 ty none
    let s := s.modThread t fun th =>
      { th with b := th.b.set! k { th.b.getD k {} with changed := again, value := x.setWidth 32 }
                outs := contestBound k th.outs
                bPoison := if p then th.bPoison ||| BitVec.ofNat 8 (2 ^ k) else th.bPoison &&& ~~~(BitVec.ofNat 8 (2 ^ k)) }
    (s, fresh ||| BitVec.ofNat 8 (2 ^ k))
  else acc

/-- The first binding that a refresh would read outside the partition's ranges (R290). -/
def refreshFault (s : State) (t : TId) : Option SysFault :=
  match partOfCore s t.core with
  | none => none
  | some p =>
    ((s.thread t).b.toList.find? fun b => b.bound && b.changed && !inRanges s p b.pa).map fun b =>
      { kind := kPARTVIOL, access := 0, va := b.va.toNat, pa := b.pa }

/-- Refresh(): FRESH takes the bindings that it read (R297). A soft error of the directory entries of
the thread is found here (R207). -/
def refresh (s : State) (t : TId) : Except Stop State :=
  if (s.thread t).directoryError then .error (.fault { kind := kPOISON, soft := 1 })
  else
    match refreshFault s t with
    | some f => .error (.fault f)
    | none =>
      let (s, fresh) := (List.range 8).foldl (refreshOne t) (s, 0)
      .ok (s.modThread t fun x => { x with fresh := fresh })

/-- Whether a refresh that an outstanding acquire of a thread owes would read bytes of a later access: a bound word of
the thread lies among them. -/
def refreshOwed (s : State) (t : TId) (pa n : Nat) : Bool :=
  (s.thread t).outs.any (fun o => o.acq) && (s.thread t).b.toList.any fun b => b.bound && overlaps b.pa 4 pa n
/-- Before a later load of the bytes: the refresh of an acquire that stands before it reads them first (R124, R134). One
that faults does so when the acquire lands. -/
def refreshFirst (s : State) (t : TId) (pa n : Nat) : State :=
  if refreshOwed s t pa n then
    match refresh (satisfyAcquires s t) t with
    | .ok s => s.modThread t fun x => { x with outs := x.outs.map fun o => { o with acq := false } }
    | .error _ => s
  else s
/-- MemRead at once: the value and its poison. -/
def memRead (s : State) (t : TId) (pa n : Nat) (ty : MemTy) (acq : Option Sc) : State × W64 × Bool :=
  readNow (refreshFirst s t pa n) t pa n ty acq
/-- Before a later load of the bytes that lands late: the accesses that it may not pass. -/
def loadAfter (s : State) (t : TId) (pa n : Nat) : State := satisfyFor (refreshFirst s t pa n) t pa n

/-- A refresh whose fault stops the thread at once: the return of a wait, a restore, a delivery. -/
def refreshHere (s : State) (t : TId) : State :=
  match refresh s t with
  | .ok s => s
  | .error (.fault f) => oweFault s t f
  | .error _ => s

end Sys2Proof.Machine
end

