-- ==== Sys2Proof/Machine/Operands.lean ====
section
/-! DEFINITION. Operand forms (R11 to R17, R20, R223, R244): lane, predicate, bound and uniform
registers, pairs, memory operands, writes through bound registers (R291), the registers an instruction
reads (R208, R322), and the undefined reads and writes of a lookahead (R234). Within one instruction
all reads of one register return the same value (R20): a free value is drawn by its register. -/

namespace Sys2Proof.Machine

/-! ## Outstanding results of a destination (R234) -/

/-- The word an outstanding result has for a lane register. -/
def laneResult (o : Out) (r : Nat) : Option W32 :=
  match o.dest, o.val with
  | .lane d wide, .known x _ =>
    if d.val = r then some x.low else if wide && d.val + 1 == r then some x.high else none
  | _, _ => none

/-- The word an outstanding result has for a bound register's snapshot. -/
def boundResult (o : Out) (k : Nat) : Option W32 :=
  match o.dest, o.val with
  | .bound j, .known x _ => if j.val = k then some x.low else none
  | _, _ => none

/-- Whether an outstanding result is poisoned. -/
def outPoison (o : Out) : Bool :=
  match o.val with
  | .known _ p => p
  | _ => false

/-- Which of a word's values a read in a lookahead finds: 0 for the value before the outstanding instructions, k for
the k-th of `n` results. Which one is undefined (R234). -/
def pickIndex (tick place : Nat) : Nat → Nat
  | 0 => 0
  | n + 1 => Config.freeNat tick place % (n + 2)

/-- The value before the outstanding instructions or one of their results: which is undefined. -/
def pickWord {α : Type} (tick place : Nat) (old : α) (rs : List α) : α := (old :: rs).getD (pickIndex tick place rs.length) old

/-! ## Lane registers -/

/-- A lane register as an instruction of the thread reads it. -/
def readV (s : State) (t : TId) (r : Reg) : W32 :=
  let x := s.thread t
  match x.snap with
  | some k => k.v.get r
  | none => pickWord s.tick (drawPlace t r.val) (x.v.get r) (x.outs.filterMap fun o => laneResult o r.val)

/-- The odd register of a pair (R13). -/
def oddOf (r : Reg) : Reg := r + 1

/-- A 64-bit lane operand (R13). -/
def readPair (s : State) (t : TId) (r : Reg) : W64 := pair (readV s t r) (readV s t (oddOf r))

/-- Whether an outstanding result goes to a lane register. -/
def laneDest (r : Nat) (o : Out) : Bool :=
  match o.dest with
  | .lane d wide => d.val == r || (wide && d.val + 1 == r)
  | _ => false

/-- The outstanding results that `f` holds of, contested at a register: which value the register ends
with is undefined (R234). -/
def contest (f : Out → Bool) (r : Nat) (outs : List Out) : List Out :=
  outs.map fun o => if f o then { o with contested := r :: o.contested } else o

/-- A lane register written in full by an instruction: its poison mark goes (R208). -/
def writeV (s : State) (t : TId) (r : Reg) (x : W32) : State :=
  s.modThread t fun th =>
    { th with v := th.v.set r.val x r.isLt
              vPoison := th.vPoison &&& ~~~(BitVec.ofNat 64 (2 ^ r.val))
              stamps := Tbl.put th.stamps r.val s.tick
              outs := contest (laneDest r.val) r.val th.outs }

/-- A 64-bit result in a pair (R13). -/
def writePair (s : State) (t : TId) (r : Reg) (x : W64) : State :=
  writeV (writeV s t r x.low) t (oddOf r) x.high

/-- A result of a type's width. -/
def writeWide (s : State) (t : TId) (r : Reg) (wide : Bool) (x : W64) : State :=
  if wide then writePair s t r x else writeV s t r x.low

/-! ## Predicates -/

/-- A lane predicate: p0 reads true (R11). -/
def readP (s : State) (t : TId) (k : Reg8) : Bool := k.val == 0 || (s.thread t).p.getLsbD k.val
/-- A byte of predicates with one bit set to a value. -/
def putBit (x : Byte) (k : Reg8) (b : Bool) : Byte :=
  if b then x ||| BitVec.ofNat 8 (2 ^ k.val) else x &&& ~~~(BitVec.ofNat 8 (2 ^ k.val))
/-- A lane predicate written; a write to p0 is discarded. -/
def writeP (s : State) (t : TId) (k : Reg8) (b : Bool) : State :=
  if k.val = 0 then s
  else s.modThread t fun th => { th with p := putBit th.p k b, pPoison := putBit th.pPoison k false }

/-! ## Uniform registers (R322) -/

/-- The result that an outstanding instruction of a portion has for a uniform register: it stands with
the access thread. -/
def uniResult (s : State) (t : TId) (r : Reg) (o : Out) : Option W64 :=
  match o.dest with
  | .uni ds =>
    match ds.idxOf? r with
    | none => none
    | some i =>
      match o.val with
      | .known x _ => some x
      | .words xs => some (xs.getD i 0)
      | .joint =>
        (groupThreads s (groupOf s t)).findSome? fun u =>
          (s.thread u).outs.findSome? fun o' =>
            if o'.id = o.id then (match o'.val with
              | .known x _ => some x
              | .words xs => some (xs.getD i 0)
              | _ => none) else none
      | _ => none
  | _ => none

/-- Each 32-bit word of a uniform register picked by itself (R234). -/
def pickWide (tick place : Nat) (old : W64) (rs : List W64) : W64 :=
  match rs with
  | [] => old
  | rs => pair (pickWord tick place old rs).low (pickWord tick (place + 1) old rs).high

/-- A uniform register as an instruction of a thread reads it. -/
def readS (s : State) (t : TId) (r : Reg) : W64 :=
  match (s.thread t).snap with
  | some k => k.s.get r
  | none =>
  let g := groupOf s t
  pickWide s.tick (drawGroup g (2 * r.val)) ((s.group g).s.get r) ((s.thread t).outs.filterMap (uniResult s t r))

/-- Whether an outstanding result goes to a uniform register. -/
def uniDest (r : Reg) (o : Out) : Bool :=
  match o.dest with
  | .uni ds => ds.contains r
  | _ => false
/-- Whether an outstanding result goes to a hypervector. -/
def hypDest (h : Reg8) (o : Out) : Bool :=
  match o.dest with
  | .hyp k => k == h
  | _ => false

/-- Every outstanding result of a group's threads that `f` holds of, contested at a register. -/
def contestGroup (s : State) (g : GId) (f : Out → Bool) (r : Nat) : State :=
  (groupThreads s g).foldl (fun s t =>
    if (s.thread t).outs.any f then s.modThread t fun th => { th with outs := contest f r th.outs } else s) s

/-- A uniform register written in full. -/
def writeS (s : State) (g : GId) (r : Reg) (x : W64) : State :=
  contestGroup (s.modGroup g fun y =>
    { y with s := y.s.set r.val x r.isLt, sPoison := y.sPoison &&& ~~~(BitVec.ofNat 64 (2 ^ r.val)) })
    g (uniDest r) r.val

/-- A uniform predicate: q0 reads true (R11). -/
def readQ (s : State) (g : GId) (k : Reg8) : Bool := k.val == 0 || (s.group g).q.getLsbD k.val
/-- A uniform predicate written; a write to q0 is discarded. -/
def writeQ (s : State) (g : GId) (k : Reg8) (b : Bool) : State :=
  if k.val = 0 then s
  else s.modGroup g fun y => { y with q := putBit y.q k b, qPoison := putBit y.qPoison k false }

/-! ## Hypervectors -/

/-- A vector with each 32-bit word taken from one of two vectors, as `f` says of its number. -/
def mixWords (f : Nat → Bool) (a b : HVec) : HVec :=
  BitVec.ofNat 4096 ((List.range 128).foldl (fun acc i =>
    acc + ((if f i then a else b).toNat / 2 ^ (32 * i) % 2 ^ 32) * 2 ^ (32 * i)) 0)

/-- The vector an outstanding `hvld` has read. -/
def hypResult (s : State) (t : TId) (h : Reg8) (o : Out) : Option HVec :=
  if hypDest h o then
    (groupThreads s (groupOf s t)).findSome? fun u =>
      (s.thread u).outs.findSome? fun o' =>
        if o'.id = o.id then (match o'.val with
          | .hyp x _ => some x
          | _ => none) else none
  else none

/-- A hypervector as an instruction of a portion reads it, `t` being its access thread. -/
def readH (s : State) (t : TId) (h : Reg8) : HVec :=
  match (s.thread t).snap with
  | some k => k.h.get h
  | none =>
  let g := groupOf s t
  let place := drawGroup g (1024 + 128 * h.val)
  let old := (s.group g).h.get h
  match (s.thread t).outs.filterMap (hypResult s t h) with
  | [] => old
  | rs => BitVec.ofNat 4096 ((List.range 128).foldl (fun acc i =>
      acc + ((pickWord s.tick (place + i) old rs).toNat / 2 ^ (32 * i) % 2 ^ 32) * 2 ^ (32 * i)) 0)

/-- Bits `64k + 63 : 64k` of the marks of vector words. -/
def hypMarks (k : Reg8) : BitVec 512 := BitVec.ofNat 512 ((2 ^ 64 - 1) * 2 ^ (64 * k.val))

/-- A hypervector with 32-bit words of it written: those that an outstanding result also writes are contested. -/
def writeWords (s : State) (g : GId) (h : Reg8) (x : HVec) (ws : List Nat) : State :=
  ws.foldl (fun s w => contestGroup s g (hypDest h) w) (s.modGroup g fun y => { y with h := y.h.set h.val x h.isLt })

/-- Whether an outstanding result of a group goes to a hypervector. -/
def hypPending (s : State) (g : GId) (h : Reg8) : Bool := (groupThreads s g).any fun t => (s.thread t).outs.any (hypDest h)

/-- A hypervector written in full. -/
def writeH (s : State) (g : GId) (h : Reg8) (x : HVec) : State :=
  let s' := s.modGroup g fun y => { y with h := y.h.set h.val x h.isLt, hPoison := y.hPoison &&& ~~~(hypMarks h) }
  if hypPending s g h then writeWords s' g h x (List.range 128) else s'

/-! ## Bound registers (R244, R291) -/

/-- The snapshot of a bound register (R244). -/
def readB (s : State) (t : TId) (k : Reg8) : W32 :=
  let x := s.thread t
  pickWord s.tick (drawPlace t (64 + k.val)) (x.b.get k).value (x.outs.filterMap fun o => boundResult o k.val)

/-- Whether an outstanding result goes to a bound register. -/
def boundDest (k : Nat) (o : Out) : Bool :=
  match o.dest with
  | .bound j => j.val == k
  | _ => false

/-- The snapshot of a bound register written in full. -/
def setSnapshot (s : State) (t : TId) (k : Reg8) (x : W32) : State :=
  s.modThread t fun th =>
    { th with b := th.b.set k.val { th.b.get k with value := x } k.isLt
              bPoison := th.bPoison &&& ~~~(BitVec.ofNat 8 (2 ^ k.val))
              outs := contest (boundDest k.val) k.val th.outs }

/-- The memory type of a bound word: WB, or HB in host-backed memory (R118). -/
def boundTy (pa : Nat) : MemTy :=
  match placeOf pa with
  | .host => .hb
  | _ => .wb

/-- The fault of an access through a binding: a revoked write, or a word outside the ranges (R290). -/
def boundFault (s : State) (t : TId) (b : Bound) (k : Access) : Option SysFault :=
  if b.revoked then some { kind := kPERM, access := k.code, va := b.va.toNat, pa := b.pa }
  else if !inRanges s ((partOfCore s t.core).getD 0) b.pa then
    some { kind := kPARTVIOL, access := k.code, va := b.va.toNat, pa := b.pa }
  else none

/-! ## Choice stacks and trails in memory (R307 to R309) -/

/-- The bytes of a search record: 45,056 and the frame rounded up to 128 (R308). -/
def recordSize (frame : Nat) : Nat := 45056 + ceilDiv frame 128 * 128

/-- The team and team thread index of the thread whose choice stack or trail holds a virtual address of its launch's
search pool, with the offset in its search record. -/
def stackSpot (s : State) (t : TId) (va : Nat) : Option (Nat × Nat × Nat) :=
  let l := s.launch (launchOf s t)
  match l.pool with
  | none => none
  | some (base, size) =>
    if base ≤ va && decide (va < base + size) then
      let n := recordSize l.kernel.frame
      let off := (va - base) % n
      if off < 45056 then (Tbl.find l.poolTaken ((va - base) / n)).map fun o => (o.1, o.2, off) else none
    else none
/-- The thread whose choice stack or trail holds an address. -/
def stackOwner (s : State) (t : TId) (va : Nat) : Option (Nat × Nat) := (stackSpot s t va).map fun o => (o.1, o.2.1)

/-- A value a load returns, free where it lies in a choice stack or trail (R309) (DESIGN CHOICE, log 48). -/
def stackValue (s : State) (t : TId) (va : Nat) (x : W64) : W64 :=
  match stackOwner s t va with
  | some _ => Config.freeWord64 s.tick (2 ^ 80 + va)
  | none => x

/-- A thread whose choice points and trail entries at `n` bytes of its record a program has changed (R309). -/
def spoilEntries (off n : Nat) (x : Thread) : Thread :=
  { x with
    stk := x.stk.mapIdx fun i c => if overlaps (96 * (x.stk.length - 1 - i)) 96 off n then { c with spoiled := true } else c
    trl := x.trl.mapIdx fun i e =>
      if overlaps (12288 + 16 * (x.trl.length - 1 - i)) 16 off n then { e with spoiled := true } else e }

/-- A store into a choice stack or trail spoils what its owner, and thieves from it, take from the changed entries
(R309). -/
def spoilStack (s : State) (t : TId) (va n : Nat) : State :=
  match stackSpot s t va with
  | none => s
  | some (team, tti, off) =>
    let spoil (g : Group) (x : Thread) : Thread :=
      if g.launch = launchOf s t && g.team = team && x.live && x.tti = tti then spoilEntries off n x else x
    let s' := { s with threads := s.threads.map fun p => (p.1, spoil (s.group (groupOf s p.1)) p.2) }
    mapSpilled s' fun _ g x => spoil g x

/-- A choice point in memory (R310). -/
def choiceBytes (c : Choice) : List Byte :=
  ((List.range 16).flatMap fun i => toBytes 4 (c.saved.getD i 0).toNat)
    ++ toBytes 8 c.mask.toNat ++ toBytes 4 c.rpc
    ++ toBytes 4 (c.dreg.val * 2 ^ 24 + c.tmark * 2 ^ 12 + bit c.stolen 11 + c.owner)
    ++ toBytes 4 c.nxt ++ toBytes 4 c.fin ++ toBytes 8 (c.pw * 8)
/-- A trail entry in memory (R311). -/
def trailBytes (e : Trail) : List Byte :=
  toBytes 8 (bit e.psn 59 + e.szl * 2 ^ 57 + e.addr) ++ toBytes 8 e.old.toNat

/-- Bytes of an area of a group's address space at their home; those whose page does not translate stay as they
are. -/
def putArea (s : State) (i : Issuer) (va : Nat) (bs : List Byte) : State :=
  (List.range bs.length).foldl (fun s k =>
    match translate s i (va + k) .store with
    | .ok (pa, _) => s.setMem (writeCell s.mem pa (bs.getD k 0))
    | .error _ => s) s
/-- The Trellis writes a thread's choice points and trail entries to its search record (R309). -/
def putStacks (s : State) (t : TId) : State :=
  let x := s.thread t
  let i := issuerOf s (groupOf s t)
  if x.stk.isEmpty && x.trl.isEmpty then s
  else putArea (putArea s i x.cpbase.toNat (x.stk.reverse.flatMap choiceBytes)) i x.trailbase.toNat
    (x.trl.reverse.flatMap trailBytes)

/-! ## Writes through a binding (R291) -/

/-- BoundWrite(k, x, order) (R291). -/
def boundWrite (s : State) (t : TId) (k : Reg8) (x : W32) (rel : Bool) (sc : Sc) : Except Stop State :=
  let b := (s.thread t).b.get k
  if b.bound then
    match boundFault s t b .store with
    | some f => .error (.fault f)
    | none =>
      let s := memWrite (setSnapshot s t k x) t b.pa (toBytes 4 x.toNat) (boundTy b.pa) rel sc false (some k)
      .ok (spoilStack s t b.va.toNat 4)
  else .ok (setSnapshot s t k x)

/-! ## Operands with class bits (R223, R244) -/

/-- A source of a 32-bit type. -/
def readL (s : State) (t : TId) : LOp → W32
  | .v r => readV s t r
  | .b k => readB s t k
/-- A source of a 64-bit type: a pair. A bound register has no 64-bit form (R223). -/
def readL64 (s : State) (t : TId) : LOp → W64
  | .v r => readPair s t r
  | .b k => (readB s t k).setWidth 64
/-- A 32-bit result: a lane register, or the store of R136 through a bound one. -/
def writeL (s : State) (t : TId) (d : LOp) (x : W32) : Except Stop State :=
  match d with
  | .v r => .ok (writeV s t r x)
  | .b k => boundWrite s t k x false .dev
/-- A 64-bit result. -/
def writeL64 (s : State) (t : TId) (d : LOp) (x : W64) : Except Stop State :=
  match d with
  | .v r => .ok (writePair s t r x)
  | .b k => boundWrite s t k x.low false .dev

/-! ## Memory operands (R16) -/

/-- The base of a lane memory operand: a v base is zero-extended (R16). -/
def readBase (s : State) (t : TId) : Base → W64
  | .v r => (readV s t r).setWidth 64
  | .s r => readS s t r
/-- EffectiveAddress(base, index, imm): the sum modulo 2 ^ 64. -/
def effAddr (base index : W64) (imm : Int) : W64 := base + index + BitVec.ofInt 64 imm

/-- Whether an address is not a multiple of the access size (R275). -/
def misaligned (a : W64) (n : Nat) : Bool := a.toNat % n != 0

/-! ## What a held access keeps (R204) -/

/-- The device's own description of an access that is held: the registers it was formed from. -/
def keepAccess (s : State) (t : TId) : State :=
  if (s.thread t).snap.isSome then s
  else
    let k : Snap := ⟨Vector.ofFn fun r => readV s t r, Vector.ofFn fun r => readS s t r, Vector.ofFn fun h => readH s t h, s.tick, s.curWord⟩
    s.modThread t fun x => { x with snap := some k }

/-! ## Moving on -/

/-- The next word of the thread: its walk is used up. -/
def seqPc (s : State) (t : TId) : State :=
  s.modThread t fun x => { x with pc := x.pc + 4, walked := false, again := false, snap := none, owed := false, portion := none, beyond := false }
/-- A jump of the thread. -/
def jumpPc (s : State) (t : TId) (pc : W64) : State :=
  s.modThread t fun x => { x with pc := pc, walked := false, again := false, snap := none, owed := false, portion := none, beyond := false }

/-- The cycle of a core: slot 1's pack runs when the count has moved on (R44). -/
def cycleOf (s : State) (core : Nat) : Nat := if (s.core core).slot = 0 then (s.core core).cycle - 1 else (s.core core).cycle

/-- Flags that a group has raised in its core's cycle (R99). -/
def cycleFlags (s : State) (g : GId) : Flags :=
  if (s.group g).flagsAt = cycleOf s g.core then (s.group g).flagsNow else 0

/-- Flags joined to FPSTAT of the thread's group (R98, R247). -/
def orFlags (s : State) (g : GId) (f : Flags) : State :=
  s.modGroup g fun y =>
    { y with fpstat := y.fpstat ||| f, flagsAt := cycleOf s g.core, flagsNow := cycleFlags s g ||| f }

/-- FPSTAT written: flags raised in the same cycle are joined to the new value (R99). -/
def setFlags (s : State) (g : GId) (f : Flags) : State := s.modGroup g fun y => { y with fpstat := f ||| cycleFlags s g }

/-! ## The registers an instruction reads (R208, R234, R322) -/

/-- The registers an instruction reads into a computation, a predicate, an address or a store. -/
structure Srcs where
  v : List Reg := []
  b : List Reg8 := []
  p : List Reg8 := []
  s : List Reg := []
  q : List Reg8 := []
  h : List Reg8 := []
  /-- vectors of which the instruction reads slices, whose marks it looks at itself (R208, R376) -/
  hs : List Reg8 := []
  deriving DecidableEq, Repr

def Srcs.join (a b : Srcs) : Srcs :=
  ⟨a.v ++ b.v, a.b ++ b.b, a.p ++ b.p, a.s ++ b.s, a.q ++ b.q, a.h ++ b.h, a.hs ++ b.hs⟩

/-- A lane register, or its pair. -/
def laneRegs (wide : Bool) (r : Reg) : List Reg := if wide then [r, oddOf r] else [r]
/-- A source with a class bit. -/
def lopSrc (wide : Bool) : LOp → Srcs
  | .v r => { v := laneRegs wide r }
  | .b k => { b := [k] }
/-- The base of a lane memory operand. -/
def baseSrc : Base → Srcs
  | .v r => { v := [r] }
  | .s r => { s := [r] }

/-- Whether a conversion source takes a pair. -/
def wideSrc (t : CTy) : Bool := CTy.isWide t

/-- The matrix operands that stand in uniform registers: descriptors and the shape word (R343, R344). -/
def mmaSrcs (a b : Reg) (sh : Fin 16) (src : MmaSrc) (sp : Bool) : Srcs :=
  let desc (r : Reg) : List Reg := [r, oddOf r]
  let shape : List Reg := if sp then [⟨sh.val + 48, by omega⟩, oddOf ⟨sh.val + 48, by omega⟩]
    else [⟨sh.val + 48, by omega⟩]
  match src with
  | .vv => { s := shape }
  | .vd => { s := shape ++ desc b }
  | .dd => { s := shape ++ desc a ++ desc b }
  | .dv => { s := shape ++ desc a }

/-- The uniform register that a 4-bit barrier or shape field names: s48 to s63 (R230). -/
def highReg (n : Fin 16) : Reg := ⟨n.val + 48, by omega⟩

/-- The registers each instruction word reads. -/
def srcsOf : Instr → Srcs
  | .add _ a b ty | .sub _ a b ty | .mul _ a b ty | .mulhi _ a b ty | .min _ a b ty | .max _ a b ty =>
    (lopSrc ty.wide a).join (lopSrc ty.wide b)
  | .shl _ a b ty | .shr _ a b ty | .sar _ a b ty | .rot _ a b ty =>
    (lopSrc ty.wide a).join (lopSrc false b)
  | .shlCount _ a _ ty | .shrCount _ a _ ty | .sarCount _ a _ ty | .rotCount _ a _ ty => lopSrc ty.wide a
  | .div _ a b ty _ | .rem _ a b ty _ => { v := laneRegs ty.wide a ++ laneRegs ty.wide b }
  | .mad _ a b c ty => { v := [a, b] ++ laneRegs (ty != .b32) c }
  | .tri d a b _ => { v := [a, b, d] }
  | .addi _ a _ => { v := [a] }
  | .movi _ _ => {}
  | .mvh d _ => { v := [d] }
  | .mov _ a ty | .abs _ a ty | .popc _ a ty | .clz _ a ty | .brev _ a ty => lopSrc ty.wide a
  | .rand _ _ => {}
  | .bfx _ a _ _ _ => { v := [a] }
  | .bfi d a _ _ => { v := [a, d] }
  | .sel _ a b p wide => ((lopSrc wide a).join (lopSrc wide b)).join { p := [p] }
  | .cmp _ a b _ ty => (lopSrc ty.wide a).join (lopSrc ty.wide b)
  | .fadd _ a b _ _ | .fsub _ a b _ _ | .fmul _ a b _ _ => { v := [a, b] }
  | .fmin _ a b _ | .fmax _ a b _ => { v := [a, b] }
  | .fma _ a b c | .fms _ a b c | .fnma _ a b c | .fnms _ a b c => { v := [a, b, c] }
  | .fmacFma d a b _ _ | .fmacFms d a b _ _ | .fmacFnma d a b _ _ | .fmacFnms d a b _ _ =>
    { v := [a, b, d] }
  | .fcmp _ a b _ => { v := [a, b] }
  | .fcvt _ a _ st _ _ => { v := laneRegs (wideSrc st) a }
  | .frcp _ a _ | .frsq _ a _ | .fsqrt _ a _ | .fexp2 _ a _ | .flog2 _ a _ | .fsin _ a _
  | .fcos _ a _ => { v := [a] }
  | .fclass _ a => { v := [a] }
  | .shfl _ a b _ => { v := [a, b] }
  | .vote form pk =>
    { p := [pk], v := match form with
        | .quorum _ b => [b]
        | _ => [] }
  | .red _ _ _ a | .scan _ _ _ _ a => { v := [a] }
  | .matchLanes _ a wide => { v := laneRegs wide a }
  | .ldx _ base idx _ _ _ => { v := [base], s := [idx] }
  | .lda _ base _ _ _ _ _ _ => baseSrc base
  | .stx d base idx sz _ => { v := base :: laneRegs (sz == .b64) d, s := [idx] }
  | .sta d base sz _ _ _ _ => (baseSrc base).join { v := laneRegs (sz == .b64) d }
  | .atom d base _ wide _ _ _ => (baseSrc base).join { v := laneRegs wide d }
  | .cas d base wide _ _ _ =>
    (baseSrc base).join { v := if wide then [d, d + 1, d + 2, d + 3] else [d, d + 1] }
  | .pf base _ _ => baseSrc base
  | .stt d base sz _ => (baseSrc base).join { v := laneRegs (sz == .b64) d }
  | .fence _ _ => {}
  | .ldb _ base _ _ => baseSrc base
  | .bwait _ t => { s := [t] }
  | .bsync => {}
  | .badd k d _ _ _ => { v := [d], b := [k] }
  | .bunb _ => {}
  | .bqry _ _ => {}
  | .stBound k _ _ => { b := [k] }
  | .bra _ => {}
  | .brc p _ => { p := [p] }
  | .jmpi a => { v := [a, oddOf a] }
  | .land => {}
  | .call _ _ => {}
  | .ret a => { v := [a, oddOf a] }
  | .exit => {}
  | .spawn a _ => { v := [a, oddOf a] }
  | .yield | .nop => {}
  | .try_ _ c m => { s := [c, m] }
  | .fail _ => {}
  | .cut a => { v := [a] }
  | .prune base _ => baseSrc base
  | .steal _ => {}
  | .cpd _ => {}
  | .gAdd _ a b _ | .gSub _ a b _ | .gMul _ a b _ | .gMin _ a b _ | .gMax _ a b _
  | .gShl _ a b _ | .gShr _ a b _ | .gSar _ a b _ => { s := [a, b] }
  | .gAddI _ a _ _ | .gSubI _ a _ _ | .gMulI _ a _ _ | .gMinI _ a _ _ | .gMaxI _ a _ _
  | .gShlI _ a _ _ | .gShrI _ a _ _ | .gSarI _ a _ _ => { s := [a] }
  | .gaddi _ a _ => { s := [a] }
  | .gPopc _ a _ | .gClz _ a _ => { s := [a] }
  | .gTri d a b _ => { s := [a, b, d] }
  | .gCmp _ a b _ _ => { s := [a, b] }
  | .gSel _ a b q => { s := [a, b], q := [q] }
  | .gMovi _ _ => {}
  | .gMvh d _ => { s := [d] }
  | .gld _ base _ _ _ _ _ => { s := [base] }
  | .gst d base _ _ _ _ => { s := [base, d] }
  | .bru q _ => { q := [q] }
  | .loop c _ => { s := [c] }
  | .mmaE4m3 _ a b sh src sp _ | .mmaE5m2 _ a b sh src sp _ | .mmaBf16 _ a b sh src sp _
  | .mmaF16 _ a b sh src sp _ => mmaSrcs a b sh src sp
  | .mfence | .mwait => {}
  | .acczero _ => {}
  | .accmov _ _ _ => {}
  | .tgemm _ _ _ bar _ => { s := [highReg bar] }
  | .tquant _ _ bar _ => { s := [highReg bar] }
  | .tcopy _ _ _ _ bar _ => { s := [highReg bar] }
  | .tidget _ _ _ => {}
  | .tidset _ _ x => { s := [x] }
  | .cpy d x n bar _ => { s := [d, x, n, highReg bar] }
  | .cpyg d x n bar _ | .cpys d x n bar _ => { s := [d, x, n, oddOf n, highReg bar] }
  | .barInit _ base x _ | .barExpect _ base x _ => { s := [base, x] }
  | .barArrive _ base _ | .barWait _ base _ | .barTest _ base _ _ | .barSync _ base _ => { s := [base] }
  | .wbr base len _ | .invr base len _ | .invrD base len _ | .pfr base len _ => { s := [base, len] }
  | .hvmovToH _ x i => { v := [x], s := [i] }
  | .hvmovToV ha _ i => { hs := [ha], s := [i] }
  | .hvxor _ a b => { h := [a, b] }
  | .hvrot _ a _ => { h := [a] }
  | .hvrotReg _ a x => { h := [a], s := [x] }
  | .hvtri d a b _ => { h := [a, b, d] }
  | .hvbnd _ a _ => { h := [a] }
  | .hvthr _ _ | .hvclr _ => {}
  | .hvtie _ a => { h := [a] }
  | .hvpop _ a => { h := [a] }
  | .hvdist _ a b => { h := [a, b] }
  | .hvseed _ x => { s := [x] }
  | .hvld _ base _ _ => { s := [base] }
  | .hvst h base _ => { h := [h], s := [base] }
  | .amw x h => { s := [x], h := [h] }
  | .amclr lo n => { s := [lo, n] }
  | .hvnear _ _ h l _ | .hvneark _ _ h l _ => { h := [h], s := [l] }
  | .nexttile _ => {}
  | .condw base x _ => { s := [base, x] }
  | .perf l => { s := [l] }
  | .trap _ => {}
  | .srd _ _ _ => {}
  | .swr x v _ => if v then { v := [x, oddOf x] } else { s := [x] }
  | .bkpt _ => {}
  | .uint x => { s := [x] }
  | _ => {}

/-- The registers an instruction of a thread reads: `st bK` reads a bound snapshot, `badd` an unbound one (R292,
R293). -/
def srcsAt (x : Thread) : Instr → Srcs
  | .stBound k _ _ => if (x.b.get k).bound then { b := [k] } else {}
  | .badd k d _ _ _ => if (x.b.get k).bound then { v := [d] } else { v := [d], b := [k] }
  | i => srcsOf i

/-- The uniform registers an instruction writes (R322). -/
def uniDests : Instr → List Reg
  | .gAdd d _ _ _ | .gSub d _ _ _ | .gMul d _ _ _ | .gMin d _ _ _ | .gMax d _ _ _
  | .gShl d _ _ _ | .gShr d _ _ _ | .gSar d _ _ _ | .gAddI d _ _ _ | .gSubI d _ _ _
  | .gMulI d _ _ _ | .gMinI d _ _ _ | .gMaxI d _ _ _ | .gShlI d _ _ _ | .gShrI d _ _ _
  | .gSarI d _ _ _ => [d]
  | .gaddi d _ _ | .gPopc d _ _ | .gClz d _ _ | .gTri d _ _ _ | .gSel d _ _ _ | .gMovi d _
  | .gMvh d _ => [d]
  | .gld d _ _ _ _ _ _ => [d]
  | .loop c _ => [c]
  | .tidget x _ _ => [x]
  | .hvpop x _ => [x]
  | .hvdist x _ _ => [x]
  | .hvnear si sd _ _ _ => [si, sd]
  | .hvneark si k1 _ _ _ => (List.range (2 * (k1.val + 1))).map fun i => si + Fin.ofNat 64 i
  | .nexttile d => [d]
  | .srd d v _ => if v then [] else [d]
  | _ => []

/-- The hypervectors an instruction writes. -/
def hypDests : Instr → List Reg8
  | .hvmovToH d _ _ | .hvxor d _ _ | .hvrot d _ _ | .hvrotReg d _ _ | .hvtri d _ _ _ | .hvthr d _
  | .hvseed d _ | .hvld d _ _ _ => [d]
  | _ => []

/-- Whether the word that a read of a lane register finds is poisoned (R208, R234) (DEDUCED, log 21). -/
def vBad (s : State) (t : TId) (r : Reg) : Bool :=
  let x := s.thread t
  pickWord s.tick (drawPlace t r.val) (x.vPoison.getLsbD r.val) ((x.outs.filter fun o => (laneResult o r.val).isSome).map outPoison)
/-- Whether the word that a read of a bound snapshot finds is poisoned. -/
def bBad (s : State) (t : TId) (k : Reg8) : Bool :=
  let x := s.thread t
  pickWord s.tick (drawPlace t (64 + k.val)) (x.bPoison.getLsbD k.val)
    ((x.outs.filter fun o => (boundResult o k.val).isSome).map outPoison)
/-- Whether a thread's own sources hold poison. -/
def laneBad (s : State) (t : TId) (i : Srcs) : Bool :=
  i.v.any (vBad s t) || i.b.any (bBad s t) || i.p.any fun k => k.val != 0 && (s.thread t).pPoison.getLsbD k.val
/-- The entry of an outstanding result of a group that holds its value. -/
def valueOf (s : State) (g : GId) (o : Out) : Out :=
  ((groupThreads s g).findSome? fun u => (s.thread u).outs.find? fun o' => o'.id == o.id && o'.val != .joint).getD o
/-- Whether the words that a read of a uniform register finds are poisoned: each half as `readS` picks it. -/
def sBad (s : State) (t : TId) (r : Reg) : Bool :=
  let g := groupOf s t
  let old := (s.group g).sPoison.getLsbD r.val
  let marks := ((s.thread t).outs.filter fun o => (uniResult s t r o).isSome).map fun o => outPoison (valueOf s g o)
  pickWord s.tick (drawGroup g (2 * r.val)) old marks || pickWord s.tick (drawGroup g (2 * r.val) + 1) old marks
/-- The poison of a 32-bit word of a vector that an outstanding `hvld` has read. -/
def hypWordBad (s : State) (g : GId) (i : Nat) (o : Out) : Bool :=
  match (valueOf s g o).val with
  | .hyp _ p => p.getLsbD (i / 2)
  | _ => false
/-- Whether a 32-bit word of a vector that a read finds is poisoned: as `readH` picks it. -/
def hWordBad (s : State) (t : TId) (h : Reg8) (i : Nat) : Bool :=
  let g := groupOf s t
  pickWord s.tick (drawGroup g (1024 + 128 * h.val) + i) ((s.group g).hPoison.getLsbD (64 * h.val + i / 2))
    (((s.thread t).outs.filter fun o => (hypResult s t h o).isSome).map (hypWordBad s g i))
/-- Whether a vector that a read finds holds poison. -/
def hBad (s : State) (t : TId) (h : Reg8) : Bool :=
  if (s.thread t).outs.isEmpty then (s.group (groupOf s t)).hPoison &&& hypMarks h != 0
  else (List.range 128).any (hWordBad s t h)
/-- Whether the sources that an instruction of a thread reads in its group hold poison (R208, R234) (DEDUCED, log 21). -/
def groupBad (s : State) (t : TId) (i : Srcs) : Bool :=
  i.s.any (sBad s t) || i.q.any (fun k => k.val != 0 && (s.group (groupOf s t)).qPoison.getLsbD k.val) || i.h.any (hBad s t)

/-- Whether an outstanding result goes to a register of a list of sources. -/
def readsOut (i : Srcs) (o : Out) : Bool :=
  match o.dest with
  | .lane d wide => i.v.contains d || (wide && i.v.contains (oddOf d))
  | .bound k => i.b.contains k
  | .uni ds => ds.any fun r => i.s.contains r
  | .hyp h => i.h.contains h || i.hs.contains h
  | .accept => false

/-- The outstanding result of a portion that a thread outside it waits for: one whose registers the thread's
instruction touches (R322). -/
def heldOut (s : State) (t : TId) (i : Instr) : Option Out :=
  let src := srcsOf i
  let ds := src.s ++ uniDests i
  let hs := src.h ++ src.hs ++ hypDests i
  if ds.isEmpty && hs.isEmpty then none
  else
    (groupThreads s (groupOf s t)).findSome? fun u =>
      (s.thread u).outs.find? fun o =>
        (match o.dest with
          | .uni rs => rs.any fun r => ds.contains r
          | .hyp h => hs.contains h
          | _ => false) && !((s.thread t).outs.any fun o' => o'.id == o.id)

/-- Whether a thread is held until a uniform result lands (R322). -/
def heldUniform (s : State) (t : TId) (i : Instr) : Bool := (heldOut s t i).isSome
/-- The wait of a thread that is held so. -/
def parkedFor (s : State) (t : TId) (i : Instr) : Wait := .parked (((heldOut s t i).map Out.id).getD 0)

end Sys2Proof.Machine
end

