-- ==== Sys2Proof/Machine/Exec.lean ====
section
/-! DEFINITION. How an instruction word acts on the pack or portion that issues: an L-set word on each
thread by itself (R49, R50), a G-set word once for its portion (R321 to R323), a collective once for its
domain (R52 to R54); what a stop does to the threads; and the accesses that memory instructions share. -/

namespace Sys2Proof.Machine

/-- What a step answers. -/
abbrev Result := Host.Outcome State Fault Refusal

/-- An event that finds no subject as it needs one has nothing to do: the step leaves the machine as it stands, and
says so (DESIGN CHOICE, log 10). -/
def pass (s : State) : Result := .next { s with idle := true }

/-! ## The pack (R47, R130) -/

/-- A thread's place in its pack: ascending home lane, then group slot (R130). -/
def laneKey (s : State) (t : TId) : Nat := homeLane s t * 1024 + t.slot

/-- A thread put into a list in order. -/
def insertLane (s : State) (t : TId) : List TId → List TId
  | [] => [t]
  | u :: us => if laneKey s t ≤ laneKey s u then t :: u :: us else u :: insertLane s t us

/-- Threads in the order of R130. -/
def sortLanes (s : State) (ts : List TId) : List TId := ts.foldr (insertLane s) []

/-- The threads of the pack or portion that issues, in order (DEDUCED, log 9). -/
def packThreads (s : State) : List TId :=
  match s.cur with
  | none => []
  | some c => sortLanes s (c.slots.map fun k => ⟨c.core, c.bank, k⟩)

/-! ## What an issue counts (R50, R151, R189) -/

/-- An instruction has issued for a thread: its lookaheads shrink. -/
def noteOuts (s : State) (t : TId) : State :=
  s.modThread t fun x => { x with woken := false, outs := x.outs.map fun o => { o with left := o.left - 1 } }
/-- An instruction that issues counts toward R151, once: not when it is performed again after a wait. -/
def countIssue (x : Thread) : Nat := if x.again then x.since else Nat.min 256 (x.since + 1)
/-- An instruction has issued: its lookaheads shrink, and it counts. -/
def noteIssue (s : State) (t : TId) : State :=
  s.modThread t fun x =>
    { x with since := countIssue x, woken := false, outs := x.outs.map fun o => { o with left := o.left - 1 } }

/-- Outstanding loads whose results the instruction may read take their values first: a read in the
lookahead that finds the result finds it satisfied (R126, R234). -/
def satisfyReads (s : State) (t : TId) (i : Srcs) : State :=
  let ids := ((s.thread t).outs.filter (readsOut i)).map Out.id
  if ids.isEmpty then s
  else (groupThreads s (groupOf s t)).foldl (fun s u => satisfyIf s u fun o => ids.contains o.id) s

/-- Whether a word accesses what an earlier acquire stands before, by other ways than a load or store of its bytes: the
Trellis, a barrier, a range (R123, R143). -/
def afterAcquires : Instr → Bool
  | .try_ _ _ _ | .cut _ | .fail _ | .steal _ => true
  | .barInit _ _ _ _ | .barArrive _ _ _ | .barExpect _ _ _ _ | .barWait _ _ _ | .barTest _ _ _ _ | .barSync _ _ _ => true
  | .wbr _ _ _ | .invr _ _ _ | .invrD _ _ _ => true
  | _ => false
/-- Before a word of a thread: what it reads, and every earlier acquire where it stands after them. -/
def satisfyBefore (s : State) (t : TId) (i : Instr) (src : Srcs) : State :=
  let s := satisfyReads s t src
  if afterAcquires i then satisfyAcquires s t else s

/-! ## A thread that goes on past its loads (R126) -/

/-- Whether a result is a relaxed load whose lookahead has ended, and that is not satisfied. -/
def Out.passed (o : Out) : Bool :=
  o.left == 0 && (match o.val with
    | .load _ _ ty acq => acq.isNone && ty != .uc
    | .hypLoad _ => true
    | _ => false)
/-- Whether a word that has issued has touched the destination of a result which its thread has passed: it is not to issue
before the result lands (R50). -/
def touchedPassed (before after : Thread) : Bool :=
  before.beyond && before.outs.any fun o =>
    Out.passed o && after.outs.any fun o' => o'.id == o.id && o'.contested != o.contested
/-- Whether a word reads the destination of a result which its thread has passed. -/
def readsPassed (x : Thread) (src : Srcs) : Bool := x.beyond && x.outs.any fun o => Out.passed o && readsOut src o
/-- A thread stands at its word until its results land. -/
def stayOver (s : State) (t : TId) : State := s.modThread t fun x => { x with beyond := false }

/-! ## Stops of a thread -/

/-- The walks that have started on a die. -/
def walksOn (s : State) (die : Nat) : Nat := (s.walks.filter fun p => p.2.die == die && p.2.started).length

/-- A page walk for threads: merged with one of the same page, partition and ASN, or a new one, which waits where the
die's walker has 64 in flight (R180). -/
def startWalk (s : State) (ts : List TId) (va : Nat) (k : Access) : State :=
  let load := k == .load || k == .rmw
  match ts with
  | [] => s
  | t :: _ =>
    let w := issuerOf s (groupOf s t)
    match s.walks.find? fun p => p.2.part == w.part && p.2.asn == w.asn && p.2.page == va / 4096 with
    | some (id, x) =>
      let s := { s with walks := Tbl.put s.walks id { x with ts := x.ts ++ ts } }
      ts.foldl (fun s t => enterWait s t (.walk id load)) s
    | none =>
      let die := dieOfCore t.core
      let starts := decide (walksOn s die < 64)
      let (id, s) := s.takeFresh
      let s := { s with walks := Tbl.put s.walks id ⟨w.part, w.asn, va / 4096, va, k, ts, die, starts⟩ }
      let s := if starts then countPmc s w.part 9 1 else s
      ts.foldl (fun s t => enterWait s t (.walk id load)) s

/-- The walk that a die's walker takes next of those that wait: partitions in turn, each in order of arrival (R180). -/
def nextWalk (s : State) (die : Nat) : Option (Nat × Walk) :=
  let ws := s.walks.filter fun p => p.2.die == die && !p.2.started
  let turn (p : Nat × Walk) : Nat := (p.2.part + 64 - (s.die die).lastWalk - 1) % 64
  ws.foldl (fun best p =>
    match best with
    | none => some p
    | some b => if turn p < turn b || (turn p == turn b && decide (p.1 < b.1)) then some p else best) none

/-- A walk has ended: the walker takes the next. -/
def takeWalk (s : State) (die : Nat) : State :=
  match nextWalk s die with
  | none => s
  | some (id, w) =>
    let s := { s with walks := Tbl.put s.walks id { w with started := true } }
    countPmc (s.modDie die fun x => { x with lastWalk := w.part }) w.part 9 1

/-- Whether no result of a thread is outstanding; the acceptance of engine work is none. -/
def nothingDue (x : Thread) : Bool := x.outs.all fun o => o.dest == .accept
/-- A trap of a thread, after its outstanding results have landed (R194, R234). -/
def trapThread (s : State) (t : TId) (cause : Nat) (info : W32) : State :=
  if nothingDue (s.thread t) then takeTrap s t cause 0 info else enterWait s t (.trap cause 0 info)

/-- A request joins those held for a cluster (R418). -/
def holdRequest (s : State) (n : Nat) (r : Requester) (f : SysFault) : State :=
  s.modCluster n fun c => { c with heldReqs := c.heldReqs ++ [⟨r, f.access, f.va, f.ipa, f.pa⟩] }

/-- A request of threads is held for a gated cluster; a load or atomic is one whose access code says so. -/
def stopRemote (s : State) (ts : List TId) (r : Requester) (n : Nat) (f : SysFault) : State :=
  let load := f.access == Access.code .load || f.access == Access.code .rmw
  holdRequest (ts.foldl (fun s t => enterWait s t (.remote n load)) s) n r f

/-- Whether a wait holds an access that has been formed (R204). -/
def Wait.holdsAccess : Wait → Bool
  | .presence _ => true
  | _ => false

/-- A trap of an instruction that a thread has issued: it counts (R151). -/
def issueTrap (s : State) (t : TId) (cause : Nat) (info : W32) : State :=
  trapThread (s.modThread t fun x => { x with since := countIssue x }) t cause info

/-- What a stop does to one thread. A trap ends an L-set instruction that has issued (R189: PMC1). -/
def applyStop (s : State) (t : TId) : Stop → Result
  | .trap c i => .next (issueTrap (countCore s t.core 1 1) t c i)
  | .fault f => .next (threadFault (keepAccess s t) t f)
  | .wait w => .next (enterWait (if w.holdsAccess then keepAccess s t else s) t w)
  | .walk va k => .next (startWalk (keepAccess s t) [t] va k)
  | .remote n f => .next (stopRemote (keepAccess s t) [t] (.thread t) n f)

/-- A system fault of a portion: one record that names the lowest arriving thread, and the whole
portion held by it (R323). -/
def portionFault (s : State) (g : GId) (ts : List TId) (f : SysFault) : State :=
  match ts, partOfCore s g.core with
  | t :: _, some p =>
    let r := threadRec s t f
    let (s, h) := fileRec s p r (.portion ts)
    ts.foldl (fun s t => holdThread (clearSoft s f t) t p r.sev h) s
  | _, _ => ts.foldl (fun s t => enterWait s t .stopped) s

/-- Threads of a portion enter a wait together: at a schedule table as a portion of its own (R51). -/
def portionWait (s : State) (ts : List TId) (w : Wait) : State :=
  let s := if w.holdsAccess then ts.foldl keepAccess s else s
  let at0 := s.tick
  let s := if w == .table then ts.foldl (fun s t => s.modThread t fun x => { x with portion := x.portion.or (some at0) }) s else s
  ts.foldl (fun s t => enterWait s t w) s

/-- What a stop does to a portion (R323). -/
def applyPortion (s : State) (g : GId) (ts : List TId) : Stop → Result
  | .trap c i => .next (ts.foldl (fun s t => issueTrap s t c i) (countCore s g.core 2 1))
  | .fault f => .next (portionFault (ts.foldl keepAccess s) g ts f)
  | .wait w => .next (portionWait s ts w)
  | .walk va k => .next (startWalk (ts.foldl keepAccess s) ts va k)
  | .remote n f => .next (stopRemote (ts.foldl keepAccess s) ts (.portion ts) n f)

/-- What a stop does to the threads of a collective: their wait has ended, so that a trap counts no instruction (R151). -/
def applyCollective (i : Instr) (s : State) (g : GId) (ts : List TId) : Stop → Result
  | .trap c w =>
    let s := if kindOf i == .lane then s else countCore s g.core 2 1
    .next (ts.foldl (fun s t => trapThread s t c w) s)
  | st => applyPortion s g ts st

/-! ## L-set words -/

/-- An L-set word for one thread: held for a uniform register (R322), stopped by poison (R208), or its
effect. A fault or a trap of it is answered beside the state: the records of a pack are filed together (R206). -/
def laneOne (i : Instr) (f : TId → State → Except Stop State) (t : TId) (s : State) : Result × Option Stop :=
  let src := srcsAt (s.thread t) i
  if readsPassed (s.thread t) src then (.next (stayOver s t), none)
  else
  let s := satisfyBefore s t i src
  if (s.thread t).snap.isNone && heldUniform s t i then (.next (enterWait s t (parkedFor s t i)), none)
  else if (s.thread t).snap.isNone && (laneBad s t src || groupBad s t src) then
    (.next s, some (.fault { kind := kPOISON }))
  else
    match f t (noteIssue s t) with
    | .ok s' =>
      if touchedPassed (s.thread t) (s'.thread t) then (.next (stayOver s t), none)
      else (.next (countCore s' t.core 1 1), none)
    | .error (.fault e) => (.next (keepAccess s t), some (.fault e))
    | .error (.trap c x) => (.next s, some (.trap c x))
    | .error st => (applyStop s t st, none)

/-- A stop put among others in ascending team thread index. -/
def insertFault (s : State) (x : TId × Stop) : List (TId × Stop) → List (TId × Stop)
  | [] => [x]
  | y :: ys => if (s.thread x.1).tti < (s.thread y.1).tti then x :: y :: ys else y :: insertFault s x ys

/-- The records and traps of a pack, in ascending team thread index (R206). -/
def fileFaults : List (TId × Stop) → State → Result
  | [], s => .next s
  | x :: xs, s =>
    match applyStop s x.1 x.2 with
    | .next s => fileFaults xs s
    | r => r

/-- The stops of a pack in the order of their records. -/
def sortFaults (s : State) (fs : List (TId × Stop)) : List (TId × Stop) := fs.foldl (fun acc x => insertFault s x acc) []

/-- An L-set word for the threads of a pack, in order; then the records and traps of those that stop. -/
def laneAll (i : Instr) (f : TId → State → Except Stop State) :
    List TId → List (TId × Stop) → State → Result
  | [], fs, s => fileFaults (sortFaults s fs) s
  | t :: ts, fs, s =>
    match laneOne i f t s with
    | (.next s, none) => laneAll i f ts fs s
    | (.next s, some e) => laneAll i f ts (fs ++ [(t, e)]) s
    | (.fault e, _) => .fault e
    | (.refused e, _) => .refused e

/-- A pack counts once, when a thread of it issues its word for the first time (R189). -/
def countPack (s : State) (ts : List TId) : State :=
  match ts with
  | [] => s
  | t :: _ => if ts.all fun u => (s.thread u).again then s else countCore s t.core 3 1

/-- The plan's entry for page walks, or for expanders that do not answer, holds for one pack or portion, whose accesses to
a region make one lookup (R180). -/
def spendWalk (walks : Bool) : Result → Result
  | .next s => .next (if walks then { s with plan := s.plan.tail } else s)
  | .fault e => .fault e
  | .refused e => .refused e

/-- Whether the plan lets accesses of the pack that issues walk. -/
def walksNext (s : State) : Bool := s.plan.headD .now == .walk
/-- Whether the plan lets the next request to an expander find no answer (R399). -/
def lostNext (s : State) : Bool := s.plan.headD .now == .lost
/-- Whether the plan's next entry holds for a whole pack. -/
def packEntry (s : State) : Bool := walksNext s || lostNext s
/-- A request that found no answer: the plan's entry has been met. -/
def dropLost (s : State) : State := if lostNext s then { s with plan := s.plan.tail } else s

/-- An L-set word: each thread of the pack by itself (R49). -/
def laneExec (i : Instr) (f : TId → State → Except Stop State) (s : State) :
    Result :=
  match packThreads s with
  | [] => .fault .noThread
  | t :: ts => spendWalk (packEntry s) (laneAll i f (t :: ts) [] (countPack s (t :: ts)))

/-! ## Plain-uniform words (R322, R323) -/

/-- A G-set word once for a portion, whose first thread performs its access (R325). -/
def portionGo (i : Instr) (f : GId → TId → List TId → State → Except Stop State) (t : TId) (ts : List TId)
    (s : State) : Result :=
  let g := groupOf s t
  if ts.any fun u => readsPassed (s.thread u) (srcsOf i) then .next (ts.foldl stayOver s)
  else
  let s := ts.foldl (fun s u => satisfyBefore s u i (srcsOf i)) s
  if (s.thread t).snap.isNone && (groupBad s t (srcsOf i) || ts.any fun u => laneBad s u (srcsOf i)) then
    .next (portionFault s g ts { kind := kPOISON })
  else
    match f g t ts (ts.foldl noteIssue s) with
    | .ok s' =>
      if ts.any fun u => touchedPassed (s.thread u) (s'.thread u) then .next (ts.foldl stayOver s)
      else .next (countCore s' g.core 2 1)
    | .error st => applyPortion s g ts st

/-- A G-set word for the threads that arrive: those outside the portion of an outstanding result that it touches are
held until the result lands, the others are its portion (R322). -/
def portionRun (i : Instr) (f : GId → TId → List TId → State → Except Stop State) (t : TId) (ts : List TId)
    (s : State) : Result :=
  let held := if (s.thread t).snap.isNone then ts.filter fun u => heldUniform s u i else []
  let s := held.foldl (fun s u => enterWait s u (parkedFor s u i)) s
  match ts.filter fun u => !held.contains u with
  | [] => .next s
  | u :: us => portionGo i f u (u :: us) s

/-- A plain-uniform word: once for the arriving portion (R321, R322). -/
def groupExec (i : Instr) (f : GId → TId → List TId → State → Except Stop State) (s : State) :
    Result :=
  match packThreads s with
  | [] => .fault .noThread
  | t :: ts => spendWalk (packEntry s) (portionRun i f t (t :: ts) s)

/-- The next word for every thread of a portion. -/
def seqAll (s : State) (ts : List TId) : State := ts.foldl seqPc s

/-! ## Collectives (R52 to R54) -/

/-- The order of the domains: each contains the ones below it. -/
def Domain.rank : Domain → Nat
  | .quarter => 0
  | .group => 1
  | .team => 2

/-- The quarter of a thread: eight lanes of its group (R337). -/
def quarterOf (s : State) (t : TId) : Nat := homeLane s t / 8

/-- The live threads of a thread's domain. -/
def domainThreads (s : State) (dom : Domain) (t : TId) : List TId :=
  let g := groupOf s t
  match dom with
  | .quarter => (liveThreads s g).filter fun u => quarterOf s u == quarterOf s t
  | .group => liveThreads s g
  | .team => teamThreads s (s.group g).launch (s.group g).team

/-- Whether a thread waits at a collective whose domain is `dom` or contains it. -/
def waitsIn (s : State) (dom : Domain) (t : TId) : Bool :=
  match (s.thread t).wait with
  | .collective d => decide (dom.rank ≤ d.rank)
  | _ => false

/-- Whether threads stand at one pc. -/
def samePc (s : State) (t : TId) (ts : List TId) : Bool := ts.all fun u => (s.thread u).pc == (s.thread t).pc

/-- Whether a thread of a team domain stands in a save area: the domain goes on waiting for it. -/
def domainSpilled (s : State) (dom : Domain) (t : TId) : Bool :=
  let x := s.group (groupOf s t)
  dom == .team && teamSpilled s x.launch x.team

/-- The largest domain of a thread all of whose live threads wait at collectives, but not at one
address: they take the COLL trap (R54), the domains within it being judged on the same state (DEDUCED, log 39). -/
def collConflict (s : State) (t : TId) : Option (List TId) :=
  ([Domain.team, .group, .quarter].map fun d => (d, domainThreads s d t)).findSome? fun p =>
    if p.2.all (waitsIn s p.1) && !samePc s t p.2 && !domainSpilled s p.1 t then some p.2 else none

/-- The operations of a quarter, oldest first (R338). -/
def queueOf (x : Group) (q : Nat) : List MatOp := Tbl.getD x.mq q []
/-- Whether a queue holds 4 operations not yet performed. -/
def queueFull (x : Group) (q : Nat) : Bool := decide (4 ≤ ((queueOf x q).filter fun o => !o.performed).length)

/-- Whether a collective waits for room before it executes: a full matrix queue, or a tile operation in progress
(R338, R355). -/
def queueWaits (i : Instr) (s : State) (t : TId) : Bool :=
  let x := s.group (groupOf s t)
  match i with
  | .mmaE4m3 _ _ _ _ _ _ _ | .mmaE5m2 _ _ _ _ _ _ _ | .mmaBf16 _ _ _ _ _ _ _ | .mmaF16 _ _ _ _ _ _ _
  | .acczero _ => queueFull x (quarterOf s t)
  | .tgemm _ _ _ _ _ | .tquant _ _ _ _ | .tcopy _ _ _ _ _ _ => x.busy
  | _ => false

/-- What it waits for: its quarter's queue, or the tile sequencer. -/
def queueNamed (i : Instr) (s : State) (t : TId) : Option Nat :=
  match i with
  | .tgemm _ _ _ _ _ | .tquant _ _ _ _ | .tcopy _ _ _ _ _ _ => none
  | _ => some (quarterOf s t)

/-- A collective completes for its domain: its waits end and it executes once (R53). -/
def collRun (i : Instr) (f : GId → TId → List TId → State → Except Stop State) (t : TId) (ts : List TId)
    (s : State) : Result :=
  let g := groupOf s t
  let s := ts.foldl (fun s u => satisfyBefore s u i (srcsOf i)) s
  if queueWaits i s t then .next (ts.foldl (fun s u => enterWait s u (.queue (queueNamed i s t))) s)
  else if ts.any fun u => heldUniform s u i then
    let w := ((ts.find? fun u => heldUniform s u i).map fun u => parkedFor s u i).getD (.parked 0)
    .next (ts.foldl (fun s u => enterWait s u w) s)
  else if groupBad s t (srcsOf i) || ts.any (fun u => laneBad s u (srcsOf i)) then
    .next (portionFault s g ts { kind := kPOISON })
  else
    match f g t ts (ts.foldl (fun s u => noteOuts (endWait s u) u) s) with
    | .ok s' => .next (if kindOf i == .lane then s' else countCore s' g.core 2 1)
    | .error st => applyCollective i (ts.foldl endWait s) g ts st

/-- After an arrival: a thread's domain conflicts, completes, or goes on waiting. -/
def settle1 (i : Instr) (dom : Domain) (f : GId → TId → List TId → State → Except Stop State) (t : TId)
    (s : State) : Result :=
  if (s.thread t).wait != .collective dom then .next s
  else
    match collConflict s t with
    | some ts => .next (ts.foldl (fun s u => trapThread s u cCOLL 0) s)
    | none =>
      match domainThreads s dom t with
      | [] => .next s
      | u :: us =>
        if (u :: us).all (fun w => (s.thread w).wait == .collective dom) && samePc s t (u :: us)
            && !domainSpilled s dom t then
          collRun i f u (u :: us) s
        else .next s

def settleAll (i : Instr) (dom : Domain) (f : GId → TId → List TId → State → Except Stop State) :
    List TId → State → Result
  | [], s => .next s
  | t :: ts, s =>
    match settle1 i dom f t s with
    | .next s => settleAll i dom f ts s
    | .fault e => .fault e
    | .refused e => .refused e

/-- A thread arrives at a collective, or traps at once where the word is illegal for its group. One that has gone past
its loads stands before it until they land. An L-set collective issues for a thread as it arrives (R189). -/
def arrive (i : Instr) (dom : Domain) (pre : State → TId → Option Nat) (s : State) (t : TId) : State :=
  if (s.thread t).beyond then stayOver s t
  else
  let s := if kindOf i == .lane && !(s.thread t).again then countCore s t.core 1 1 else s
  match pre s t with
  | some c => issueTrap s t c 0
  | none => enterWait s t (.collective dom)

/-- A collective word: the arriving threads wait, and each domain that is complete executes it once.
`pre` gives the cause of a word that the group's maps make illegal (R223, R269). -/
def collExec (i : Instr) (dom : Domain) (pre : State → TId → Option Nat)
    (f : GId → TId → List TId → State → Except Stop State) (s : State) : Result :=
  match packThreads s with
  | [] => .fault .noThread
  | t :: ts =>
    let s := if kindOf i == .lane then countPack s (t :: ts) else s
    spendWalk (packEntry s) (settleAll i dom f (t :: ts) ((t :: ts).foldl (arrive i dom pre) s))

/-- No check of the group's maps. -/
def anyGroup (_ : State) (_ : TId) : Option Nat := none

/-! ## How an access goes -/

/-- Whether an access finds its translation only after a page walk (R179): the plan lets the pack's accesses
walk, a free bit says that the region misses, and the instruction has not had its walk. The scratchpad windows
translate without one. -/
def needsWalk (s : State) (t : TId) (va : Nat) : Bool :=
  walksNext s && Config.freeBit s.tick (2 ^ 64 + va / 4096) && !(s.thread t).walked
    && !(va / 2 ^ 48 == 0x1F0 || va / 2 ^ 48 == 0x1F1)

/-- The result of the long-latency instruction that issues lands later, as the plan says. -/
def landsLate (s : State) : Bool := s.plan.headD .now == .late

/-- The plan after an access: an entry for walks, or for expanders that do not answer, holds for the whole pack, and begins
with one. -/
def popPlan (s : State) : State :=
  match s.plan with
  | .walk :: _ => s
  | .lost :: _ => s
  | ds => { s with plan := ds.tail.dropWhile fun d => d == .walk || d == .lost }

/-- The cluster that holds a request of a core to another's window: its ingress is closed (R418). -/
def gatedTarget (s : State) (core pa : Nat) : Option Nat :=
  match placeOf pa with
  | .window c _ =>
    let n := c / 2
    if n != core / 2 && (s.cluster n).gated then some n else none
  | _ => none

/-- Whether the copies of a core and its die serve an SM load of some bytes, so that none is requested (R119). -/
def smServes (s : State) (core pa n : Nat) : Bool :=
  (List.range n).all fun i =>
    ((s.core core).smL1.any fun e => e.1 == pa + i) || (s.die (dieOfCore core)).smLlc.any fun e => e.1 == pa + i
/-- Why a request of a thread to another package does not happen: no port reaches the peer, or the peer refuses it (R401,
R402). A load that a copy serves, and a store, which waits in the copy for its write-back, make none. -/
def peerStop (s : State) (i : Issuer) (core va pa n : Nat) (k : Access) : Option SysFault :=
  let asks := match placeOf pa with
    | .peer _ => (match k with
      | .load => !smServes s core pa n
      | .store | .hint => false
      | .rmw | .exec => true)
    | _ => false
  if !asks then none
  else if peerDown s i.part pa then some (peerFault s i va pa k)
  else if peerRefuses s i.part pa then some (accessFault kPARTVIOL k va 0 (ipaOf s i va) pa)
  else none
/-- The fault of a request to an expander that finds no answer (R399). -/
def lostStop (s : State) (i : Issuer) (va pa : Nat) (k : Access) : Option SysFault :=
  if lostNext s && placeOf pa == .second then some (accessFault kTIMEOUT k va 0 (ipaOf s i va) pa) else none

/-- Translate for a thread's access: the physical address and type, or why the thread stops. -/
def reachMem (s : State) (t : TId) (va : W64) (k : Access) : Except Stop (Nat × MemTy) :=
  if needsWalk s t va.toNat then .error (.walk va.toNat k)
  else
    match translate s (issuerOf s (groupOf s t)) va.toNat k with
    | .error f => .error (walkStop f va.toNat k)
    | .ok r => .ok r

/-- The fault of a thread's read of a line whose clean copy a soft error has struck (R207). -/
def struckStop (s : State) (t : TId) (i : Issuer) (va pa : Nat) (k : Access) : Option SysFault :=
  match (s.thread t).struck with
  | some line =>
    if line == pa / 128 && (k == .load || k == .rmw) then
      some { accessFault kPOISON k va 0 (ipaOf s i va) pa with soft := 3 }
    else none
  | none => none

/-- Translate for a thread's access of `n` bytes, and the request it makes. -/
def reach (s : State) (t : TId) (va : W64) (k : Access) (n : Nat := 1) : Except Stop (Nat × MemTy) :=
  match reachMem s t va k with
  | .error e => .error e
  | .ok r =>
    let i := issuerOf s (groupOf s t)
    match (peerStop s i t.core va.toNat r.1 n k).or ((lostStop s i va.toNat r.1 k).or (struckStop s t i va.toNat r.1 k)) with
    | some f => .error (.fault f)
    | none =>
      match gatedTarget s t.core r.1 with
      | some c => .error (.remote c (accessFault k.code k va.toNat 0 (ipaOf s i va.toNat) r.1))
      | none => .ok r

/-- A result of a long-latency instruction that is outstanding: it joins the thread's list. -/
def addOut (s : State) (t : TId) (id : Nat) (d : OutDest) (la : La) (v : OutVal) (acq : Bool) (va : Nat := 0)
    (f : Flags := 0) : State :=
  let ipa := ipaOf s (issuerOf s (groupOf s t)) va
  s.modThread t fun x =>
    { x with outs := x.outs ++ [{ id := id, pc := x.pc, va := va, ipa := ipa, dest := d, left := la.val, val := v, acq := acq, flags := f }] }

/-- A lane destination written with a result and its poison. -/
def landLane (s : State) (t : TId) (d : Reg) (wide : Bool) (x : W64) (poison : Bool) : State :=
  let s := writeWide s t d wide x
  if poison then
    s.modThread t fun th =>
      { th with vPoison := th.vPoison ||| BitVec.ofNat 64 (2 ^ d.val)
          ||| (if wide then BitVec.ofNat 64 (2 ^ (oddOf d).val) else 0) }
  else s

/-- A bound register's snapshot written with a result and its poison. -/
def landBound (s : State) (t : TId) (k : Reg8) (x : W32) (poison : Bool) : State :=
  let s := setSnapshot s t k x
  if poison then s.modThread t fun th => { th with bPoison := th.bPoison ||| BitVec.ofNat 8 (2 ^ k.val) }
  else s

/-- The refresh that follows an acquire (R133). -/
def refreshIf (acq : Bool) (s : State) (t : TId) : Except Stop State := if acq then refresh s t else .ok s

/-- A computed long-latency result in lane registers: written now, or outstanding (R50). -/
def laneResultOut (s : State) (t : TId) (d : Reg) (wide : Bool) (la : La) (x : W64) (poison : Bool)
    (f : Flags := 0) : State :=
  if landsLate s then
    let (id, s) := (popPlan s).takeFresh
    addOut s t id (.lane d wide) la (.known x poison) false (f := f)
  else landLane (popPlan s) t d wide x poison

/-- The result of an access in lane registers, and the refresh of an acquire once it has landed. -/
def laneAccessOut (s : State) (t : TId) (d : Reg) (wide : Bool) (la : La) (x : W64) (poison acq : Bool) :
    Except Stop State :=
  if landsLate s then
    let (id, s) := (popPlan s).takeFresh
    .ok (addOut s t id (.lane d wide) la (.known x poison) acq)
  else refreshIf acq (landLane (popPlan s) t d wide x poison) t

/-- The same for a bound register's snapshot. -/
def boundAccessOut (s : State) (t : TId) (k : Reg8) (la : La) (x : W32) (poison acq : Bool) : Except Stop State :=
  if landsLate s then
    let (id, s) := (popPlan s).takeFresh
    .ok (addOut s t id (.bound k) la (.known (x.setWidth 64) poison) acq)
  else refreshIf acq (landBound (popPlan s) t k x poison) t

/-- A wait returns: a refresh point, then the next word. A fault of the refresh stops the thread at the
waiting instruction. -/
def returnWait (s : State) (t : TId) : State :=
  let s := endWait s t
  match refresh s t with
  | .ok s => seqPc s t
  | .error (.fault f) => oweFault s t f
  | .error _ => s

/-- A thread's next word, where its instruction completes. -/
def retire (t : TId) (r : Except Stop State) : Except Stop State := r.map fun s => seqPc s t

/-! ## The end of an outstanding result (R50) -/

/-- Whether a thread stands beyond the lookahead of an outstanding result (R15, R44) (DEDUCED, log 14). -/
def beyondLookahead (x : Thread) : Bool := x.outs.any fun o => o.left == 0
/-- Whether it waits there: not where it has gone past relaxed loads, and nothing else holds it (R126). -/
def waitsForResult (x : Thread) : Bool := beyondLookahead x && !(x.beyond && x.outs.all fun o => o.left != 0 || Out.passed o)

/-- A thread whose result has come: the entry goes, and where it was beyond the lookahead its count
starts again (R151). -/
def dropOut (id : Nat) (x : Thread) : Thread :=
  let since := if waitsForResult x then 0 else x.since
  let outs := x.outs.filter fun o => o.id != id
  { x with outs := outs, since := since, woken := x.woken || waitsForResult x
           beyond := x.beyond && outs.any fun o => o.left == 0 }

/-! ## Searches that stand (R163) -/

/-- Whether a value is the words of a search. -/
def OutVal.isReply : OutVal → Bool
  | .words _ => true
  | _ => false

/-- How many searches of a cluster stand before one in the order of arrival. -/
def repliesBefore (s : State) (cluster id : Nat) : Nat :=
  (dedup (s.threads.flatMap fun p =>
    if p.1.core / 2 = cluster then (p.2.outs.filter fun o => OutVal.isReply o.val && decide (o.id < id)).map Out.id
    else [])).length

end Sys2Proof.Machine
end

