-- ==== Sys2Proof/Machine/LaneInt.lean ====
section
/-! DEFINITION. Lane integer and logic words (R244 to R258). Each acts on every thread of its pack by
itself. -/

namespace Sys2Proof.Machine

/-! ## Operations on words of one width, which the uniform forms share (R324) -/

/-- `mulhi` (R248): the upper half of the product, signed or unsigned. -/
def mulHigh (signed : Bool) (w : Nat) (a b : BitVec w) : BitVec w :=
  if signed then BitVec.ofInt w (a.toInt * b.toInt / 2 ^ w) else BitVec.ofNat w (a.toNat * b.toNat / 2 ^ w)

/-- Whether a is below b, signed or unsigned (R248, R258). -/
def below (signed : Bool) {w : Nat} (a b : BitVec w) : Bool := if signed then a.slt b else a.ult b
def minOf (signed : Bool) {w : Nat} (a b : BitVec w) : BitVec w := if below signed b a then b else a
def maxOf (signed : Bool) {w : Nat} (a b : BitVec w) : BitVec w := if below signed a b then b else a

/-- The shifts of R249 by a count of any size. -/
def shiftLeft (w : Nat) (a : BitVec w) (c : Nat) : BitVec w := if c < w then a <<< c else 0
def shiftRight (w : Nat) (a : BitVec w) (c : Nat) : BitVec w := if c < w then a >>> c else 0
def shiftArith (w : Nat) (a : BitVec w) (c : Nat) : BitVec w :=
  if c < w then a.sshiftRight c else a.sshiftRight (w - 1)
def rotate (w : Nat) (a : BitVec w) (c : Nat) : BitVec w := a.rotateLeft (c % w)

/-- The quotient and remainder of R250, the divisor not zero. -/
def quot (signed : Bool) {w : Nat} (a b : BitVec w) : BitVec w := if signed then a.sdiv b else a.udiv b
def remOf (signed : Bool) {w : Nat} (a b : BitVec w) : BitVec w := if signed then a.srem b else a.umod b

/-- A bit pattern or its complement. -/
def litOf {w : Nat} (a : BitVec w) (one : Bool) : BitVec w := if one then a else ~~~a
/-- `tri` (R256): bit i of the result is bit 4a + 2b + o of the table. -/
def triOf {w : Nat} (tt : Byte) (a b o : BitVec w) : BitVec w :=
  (List.range 8).foldl (fun acc k =>
    if tt.getLsbD k then
      acc ||| (litOf a (k / 4 % 2 == 1) &&& litOf b (k / 2 % 2 == 1) &&& litOf o (k % 2 == 1))
    else acc) 0

/-- The number of leading zero bits (R254). -/
def leadingZeros {w : Nat} (a : BitVec w) : Nat := if a.toNat = 0 then w else w - 1 - Nat.log2 a.toNat

/-- Whether a condition holds (R258). -/
def condInt (cond : Cond) (signed : Bool) {w : Nat} (a b : BitVec w) : Bool :=
  match cond with
  | .eq => a == b
  | .ne => a != b
  | .lt => below signed a b
  | .le => !below signed b a
  | .gt => below signed b a
  | .ge => !below signed a b

/-! ## Forms -/

/-- A two-operand form of an integer type (R246, R248). -/
def intBin (ty : ITy) (d a b : LOp) (f : (w : Nat) → BitVec w → BitVec w → BitVec w) (t : TId) (s : State) :
    Except Stop State :=
  if ty.wide then retire t (writeL64 s t d (f 64 (readL64 s t a) (readL64 s t b)))
  else retire t (writeL s t d (f 32 (readL s t a) (readL s t b)))

/-- A one-operand form whose result has the type's width (R254). -/
def intUn (ty : ITy) (d a : LOp) (f : (w : Nat) → BitVec w → BitVec w) (t : TId) (s : State) :
    Except Stop State :=
  if ty.wide then retire t (writeL64 s t d (f 64 (readL64 s t a)))
  else retire t (writeL s t d (f 32 (readL s t a)))

/-- A shift by a register: the count is a 32-bit operand for every type (R249). -/
def shiftReg (ty : ITy) (d a b : LOp) (f : (w : Nat) → BitVec w → Nat → BitVec w) (t : TId) (s : State) :
    Except Stop State :=
  intUn ty d a (fun w x => f w x (readL s t b).toNat) t s

/-- A shift by the count field (R249). -/
def shiftCount (ty : ITy) (d a : LOp) (n : Reg) (f : (w : Nat) → BitVec w → Nat → BitVec w) (t : TId)
    (s : State) : Except Stop State :=
  intUn ty d a (fun w x => f w x n.val) t s

/-- A count of bits: one 32-bit register for every type (R254). -/
def countBits (ty : ITy) (d a : LOp) (f : (w : Nat) → BitVec w → Nat) (t : TId) (s : State) :
    Except Stop State :=
  let n := if ty.wide then f 64 (readL64 s t a) else f 32 (readL s t a)
  retire t (writeL s t d (BitVec.ofNat 32 n))

/-- `div` and `rem` (R250): a zero divisor traps. -/
def divide (ty : ITy) (d a b : Reg) (la : La) (f : (w : Nat) → BitVec w → BitVec w → BitVec w) (t : TId)
    (s : State) : Except Stop State :=
  if ty.wide then
    let y := readPair s t b
    if y = 0 then .error (.trap cDIVZ 0)
    else .ok (seqPc (laneResultOut s t d true la (f 64 (readPair s t a) y) false) t)
  else
    let y := readV s t b
    if y = 0 then .error (.trap cDIVZ 0)
    else .ok (seqPc (laneResultOut s t d false la ((f 32 (readV s t a) y).setWidth 64) false) t)

/-- One lane register written, and the thread at its next word. -/
def setLane (d : Reg) (f : State → TId → W32) (t : TId) (s : State) : Except Stop State :=
  .ok (seqPc (writeV s t d (f s t)) t)

/-- `bfx` (R255), `e` being the clipped width. -/
def bitField (a : W32) (p e : Nat) (sgn : Bool) : W32 :=
  let f := a.toNat / 2 ^ p % 2 ^ e
  if sgn && decide (2 ^ (e - 1) ≤ f) then BitVec.ofInt 32 ((f : Int) - 2 ^ e) else BitVec.ofNat 32 f
/-- `bfi` (R255). -/
def bitInsert (a old : W32) (p e : Nat) : W32 :=
  let mask : W32 := BitVec.ofNat 32 ((2 ^ e - 1) * 2 ^ p)
  (old &&& ~~~mask) ||| ((a <<< p) &&& mask)
/-- The clipped width of R255. -/
def clipWidth (pos len1 : Fin 32) : Nat := Nat.min (len1.val + 1) (32 - pos.val)

/-! ## INT (R248) -/

def execAdd (d a b : LOp) (ty : ITy) (s : State) : Result :=
  laneExec (.add d a b ty) (intBin ty d a b fun _ x y => x + y) s
def execSub (d a b : LOp) (ty : ITy) (s : State) : Result :=
  laneExec (.sub d a b ty) (intBin ty d a b fun _ x y => x - y) s
def execMul (d a b : LOp) (ty : ITy) (s : State) : Result :=
  laneExec (.mul d a b ty) (intBin ty d a b fun _ x y => x * y) s
def execMulhi (d a b : LOp) (ty : ITy) (s : State) : Result :=
  laneExec (.mulhi d a b ty) (intBin ty d a b (mulHigh ty.signed)) s
def execMin (d a b : LOp) (ty : ITy) (s : State) : Result :=
  laneExec (.min d a b ty) (intBin ty d a b fun _ x y => minOf ty.signed x y) s
def execMax (d a b : LOp) (ty : ITy) (s : State) : Result :=
  laneExec (.max d a b ty) (intBin ty d a b fun _ x y => maxOf ty.signed x y) s

/-! ## SHIFT (R249) -/

def execShl (d a b : LOp) (ty : ITy) (s : State) : Result :=
  laneExec (.shl d a b ty) (shiftReg ty d a b shiftLeft) s
def execShr (d a b : LOp) (ty : ITy) (s : State) : Result :=
  laneExec (.shr d a b ty) (shiftReg ty d a b shiftRight) s
def execSar (d a b : LOp) (ty : ITy) (s : State) : Result :=
  laneExec (.sar d a b ty) (shiftReg ty d a b shiftArith) s
def execRot (d a b : LOp) (ty : ITy) (s : State) : Result :=
  laneExec (.rot d a b ty) (shiftReg ty d a b rotate) s
def execShlCount (d a : LOp) (n : Reg) (ty : ITy) (s : State) : Result :=
  laneExec (.shlCount d a n ty) (shiftCount ty d a n shiftLeft) s
def execShrCount (d a : LOp) (n : Reg) (ty : ITy) (s : State) : Result :=
  laneExec (.shrCount d a n ty) (shiftCount ty d a n shiftRight) s
def execSarCount (d a : LOp) (n : Reg) (ty : ITy) (s : State) : Result :=
  laneExec (.sarCount d a n ty) (shiftCount ty d a n shiftArith) s
def execRotCount (d a : LOp) (n : Reg) (ty : ITy) (s : State) : Result :=
  laneExec (.rotCount d a n ty) (shiftCount ty d a n rotate) s

/-! ## DIV, MAD, TRI (R250, R251, R256) -/

def execDiv (d a b : Reg) (ty : ITy) (la : La) (s : State) : Result :=
  laneExec (.div d a b ty la) (divide ty d a b la fun _ x y => quot ty.signed x y) s
def execRem (d a b : Reg) (ty : ITy) (la : La) (s : State) : Result :=
  laneExec (.rem d a b ty la) (divide ty d a b la fun _ x y => remOf ty.signed x y) s

/-- `mad` by type (R251). -/
def madLane (d a b c : Reg) (ty : MadTy) (t : TId) (s : State) : Except Stop State :=
  let x := readV s t a
  let y := readV s t b
  match ty with
  | .b32 => .ok (seqPc (writeV s t d (x * y + readV s t c)) t)
  | .i64 => .ok (seqPc (writePair s t d (x.signExtend 64 * y.signExtend 64 + readPair s t c)) t)
  | .n64 => .ok (seqPc (writePair s t d (x.setWidth 64 * y.setWidth 64 + readPair s t c)) t)

def execMad (d a b c : Reg) (ty : MadTy) (s : State) : Result :=
  laneExec (.mad d a b c ty) (madLane d a b c ty) s
def execTri (d a b : Reg) (tt : Byte) (s : State) : Result :=
  laneExec (.tri d a b tt) (setLane d fun s t => triOf tt (readV s t a) (readV s t b) (readV s t d)) s

/-! ## Constants (R252) -/

def execAddi (d a : Reg) (imm : BitVec 14) (s : State) : Result :=
  laneExec (.addi d a imm) (setLane d fun s t => readV s t a + imm.signExtend 32) s
def execMovi (d : Reg) (imm : BitVec 19) (s : State) : Result :=
  laneExec (.movi d imm) (setLane d fun _ _ => imm.signExtend 32) s
def execMvh (d : Reg) (imm : BitVec 16) (s : State) : Result :=
  laneExec (.mvh d imm) (setLane d fun s t => imm ++ (readV s t d).setWidth 16) s

/-! ## UNI (R254) -/

def execMov (d a : LOp) (ty : ITy) (s : State) : Result :=
  laneExec (.mov d a ty) (intUn ty d a fun _ x => x) s
def execAbs (d a : LOp) (ty : ITy) (s : State) : Result :=
  laneExec (.abs d a ty) (intUn ty d a fun w x => if x.slt (0 : BitVec w) then -x else x) s
def execPopc (d a : LOp) (ty : ITy) (s : State) : Result :=
  laneExec (.popc d a ty) (countBits ty d a fun _ x => popcount x) s
def execClz (d a : LOp) (ty : ITy) (s : State) : Result :=
  laneExec (.clz d a ty) (countBits ty d a fun _ x => leadingZeros x) s
def execBrev (d a : LOp) (ty : ITy) (s : State) : Result :=
  laneExec (.brev d a ty) (intUn ty d a fun _ x => x.reverse) s

/-- `rand` (R254): the generator steps once, whatever the type says. -/
def randLane (d : LOp) (ty : ITy) (t : TId) (s : State) : Except Stop State :=
  let x := rngStep (s.thread t).rng
  let s := s.modThread t fun th => { th with rng := x }
  if ty.wide then retire t (writeL64 s t d x) else retire t (writeL s t d x.low)

def execRand (d : LOp) (ty : ITy) (s : State) : Result := laneExec (.rand d ty) (randLane d ty) s

/-! ## BF, SEL, CMP (R255, R257, R258) -/

def execBfx (d a : Reg) (pos len1 : Fin 32) (sgn : Bool) (s : State) : Result :=
  laneExec (.bfx d a pos len1 sgn)
    (setLane d fun s t => bitField (readV s t a) pos.val (clipWidth pos len1) sgn) s
def execBfi (d a : Reg) (pos len1 : Fin 32) (s : State) : Result :=
  laneExec (.bfi d a pos len1)
    (setLane d fun s t => bitInsert (readV s t a) (readV s t d) pos.val (clipWidth pos len1)) s

/-- `sel` (R257). -/
def selLane (d a b : LOp) (p : Reg8) (wide : Bool) (t : TId) (s : State) : Except Stop State :=
  let x := if readP s t p then a else b
  if wide then retire t (writeL64 s t d (readL64 s t x)) else retire t (writeL s t d (readL s t x))

def execSel (d a b : LOp) (p : Reg8) (wide : Bool) (s : State) : Result :=
  laneExec (.sel d a b p wide) (selLane d a b p wide) s

/-- `cmp` (R258). -/
def cmpLane (pd : Reg8) (a b : LOp) (cond : Cond) (ty : ITy) (t : TId) (s : State) : Except Stop State :=
  let r := if ty.wide then condInt cond ty.signed (readL64 s t a) (readL64 s t b)
    else condInt cond ty.signed (readL s t a) (readL s t b)
  .ok (seqPc (writeP s t pd r) t)

def execCmp (pd : Reg8) (a b : LOp) (cond : Cond) (ty : ITy) (s : State) : Result :=
  laneExec (.cmp pd a b cond ty) (cmpLane pd a b cond ty) s

end Sys2Proof.Machine
end

