-- ==== Sys2Proof/Machine/Special.lean ====
section
/-! DEFINITION. The special functions (R101): the exact mathematical function rounded once to nearest
even. `frcp`, `fsqrt` and `frsq` are exact by integer division and integer square root. The others
enclose the function between two fixed-point numbers and double the precision until both round to one
code. A result of those four functions is never a tie: away from the exact cases it is irrational. -/

namespace Sys2Proof.Machine

/-- The code of +1. -/
def f32One : Nat := 0x3F800000

/-- floor(sqrt n), by bits: `k` is the number of bits still to try, `r` the root so far. -/
def isqrtFrom (n : Nat) : Nat → Nat → Nat
  | 0, r => r
  | k + 1, r =>
    let t := r + 2 ^ k
    isqrtFrom n k (if t * t ≤ n then t else r)
/-- floor(sqrt n). -/
def isqrt (n : Nat) : Nat := isqrtFrom n (Nat.log2 n / 2 + 1) 0

/-- A magnitude known as `q` units of 2 ^ −p and, when `sticky`, a part of a unit more, rounded to
FP32 by RN. `q` is far finer than the result's last place, so half a unit stands for the part. -/
def roundSticky (neg : Bool) (q p : Nat) (sticky : Bool) : Nat × Flags :=
  if sticky then roundMag fp32 rnCtl neg (2 * q + 1) (2 ^ (p + 1)) else roundMag fp32 rnCtl neg q (2 ^ p)

/-- 1 / x for finite x ≠ 0. -/
def rcpFin (neg : Bool) (m : Nat) (e : Int) : Nat × Flags :=
  roundMag fp32 rnCtl neg (pow2Nat (-e)) (m * pow2Nat e)

/-- sqrt x for finite x > 0. -/
def sqrtFin (m : Nat) (e : Int) : Nat × Flags :=
  let n := m * pow2Nat e * 2 ^ 512
  let d := pow2Nat (-e)
  let x := n / d
  let q := isqrt x
  roundSticky false q 256 (q * q != x || n % d != 0)

/-- 1 / sqrt x for finite x > 0. -/
def rsqFin (m : Nat) (e : Int) : Nat × Flags :=
  let n := pow2Nat (-e) * 2 ^ 512
  let d := m * pow2Nat e
  let x := n / d
  let q := isqrt x
  roundSticky false q 256 (q * q != x || n % d != 0)

/-! ## Fixed-point series

A number x of scale `2 ^ p` is an integer; each series truncates at most one unit a term. -/

/-- Σ t(2k+1) / (2k+1) with t(2k+3) = t(2k+1) · y², the sign alternating where `alt`. -/
def atanLoop (p : Nat) (y2 : Int) (alt : Bool) : Nat → Int → Int → Int → Int
  | 0, _, _, acc => acc
  | fuel + 1, t, k, acc =>
    if t = 0 then acc
    else
      let t1 := t * y2 / 2 ^ p
      atanLoop p y2 alt fuel (if alt then -t1 else t1) (k + 2) (acc + t / k)
/-- atanh y (`alt` false) or atan y (`alt` true) at scale p. -/
def atanSeries (p : Nat) (y : Int) (alt : Bool) : Int :=
  atanLoop p (y * y / 2 ^ p) alt (2 * p) y 1 0
/-- ln 2 at scale p. -/
def ln2Fix (p : Nat) : Int := 2 * atanSeries p (2 ^ p / 3) false
/-- π at scale p, by Machin's formula. -/
def piFix (p : Nat) : Int :=
  4 * (4 * atanSeries p (2 ^ p / 5) true - atanSeries p (2 ^ p / 239) true)

/-- Σ y^k / k! at scale p, taking every `stepBy`-th term with alternating sign for sine and cosine. -/
def expLoop (p : Nat) (y : Int) : Nat → Int → Int → Int → Int
  | 0, _, _, acc => acc
  | fuel + 1, t, k, acc =>
    if t = 0 then acc else expLoop p y fuel (t * y / 2 ^ p / k) (k + 1) (acc + t)
def expSeries (p : Nat) (y : Int) : Int := expLoop p y (2 * p) (2 ^ p) 1 0

/-- Terms of sine (from `t = y`, `k = 2`) and cosine (from `t = 1`, `k = 1`). -/
def trigLoop (p : Nat) (y2 : Int) : Nat → Int → Int → Int → Int
  | 0, _, _, acc => acc
  | fuel + 1, t, k, acc =>
    if t = 0 then acc
    else trigLoop p y2 fuel (-(t * y2 / 2 ^ p / (k * (k + 1)))) (k + 2) (acc + t)
def sinSeries (p : Nat) (y : Int) : Int := trigLoop p (y * y / 2 ^ p) (2 * p) y 2 0
def cosSeries (p : Nat) (y : Int) : Int := trigLoop p (y * y / 2 ^ p) (2 * p) (2 ^ p) 1 0

/-- A finite value at scale p, rounded down. -/
def toFix (p : Nat) (neg : Bool) (m : Nat) (e : Int) : Int :=
  let e1 := e + p
  let x : Int := if 0 ≤ e1 then (m * pow2Nat e1 : Nat) else (m / pow2Nat (-e1) : Nat)
  if neg then -x else x

/-- An interval around a fixed-point number rounded at both ends: the code when the ends agree. The
result is inexact. -/
def settle (v : Int) (err p : Nat) : Option (Nat × Flags) :=
  let lo := v - err
  let hi := v + err
  if decide (lo ≤ 0) && decide (0 ≤ hi) then none
  else
    let neg := decide (hi < 0)
    let r1 := roundMag fp32 rnCtl neg lo.natAbs (2 ^ p)
    let r2 := roundMag fp32 rnCtl neg hi.natAbs (2 ^ p)
    let f1 := r1.2 ||| .nx
    let f2 := r2.2 ||| .nx
    if r1.1 = r2.1 && f1 = f2 then some (r1.1, f1) else none

/-- Doubles the precision until the interval settles. -/
def refine (f : Nat → Int × Nat) : Nat → Nat → Nat × Flags
  | 0, p => roundMag fp32 rnCtl (decide ((f p).1 < 0)) (f p).1.natAbs (2 ^ p)
  | fuel + 1, p =>
    let (v, err) := f p
    match settle v err p with
    | some r => r
    | none => refine f fuel (2 * p)

/-- The error bound of the series, in units of the scale. -/
def seriesErr (p : Nat) : Nat := 64 * (p + 16)

/-! ## The functions on finite operands -/

/-- 2 ^ x at scale p for −160 ≤ x ≤ 130 not an integer. -/
def exp2At (neg : Bool) (m : Nat) (e : Int) (p : Nat) : Int × Nat :=
  let w := p + 192
  let x := toFix w neg m e
  let i := x / 2 ^ w
  let f := x % 2 ^ w
  let r := expSeries w (f * ln2Fix w / 2 ^ w)
  (r * pow2Nat i / (2 ^ 192 * pow2Nat (-i)), seriesErr p + 1)

def exp2Fin (neg : Bool) (m : Nat) (e : Int) : Nat × Flags :=
  let big := decide (e + (Nat.log2 m : Int) > 8)
  if m = 0 then (f32One, 0)
  else if big then
    if neg then (0, .uf ||| .nx) else (fp32.infCode false, .ovf ||| .nx)
  else
    let n := m * pow2Nat e
    let d := pow2Nat (-e)
    if n % d = 0 then
      let k : Int := if neg then -((n / d : Nat) : Int) else ((n / d : Nat) : Int)
      roundTo fp32 rnCtl (.pow2 k)
    else
      -- beyond ±512 was taken above; scale by the size of the result
      let x := if neg then -((n / d : Nat) : Int) - 1 else ((n / d : Nat) : Int)
      if 128 ≤ x then (fp32.infCode false, .ovf ||| .nx)
      else if x < -160 then (0, .uf ||| .nx)
      else refine (exp2At neg m e) 8 256

/-- log2 x at scale p for x = (n / d) · 2 ^ k with 1 ≤ n / d < 2. -/
def log2At (k : Int) (n d : Nat) (p : Nat) : Int × Nat :=
  let w := p + 32
  let y : Int := ((n - d) * 2 ^ w / (n + d) : Nat)
  let l := 2 * atanSeries w y false * 2 ^ w / ln2Fix w
  ((k * 2 ^ w + l) / 2 ^ 32, seriesErr p)

/-- log2 x for finite x > 0. -/
def log2Fin (m : Nat) (e : Int) : Nat × Flags :=
  let n := m * pow2Nat e
  let d := pow2Nat (-e)
  let k := floorLog2 n d
  let n1 := n * pow2Nat (-k)
  let d1 := d * pow2Nat k
  if n1 = d1 then roundTo fp32 rnCtl (.ofInt k) else refine (log2At k n1 d1) 8 64

/-- sin x or cos x at scale p, the argument reduced by a multiple of π / 2 (R101: exactly; the bits
of π grow with the precision). -/
def trigAt (cosine : Bool) (neg : Bool) (m : Nat) (e : Int) (p : Nat) : Int × Nat :=
  let w := p + 192
  let x := toFix w false m e
  let halfPi := piFix w / 2
  let k := x / halfPi
  let r := x - k * halfPi
  let quad := (k + (if cosine then 1 else 0)) % 4
  let v :=
    if quad = 0 then sinSeries w r
    else if quad = 1 then cosSeries w r
    else if quad = 2 then -sinSeries w r
    else -cosSeries w r
  let v := if neg && !cosine then -v else v
  -- the error of π is multiplied by k, below 2 ^ 129
  (v / 2 ^ 192, seriesErr p)

def trigFin (cosine : Bool) (neg : Bool) (m : Nat) (e : Int) : Nat × Flags :=
  refine (trigAt cosine neg m e) 8 128

/-! ## The special cases (R101) -/

def fNan : Nat × Flags := (fp32.nanCode, .nv)
def fInf (neg : Bool) (f : Flags) : Nat × Flags := (fp32.infCode neg, f)
def fZero (neg : Bool) : Nat × Flags := (fp32.signBit neg, 0)
/-- A NaN operand gives the canonical NaN, NV if it signals (R85). -/
def fNanOf (signalling : Bool) : Nat × Flags := (fp32.nanCode, Flags.only signalling .nv)

def fRcp (a : Nat) : Nat × Flags :=
  match ofF32 a with
  | .nan s => fNanOf s
  | .inf neg => fZero neg
  | .fin neg m e => if m = 0 then fInf neg .dz else rcpFin neg m e

def fRsq (a : Nat) : Nat × Flags :=
  match ofF32 a with
  | .nan s => fNanOf s
  | .inf neg => if neg then fNan else fZero false
  | .fin neg m e => if m = 0 then fInf neg .dz else if neg then fNan else rsqFin m e

def fSqrt (a : Nat) : Nat × Flags :=
  match ofF32 a with
  | .nan s => fNanOf s
  | .inf neg => if neg then fNan else fInf false 0
  | .fin neg m e => if m = 0 then fZero neg else if neg then fNan else sqrtFin m e

def fExp2 (a : Nat) : Nat × Flags :=
  match ofF32 a with
  | .nan s => fNanOf s
  | .inf neg => if neg then fZero false else fInf false 0
  | .fin neg m e => exp2Fin neg m e

def fLog2 (a : Nat) : Nat × Flags :=
  match ofF32 a with
  | .nan s => fNanOf s
  | .inf neg => if neg then fNan else fInf false 0
  | .fin neg m e => if m = 0 then fInf true .dz else if neg then fNan else log2Fin m e

def fSin (a : Nat) : Nat × Flags :=
  match ofF32 a with
  | .nan s => fNanOf s
  | .inf _ => fNan
  | .fin neg m e => if m = 0 then fZero neg else trigFin false neg m e

def fCos (a : Nat) : Nat × Flags :=
  match ofF32 a with
  | .nan s => fNanOf s
  | .inf _ => fNan
  | .fin neg m e => if m = 0 then (f32One, 0) else trigFin true neg m e

end Sys2Proof.Machine
end

