-- ==== Sys2Proof/Machine/LaneFloat.lean ====
section
/-! DEFINITION. Lane floating-point words (R259 to R266). Each thread's flags join FPSTAT of its group
(R99, R247). -/

namespace Sys2Proof.Machine

/-- One register written and flags joined. -/
def floatLane (d : Reg) (f : State → TId → W32 × Flags) (t : TId) (s : State) : Except Stop State :=
  let r := f s t
  .ok (seqPc (orFlags (writeV s t d r.1) (groupOf s t) r.2) t)

/-- An operation on two registers, element by element (R259). -/
def floatBin (ty : FTy) (d a b : Reg) (op : Fmt → Nat → Nat → Nat × Flags) (t : TId) (s : State) :
    Except Stop State :=
  floatLane d (fun s t => perElement ty (fun k x y _ => op k x y) (readV s t a) (readV s t b) 0) t s

/-- A multiply-add of three registers, element by element (R261). -/
def floatFma (ty : FTy) (mode : Rm) (negProd negAdd : Bool) (d a b c : Reg) (t : TId) (s : State) :
    Except Stop State :=
  floatLane d (fun s t =>
    perElement ty (fun k x y z => fFma k mode negProd negAdd x y z) (readV s t a) (readV s t b) (readV s t c)) t s

/-! ## FAR (R259, R260) -/

def execFadd (d a b : Reg) (rm : Rm4) (ty : FTy) (s : State) : Result :=
  laneExec (.fadd d a b rm ty) (floatBin ty d a b fun k x y => fAdd k (Rm4.mode rm) x y) s
def execFsub (d a b : Reg) (rm : Rm4) (ty : FTy) (s : State) : Result :=
  laneExec (.fsub d a b rm ty) (floatBin ty d a b fun k x y => fSub k (Rm4.mode rm) x y) s
def execFmul (d a b : Reg) (rm : Rm4) (ty : FTy) (s : State) : Result :=
  laneExec (.fmul d a b rm ty) (floatBin ty d a b fun k x y => fMul k (Rm4.mode rm) x y) s
def execFmin (d a b : Reg) (ty : FTy) (s : State) : Result :=
  laneExec (.fmin d a b ty) (floatBin ty d a b fun k x y => fMinMax k false x y) s
def execFmax (d a b : Reg) (ty : FTy) (s : State) : Result :=
  laneExec (.fmax d a b ty) (floatBin ty d a b fun k x y => fMinMax k true x y) s

/-! ## FMA and FMAC (R261) -/

def execFma (d a b c : Reg) (s : State) : Result :=
  laneExec (.fma d a b c) (floatFma .f32 .rn false false d a b c) s
def execFms (d a b c : Reg) (s : State) : Result :=
  laneExec (.fms d a b c) (floatFma .f32 .rn false true d a b c) s
def execFnma (d a b c : Reg) (s : State) : Result :=
  laneExec (.fnma d a b c) (floatFma .f32 .rn true false d a b c) s
def execFnms (d a b c : Reg) (s : State) : Result :=
  laneExec (.fnms d a b c) (floatFma .f32 .rn true true d a b c) s
def execFmacFma (d a b : Reg) (rm : Rm4) (ty : FTy) (s : State) : Result :=
  laneExec (.fmacFma d a b rm ty) (floatFma ty (Rm4.mode rm) false false d a b d) s
def execFmacFms (d a b : Reg) (rm : Rm4) (ty : FTy) (s : State) : Result :=
  laneExec (.fmacFms d a b rm ty) (floatFma ty (Rm4.mode rm) false true d a b d) s
def execFmacFnma (d a b : Reg) (rm : Rm4) (ty : FTy) (s : State) : Result :=
  laneExec (.fmacFnma d a b rm ty) (floatFma ty (Rm4.mode rm) true false d a b d) s
def execFmacFnms (d a b : Reg) (rm : Rm4) (ty : FTy) (s : State) : Result :=
  laneExec (.fmacFnms d a b rm ty) (floatFma ty (Rm4.mode rm) true true d a b d) s

/-! ## FCMP, FCVT (R262, R264, R265) -/

/-- `fcmp` (R262). -/
def fcmpLane (pd : Reg8) (a b : Reg) (cond : Cond) (t : TId) (s : State) : Except Stop State :=
  let r := fCompare cond (readV s t a).toNat (readV s t b).toNat
  .ok (seqPc (orFlags (writeP s t pd r.1) (groupOf s t) r.2) t)

def execFcmp (pd : Reg8) (a b : Reg) (cond : Cond) (s : State) : Result :=
  laneExec (.fcmp pd a b cond) (fcmpLane pd a b cond) s

/-- `fcvt` (R264, R265): the generator steps once for each element RS rounds. -/
def fcvtLane (d a : Reg) (dt st : CTy) (rm : Rm) (sat : Bool) (t : TId) (s : State) : Except Stop State :=
  let src := if CTy.isWide st then (readPair s t a).toNat else (readV s t a).toNat
  let g := groupOf s t
  let (x, f, rng) := convWord dt st rm sat (s.group g).nbv1 (s.thread t).rng src
  let s := s.modThread t fun th => { th with rng := rng }
  let s := writeWide s t d (CTy.isWide dt) (BitVec.ofNat 64 x)
  .ok (seqPc (orFlags s g f) t)

def execFcvt (d a : Reg) (dt st : CTy) (rm : Rm) (sat : Bool) (s : State) : Result :=
  laneExec (.fcvt d a dt st rm sat) (fcvtLane d a dt st rm sat) s

/-! ## FSPEC (R263, R266) -/

/-- A special function: a long-latency result of one register, whose flags join FPSTAT when it completes (R99). -/
def specialLane (d a : Reg) (la : La) (f : Nat → Nat × Flags) (t : TId) (s : State) : Except Stop State :=
  let r := f (readV s t a).toNat
  let s' := laneResultOut s t d false la (BitVec.ofNat 64 r.1) false r.2
  .ok (seqPc (if landsLate s then s' else orFlags s' (groupOf s t) r.2) t)

def execFrcp (d a : Reg) (la : La) (s : State) : Result := laneExec (.frcp d a la) (specialLane d a la fRcp) s
def execFrsq (d a : Reg) (la : La) (s : State) : Result := laneExec (.frsq d a la) (specialLane d a la fRsq) s
def execFsqrt (d a : Reg) (la : La) (s : State) : Result := laneExec (.fsqrt d a la) (specialLane d a la fSqrt) s
def execFexp2 (d a : Reg) (la : La) (s : State) : Result := laneExec (.fexp2 d a la) (specialLane d a la fExp2) s
def execFlog2 (d a : Reg) (la : La) (s : State) : Result := laneExec (.flog2 d a la) (specialLane d a la fLog2) s
def execFsin (d a : Reg) (la : La) (s : State) : Result := laneExec (.fsin d a la) (specialLane d a la fSin) s
def execFcos (d a : Reg) (la : La) (s : State) : Result := laneExec (.fcos d a la) (specialLane d a la fCos) s

def execFclass (d a : Reg) (s : State) : Result :=
  laneExec (.fclass d a) (setLane d fun s t => BitVec.ofNat 32 (fClass (readV s t a).toNat)) s

end Sys2Proof.Machine
end

