-- ==== Sys2Proof/Machine/XLane.lean ====
section
/-! DEFINITION. The cross-lane collectives (R267 to R272). Each executes once for the live threads of
its group, in ascending home lane. -/

namespace Sys2Proof.Machine

/-- The participant at a home lane. -/
def atLane (s : State) (ts : List TId) (lane : Nat) : Option TId := ts.find? fun u => homeLane s u == lane

/-- The source lane of `shfl` (R268): nothing where it lies outside the group. -/
def shflSource (mode : ShflMode) (w i : Nat) (k : W32) : Option Nat :=
  match mode with
  | .pick => some (k.toNat % w)
  | .rot => some ((i + k.toNat) % w)
  | .flip => some (i ^^^ (k.toNat % w))
  | .shift =>
    let j := (i : Int) + k.toInt
    if 0 ≤ j && decide (j < (w : Int)) then some j.toNat else none

/-- The value a participant of `shfl` receives (R268). -/
def shflValue (s : State) (ts : List TId) (w : Nat) (mode : ShflMode) (a b : Reg) (t : TId) : W32 :=
  match shflSource mode w (homeLane s t) (readV s t b) with
  | none => readV s t a
  | some j =>
    match atLane s ts j with
    | some u => readV s u a
    | none => readV s t a

/-- One register of each participant written with a value formed before any is written. -/
def writeEach (s : State) (d : Reg) (xs : List (TId × W32)) : State :=
  xs.foldl (fun s p => writeV s p.1 d p.2) s

def shflColl (d a b : Reg) (mode : ShflMode) (g : GId) (_ : TId) (ts : List TId) (s : State) : Except Stop State :=
  let w := (s.group g).width
  .ok (seqAll (writeEach s d (ts.map fun t => (t, shflValue s ts w mode a b t))) ts)

def execShfl (d a b : Reg) (mode : ShflMode) (s : State) : Result :=
  collExec (.shfl d a b mode) .group anyGroup (shflColl d a b mode) s

/-! ## vote (R269) -/

/-- The mask of the lanes that a test holds of (R269, R272). -/
def laneMask (s : State) (ts : List TId) (f : TId → Bool) : W64 :=
  ts.foldl (fun m t => if f t then m ||| BitVec.ofNat 64 (2 ^ homeLane s t) else m) 0

/-- A mask in the layout of R269: one register, or a pair for a 64-wide group. -/
def writeMask (s : State) (w : Nat) (t : TId) (d : Reg) (m : W64) : State := writeWide s t d (w == 64) m

/-- An odd D of a mask of a 64-wide group raises RSVD (R269, R272). -/
def maskCheck (d : Reg) (s : State) (t : TId) : Option Nat :=
  if (s.group (groupOf s t)).width == 64 && d.val % 2 == 1 then some cRSVD else none
def voteCheck (form : VoteForm) (s : State) (t : TId) : Option Nat :=
  match form with
  | .mask d => maskCheck d s t
  | _ => none

def voteColl (form : VoteForm) (pk : Reg8) (g : GId) (_ : TId) (ts : List TId) (s : State) : Except Stop State :=
  let c := (ts.filter fun t => readP s t pk).length
  match form with
  | .mask d =>
    let m := laneMask s ts fun t => readP s t pk
    .ok (seqAll (ts.foldl (fun s t => writeMask s (s.group g).width t d m) s) ts)
  | .count d => .ok (seqAll (writeEach s d (ts.map fun t => (t, BitVec.ofNat 32 c))) ts)
  | .quorum pd b =>
    let xs := ts.map fun t =>
      let n := (readV s t b).toNat
      (t, if n = 0 then c == ts.length else decide (n ≤ c))
    .ok (seqAll (xs.foldl (fun s p => writeP s p.1 pd p.2) s) ts)
  | .unan pd => .ok (seqAll (ts.foldl (fun s t => writeP s t pd (c == ts.length || c == 0)) s) ts)

def execVote (form : VoteForm) (pk : Reg8) (s : State) : Result :=
  collExec (.vote form pk) .group (voteCheck form) (voteColl form pk) s

/-! ## red and scan (R270, R271) -/

/-- One step of the fold. -/
def redStep (op : RedOp) (ty : RedTy) (a b : W32) : W32 × Flags :=
  match ty with
  | .f32 =>
    let (r, f) :=
      match op with
      | .min => fMinMax fp32 false a.toNat b.toNat
      | .max => fMinMax fp32 true a.toNat b.toNat
      | _ => fAdd fp32 .rn a.toNat b.toNat
    (BitVec.ofNat 32 r, f)
  | _ =>
    let signed := ty == .i32
    (match op with
      | .add => a + b
      | .min => minOf signed a b
      | .max => maxOf signed a b
      | .and => a &&& b
      | .or => a ||| b
      | .xor => a ^^^ b, 0)

/-- The identity of an exclusive fold over no participant (R271). -/
def redIdentity (op : RedOp) (ty : RedTy) : W32 :=
  match op, ty with
  | .min, .n32 => 0xFFFFFFFF
  | .min, .i32 => 0x7FFFFFFF
  | .min, .f32 => 0x7F800000
  | .max, .i32 => 0x80000000
  | .max, .f32 => 0xFF800000
  | .and, _ => 0xFFFFFFFF
  | _, _ => 0

/-- The inclusive prefixes of the fold, and the flags of all its steps. -/
def redPrefixes (op : RedOp) (ty : RedTy) : List W32 → List W32 × Flags
  | [] => ([], 0)
  | x :: xs =>
    xs.foldl (fun acc y =>
      let (r, f) := redStep op ty (acc.1.getLastD x) y
      (acc.1 ++ [r], acc.2 ||| f)) ([x], 0)

def redColl (op : RedOp) (ty : RedTy) (d a : Reg) (g : GId) (_ : TId) (ts : List TId) (s : State) :
    Except Stop State :=
  let (ps, f) := redPrefixes op ty (ts.map fun t => readV s t a)
  let x := ps.getLastD 0
  .ok (seqAll (orFlags (writeEach s d (ts.map fun t => (t, x))) g f) ts)

def execRed (op : RedOp) (ty : RedTy) (d a : Reg) (s : State) : Result :=
  collExec (.red op ty d a) .group anyGroup (redColl op ty d a) s

def scanColl (op : RedOp) (ty : RedTy) (ex : Bool) (d a : Reg) (g : GId) (_ : TId) (ts : List TId) (s : State) :
    Except Stop State :=
  let (ps, f) := redPrefixes op ty (ts.map fun t => readV s t a)
  let ys := if ex then redIdentity op ty :: ps else ps
  .ok (seqAll (orFlags (writeEach s d (ts.zip ys)) g f) ts)

def execScan (op : RedOp) (ty : RedTy) (ex : Bool) (d a : Reg) (s : State) : Result :=
  collExec (.scan op ty ex d a) .group anyGroup (scanColl op ty ex d a) s

/-! ## match (R272) -/

/-- What `match` compares. -/
def matchValue (s : State) (wide : Bool) (a : Reg) (t : TId) : W64 :=
  if wide then readPair s t a else (readV s t a).setWidth 64

def matchColl (d a : Reg) (wide : Bool) (g : GId) (_ : TId) (ts : List TId) (s : State) : Except Stop State :=
  let xs := ts.map fun t => (t, laneMask s ts fun u => matchValue s wide a u == matchValue s wide a t)
  .ok (seqAll (xs.foldl (fun s p => writeMask s (s.group g).width p.1 d p.2) s) ts)

def execMatchLanes (d a : Reg) (wide : Bool) (s : State) : Result :=
  collExec (.matchLanes d a wide) .group (maskCheck d) (matchColl d a wide) s

end Sys2Proof.Machine
end

