-- ==== Sys2Proof/Machine/LaneMem.lean ====
section
/-! DEFINITION. Lane loads, stores, atomics, prefetch, trailed stores and fences (R275 to R286). Each
thread forms its own address and performs its own access; hints change no value (R279). -/

namespace Sys2Proof.Machine

/-! ## Flavours -/

def Ord.acquires : Ord → Bool
  | .rlx => false
  | .acq => true
  | .rel => false
  | .ar => true
def Ord.releases : Ord → Bool
  | .rlx => false
  | .acq => false
  | .rel => true
  | .ar => true

/-- An immediate in units of the access size (R16, R277). -/
def scaled (imm n : Nat) : Int := ((imm * n : Nat) : Int)

/-! ## ld (R277) -/

/-- A load of a lane register or pair. UC accesses are performed in program order (R120), so one that
lands late is read at once. -/
def loadLane (d : Reg) (sz : Sz) (addr : W64) (acq : Bool) (sc : Sc) (hint : Hint) (la : La) (t : TId) (s : State) :
    Except Stop State := do
  if misaligned addr sz.bytes then .error (.trap cALIGN 0)
  else
    let (pa, ty) ← reach s t addr .load sz.bytes
    loadReady s t (issuerOf s (groupOf s t)) pa addr.toNat ty .load
    let wide := sz == .b64
    let order := if acq then some sc else none
    let s := hintLine s t.core pa ty hint
    if landsLate s && ty != .uc && (stackOwner s t addr.toNat).isNone then
      let (id, s) := (popPlan (loadAfter s t pa sz.bytes)).takeFresh
      .ok (seqPc (addOut s t id (.lane d wide) la (.load pa sz.bytes ty order) acq addr.toNat) t)
    else
      let (s1, x, p) := memRead s t pa sz.bytes ty order
      retire t (laneAccessOut s1 t d wide la (stackValue s t addr.toNat x) p acq)

def execLdx (d base idx : Reg) (sz : Sz) (imm : Fin 4) (la : La) (s : State) : Result :=
  laneExec (.ldx d base idx sz imm la) (fun t s =>
    loadLane d sz (effAddr ((readV s t base).setWidth 64) (readS s t idx) (scaled imm.val sz.bytes)) false .dev .normal la t s) s

def execLda (d : Reg) (base : Base) (sz : Sz) (acq : Bool) (sc : Sc) (hint : Hint) (imm : Fin 4) (la : La)
    (s : State) : Result :=
  laneExec (.lda d base sz acq sc hint imm la) (fun t s =>
    loadLane d sz (effAddr (readBase s t base) 0 (scaled imm.val sz.bytes)) acq sc hint la t s) s

/-! ## st (R277, R278) -/

/-- The data of a store: a pair for 8 bytes. -/
def storeData (s : State) (t : TId) (r : Reg) (sz : Sz) : W64 :=
  if sz == .b64 then readPair s t r else (readV s t r).setWidth 64

/-- A store of the low bytes of a value. -/
def storeLane (sz : Sz) (addr x : W64) (rel : Bool) (sc : Sc) (hint : Hint) (t : TId) (s : State) : Except Stop State := do
  if misaligned addr sz.bytes then .error (.trap cALIGN 0)
  else
    let (pa, ty) ← reach s t addr .store
    match deviceStop s (issuerOf s (groupOf s t)) pa addr.toNat .store with
    | some f => .error (.fault f)
    | none =>
      let s := memWrite (popPlan s) t pa (toBytes sz.bytes x.toNat) ty rel sc false none
      .ok (seqPc (hintLine (spoilStack s t addr.toNat sz.bytes) t.core pa ty hint) t)

def execStx (data base idx : Reg) (sz : Sz) (imm : Fin 4) (s : State) : Result :=
  laneExec (.stx data base idx sz imm) (fun t s =>
    storeLane sz (effAddr ((readV s t base).setWidth 64) (readS s t idx) (scaled imm.val sz.bytes))
      (storeData s t data sz) false .dev .normal t s) s

def execSta (data : Reg) (base : Base) (sz : Sz) (rel : Bool) (sc : Sc) (hint : Hint) (imm : Fin 4) (s : State) :
    Result :=
  laneExec (.sta data base sz rel sc hint imm) (fun t s =>
    storeLane sz (effAddr (readBase s t base) 0 (scaled imm.val sz.bytes)) (storeData s t data sz) rel sc hint t s) s

/-! ## atom and cas (R281 to R283) -/

/-- f(x) of an atomic on `n` bytes, `y` being its operand (R281). -/
def atomValue (op : AtomOp) (n : Nat) (x y : W64) : W64 :=
  let w := 8 * n
  let a : BitVec w := x.setWidth w
  let b : BitVec w := y.setWidth w
  (match op with
    | .add => a + b
    | .exch => b
    | .and => a &&& b
    | .or => a ||| b
    | .xor => a ^^^ b
    | .min sgn => minOf sgn a b
    | .max sgn => maxOf sgn a b).setWidth 64

/-- A read-modify-write of a lane operand: the old value is the result. It consumes poisoned memory
(R208). -/
def rmwLane (d : Reg) (wide : Bool) (addr : W64) (ord : Ord) (sc : Sc) (la : La) (f : W64 → Option W64)
    (t : TId) (s : State) : Except Stop State := do
  let n := if wide then 8 else 4
  if misaligned addr n then .error (.trap cALIGN 0)
  else
    let (pa, ty) ← reach s t addr .rmw
    let i := issuerOf s (groupOf s t)
    loadReady s t i pa addr.toNat ty .rmw
    let s := beforeRMW s t pa n
    if memPoisoned s pa n then
      .error (.fault (accessFault kPOISON .rmw addr.toNat 0 (ipaOf s i addr.toNat) pa))
    else
      let (s1, x, p) := memRMW s t pa n ty (Ord.acquires ord) (Ord.releases ord) sc none f
      let x := stackValue s t addr.toNat x
      retire t (laneAccessOut (spoilStack s1 t addr.toNat n) t d wide la x p (Ord.acquires ord))

/-- The atomics of a pack are one batch: the releases of its threads are made, and what its threads have buffered of the
locations is in place, before the first (R130). -/
def readyBatch (addr : State → TId → W64) (wide : Bool) (ord : Ord) (sc : Sc) (s : State) : State :=
  let n := if wide then 8 else 4
  let place (t : TId) : Option Nat :=
    match reach s t (addr s t) .rmw with
    | .ok (pa, _) => some pa
    | .error _ => none
  match packThreads s with
  | [] => s
  | [_] => s
  | ts =>
    let ps := ts.filterMap fun t => (place t).map fun pa => (t, pa)
    let s := if Ord.releases ord then ps.foldl (fun s p => releaseBefore s p.1 sc true) s else s
    ps.foldl (fun s p => beforeRMW s p.1 p.2 n) s

def execAtom (d : Reg) (base : Base) (op : AtomOp) (wide : Bool) (ord : Ord) (sc : Sc) (la : La) (s : State) :
    Result :=
  laneExec (.atom d base op wide ord sc la) (fun t s =>
    let y := if wide then readPair s t d else (readV s t d).setWidth 64
    rmwLane d wide (effAddr (readBase s t base) 0 0) ord sc la
      (fun x => some (atomValue op (if wide then 8 else 4) x y)) t s) (readyBatch (fun s t => effAddr (readBase s t base) 0 0) wide ord sc s)

/-- `cas` (R282): the expected value is vd, the new value the register or pair after it. One that
writes nothing is a load with the acquire part alone. -/
def casLane (d : Reg) (base : Base) (wide : Bool) (ord : Ord) (sc : Sc) (la : La) (t : TId) (s : State) :
    Except Stop State :=
  let e := if wide then readPair s t d else (readV s t d).setWidth 64
  let v := if wide then readPair s t (d + 2) else (readV s t (d + 1)).setWidth 64
  let addr := effAddr (readBase s t base) 0 0
  rmwLane d wide addr ord sc la (fun x => if x == e then some v else none) t s

def execCas (d : Reg) (base : Base) (wide : Bool) (ord : Ord) (sc : Sc) (la : La) (s : State) : Result :=
  laneExec (.cas d base wide ord sc la) (casLane d base wide ord sc la)
    (readyBatch (fun s t => effAddr (readBase s t base) 0 0) wide ord sc s)

/-! ## pf (R280): no register, no value and no fault -/

/-- The line of an address is requested into the issuing core's L1 with a priority. A fault of the translation, and an
address of UC, peer or scratchpad type, are discarded. -/
def prefetch (s : State) (t : TId) (va : Nat) (hint : Hint) : State :=
  match translate s (issuerOf s (groupOf s t)) va .hint with
  | .error _ => s
  | .ok (pa, ty) =>
    let peer := match placeOf pa with
      | .peer _ => true
      | _ => false
    if ty == .uc || ty == .spad || peer then s else loadEffect (hintLine s t.core pa ty hint) t ty pa 1

def execPf (base : Base) (hint : Hint) (imm : BitVec 14) (s : State) : Result :=
  laneExec (.pf base hint imm) (fun t s =>
    .ok (seqPc (prefetch s t (effAddr (readBase s t base) 0 imm.toInt).toNat hint) t)) s

/-! ## stt (R285) -/

/-- The address of a trailed store: a v base is an offset within the frame. -/
def sttAddr (s : State) (t : TId) (base : Base) (imm : BitVec 8) (n : Nat) : W64 :=
  match base with
  | .v r => (s.thread t).framebase + (readV s t r).setWidth 64 + BitVec.ofInt 64 (imm.toInt * n)
  | .s r => effAddr (readS s t r) 0 (imm.toInt * n)

/-- Whether an access lies outside the thread's search frame. -/
def outsideFrame (s : State) (t : TId) (addr : W64) (n : Nat) : Bool :=
  let base := (s.thread t).framebase.toNat
  let size := (s.launch (launchOf s t)).kernel.frame
  decide (addr.toNat < base) || decide (base + size < addr.toNat + n)

/-- The code of an access size. -/
def szCode : Sz → Nat
  | .b8 => 0
  | .b16 => 1
  | .b32 => 2
  | .b64 => 3

/-- TrailPush (R312): nothing without a choice point, a trap where the trail is full, and else the value
the thread's own load would return. -/
def trailPush (sz : Sz) (addr : W64) (t : TId) (s : State) : Except Stop State :=
  let x := s.thread t
  if x.stk.isEmpty then .ok s
  else if 2048 ≤ x.trl.length then .error (.trap cFRAME 0)
  else
    match translate s (issuerOf s (groupOf s t)) addr.toNat .load with
    | .error f => .error (walkStop f addr.toNat .load)
    | .ok (pa, ty) =>
      let (s, old, p) := memRead s t pa sz.bytes ty none
      let e : Trail := ⟨addr.toNat, szCode sz, old, p, false⟩
      .ok (s.modThread t fun th => { th with trl := e :: th.trl })

/-- `stt`: the frame check, the trail entry and the store (R285). -/
def sttStore (sz : Sz) (addr x : W64) (t : TId) (s : State) : Except Stop State := do
  let n := sz.bytes
  if outsideFrame s t addr n then .error (.trap cFRAME 0)
  else if misaligned addr n then .error (.trap cALIGN 0)
  else
    let (pa, ty) ← reach s t addr .store
    match deviceStop s (issuerOf s (groupOf s t)) pa addr.toNat .store with
    | some f => .error (.fault f)
    | none =>
      let s ← trailPush sz addr t (popPlan s)
      .ok (seqPc (memWrite s t pa (toBytes n x.toNat) ty false .grp false none) t)

def execStt (data : Reg) (base : Base) (sz : Sz) (imm : BitVec 8) (s : State) : Result :=
  laneExec (.stt data base sz imm) (fun t s =>
    sttStore sz (sttAddr s t base imm sz.bytes) (storeData s t data sz) t s) s

/-! ## fence (R123, R131, R132, R284) -/

/-- A release fence of a thread: its earlier stores become visible at the scope, or stand before every later store;
its next store is a release (R123, R127, R131). -/
def fenceRelease (s : State) (t : TId) (sc : Sc) : State :=
  let s := noteFence (if Sc.isWide sc then s else holdNarrow s t sc) t (knownTo s (actorOf s t))
  s.modThread t fun x =>
    { x with sb := x.sb.map fun e => { e with fenced := true }, fence := if Sc.isWide sc then none else some sc }

/-- A fence of a thread: its earlier loads are satisfied; its earlier stores become visible at the
scope for a release; at `.dev` or `.sys` the cluster's narrow-held stores are published, and an
acquire-release fence puts its earlier stores before its later loads. An acquire fence completes once every holder
that its loads may have read from has published (R127, R131). -/
def fenceLane (ord : FenceOrd) (sc : Sc) (t : TId) (s : State) : Except Stop State := do
  let s := satisfyAll s t
  let s := if Sc.isWide sc then publishHeld s t.core else s
  match ord with
  | .rel => .ok (seqPc (fenceRelease s t sc) t)
  | .acq =>
    let s ← refresh (acquireLoad (forceAll s t) t) t
    .ok (seqPc s t)
  | .ar =>
    let s := if Sc.isWide sc then noteFence (publishAll s t) t (knownTo s (actorOf s t)) else fenceRelease s t sc
    let s ← refresh (acquireLoad (forceAll s t) t) t
    .ok (seqPc s t)

def execFence (ord : FenceOrd) (sc : Sc) (s : State) : Result := laneExec (.fence ord sc) (fenceLane ord sc) s

end Sys2Proof.Machine
end

