-- ==== Sys2Proof/Machine/LaneBind.lean ====
section
/-! DEFINITION. Bound registers (R287 to R298): binding and its directory, waits, refresh points, the
atomic add through a binding, and the store form. -/

namespace Sys2Proof.Machine

/-! ## The binding directory (R289) -/

/-- The lines that a thread's bindings hold entries for. -/
def boundLines (x : Thread) : List Nat :=
  (x.b.toList.filter fun b => b.bound && !b.ovf).map fun b => b.pa / 128

/-- The lines with an entry in a core's directory. -/
def directoryLines (s : State) (core : Nat) : List Nat :=
  dedup (s.threads.flatMap fun p => if p.1.core = core then boundLines p.2 else [])

/-- Whether Bind finds neither an entry of the line nor a free one: 8,192 entries (R289). -/
def bindOverflows (s : State) (core line : Nat) : Bool :=
  let ls := directoryLines s core
  !ls.contains line && decide (8192 ≤ ls.length)

/-- Unbind(k): the snapshot stays (R289, R296). -/
def unbind (b : Bound) : Bound := { b with bound := false, changed := false, revoked := false, ovf := false }

/-- A bound register replaced. -/
def setBound (s : State) (t : TId) (k : Reg8) (f : Bound → Bound) : State :=
  s.modThread t fun th => { th with b := th.b.set k.val (f (th.b.get k)) k.isLt }

/-- `ldb` (R288): registered before the read. -/
def ldbLane (k : Reg8) (base : Base) (imm : BitVec 9) (la : La) (t : TId) (s : State) : Except Stop State := do
  let addr := effAddr (readBase s t base) 0 (imm.toInt * 4)
  if misaligned addr 4 then .error (.trap cALIGN 0)
  else
    let (pa, ty) ← reach s t addr .load
    if ty != .wb && ty != .hb then .error (.trap cBINDTYPE 0)
    else
      let s := setBound s t k unbind
      let ovf := bindOverflows s t.core (pa / 128)
      let s := setBound s t k fun b =>
        { b with bound := true, changed := false, pa := pa, va := addr, revoked := false, ovf := ovf }
      if landsLate s && (stackOwner s t addr.toNat).isNone then
        let (id, s) := (popPlan (loadAfter s t pa 4)).takeFresh
        .ok (seqPc (addOut s t id (.bound k) la (.load pa 4 ty none) false addr.toNat) t)
      else
        let (s, x, p) := memRead s t pa 4 ty none
        retire t (boundAccessOut s t k la (stackValue s t addr.toNat x).low p false)

def execLdb (k : Reg8) (base : Base) (imm : BitVec 9) (la : La) (s : State) : Result :=
  laneExec (.ldb k base imm la) (ldbLane k base imm la) s

/-! ## Waits and refresh points (R294, R295) -/

/-- The named registers that are bound. -/
def boundNamed (x : Thread) (mask : Byte) : List Bound :=
  ((List.range 8).filter fun k => mask.getLsbD k).filterMap fun k =>
    let b := x.b.getD k {}
    if b.bound then some b else none

/-- The return of `bwait`: LASTTO, a refresh point, and the next word. -/
def bwaitReturn (s : State) (t : TId) (timedOut : Bool) : Except Stop State :=
  retire t (refresh (s.modThread t fun x => { x with lastto := timedOut }) t)

/-- `bwait` (R294). -/
def bwaitLane (mask : Byte) (r : Reg) (t : TId) (s : State) : Except Stop State :=
  let named := boundNamed (s.thread t) mask
  let time := readS s t r
  if named.any (fun b => b.changed) || (named.isEmpty && time == 0) then bwaitReturn s t false
  else .ok (enterWait s t (.bound mask (time != 0)))

def execBwait (mask : Byte) (t : Reg) (s : State) : Result :=
  laneExec (.bwait mask t) (bwaitLane mask t) s

def execBsync (s : State) : Result := laneExec .bsync (fun t s => retire t (refresh s t)) s

/-! ## badd (R293) -/

/-- `badd`: the result, not the old value, becomes the snapshot. -/
def baddLane (k : Reg8) (r : Reg) (ord : Ord) (sc : Sc) (la : La) (t : TId) (s : State) : Except Stop State :=
  let b := (s.thread t).b.get k
  let y := readV s t r
  if b.bound then
    match boundFault s t b .rmw with
    | some f => .error (.fault f)
    | none =>
      let s := beforeRMW s t b.pa 4
      if memPoisoned s b.pa 4 then
        .error (.fault { kind := kPOISON, access := 2, va := b.va.toNat, pa := b.pa })
      else
        let (s, old, p) := memRMW s t b.pa 4 (boundTy b.pa) (Ord.acquires ord) (Ord.releases ord) sc (some k)
          fun x => some ((x.low + y).setWidth 64)
        retire t (boundAccessOut (spoilStack s t b.va.toNat 4) t k la
          ((stackValue s t b.va.toNat old).low + y) p (Ord.acquires ord))
  else retire t (boundAccessOut s t k la (readB s t k + y) false false)

/-- The additions of a pack to one word are one batch (R130). -/
def readyBindings (k : Reg8) (s : State) : State :=
  let one (s : State) (t : TId) : State :=
    let b := (s.thread t).b.get k
    if b.bound then beforeRMW s t b.pa 4 else s
  match packThreads s with
  | [] => s
  | [_] => s
  | ts => ts.foldl one s

def execBadd (k : Reg8) (r : Reg) (ord : Ord) (sc : Sc) (la : La) (s : State) : Result :=
  laneExec (.badd k r ord sc la) (baddLane k r ord sc la) (readyBindings k s)

/-! ## bunb, bqry and the store form (R292, R296, R297) -/

def execBunb (k : Reg8) (s : State) : Result :=
  laneExec (.bunb k) (fun t s => .ok (seqPc (setBound s t k unbind) t)) s

/-- The word of `bqry` (R297). -/
def bqryWord (x : Thread) (k : Reg8) : W32 :=
  let b := x.b.get k
  let mask (f : Bound → Bool) : Nat := (List.range 8).foldl (fun acc j => acc + bit (f (x.b.getD j {})) j) 0
  BitVec.ofNat 32 (bit (b.bound && b.ovf) 31 + bit (b.bound && b.revoked) 30
    + (if b.bound then b.pa / 4 % 32 * 2 ^ 25 else 0) + bit x.lastto 24 + x.fresh.toNat * 2 ^ 16
    + mask (fun b => b.changed) * 2 ^ 8 + mask fun b => b.bound)

def execBqry (d : Reg) (k : Reg8) (s : State) : Result :=
  laneExec (.bqry d k) (setLane d fun s t => bqryWord (s.thread t) k) s

/-- `st bK` (R292): nothing on an unbound register. -/
def stBoundLane (k : Reg8) (rel : Bool) (sc : Sc) (t : TId) (s : State) : Except Stop State :=
  if ((s.thread t).b.get k).bound then retire t (boundWrite s t k (readB s t k) rel sc) else .ok (seqPc s t)

def execStBound (k : Reg8) (rel : Bool) (sc : Sc) (s : State) : Result :=
  laneExec (.stBound k rel sc) (stBoundLane k rel sc) s

end Sys2Proof.Machine
end

