-- ==== Sys2Proof/Machine/Level.lean ====
section
/-! DEFINITION. The level each cluster runs (R330, R331): the highest request of its cores' active
contexts under the ceilings of R186, R412 and R413, and the change that settles. -/

namespace Sys2Proof.Machine

/-- Whether a group's context is active on a core, or comes back to it by the swap in progress: the swap changes the
request in the cycle it begins (R331). -/
def requests (s : State) (core : Nat) (g : GId) (x : Group) : Bool :=
  let c := s.ctx x.ctx
  g.core == core && x.live && (match (s.core core).swap with
    | some (.returning n) => c.displaced == some n
    | _ => (s.core core).act == g.bank && c.displaced.isNone)

/-- Whether a spilled group has a live thread. -/
def liveSpilled (k : SpilledBank) (g : GId) : Bool := k.threads.any fun p => p.2.live && (k.owner p.1).1 == g

/-- A core's request: the highest LEVEL among the live groups of its active context, those in its save area too, 0
with no live thread. -/
def coreRequest (s : State) (core : Nat) : Nat :=
  let here := s.groups.filter fun p => requests s core p.1 p.2 && !(liveThreads s p.1).isEmpty
  let away := s.ctxs.flatMap fun c => c.2.spilled.flatMap fun k =>
    k.2.groups.filter fun p => requests s core p.1 p.2 && liveSpilled k.2 p.1
  (here ++ away).foldl (fun acc p => Nat.max acc p.2.level) 0

/-- The level a cluster is to run. -/
def clusterTarget (s : State) (n : Nat) : Nat :=
  let c := s.cluster n
  let ceiling := match c.owner with
    | some p => (s.part p).ceiling
    | none => 0
  let want := Nat.max (coreRequest s (2 * n)) (coreRequest s (2 * n + 1))
  if s.health.lowInput then 0 else Nat.min want (Nat.min ceiling c.boil)

/-- A cluster looks at its level again: a change runs the lower of the two levels until it settles
(DESIGN CHOICE, log 83). -/
def relevel (s : State) (n : Nat) : State :=
  let c := s.cluster n
  let target := clusterTarget s n
  if target = c.settling.getD c.level then s
  else s.setCluster n { c with level := Nat.min c.level target, settling := some target }

/-- LEVEL as `perf` and `swr PERFLVL` set it from a whole source (R330). -/
def levelOf (x : W64) : Nat := if x.toNat ≤ 23 then x.toNat else 23

end Sys2Proof.Machine
end

