-- ==== Sys2Proof/Machine/Place.lean ====
section
/-! DEFINITION. Slots and their groups: what a core offers a group (R68), the registers a group starts
with (R9, R306), search records (R308), and the release of a group when its last thread has exited and
its engine work is done (R303). -/

namespace Sys2Proof.Machine

/-! ## What a core offers (R68) -/

/-- One of several candidates that the spec lets Pergola choose among: which is left open
(DESIGN CHOICE, log 28). -/
def pickOne (s : State) (place : Nat) : List Nat → Option Nat
  | [] => none
  | [x] => some x
  | x :: xs => some ((x :: xs).getD (Config.freeNat s.tick place % (x :: xs).length) x)

/-- The groups that hold slots of a bank set. -/
def groupsIn (s : State) (core bank : Nat) : List (GId × Group) :=
  s.groups.filter fun p => p.1.core == core && p.1.bank == bank && p.2.live

/-- Whether thread slots overlap a group's. -/
def slotsTaken (gs : List (GId × Group)) (first w : Nat) : Bool :=
  gs.any fun p => overlaps first w (gidFirst p.1) p.2.width

/-- The accumulator blocks of a bank set that groups occupy, spilled groups with a bank in place too. -/
def takenBlocks (s : State) (core bank : Nat) : List Nat :=
  (s.groups ++ spilledGroups s).flatMap fun p =>
    if p.1.core = core && p.1.bank = bank && p.2.live then
      ((List.range (groupBlocks p.2)).map fun i => p.2.accFirst + i).filter (blockInPlace s p.2)
    else []
/-- The banks of a bank set that an active context waits to have back (R214). -/
def awaitedBanks (s : State) (core bank : Nat) : List Nat :=
  (List.range 16).filter fun k =>
    s.ctxs.any fun c => c.2.core == core && c.2.bank == bank && c.2.displaced.isNone && Tbl.has c.2.spilled k
/-- The banks of a bank set that displaced contexts own (R212, R213). -/
def displacedBanks (s : State) (core bank : Nat) : List Nat :=
  let mine (p : GId × Group) : Bool :=
    p.1.core == core && p.1.bank == bank && p.2.live && (s.ctx p.2.ctx).displaced.isSome
  (List.range 16).filter fun k =>
    (s.groups ++ spilledGroups s).any fun p =>
      mine p && (groupBanks p.1 p.2).contains k && !bankSpilled s p.2.ctx k

/-- The first slots at which a group of width `w` fits, in banks that no displaced context owns
(DEDUCED, log 30). -/
def slotChoices (s : State) (core bank w : Nat) : List Nat :=
  let gs := groupsIn s core bank
  let held := displacedBanks s core bank ++ awaitedBanks s core bank
  ((List.range (1024 / w)).map fun i => i * w).filter fun first =>
    !slotsTaken gs first w && !held.contains (first / 64)
/-- The first blocks at which `n` accumulator blocks fit, in such banks. -/
def blockChoices (s : State) (core bank n : Nat) : List Nat :=
  let taken := takenBlocks s core bank
  let held := displacedBanks s core bank ++ awaitedBanks s core bank
  (List.range (129 - n)).filter fun first =>
    (List.range n).all fun i => !taken.contains (first + i) && !held.contains ((first + i) / 8)
/-- Pool counter sets that are free. -/
def freeSets (s : State) (core : Nat) : List Nat :=
  (List.range 16).filter fun k => !Tbl.has (s.core core).sets k

/-- How many search records a launch's pool holds (R308). -/
def poolRecords (l : Launch) : Nat :=
  match l.pool with
  | some (_, size) => size / recordSize l.kernel.frame
  | none => 0
/-- The lowest-numbered free records, as many as asked for. -/
def freeRecords (l : Launch) (n : Nat) : List Nat :=
  ((List.range (poolRecords l)).filter fun r => !Tbl.has l.poolTaken r).take n

/-- Where a group goes: first thread slot, first accumulator block, pool sets and search records. -/
structure Seat where
  first : Nat
  accFirst : Nat
  sets : List Nat
  recs : List Nat
  deriving DecidableEq, Repr

/-- The seat of a group of a launch with `n` threads on a bank set, where R68 finds one: the lowest slots and
blocks, or any (DESIGN CHOICE, log 29). -/
def seatFor (low : Bool) (s : State) (core bank : Nat) (l : Launch) (n : Nat) : Option Seat :=
  let w := l.kernel.group
  let sets := freeSets s core
  let recs := if l.kernel.frame = 0 then [] else freeRecords l n
  let pick (place : Nat) (xs : List Nat) : Option Nat := if low then xs.head? else pickOne s place xs
  match pick (core * 16) (slotChoices s core bank w), pick (core * 16 + 1) (blockChoices s core bank (w / 8 * l.kernel.acc)) with
  | some first, some block =>
    if l.kernel.ncset ≤ sets.length && (l.kernel.frame == 0 || recs.length == n) then
      some ⟨first, block, sets.take l.kernel.ncset, recs⟩
    else none
  | _, _ => none

/-! ## The registers of a new group (R9, R306) -/

/-- How a thread of a new group starts: its lane and pc, and for a spawned one its parent and argument. -/
structure Start where
  lane : Nat
  pc : W64
  spawned : Option SpawnRec := none
  deriving DecidableEq, Repr

/-- The virtual addresses of a search record: CPBASE, TRAILBASE, FRAMEBASE (R308). -/
def recordBases (l : Launch) (r : Nat) : W64 × W64 × W64 :=
  match l.pool with
  | some (base, _) =>
    let a := base + r * recordSize l.kernel.frame
    (BitVec.ofNat 64 a, BitVec.ofNat 64 (a + 12288), BitVec.ofNat 64 (a + 45056))
  | none => (0, 0, 0)

/-- The lane registers a thread starts with. -/
def startRegs (x : Start) : Vector W32 64 :=
  let v : Vector W32 64 := (Vector.replicate 64 0).set! 0 (BitVec.ofNat 32 x.lane)
  match x.spawned with
  | none => v
  | some r => ((v.set! 1 (BitVec.ofNat 32 r.parent)).set! 2 r.arg.low).set! 3 r.arg.high

/-- A thread at its start. -/
def startThread (team tti cycle : Nat) (bases : W64 × W64 × W64) (x : Start) : Thread :=
  { live := true, tti := tti, pc := x.pc, v := startRegs x, rng := rngInit team tti
    framebase := bases.2.2, cpbase := bases.1, trailbase := bases.2.1, lastIssue := cycle
    firstAcquire := x.spawned.isSome }

/-- The uniform registers a group starts with: the parameter words. -/
def startUniform (l : Launch) : Vector W64 64 :=
  (List.range 16).foldl (fun v i => v.set! i (l.kernel.params.getD i 0)) (Vector.replicate 64 0)

/-- Bytes of memory set to zero, their poison gone. -/
def zeroBytes (s : State) (a n : Nat) : State :=
  let keep (c : Host.Cell) : Bool := decide (c.1 < a) || decide (a + n ≤ c.1)
  setMemPoison { s with mem := s.mem.filter keep } a n false

/-- A counter set reset as by `hvclr`: zero counters, tie bit i being i mod 2 (R9, R381). -/
def resetSet (s : State) (core set : Nat) : State :=
  let s := zeroBytes s (windowAddr core (0x300000 + set * 4096)) 4096
  let tie := windowAddr core (0x310000 + set * 512)
  setMemPoison (s.setMem (writeBytes s.mem tie (List.replicate 512 0xAA))) tie 512 false

/-- The frame bytes of a new thread set to zero, line by line; nothing where a line does not translate (R308). -/
def zeroFrame (s : State) (i : Issuer) (va n : Nat) : Except SysFault State :=
  (List.range (ceilDiv n 128)).foldlM (fun s k =>
    (translate s i (va + 128 * k) .store).map fun p =>
      homeWrite s (some i.part) p.1 (List.replicate (Nat.min 128 (n - 128 * k)) 0) .wb false none) s

/-- A group takes its seat, its registers as R9 and R306 give them. A search frame whose page does not translate is
zeroed when its thread first issues (DESIGN CHOICE, log 87). -/
def startGroup (s : State) (core bank launch team tgi ctx : Nat) (seat : Seat) (starts : List Start) : State :=
  let l := s.launch launch
  let w := l.kernel.group
  let g : GId := ⟨core, bank, seat.first / 16⟩
  let cmap (k : Nat) : Option Nat := seat.sets[k]?
  let grp : Group :=
    { live := true, width := w, launch := launch, team := team, tgi := tgi, s := startUniform l
      accFirst := seat.accFirst, accCount := l.kernel.acc
      cmap := #v[cmap 0, cmap 1, cmap 2, cmap 3], placedAt := s.tick, ctx := ctx }
  let s := s.setGroup g grp
  let s := zeroBytes s (accAddr core bank seat.accFirst 0 0) (w / 8 * l.kernel.acc * 2048)
  let s := seat.sets.foldl (fun s k => resetSet s core k) s
  let s := s.modCore core fun c =>
    { c with sets := seat.sets.foldl (fun m k => Tbl.put m k (ctx, team)) c.sets }
  let cycle := (s.core core).cycle
  let s := (List.range w).foldl (fun s lane => s.setThread (gidThread g lane) {}) s
  let withRecs := starts.zip ((seat.recs.map some) ++ List.replicate (starts.length - seat.recs.length) none)
  let s := withRecs.foldl (fun s p =>
    let t := gidThread g p.1.lane
    let bases := match p.2 with
      | some r => recordBases l r
      | none => (0, 0, 0)
    let s := s.setThread t (startThread team (tgi * w + p.1.lane) cycle bases p.1)
    match p.2 with
    | some r =>
      let s := s.modLaunch launch fun x => { x with poolTaken := Tbl.put x.poolTaken r (team, tgi * w + p.1.lane) }
      match zeroFrame s (issuerOf s g) bases.2.2.toNat l.kernel.frame with
      | .ok s => s
      | .error _ => s.modThread t fun x => { x with frameDue := true }
    | none => s) s
  relevel s (core / 2)

/-- The next unused team group index of a team (R42). -/
def nextTgi (l : Launch) (team : Nat) : Nat := Tbl.getD l.nextTgi team 0
/-- A team's group indices used up by `n` more. -/
def useTgi (s : State) (launch team n : Nat) : State :=
  s.modLaunch launch fun l => { l with nextTgi := Tbl.put l.nextTgi team (nextTgi l team + n) }

/-- The active context of a launch on a bank set of a core, made when its first group comes, with the
templates its kernel loads (R210, R354). -/
def ensureCtx (s : State) (core bank launch : Nat) : Nat × State :=
  match s.ctxs.find? fun c =>
      c.2.core == core && c.2.bank == bank && c.2.launch == launch && c.2.displaced.isNone with
  | some c => (c.1, s)
  | none =>
    let l := s.launch launch
    let (n, s) := s.takeFresh
    let tid := ((List.range 64).filterMap fun k =>
      (Tbl.find l.templates (l.kernel.tidmap.getD k 0xFF)).map fun e => (k, e))
    (n, s.setCtx n { core := core, bank := bank, launch := launch, tid := tid, save := Config.saveArea n })

/-! ## The release of groups (R303) -/

/-- Whether a group has accepted engine work that is not complete, or a record of its matrix units by which
its launch ends (R341). -/
def engineBusy (s : State) (g : GId) : Bool :=
  let x := s.group g
  x.fatal || x.tile.isSome || x.mq.any (fun q => q.2.any fun op => !op.performed)
    || (s.core g.core).copies.any fun c => ownsCopy s g c.2

/-- A context is gone with its last group. -/
def dropCtx (s : State) (c : Nat) : State :=
  if s.groups.any (fun p => p.2.live && p.2.ctx == c) || (s.ctx c).spilled.any fun k => k.2.groups.any fun p => p.2.live then s
  else { s with ctxs := Tbl.drop s.ctxs c }

/-- Whether groups of a team are still to be formed: records of it stand in a bin or its overflow queue
(DEDUCED, log 37). -/
def teamPending (s : State) (launch team : Nat) : Bool :=
  s.cores.any (fun c => c.2.bins.any fun b => b.2.launch == launch && b.2.team == team && !b.2.recs.isEmpty)
    || (match Tbl.find (s.launch launch).overflow team with
      | some o => o.count != 0
      | none => false)

/-- A group whose last thread has exited and whose engine work is done frees its slots, blocks and
counter sets; the last group of a team, those that spawn records are still to form counted, frees the team's
scratchpad allocation. -/
def releaseGroup (s : State) (g : GId) : State :=
  let x := s.group g
  if !x.live || !(liveThreads s g).isEmpty || engineBusy s g then s
  else
    let mine := x.cmap.toList.filterMap id
    let s := (groupThreads s g).foldl (fun s t => s.modThread t fun y => { y with outs := [] }) s
    let s := s.setGroup g { x with live := false }
    let s := s.modCore g.core fun c => { c with sets := mine.foldl (fun m k => Tbl.drop m k) c.sets }
    let s := dropCtx s x.ctx
    if (groupsOfTeam s x.launch x.team).isEmpty && !teamSpilled s x.launch x.team && !teamPending s x.launch x.team then
      { s with cores := s.cores.map fun p =>
          (p.1, { p.2 with allocs := p.2.allocs.filter fun a => !(a.launch == x.launch && a.team == x.team) }) }
    else s

/-- The search record of a thread frees (R308). -/
def freeRecord (s : State) (t : TId) : State :=
  let who := ((s.group (groupOf s t)).team, (s.thread t).tti)
  s.modLaunch (launchOf s t) fun l => { l with poolTaken := l.poolTaken.filter fun p => p.2 ≠ who }

/-- A thread is no longer live: its bindings end, its stacks and its outstanding lane results are
discarded (R287, R303), the flags of their operations joining FPSTAT (R99). Its stores reach memory before its search
record frees (R308). -/
def endThread (s : State) (t : TId) : State :=
  let uniform (o : Out) : Bool :=
    match o.dest with
    | .uni _ => true
    | .hyp _ => true
    | _ => false
  let s := if (s.launch (launchOf s t)).kernel.frame = 0 then s else freeRecord (publishAll s t) t
  let s := (s.thread t).outs.foldl (fun s o => if uniform o || o.flags == 0 then s else orFlags s (groupOf s t) o.flags) s
  (dropActor s (actorOf s t)).modThread t fun x =>
    { x with live := false, wait := .none, b := x.b.map unbind, stk := [], trl := [], uint := none
             outs := x.outs.filter uniform, snap := none, owed := false, portion := none, struck := none, early := []
             beyond := false }

/-! ## Spawn bins and overflow queues (R72 to R74, R306) -/

/-- Room for the group of a bin: a seat, and an unused team group index below 2,048 ÷ width (R306). -/
def binSeat (s : State) (core : Nat) (b : Bin) : Option Seat :=
  let l := s.launch b.launch
  if nextTgi l b.team < 2048 / l.kernel.group then seatFor false s core (s.core core).act l b.recs.length else none

/-- A bin fires: a new group of its team, one thread per record (R73, R306). -/
def fireBin (s : State) (core k : Nat) (b : Bin) (seat : Seat) : State :=
  let bank := (s.core core).act
  let tgi := nextTgi (s.launch b.launch) b.team
  let starts := (List.range b.recs.length).map fun i =>
    ({ lane := i, pc := b.entry, spawned := b.recs[i]? } : Start)
  let s := s.modCore core fun c => { c with bins := Tbl.drop c.bins k }
  let (c, s) := ensureCtx s core bank b.launch
  let s := startGroup s core bank b.launch b.team tgi c seat starts
  wakeCore (useTgi s b.launch b.team 1) core

/-- A bin that is full fires, or is held back for lack of room (R73, R74). -/
def settleBin (s : State) (core k : Nat) : State :=
  match Tbl.find (s.core core).bins k with
  | none => s
  | some b =>
    if b.recs.length < (s.launch b.launch).kernel.group then s
    else
      match binSeat s core b with
      | some seat => fireBin s core k b seat
      | none => s.modCore core fun c => { c with bins := Tbl.put c.bins k { b with due := true } }

/-- The bin that R72 gives a record: the one that holds its entry and team and is not held back, else
an empty one. A record for a bin held back goes to the overflow queue (R74) (DEDUCED, log 38). -/
def binFor (s : State) (core launch team : Nat) (entry : W64) : Option Nat :=
  let bins := (s.core core).bins
  let same (b : Bin) : Bool := b.launch == launch && b.team == team && b.entry == entry
  match bins.find? fun p => same p.2 with
  | some (k, b) => if b.due then none else some k
  | none => (List.range 16).find? fun k => !Tbl.has bins k

/-- A record put into a bin; a push is a waking event (R155). -/
def pushBin (s : State) (core k launch team : Nat) (entry : W64) (r : SpawnRec) : State :=
  let old : Bin := Tbl.getD (s.core core).bins k { entry := entry, launch := launch, team := team, recs := [] }
  let s := s.modCore core fun c => { c with bins := Tbl.put c.bins k { old with recs := old.recs ++ [r] } }
  settleBin (wakeCore s core) core k

/-- A record of an overflow queue as 32 bytes (R74). -/
def overflowBytes (entry : W64) (r : SpawnRec) : List Byte :=
  toBytes 8 entry.toNat ++ toBytes 8 r.arg.toNat ++ toBytes 4 r.parent ++ toBytes 12 0

/-- The virtual address of a record of an overflow ring. -/
def Overflow.slot (o : Overflow) (i : Nat) : Nat := o.base + (o.head + i) % o.cap * 32

/-- Bytes of a ring at a virtual address: where each stands, or the fault of the first that does not translate. -/
def ringBytes (s : State) (i : Issuer) (k : Access) (va : Nat) : Nat → Except SysFault (List (Nat × MemTy))
  | 0 => .ok []
  | n + 1 => do
    let p ← translate s i va k
    let rest ← ringBytes s i k (va + 1) n
    .ok (p :: rest)

/-- A record stored in an overflow ring: nothing of it where a byte does not translate. -/
def ringPut (s : State) (i : Issuer) (va : Nat) (bs : List Byte) : Except SysFault State :=
  (ringBytes s i .store va bs.length).map fun ps =>
    (ps.zip bs).foldl (fun s p => homeWrite s (some i.part) p.1.1 [p.2] p.1.2 false none) s

/-- A record pushed by a thread: into a bin, or the team's overflow queue. A full queue parks the thread, as does a
team whose plan names no overflow ring; a ring whose page does not translate faults it, and nothing is pushed
(DESIGN CHOICE, log 87). -/
def pushSpawn (s : State) (g : GId) (entry : W64) (r : SpawnRec) : Except Stop State :=
  let x := s.group g
  match binFor s g.core x.launch x.team entry with
  | some k => .ok (pushBin s g.core k x.launch x.team entry r)
  | none =>
    match Tbl.find (s.launch x.launch).overflow x.team with
    | none => .error (.wait .spawn)
    | some o =>
      if o.count < o.cap then
        match ringPut s (issuerOf s g) (Overflow.slot o o.count) (overflowBytes entry r) with
        | .error f => .error (walkStop f (Overflow.slot o o.count) .store)
        | .ok s =>
          .ok (s.modLaunch x.launch fun l => { l with overflow := Tbl.put l.overflow x.team { o with count := o.count + 1 } })
      else .error (.wait .spawn)

end Sys2Proof.Machine
end

