-- ==== Sys2Proof/Machine/Control.lean ====
section
/-! DEFINITION. Transfers of control, the end of a thread, yields and spawns (R299 to R306). -/

namespace Sys2Proof.Machine

/-- The target of a relative branch: the branching word's address plus OFF × 4 (R299). -/
def branchTarget (s : State) (t : TId) (off : Int) : W64 := (s.thread t).pc + BitVec.ofInt 64 (off * 4)

/-- The word that fetch reads at a physical address. -/
def fetchRead (s : State) (pa : Nat) : Nat :=
  ofBytes ((List.range 4).map fun i => placeByte s (pa + i))

/-! ## Branches (R300, R301) -/

def execBra (off : BitVec 25) (s : State) : Result :=
  laneExec (.bra off) (fun t s => .ok (jumpPc s t (branchTarget s t off.toInt))) s

def execBrc (p : Reg8) (off : BitVec 21) (s : State) : Result :=
  laneExec (.brc p off) (fun t s =>
    .ok (if readP s t p then jumpPc s t (branchTarget s t off.toInt) else seqPc s t)) s

def execCall (d : Reg) (off : BitVec 17) (s : State) : Result :=
  laneExec (.call d off) (fun t s =>
    .ok (jumpPc (writePair s t d ((s.thread t).pc + 4)) t (branchTarget s t off.toInt))) s

/-- The trap of a bad indirect target (R301, R302). -/
def badTarget (target : W64) : Stop := .trap cIJMP target.low

def execRet (a : Reg) (s : State) : Result :=
  laneExec (.ret a) (fun t s =>
    let target := readPair s t a
    if misaligned target 4 then .error (badTarget target) else .ok (jumpPc s t target)) s

/-- `jmpi` (R302): the return from a handler, or a jump to a `land`. A page that is not present is filed
and replayed; any other fault of the target's translation traps. -/
def jmpiLane (a : Reg) (t : TId) (s : State) : Except Stop State :=
  let target := readPair s t a
  if returnsFromTrap (s.thread t) target then .ok (trapReturn s t target)
  else if misaligned target 4 then .error (badTarget target)
  else
    match translate s (issuerOf s (groupOf s t)) target.toNat .exec with
    | .error f => if f.kind = kNOTPRESENT then .error (walkStop f target.toNat .exec) else .error (badTarget target)
    | .ok (pa, _) =>
      if (deviceStop s (issuerOf s (groupOf s t)) pa target.toNat .exec).isSome then .error (badTarget target)
      else if fetchRead s pa = encode .land then .ok (jumpPc s t target)
      else .error (badTarget target)

def execJmpi (a : Reg) (s : State) : Result := laneExec (.jmpi a) (jmpiLane a) s
def execLand (s : State) : Result := laneExec .land (fun t s => .ok (seqPc s t)) s
def execNop (s : State) : Result := laneExec .nop (fun t s => .ok (seqPc s t)) s
def execYield (s : State) : Result := laneExec .yield (fun t s => .ok (enterWait s t .yield)) s

/-! ## exit (R303) -/

/-- The stores of a group whose last thread has exited are published (R132, R303). -/
def publishGroup (s : State) (g : GId) : State :=
  if (liveThreads s g).isEmpty then (groupThreads s g).foldl publishAll s else s

/-- Whether the domain of a thread that waits at a collective has all arrived, at one address or not (R53, R54). -/
def domainReady (s : State) (t : TId) : Bool :=
  match (s.thread t).wait with
  | .collective d =>
    ((domainThreads s d t).all (waitsIn s d) && !domainSpilled s d t) || (collConflict s t).isSome
  | _ => false

/-- Collectives of a team whose domains a thread's leaving has completed: their threads arrive afresh (R53). -/
def rejoin (s : State) (g : GId) : State :=
  let x := s.group g
  retryWaits s fun u w =>
    (match w with
      | .collective _ => domainReady s u
      | _ => false) &&
      (let y := s.group (groupOf s u)
       y.launch == x.launch && y.team == x.team)

def exitLane (t : TId) (s : State) : Except Stop State :=
  let g := groupOf s t
  .ok (relevel (rejoin (releaseGroup (publishGroup (endThread s t) g) g) g) (t.core / 2))

/-- The last group of a team that has exited, and a domain whose threads exit, let waiting collectives look
again (DEDUCED, log 82). -/
def execExit (s : State) : Result := laneExec .exit exitLane s

/-! ## spawn (R305) -/

/-- `spawn`: a release at `.team` scope, then the push; a full overflow queue parks the thread. -/
def spawnLane (a : Reg) (off : BitVec 17) (t : TId) (s : State) : Except Stop State :=
  let r : SpawnRec := ⟨readPair s t a, (s.thread t).tti⟩
  let s := releaseBefore s t .team true
  let s := carryMore s (.spawned (launchOf s t) (s.group (groupOf s t)).team) (knownTo s (actorOf s t))
  (pushSpawn s (groupOf s t) (branchTarget s t off.toInt) r).map fun s => seqPc s t

def execSpawn (a : Reg) (off : BitVec 17) (s : State) : Result := laneExec (.spawn a off) (spawnLane a off) s

end Sys2Proof.Machine
end

