-- ==== Sys2Proof/Machine/Search.lean ====
section
/-! DEFINITION. The search instructions (R307 to R320). A thread's choice stack and trail stand in its
state; memory shows of them only what R309 leaves undefined. -/

namespace Sys2Proof.Machine

/-- Translate for an access of a search instruction. -/
def xlat (s : State) (t : TId) (va : Nat) (k : Access) : Except Stop (Nat × MemTy) :=
  match translate s (issuerOf s (groupOf s t)) va k with
  | .ok r => .ok r
  | .error f => .error (walkStop f va k)

/-- A search instruction of a thread whose Trellis entries a soft error struck is stopped by it (R207). -/
def searchStep (f : TId → State → Except Stop State) (t : TId) (s : State) : Except Stop State :=
  if (s.thread t).trellisError then .error (.fault { kind := kPOISON, soft := 2 }) else f t s

/-- The frame bytes of a thread's kernel. -/
def frameBytes (s : State) (t : TId) : Nat := (s.launch (launchOf s t)).kernel.frame
/-- The address of the kernel's first word (ENTRY, R241). -/
def kernelEntry (s : State) (t : TId) : W64 := (s.launch (launchOf s t)).kernel.entry

/-! ## try (R313) -/

/-- The registers that a mask names, ascending. -/
def maskRegs (m : W64) : List Reg := (List.finRange 64).filter fun r => m.getLsbD r.val

/-- The count and the prune word of `try`. -/
def tryCount (c : W64) : Nat := c.toNat % 2 ^ 24
def tryPrune (c : W64) : Nat := c.toNat / 2 ^ 24

def tryLane (d c m : Reg) (t : TId) (s : State) : Except Stop State :=
  let x := s.thread t
  let cw := readS s t c
  let mask := readS s t m
  let n := tryCount cw
  if frameBytes s t = 0 then .error (.trap cFRAME 0)
  else if 16 < popcount mask then .error (.trap cFRAME 0)
  else if n = 0 then .ok (seqPc (writeV s t d 0xFFFFFFFF) t)
  else if n = 1 then .ok (seqPc (writeV s t d 0) t)
  else if x.stk.length = 128 then .error (.trap cFRAME 0)
  else
    let rpc := (x.pc + 4 - kernelEntry s t).toNat / 4
    let cp : Choice :=
      { saved := (maskRegs mask).map fun r => readV s t r, savedBad := (maskRegs mask).filter (vBad s t), mask := mask, rpc := rpc, dreg := d
        tmark := x.trl.length, stolen := false, owner := x.tti, nxt := 1, fin := n, pw := tryPrune cw, madeAt := s.tick }
    let s := s.modThread t fun th => { th with stk := cp :: th.stk }
    .ok (seqPc (writeV s t d 0) t)

def execTry (d c m : Reg) (s : State) : Result := laneExec (.try_ d c m) (searchStep (tryLane d c m)) s

/-! ## fail (R314) -/

/-- Whether a choice point's prune word reads non-zero, read with acquire at `.team` (R146), and the
state after the read. -/
def readPrune (s : State) (t : TId) (cp : Choice) : Except Stop (State × Bool) :=
  if cp.pw = 0 then .ok (s, false)
  else do
    let (pa, ty) ← xlat s t (cp.pw * 8) .load
    let i := issuerOf s (groupOf s t)
    loadReady s t i pa (cp.pw * 8) ty .load
    let (s, x, p) := memRead s t pa 8 ty (some .team)
    if p then .error (.fault (accessFault kPOISON .load (cp.pw * 8) 0 (ipaOf s i (cp.pw * 8)) pa)) else .ok (s, x != 0)

/-- The newest choice point that still has an alternative and an unset prune word, with the ones below
it; and whether a prune word was read. -/
def failScan (t : TId) : List Choice → State → Bool → Except Stop (State × Option (Choice × List Choice) × Bool)
  | [], s, r => .ok (s, none, r)
  | cp :: rest, s, r => do
    let (s, pruned) ← readPrune s t cp
    let r := r || cp.pw != 0
    if cp.nxt < cp.fin && !pruned then .ok (s, some (cp, rest), r) else failScan t rest s r

/-- The places of trail entries, each translated before any is restored (R314). -/
def trailPlaces (s : State) (t : TId) : List Trail → Except Stop (List (Trail × Nat × MemTy))
  | [] => .ok []
  | e :: es => do
    let (pa, ty) ← xlat s t e.addr .store
    let rest ← trailPlaces s t es
    .ok ((e, pa, ty) :: rest)

/-- The value that the trail entry at a place of its trail restores: free where the program stored into it (R309)
(DESIGN CHOICE, log 48). -/
def trailValue (s : State) (t : TId) (i : Nat) (e : Trail) : Nat :=
  if e.spoiled then (Config.freeWord64 s.tick (drawPlace t (2048 + i))).toNat else e.old.toNat

/-- Unwind: entries restored newest first, as stores at `.rlx` and `.grp` (R144, R312). -/
def unwind (t : TId) : List (Trail × Nat × MemTy) → State → State
  | [], s => s
  | (e, pa, ty) :: es, s =>
    let n := 2 ^ e.szl
    unwind t es (memWrite s t pa (toBytes n (trailValue s t es.length e)) ty false .grp e.psn none)

/-- The restores of a `fail`: after every earlier access of the thread and before every later one (R144). -/
def restoreFrame (s : State) (t : TId) (ps : List (Trail × Nat × MemTy)) : State :=
  if ps.isEmpty then s else publishAll (unwind t ps (satisfyAll s t)) t

/-- RestoreSaved (R312), with the poison the saved registers held (R208). -/
def restoreSaved (s : State) (t : TId) (cp : Choice) : State :=
  ((maskRegs cp.mask).zip cp.saved).foldl (fun s p =>
    landLane s t p.1 false
      ((if cp.spoiled then Config.freeWord s.tick (drawPlace t (1024 + p.1.val)) else p.2).setWidth 64)
      (!cp.spoiled && cp.savedBad.contains p.1)) s

/-- The trail down to a mark: what stays, and what is unwound, newest first. -/
def trailAbove (trl : List Trail) (m : Nat) : List Trail := trl.take (trl.length - m)

/-- A resume address: a word of the kernel, any one of them where the entry was changed (R309). -/
def resumePc (s : State) (t : TId) (cp : Choice) : W64 :=
  let l := s.launch (launchOf s t)
  let w := if cp.spoiled then Config.freeNat s.tick (drawPlace t 3001) % max 1 l.kernel.nwords else cp.rpc
  l.kernel.entry + BitVec.ofNat 64 (w * 4)

/-- An alternative of a choice point: free where the entry was changed (R309). -/
def altOf (s : State) (t : TId) (cp : Choice) (n : Nat) : W32 :=
  if cp.spoiled then Config.freeWord s.tick (drawPlace t 3002) else BitVec.ofNat 32 n

def failLane (pd : Reg8) (t : TId) (s : State) : Except Stop State := do
  let (s, found, read) ← failScan t (s.thread t).stk s false
  let trl := (s.thread t).trl
  match found with
  | none =>
    let ps ← trailPlaces s t trl
    let s := (restoreFrame s t ps).modThread t fun th => { th with stk := [], trl := [] }
    let s ← refreshIf read (writeP s t pd false) t
    .ok (seqPc s t)
  | some (cp, rest) =>
    let ps ← trailPlaces s t (trailAbove trl cp.tmark)
    let s := restoreSaved (restoreFrame s t ps) t cp
    let s := writeV s t cp.dreg (altOf s t cp cp.nxt)
    let stk := if cp.nxt + 1 = cp.fin then rest else { cp with nxt := cp.nxt + 1 } :: rest
    let trl := if stk.isEmpty then [] else trl.drop (trl.length - cp.tmark)
    let s := s.modThread t fun th => { th with stk := stk, trl := trl }
    let s ← refreshIf read (writeP s t pd true) t
    .ok (jumpPc s t (resumePc s t cp))

def execFail (pd : Reg8) (s : State) : Result := laneExec (.fail pd) (searchStep (failLane pd)) s

/-! ## cut, cpd and prune (R315 to R317) -/

/-- `cut`: the choice points above a depth are dropped; the trail is not unwound. -/
def cutLane (a : Reg) (t : TId) (s : State) : Except Stop State :=
  let k := (readV s t a).toNat
  let cut (th : Thread) : Thread :=
    if k < th.stk.length then
      { th with stk := th.stk.drop (th.stk.length - k), trl := if k = 0 then [] else th.trl }
    else th
  .ok (seqPc (s.modThread t cut) t)

def execCut (a : Reg) (s : State) : Result := laneExec (.cut a) (searchStep (cutLane a)) s

def execCpd (d : Reg) (s : State) : Result :=
  laneExec (.cpd d) (searchStep (setLane d fun s t => BitVec.ofNat 32 (s.thread t).stk.length)) s

/-- `prune`: the value 1 stored, released at `.team`. -/
def pruneLane (base : Base) (imm : BitVec 16) (t : TId) (s : State) : Except Stop State :=
  storeLane .b64 (effAddr (readBase s t base) 0 (imm.toInt * 8)) 1 true .team .normal t s

def execPrune (base : Base) (imm : BitVec 16) (s : State) : Result :=
  laneExec (.prune base imm) (searchStep (pruneLane base imm)) s

/-! ## steal (R318, R319) -/

/-- The bottom choice point of a thread. -/
def bottomChoice (x : Thread) : Option Choice := x.stk.getLast?

/-- A thread that a steal looks at: in its place, or in a save area of its context, which has returned while the
bank has not. -/
structure Victim where
  t : TId
  save : Option Nat
  x : Thread
  deriving DecidableEq, Repr

/-- The live threads of a team whose contexts are active, wherever they stand (R318). -/
def teamVictims (s : State) (l team : Nat) : List Victim :=
  let inBank (c : Nat) (k : SpilledBank) : List Victim :=
    (k.threads.filter fun p => p.2.live && (k.owner p.1).2.launch == l && (k.owner p.1).2.team == team).map
      fun p => ⟨p.1, some c, p.2⟩
  ((teamThreads s l team).filter fun u => isActive s (groupOf s u)).map (fun u => (⟨u, none, s.thread u⟩ : Victim))
    ++ (s.ctxs.filter fun c => c.2.displaced.isNone).flatMap fun c => c.2.spilled.flatMap fun k => inBank c.1 k.2

/-- A victim as happens-before names it. -/
def Victim.actor (s : State) (t : TId) (u : Victim) : Actor := .thread (launchOf s t) (s.group (groupOf s t)).team u.x.tti
/-- Whether a steal of a thread sees a choice point: for certain where it happens before the steal (R433)
(DEDUCED, log 79). -/
def seesChoice (s : State) (t : TId) (u : Victim) (c : Choice) : Bool :=
  (beforeOf s (actorOf s t)).holds (u.actor s t) c.madeAt || Config.freeBit s.tick (drawPlace u.t 3003)
/-- The alternatives a victim has left to share, if any: two or more at its bottom choice point. -/
def sharable (s : State) (t : TId) (u : Victim) : Option (Victim × Choice) :=
  if u.save.isNone && u.t == t then none
  else
    match bottomChoice u.x with
    | some c => if c.nxt + 2 ≤ c.fin && seesChoice s t u c then some (u, c) else none
    | none => none

/-- Whether one candidate goes before another: more alternatives left, then the lower team thread
index. -/
def betterVictim (a b : Victim × Choice) : Bool :=
  let ra := a.2.fin - a.2.nxt
  let rb := b.2.fin - b.2.nxt
  decide (rb < ra) || (ra == rb && decide (a.1.x.tti < b.1.x.tti))

/-- The eligible victims with unset prune words, the best kept (R318). -/
def stealScan (t : TId) : List (Victim × Choice) → State → Option (Victim × Choice) →
    Except Stop (State × Option (Victim × Choice))
  | [], s, best => .ok (s, best)
  | c :: cs, s, best => do
    let (s, pruned) ← readPrune s t c.2
    let best := if pruned then best
      else match best with
        | none => some c
        | some b => if betterVictim c b then some c else some b
    stealScan t cs s best

/-- The places of a frame's bytes in a thread's address space. -/
def framePlaces (s : State) (t : TId) (base : Nat) (k : Access) : Nat → Except Stop (List Nat)
  | 0 => .ok []
  | n + 1 => do
    let rest ← framePlaces s t base k n
    let (pa, _) ← xlat s t (base + n) k
    .ok (rest ++ [pa])

/-- A byte of a frame's copy with its poison. -/
abbrev FrameByte := Byte × Bool

/-- A byte of a list at the place an address has from a base, replaced. -/
def patchByte (bs : List FrameByte) (base a : Nat) (b : FrameByte) : List FrameByte :=
  if base ≤ a then bs.set (a - base) b else bs

/-- The copy of a frame with trail entries undone on it, newest first, as the thief's own `fail` would restore them
(R208, R319). -/
def undoOnCopy (s : State) (t : TId) (bs : List FrameByte) (base : Nat) : List Trail → List FrameByte
  | [] => bs
  | e :: es =>
    let n := 2 ^ e.szl
    let x := trailValue s t es.length e
    let bs := (List.range n).foldl (fun bs i => patchByte bs base (e.addr + i) (byteOf x i, e.psn)) bs
    undoOnCopy s t bs base es

/-- The victim's stack after the split: its bottom choice point ends at `mid`. -/
def splitBottom (stk : List Choice) (mid : Nat) : List Choice :=
  match stk.reverse with
  | [] => []
  | c :: cs => ({ c with fin := mid } :: cs).reverse

/-- The victim keeps its share. -/
def splitVictim (s : State) (u : Victim) (mid : Nat) : State :=
  let split (x : Thread) : Thread := { x with stk := splitBottom x.stk mid }
  match u.save with
  | none => s.modThread u.t split
  | some c => s.modCtx c fun x =>
      { x with spilled := x.spilled.map fun k =>
          (k.1, { k.2 with threads := k.2.threads.map fun p => if p.1 = u.t then (p.1, split p.2) else p }) }

/-- The choice point that a thief keeps of its share, if it has more than one alternative. -/
def thiefStack (x : Thread) (c : Choice) (mid now : Nat) : List Choice :=
  if mid + 1 < c.fin then
    [{ c with nxt := mid + 1, fin := c.fin, tmark := 0, owner := x.tti, stolen := true, madeAt := now }]
  else []

/-- A steal is an acquire at `.team` of everything its victim did before: the victim's stores are published with those
that its cluster holds back, and the thief's own accesses of its frame are over (R147). A spilled victim's stores were
published when its bank left. -/
def stealAcquire (s : State) (t : TId) (u : Victim) : State :=
  let s := publishAll (satisfyAll s t) t
  let s := acquire s t (knownTo s (u.actor s t))
  match u.save with
  | none => publishHeld (publishAll s u.t) u.t.core
  | some _ => publishHeld s t.core

/-- The bytes of a frame's copy written at their places, poison marks with them. -/
def putFrame (s : State) (t : TId) (ps : List (Nat × FrameByte)) : State :=
  let s := ps.foldl (fun s p => homeWrite s (partOfCore s t.core) p.1 [p.2.1] .wb false none) s
  ps.foldl (fun s p => if p.2.2 then setMemPoison s p.1 1 true else s) s

/-- A steal reads the victim's frame and splits its choice point in the step that issues it; only its landing is
an event of its own (DEDUCED, log 79). -/
def stealLane (pd : Reg8) (t : TId) (s : State) : Except Stop State := do
  let x := s.thread t
  let fb := frameBytes s t
  if fb = 0 then .error (.trap cFRAME 0)
  else if x.stk ≠ [] then .ok (seqPc (writeP s t pd false) t)
  else
    let g := s.group (groupOf s t)
    let (s, best) ← stealScan t ((teamVictims s g.launch g.team).filterMap (sharable s t)) s none
    match best with
    | none => .ok (seqPc (writeP s t pd false) t)
    | some (u, c) =>
      let y := u.x
      let mid := c.nxt + (c.fin - c.nxt) / 2
      let src ← framePlaces s t y.framebase.toNat .load fb
      let dst ← framePlaces s t x.framebase.toNat .store fb
      let s := src.foldl (fun s pa => snoopReads s pa 1) (stealAcquire s t u)
      let bs := src.map fun pa => (readCell s.mem pa, memPoisoned s pa 1)
      let bs := undoOnCopy s t bs y.framebase.toNat (trailAbove y.trl c.tmark)
      let s := restoreSaved (splitVictim (putFrame s t (dst.zip bs)) u mid) t c
      let s := s.modThread t fun th => { th with trl := [], stk := thiefStack th c mid s.tick }
      let s := writeP (writeV s t c.dreg (altOf s t c mid)) t pd true
      let s := countCore s t.core 12 1
      .ok (enterWait (jumpPc s t (resumePc s t c)) t .stealLanding)

def execSteal (pd : Reg8) (s : State) : Result := laneExec (.steal pd) (searchStep (stealLane pd)) s

end Sys2Proof.Machine
end

