-- ==== Sys2Proof/Machine/GroupScalar.lean ====
section
/-! DEFINITION. Scalar words of the G-set (R324 to R327): arithmetic on s and q registers, uniform loads
and stores, and uniform control. Each executes once for its portion. -/

namespace Sys2Proof.Machine

/-! ## Scalar arithmetic (R324) -/

/-- A scalar operation of a type's width: a 32-bit result is zero-extended. -/
def scalarBin (ty : ITy) (f : (w : Nat) → BitVec w → BitVec w → BitVec w) (x y : W64) : W64 :=
  if ty.wide then f 64 x y else (f 32 x.low y.low).setWidth 64
/-- A scalar shift: the count is the full 64-bit operand. -/
def scalarShift (ty : ITy) (f : (w : Nat) → BitVec w → Nat → BitVec w) (x y : W64) : W64 :=
  if ty.wide then f 64 x y.toNat else (f 32 x.low y.toNat).setWidth 64

/-- A uniform register written with a function of the state, and the portion at its next word. -/
def setUniform (d : Reg) (f : State → TId → W64) (g : GId) (t : TId) (ts : List TId) (s : State) :
    Except Stop State :=
  .ok (seqAll (writeS s g d (f s t)) ts)

/-- A two-register form. -/
def uniBin (d a b : Reg) (f : W64 → W64 → W64) : GId → TId → List TId → State → Except Stop State :=
  setUniform d fun s t => f (readS s t a) (readS s t b)
/-- A form with an 8-bit literal, 0 to 255. -/
def uniLit (d a : Reg) (imm : Byte) (f : W64 → W64 → W64) : GId → TId → List TId → State → Except Stop State :=
  setUniform d fun s t => f (readS s t a) (imm.setWidth 64)

def execGAdd (d a b : Reg) (ty : ITy) (s : State) : Result :=
  groupExec (.gAdd d a b ty) (uniBin d a b (scalarBin ty fun _ x y => x + y)) s
def execGSub (d a b : Reg) (ty : ITy) (s : State) : Result :=
  groupExec (.gSub d a b ty) (uniBin d a b (scalarBin ty fun _ x y => x - y)) s
def execGMul (d a b : Reg) (ty : ITy) (s : State) : Result :=
  groupExec (.gMul d a b ty) (uniBin d a b (scalarBin ty fun _ x y => x * y)) s
def execGMin (d a b : Reg) (ty : ITy) (s : State) : Result :=
  groupExec (.gMin d a b ty) (uniBin d a b (scalarBin ty fun _ x y => minOf ty.signed x y)) s
def execGMax (d a b : Reg) (ty : ITy) (s : State) : Result :=
  groupExec (.gMax d a b ty) (uniBin d a b (scalarBin ty fun _ x y => maxOf ty.signed x y)) s
def execGShl (d a b : Reg) (ty : ITy) (s : State) : Result :=
  groupExec (.gShl d a b ty) (uniBin d a b (scalarShift ty shiftLeft)) s
def execGShr (d a b : Reg) (ty : ITy) (s : State) : Result :=
  groupExec (.gShr d a b ty) (uniBin d a b (scalarShift ty shiftRight)) s
def execGSar (d a b : Reg) (ty : ITy) (s : State) : Result :=
  groupExec (.gSar d a b ty) (uniBin d a b (scalarShift ty shiftArith)) s

def execGAddI (d a : Reg) (imm : Byte) (ty : ITy) (s : State) : Result :=
  groupExec (.gAddI d a imm ty) (uniLit d a imm (scalarBin ty fun _ x y => x + y)) s
def execGSubI (d a : Reg) (imm : Byte) (ty : ITy) (s : State) : Result :=
  groupExec (.gSubI d a imm ty) (uniLit d a imm (scalarBin ty fun _ x y => x - y)) s
def execGMulI (d a : Reg) (imm : Byte) (ty : ITy) (s : State) : Result :=
  groupExec (.gMulI d a imm ty) (uniLit d a imm (scalarBin ty fun _ x y => x * y)) s
def execGMinI (d a : Reg) (imm : Byte) (ty : ITy) (s : State) : Result :=
  groupExec (.gMinI d a imm ty) (uniLit d a imm (scalarBin ty fun _ x y => minOf ty.signed x y)) s
def execGMaxI (d a : Reg) (imm : Byte) (ty : ITy) (s : State) : Result :=
  groupExec (.gMaxI d a imm ty) (uniLit d a imm (scalarBin ty fun _ x y => maxOf ty.signed x y)) s
def execGShlI (d a : Reg) (imm : Byte) (ty : ITy) (s : State) : Result :=
  groupExec (.gShlI d a imm ty) (uniLit d a imm (scalarShift ty shiftLeft)) s
def execGShrI (d a : Reg) (imm : Byte) (ty : ITy) (s : State) : Result :=
  groupExec (.gShrI d a imm ty) (uniLit d a imm (scalarShift ty shiftRight)) s
def execGSarI (d a : Reg) (imm : Byte) (ty : ITy) (s : State) : Result :=
  groupExec (.gSarI d a imm ty) (uniLit d a imm (scalarShift ty shiftArith)) s

def execGaddi (d a : Reg) (imm : BitVec 14) (s : State) : Result :=
  groupExec (.gaddi d a imm) (setUniform d fun s t => readS s t a + imm.signExtend 64) s

/-- A count of bits of a type's width. -/
def scalarCount (ty : ITy) (f : (w : Nat) → BitVec w → Nat) (x : W64) : W64 :=
  BitVec.ofNat 64 (if ty.wide then f 64 x else f 32 x.low)

def execGPopc (d a : Reg) (ty : ITy) (s : State) : Result :=
  groupExec (.gPopc d a ty) (setUniform d fun s t => scalarCount ty (fun _ x => popcount x) (readS s t a)) s
def execGClz (d a : Reg) (ty : ITy) (s : State) : Result :=
  groupExec (.gClz d a ty) (setUniform d fun s t => scalarCount ty (fun _ x => leadingZeros x) (readS s t a)) s
def execGTri (d a b : Reg) (tt : Byte) (s : State) : Result :=
  groupExec (.gTri d a b tt) (setUniform d fun s t => triOf tt (readS s t a) (readS s t b) (readS s t d)) s

/-- A condition on two uniform registers. -/
def scalarCond (cond : Cond) (ty : ITy) (x y : W64) : Bool :=
  if ty.wide then condInt cond ty.signed x y else condInt cond ty.signed x.low y.low

def execGCmp (qd : Reg8) (a b : Reg) (cond : Cond) (ty : ITy) (s : State) : Result :=
  groupExec (.gCmp qd a b cond ty) (fun g t ts s =>
    .ok (seqAll (writeQ s g qd (scalarCond cond ty (readS s t a) (readS s t b))) ts)) s
def execGSel (d a b : Reg) (q : Reg8) (s : State) : Result :=
  groupExec (.gSel d a b q)
    (setUniform d fun s t => if readQ s (groupOf s t) q then readS s t a else readS s t b) s
def execGMovi (d : Reg) (imm : BitVec 19) (s : State) : Result :=
  groupExec (.gMovi d imm) (setUniform d fun _ _ => imm.signExtend 64) s
def execGMvh (d : Reg) (imm : BitVec 16) (s : State) : Result :=
  groupExec (.gMvh d imm) (setUniform d fun s t => imm ++ (readS s t d).setWidth 48) s

/-! ## Uniform loads and stores (R325) -/

/-- An outstanding result of a portion: the access thread holds it, the others hold its place. -/
def addJoint (s : State) (t : TId) (ts : List TId) (d : OutDest) (la : La) (v : OutVal) (acq : Bool)
    (va : Nat := 0) : State :=
  let (id, s) := s.takeFresh
  ts.foldl (fun s u => addOut s u id d la (if u = t then v else .joint) acq va) s

/-- A refresh in every thread of a portion. -/
def refreshAll (acq : Bool) : List TId → State → Except Stop State
  | [], s => .ok s
  | t :: ts, s => do
    let s ← refreshIf acq s t
    refreshAll acq ts s

/-- A uniform register written with a result and its poison. -/
def landUniform (s : State) (g : GId) (d : Reg) (x : W64) (poison : Bool) : State :=
  let s := writeS s g d x
  if poison then s.modGroup g fun y => { y with sPoison := y.sPoison ||| BitVec.ofNat 64 (2 ^ d.val) } else s

/-- Before an access of a portion at its access thread: an acquire or release orders the accesses of
every arriving thread, so an acquire is satisfied and a release made for each (R325): what the buffers of the threads
hold is published, or visible within the scope, before the access. -/
def releaseAll (s : State) (ts : List TId) (rel : Bool) (sc : Sc) : State :=
  if rel then ts.foldl (fun s t => releaseBefore s t sc true) s else s

/-- A uniform load: one access of the lowest arriving thread (DEDUCED, log 15). -/
def gldPortion (d base : Reg) (sz : Sz) (acq : Bool) (sc : Sc) (imm : BitVec 5) (la : La) (g : GId) (t : TId)
    (ts : List TId) (s : State) : Except Stop State := do
  let n := sz.bytes
  let addr := effAddr (readS s t base) 0 (imm.toInt * n)
  if misaligned addr n then .error (.trap cALIGN 0)
  else
    let (pa, ty) ← reach s t addr .load n
    loadReady s t (issuerOf s (groupOf s t)) pa addr.toNat ty .load
    let s := hintLine s t.core pa ty .normal
    let order := if acq then some sc else none
    if landsLate s && ty != .uc && !acq && (stackOwner s t addr.toNat).isNone then
      .ok (seqAll (addJoint (popPlan (loadAfter s t pa n)) t ts (.uni [d]) la (.load pa n ty order) false addr.toNat) ts)
    else
      let (s, x, p) := memRead s t pa n ty order
      let s := ts.foldl (fun s u => if acq then acquireLoad (noteLoad s u (loadedBy s t)) u else noteLoad s u (loadedBy s t)) s
      let x := stackValue s t addr.toNat x
      if landsLate s then .ok (seqAll (addJoint (popPlan s) t ts (.uni [d]) la (.known x p) acq) ts)
      else
        let s ← refreshAll acq ts (landUniform (popPlan s) g d x p)
        .ok (seqAll s ts)

def execGld (d base : Reg) (sz : Sz) (acq : Bool) (sc : Sc) (imm : BitVec 5) (la : La) (s : State) : Result :=
  groupExec (.gld d base sz acq sc imm la) (gldPortion d base sz acq sc imm la) s

/-- A uniform store of the low bytes of a value. -/
def storePortion (n : Nat) (addr x : W64) (rel : Bool) (sc : Sc) (t : TId) (ts : List TId) (s : State) :
    Except Stop State := do
  if misaligned addr n then .error (.trap cALIGN 0)
  else
    let (pa, ty) ← reach s t addr .store
    match deviceStop s (issuerOf s (groupOf s t)) pa addr.toNat .store with
    | some f => .error (.fault f)
    | none =>
      let s := releaseAll (popPlan s) ts rel sc
      let s := if rel then noteFence s t (knownToAll s ts) else s
      let s := memWrite s t pa (toBytes n x.toNat) ty rel sc false none
      .ok (seqAll (hintLine (spoilStack s t addr.toNat n) t.core pa ty .normal) ts)

def execGst (data base : Reg) (sz : Sz) (rel : Bool) (sc : Sc) (imm : BitVec 9) (s : State) : Result :=
  groupExec (.gst data base sz rel sc imm) (fun _ t ts s =>
    storePortion sz.bytes (effAddr (readS s t base) 0 (imm.toInt * sz.bytes)) (readS s t data) rel sc t ts s) s

/-! ## Uniform control (R326, R327) -/

/-- Every thread of a portion at a target. -/
def jumpAll (s : State) (ts : List TId) (pc : W64) : State := ts.foldl (fun s t => jumpPc s t pc) s

def execBru (q : Reg8) (off : BitVec 22) (s : State) : Result :=
  groupExec (.bru q off) (fun g t ts s =>
    .ok (if readQ s g q then jumpAll s ts (branchTarget s t off.toInt) else seqAll s ts)) s

def execLoop (c : Reg) (off : BitVec 19) (s : State) : Result :=
  groupExec (.loop c off) (fun g t ts s =>
    let n := readS s t c - 1
    let s' := writeS s g c n
    .ok (if n != 0 then jumpAll s' ts (branchTarget s t off.toInt) else seqAll s' ts)) s

end Sys2Proof.Machine
end

