-- ==== Sys2Proof/Machine/Barrier.lean ====
section
/-! DEFINITION. Barriers (R142, R367 to R370): the record at its home, its indivisible updates, tokens,
and the waits they end. -/

namespace Sys2Proof.Machine

/-! ## The record (R367) -/

/-- The fields of a barrier; `flags` keeps the reserved bits of FLAGS. -/
structure BarRec where
  pend : Nat
  left : Nat
  init : Nat
  phase : Bool
  err : Bool
  flags : Nat
  deriving DecidableEq, Repr

/-- The record as nine bytes of fields say it. -/
def barOf (bs : List Byte) : BarRec :=
  let f := ofBytes ((bs.drop 8).take 1)
  { pend := ofBytes (bs.take 4), left := ofBytes ((bs.drop 4).take 2), init := ofBytes ((bs.drop 6).take 2)
    phase := f % 2 == 1, err := f / 2 % 2 == 1, flags := f / 4 * 4 }
/-- Whether a store by other means has left a barrier's fields undefined: its bytes are not those that the latest
update of an initialised barrier left (R367) (DEDUCED, log 94). -/
def barOpen (s : State) (pa : Nat) : Bool :=
  match Tbl.find s.bars pa with
  | some bs => bs != readBytes s.mem pa 9
  | none => false
/-- The record at a physical address: undefined fields are free values. -/
def readBar (s : State) (pa : Nat) : BarRec :=
  barOf (if barOpen s pa then (List.range 9).map fun i => Config.freeByte s.tick (pa + i) else readBytes s.mem pa 9)

/-- Where a barrier stands: its physical address, its type (WB or scratchpad) and the partition whose
bindings it marks. -/
structure BarPlace where
  pa : Nat
  ty : MemTy
  part : Option Nat
  deriving DecidableEq, Repr

/-- One 32-bit word of the record written, with the marks of its bindings. -/
def putBarWord (b : BarPlace) (r : BarRec) (s : State) (word : Nat) : State :=
  if word = 0 then homeWrite s b.part b.pa (toBytes 4 r.pend) b.ty false none
  else if word = 1 then homeWrite s b.part (b.pa + 4) (toBytes 2 r.left ++ toBytes 2 r.init) b.ty false none
  else homeWrite s b.part (b.pa + 8) (toBytes 1 (r.flags + bit r.phase 0 + bit r.err 1)) b.ty false none

/-- The completion of a phase: the update that leaves LEFT 0 and PEND 0 with ERR clear (R368). -/
def completes (r : BarRec) : Bool := r.left == 0 && r.pend == 0 && !r.err
/-- PHASE flipped and LEFT set again. -/
def nextPhase (r : BarRec) : BarRec := { r with phase := !r.phase, left := r.init }

/-- The return of a wait at a barrier: an acquire, so every holder whose narrow release the record carries publishes
first (R131, R142). -/
def returnBar (s : State) (t : TId) (pa : Nat) : State := returnWait (rmwAcquire s t pa 4 true) t

/-- The end of a barrier wait: BARCNT where ERR is set, a return where the phase has completed. -/
def wakeBarThread (pa : Nat) (r : BarRec) (s : State) (t : TId) : State :=
  match (s.thread t).wait with
  | .barrier a parity =>
    if a ≠ pa then s
    else if r.err then wakeCore (trapThread s t cBARCNT 0) t.core
    else if r.phase != parity then wakeCore (returnBar s t pa) t.core
    else s
  | _ => s

/-- A thread of a save area that waits at a barrier: its wait is over as its phase completes, or it is to trap. -/
def wakeBarSpilled (pa : Nat) (r : BarRec) (x : Thread) : Thread :=
  match x.wait with
  | .barrier a parity =>
    if a ≠ pa || x.woken then x
    else if r.err then { x with wait := .trap cBARCNT 0 0, woken := true, since := 0 }
    else if r.phase != parity then { x with woken := true }
    else x
  | _ => x

/-- Every thread that waits at a barrier looks at its record, in place or in a save area. -/
def wakeBar (s : State) (pa : Nat) : State :=
  let r := readBar s pa
  let s := (s.threads.map Prod.fst).foldl (wakeBarThread pa r) s
  let away := (spilledThreads s).filter fun p => wakeBarSpilled pa r p.2 != p.2
  if away.isEmpty then s
  else (dedup (away.map fun p => p.1.core)).foldl wakeCore (mapSpilled s fun _ _ x => wakeBarSpilled pa r x)

/-- The bytes that an update leaves, kept where the fields are defined after it: `bar.init`, which writes the INIT of
its operand, defines them. -/
def keepBar (s : State) (pa : Nat) (defined : Bool) : State :=
  if defined then { s with bars := Tbl.put s.bars pa (readBytes s.mem pa 9) } else s

/-- One update of the record (R367): `f` gives the new fields, `words` the words that it writes, and `sets` says whether
it sets ERR, which also writes the word at 8; the update that completes a phase also writes the words at 4 and 8. -/
def updateBar (s : State) (b : BarPlace) (words : List Nat) (sets : BarRec → Bool) (f : BarRec → BarRec) : State :=
  let s := snoopWrite s b.pa
  let old := readBar s b.pa
  let defined := Tbl.has s.bars b.pa && !barOpen s b.pa || words.contains 2
  let r := f old
  let r := if sets old then { r with err := true } else r
  let full := if completes r then [0, 1, 2].filter fun w => words.contains w || w != 0 else words
  let full := if sets old && !full.contains 2 then full ++ [2] else full
  let r := if completes r then nextPhase r else r
  wakeBar (keepBar (full.foldl (putBarWord b r) s) b.pa defined) b.pa

/-- BarExpect: PEND rises, and ERR is set where it passes 2 ^ 32 − 1 (R370). -/
def barExpect (s : State) (b : BarPlace) (n : Nat) : State :=
  updateBar s b [0] (fun r => decide (2 ^ 32 ≤ r.pend + n)) fun r => { r with pend := (r.pend + n) % 2 ^ 32 }

/-- A landing that counts against a barrier is a waking event of the cores of the threads that wait at it (R155). -/
def wakeWaiters (s : State) (pa : Nat) : State :=
  let waits (x : Thread) : Bool :=
    match x.wait with
    | .barrier a _ => a == pa
    | _ => false
  (dedup ((s.threads.filter fun p => waits p.2).map fun p => p.1.core)).foldl wakeCore s

/-- Bytes that land in one update: PEND falls by them, and ERR is set where it falls below 0 (R370). -/
def barLand1 (s : State) (b : BarPlace) (n : Nat) : State :=
  updateBar s b [0] (fun r => decide (r.pend < n)) fun r => { r with pend := (r.pend + 2 ^ 32 - n % 2 ^ 32) % 2 ^ 32 }
/-- BarLand: each byte that lands is a landing (R367, R370). Those that bring PEND to 0 with no arrival missing complete
the phase, and the others follow it; all others are one update. -/
def barLand (s : State) (b : BarPlace) (n : Nat) : State :=
  let r := readBar s b.pa
  if r.left = 0 && !r.err && decide (0 < r.pend) && decide (r.pend < n) then
    barLand1 (barLand1 s b r.pend) b (n - r.pend)
  else barLand1 s b n

/-- An arrival: LEFT falls, and ERR is set where it is 0 (R370). -/
def barArriveAt (s : State) (b : BarPlace) : State :=
  updateBar s b [1] (fun r => r.left == 0) fun r => { r with left := r.left - 1 }

/-! ## Tokens (R369) -/

/-- A group's token of an address. -/
def tokenOf (x : Group) (pa : Nat) : Option Bool := (x.tokens.find? fun k => k.addr == pa).map Token.parity
/-- A group's tokens without an address. -/
def dropToken (x : Group) (pa : Nat) : Group := { x with tokens := x.tokens.filter fun k => k.addr != pa }
/-- A token recorded: it replaces the one of its address, or else the oldest of four. -/
def recordToken (x : Group) (pa : Nat) (parity : Bool) : Group :=
  { x with tokens := (⟨pa, parity⟩ :: x.tokens.filter fun k => k.addr != pa).take 4 }

/-- The groups of threads. -/
def groupsOf (s : State) (ts : List TId) : List GId :=
  ts.foldl (fun acc t => if acc.contains (groupOf s t) then acc else acc ++ [groupOf s t]) []

/-! ## The checks of a barrier address (R355, R363, R368) -/

/-- Why an address names no barrier, or where it stands: alignment, RMW translation, then the type. -/
def reachBar (s : State) (t : TId) (va : W64) : Except Stop BarPlace := do
  if misaligned va 16 then .error (.trap cALIGN 0)
  else
    let (pa, ty) ← reach s t va .rmw
    if ty == .wb || ty == .spad then .ok ⟨pa, ty, partOfCore s t.core⟩ else .error (.trap cUNDEF 0)

/-- The domain and scope of a form (R368). -/
def barDomain (team : Bool) : Domain := if team then .team else .group
def barScope (team : Bool) : Sc := if team then .team else .grp

/-- The barrier a word names. -/
def barAt (base : Reg) (imm : BitVec 10) (s : State) (t : TId) : Except Stop BarPlace :=
  let va := effAddr (readS s t base) 0 (imm.toInt * 8)
  match reachBar s t va with
  | .error e => .error e
  | .ok b =>
    if memPoisoned s b.pa 16 then
      .error (.fault (accessFault kPOISON .rmw va.toNat 0 (ipaOf s (issuerOf s (groupOf s t)) va.toNat) b.pa))
    else .ok b

/-! ## The operations (R368) -/

/-- Before a relaxed update of a record by threads: what their release fences put before it is published, and their
narrow ones are released with it (R123, R127, R131). -/
def beforeBar (s : State) (b : BarPlace) (ts : List TId) : State :=
  ts.foldl (fun s t => carryStore (noteRelease (fencedBefore s t) t b.pa false .grp) t false true (wordsOf b.pa 4)) s

/-- `bar.init`: relaxed. -/
def barInitColl (base x : Reg) (imm : BitVec 10) (_ : GId) (t : TId) (ts : List TId) (s : State) :
    Except Stop State := do
  let b ← barAt base imm s t
  let n := (readS s t x).toNat
  if n = 0 || 65535 < n then .error (.trap cUNDEF 0)
  else
    let s := (groupsOf s ts).foldl (fun s g => s.modGroup g fun y => dropToken y b.pa) (beforeBar (popPlan s) b ts)
    .ok (seqAll (updateBar s b [0, 1, 2] (fun _ => false) fun _ => ⟨0, n, n, false, false, 0⟩) ts)

/-- `bar.expect`: relaxed. -/
def barExpectColl (base x : Reg) (imm : BitVec 10) (_ : GId) (t : TId) (ts : List TId) (s : State) :
    Except Stop State := do
  let b ← barAt base imm s t
  .ok (seqAll (barExpect (beforeBar (popPlan s) b ts) b (readS s t x).toNat) ts)

/-- The arrive part: a release of every arriving thread, the arrival and its token. -/
def arriveBar (team : Bool) (b : BarPlace) (ts : List TId) (s : State) : State :=
  let s := releaseAll s ts true (barScope team)
  let s := ((groupsOf s ts).filterMap fun g => ts.find? fun t => groupOf s t == g).foldl
    (fun s t => recordNarrow s t b.pa (barScope team)) s
  let s := ts.foldl (fun s t => carryStore s t true true (wordsOf b.pa 4)) s
  let parity := (readBar s b.pa).phase
  let s := (groupsOf s ts).foldl (fun s g => s.modGroup g fun y => recordToken y b.pa parity) s
  barArriveAt s b

/-- `bar.arrive`. -/
def barArriveColl (team : Bool) (base : Reg) (imm : BitVec 10) (_ : GId) (t : TId) (ts : List TId) (s : State) :
    Except Stop State := do
  let b ← barAt base imm s t
  .ok (seqAll (arriveBar team b ts (popPlan s)) ts)

/-- The parity that a thread's wait or test looks past. -/
def parityFor (s : State) (t : TId) (b : BarPlace) : Bool :=
  (tokenOf (s.group (groupOf s t)) b.pa).getD (readBar s b.pa).phase

/-- The wait part for one thread: an acquire and refresh where the phase has completed. -/
def waitOne (b : BarPlace) (s : State) (t : TId) : State :=
  if (readBar s b.pa).phase != parityFor s t b then returnBar s t b.pa
  else enterWait s t (.barrier b.pa (parityFor s t b))

/-- `bar.wait`. -/
def barWaitColl (base : Reg) (imm : BitVec 10) (_ : GId) (t : TId) (ts : List TId) (s : State) :
    Except Stop State := do
  let b ← barAt base imm s t
  if (readBar s b.pa).err then .error (.trap cBARCNT 0)
  else .ok (ts.foldl (waitOne b) (popPlan s))

/-- `bar.test` for one thread: an acquire and refresh where it answers true. -/
def testOne (b : BarPlace) (s : State) (t : TId) : State :=
  if (readBar s b.pa).phase != parityFor s t b then returnBar s t b.pa else seqPc s t

/-- `bar.test`. -/
def barTestColl (base : Reg) (q : Reg8) (imm : BitVec 10) (_ : GId) (t : TId) (ts : List TId) (s : State) :
    Except Stop State := do
  let b ← barAt base imm s t
  let r := readBar s b.pa
  if r.err then .error (.trap cBARCNT 0)
  else
    let s := (groupsOf s ts).foldl (fun s g =>
      writeQ s g q ((tokenOf (s.group g) b.pa).getD r.phase != r.phase)) (popPlan s)
    .ok (ts.foldl (testOne b) s)

/-- `bar.sync`: the arrive part, then the wait part; an arrival that sets ERR stands, and traps at the
wait part (R194, R370). -/
def barSyncColl (team : Bool) (base : Reg) (imm : BitVec 10) (_ : GId) (t : TId) (ts : List TId) (s : State) :
    Except Stop State := do
  let b ← barAt base imm s t
  if (readBar s b.pa).err then .error (.trap cBARCNT 0)
  else
    let s := arriveBar team b ts (popPlan s)
    .ok (if (readBar s b.pa).err then ts.foldl (fun s u => trapThread s u cBARCNT 0) s
      else ts.foldl (waitOne b) s)

def execBarInit (team : Bool) (base x : Reg) (imm : BitVec 10) (s : State) : Result :=
  collExec (.barInit team base x imm) (barDomain team) anyGroup (barInitColl base x imm) s
def execBarArrive (team : Bool) (base : Reg) (imm : BitVec 10) (s : State) : Result :=
  collExec (.barArrive team base imm) (barDomain team) anyGroup (barArriveColl team base imm) s
def execBarExpect (team : Bool) (base x : Reg) (imm : BitVec 10) (s : State) : Result :=
  collExec (.barExpect team base x imm) (barDomain team) anyGroup (barExpectColl base x imm) s
def execBarWait (team : Bool) (base : Reg) (imm : BitVec 10) (s : State) : Result :=
  collExec (.barWait team base imm) (barDomain team) anyGroup (barWaitColl base imm) s
def execBarTest (team : Bool) (base : Reg) (q : Reg8) (imm : BitVec 10) (s : State) : Result :=
  collExec (.barTest team base q imm) (barDomain team) anyGroup (barTestColl base q imm) s
def execBarSync (team : Bool) (base : Reg) (imm : BitVec 10) (s : State) : Result :=
  collExec (.barSync team base imm) (barDomain team) anyGroup (barSyncColl team base imm) s

end Sys2Proof.Machine
end

