-- ==== Sys2Proof/Machine/Engine.lean ====
section
/-! DEFINITION. Accesses of the engines: each byte translated before any is changed (R205), read from and
written to its home. -/

namespace Sys2Proof.Machine

/-- Why an engine's access does not happen: a system fault, or a cluster that holds the request (R418). -/
inductive EngineStop where
  | fault (f : SysFault)
  | remote (cluster : Nat) (f : SysFault)
  deriving DecidableEq, Repr

/-- A virtual address some bytes further, modulo 2 ^ 64. -/
def vaAdd (va k : Nat) : Nat := (va + k) % 2 ^ 64

/-- One byte of an engine's access translated. -/
def reachByte (s : State) (i : Issuer) (k : Access) (va : Nat) : Except EngineStop (Nat × MemTy) :=
  match translate s i va k with
  | .error f => .error (.fault f)
  | .ok (pa, ty) =>
    match deviceStop s i pa va k with
    | some f => .error (.fault f)
    | none =>
      if peerDown s i.part pa then .error (.fault (peerFault s i va pa k))
      else if peerRefuses s i.part pa then .error (.fault (accessFault kPARTVIOL k va 0 (ipaOf s i va) pa))
      else
        match lostStop s i va pa k, gatedTarget s i.core pa with
        | some f, _ => .error (.fault f)
        | none, some n => .error (.remote n (accessFault 0 k va 0 (ipaOf s i va) pa))
        | none, none => .ok (pa, ty)

/-- `n` bytes from an address translated, in ascending order. -/
def reachBytes (s : State) (i : Issuer) (k : Access) (va : Nat) : Nat → Except EngineStop (List (Nat × MemTy))
  | 0 => .ok []
  | n + 1 => do
    let b ← reachByte s i k (va % 2 ^ 64)
    let rest ← reachBytes s i k (va + 1) n
    .ok (b :: rest)

/-- A byte as an engine reads it, with its poison. -/
def engineByte (s : State) (p : Nat × MemTy) : Byte × Bool :=
  (placeByte s p.1, memPoisoned s p.1 1)

/-- The number in bytes that an engine reads. -/
def engineValue (s : State) (ps : List (Nat × MemTy)) : Nat := ofBytes (ps.map fun p => (engineByte s p).1)

/-- What a device read does outside: the host's copy of a line comes back first, and a host-backed line is
held. -/
def engineSnoop (s : State) (ps : List (Nat × MemTy)) : State :=
  let s := (dedup (ps.map fun p => p.1 / 128)).foldl (fun s l => snoopRead s (l * 128)) s
  let s := (dedup (ps.filter (fun p => p.2 == .uc) |>.map fun p => p.1 / 2048)).foldl (fun s b => touchRead s (b * 2048)) s
  let hb := ps.filter fun p => p.2 == .hb
  (dedup (hb.map fun p => p.1 / 128)).foldl (fun s l => hbRead s (l * 128)) s

/-- A byte written by an engine. -/
structure EByte where
  pa : Nat
  ty : MemTy
  val : Byte
  poison : Bool := false
  deriving DecidableEq, Repr

/-- One byte at its home. -/
def putEByte (s : State) (b : EByte) : State :=
  let s := match placeOf b.pa with
    | .window core off => winWrite s core off b.val
    | .device => s
    | _ => s.setMem (writeCell s.mem b.pa b.val)
  let s := setMemPoison s b.pa 1 b.poison
  match b.ty with
  | .spad => stampByte s b.pa s.tick none
  | .hb => hbWrite s b.pa
  | _ => s

/-- Bytes written by an engine: host copies of their lines go first, each bound word is marked once (R135), and lines
written through the on-chip map are present once it lands (R36). -/
def engineWrite (s : State) (part : Option Nat) (bs : List EByte) : State :=
  let s := (dedup (bs.map fun b => b.pa / 128)).foldl (fun s l => snoopWrite s (l * 128)) s
  let s := bs.foldl putEByte s
  let bound := bs.filter fun b => b.ty == .wb || b.ty == .hb
  let s := (dedup (bound.map fun b => b.pa / 128)).foldl (fun s l => dropLine s l CacheId.isL1) s
  let s := (dedup (bound.map fun b => b.pa / 4)).foldl (fun s w => markWord s part w none) s
  (dedup ((bs.filter fun b => b.ty == .uc).map fun b => b.pa / 128)).foldl (fun s l => setPresent s (l * 128)) s

/-- The regions of an engine's accesses that a free bit says its TLBs miss (R179): the scratchpad windows translate
without one. -/
def engineMisses (s : State) (vas : List Nat) : List Nat :=
  (dedup ((vas.filter fun va => !(va / 2 ^ 48 == 0x1F0 || va / 2 ^ 48 == 0x1F1)).map fun va => va / 4096)).filter
    fun r => Config.freeBit s.tick (2 ^ 65 + r)
/-- Whether the walks that an engine's accesses need must wait: one is under way for a region of them, which they join, or
the die's walker has no room for them (R180). -/
def engineWaits (s : State) (i : Issuer) (vas : List Nat) : Bool :=
  let rs := engineMisses s vas
  rs.any (fun r => s.walks.any fun w => w.2.part == i.part && w.2.asn == i.asn && w.2.page == r)
    || (!rs.isEmpty && decide (64 ≤ walksOn s (dieOfCore i.core)))
/-- The walks that an engine's accesses make, begun and ended within the step: one for each region missed, which the TLBs
of its cluster then hold (R179, R180, R189: PMC9) (DEDUCED, log 24). -/
def engineWalks (s : State) (i : Issuer) (vas : List Nat) : State :=
  let rs := engineMisses s vas
  rs.foldl (fun s r => fillTlb (fillWalkCache s i (r * 4096)) i (r * 4096)) (countPmc s i.part 9 rs.length)

/-- Matrix work issued on a core's cluster: its partition is the last to do so (R414). -/
def noteMatrix (s : State) (core : Nat) : State :=
  s.modCluster (core / 2) fun x => { x with lastMatrix := partOfCore s core }

/-- Whether engines of a core may move: its partition is enabled and no debugger has frozen it (R202,
R217). They move between the cycles of its slots, so that their records follow those of slot 1's pack (R206). -/
def engineRuns (s : State) (core : Nat) : Bool :=
  match partOfCore s core with
  | none => false
  | some p =>
    (s.part p).state == 1 && (s.core core).slot == 0 && (s.core core).deferred.isEmpty &&
      (match (s.part p).debugger with
        | some d => !d.frozen
        | none => true)

/-- The lowest team thread index among a group's live threads, or among all its threads (R200). -/
def lowestTti (s : State) (g : GId) : Nat :=
  let ts := if (liveThreads s g).isEmpty then groupThreads s g else liveThreads s g
  match ts.map fun t => (s.thread t).tti with
  | [] => 0
  | x :: xs => xs.foldl Nat.min x

/-- The fault of engine work that reads a poisoned byte, `vas` being the addresses of the bytes (R200, R208). -/
def poisonStop (s : State) (i : Issuer) (vas : List Nat) (ps : List (Nat × MemTy)) : Option EngineStop :=
  ((vas.zip ps).find? fun p => memPoisoned s p.2.1 1).map fun p =>
    .fault (accessFault kPOISON .load p.1 0 (ipaOf s i p.1) p.2.1)

/-- The first of some addresses whose byte lies in a line: the address, the intermediate and the physical one. -/
def byteOfLine (s : State) (i : Issuer) (line : Nat) (vas : List Nat) : Option (Nat × Nat × Nat) :=
  vas.findSome? fun va =>
    match translate s i va .load with
    | .ok (pa, _) => if pa / 128 = line then some (va, ipaOf s i va, pa) else none
    | .error _ => none

/-- A record of engine work of a group (R200). -/
def engineRec (s : State) (g : GId) (req slot : Nat) (f : SysFault) (pc : W64) (step : Nat) : Rec :=
  { kind := f.kind, sev := sevOf f.kind, wher := f.wher, access := f.access, req := req
    core := coreField g.core g.bank, slot := slot, tti := lowestTti s g, va := f.va, ipa := f.ipa, pa := f.pa
    pc := pc.toNat, tag := tagOf s (s.group g).launch, step := step }

/-- A record of engine work filed in the partition of its core. -/
def engineFault (s : State) (g : GId) (r : Rec) (who : Requester) : State :=
  let s := dropLost s
  match partOfCore s g.core with
  | some p => (fileRec s p r who).1
  | none => s

/-- What a release of engine work makes visible: every earlier access of the arriving threads (R138,
R141). The landings that count against its barrier hand that on. -/
def engineRelease (s : State) (bar : Nat) (ts : List TId) : State :=
  let s := ts.foldl (fun s t => releaseBefore s t .dev true) s
  carryMore s (.work bar) (knownToAll s ts)
/-- Bytes that engine work has written, for a barrier: its landing is a release to the waits of it (R138, R141). -/
def engineLand (s : State) (part : Option Nat) (bar : Nat) (bs : List EByte) : State :=
  let s := engineWrite s part bs
  let s := (bs.filter fun b => b.ty == .spad || (spadCore b.pa).isSome).foldl (fun s b => stampByte s b.pa s.tick (some (.engine bar))) s
  (wordsOf bar 4).foldl (fun s p => carryMore s p (Clock.join (carriedBy s (.work bar)) [(.engine bar, s.tick)])) s

/-- Whether numbers strictly ascend. -/
def ascends : List Nat → Bool
  | [] => true
  | [_] => true
  | x :: y :: rest => decide (x < y) && ascends (y :: rest)

/-- The place of a barrier from its physical address. -/
def barPlace (s : State) (core pa : Nat) : BarPlace :=
  ⟨pa, match placeOf pa with
    | .window _ _ => .spad
    | _ => .wb, partOfCore s core⟩

end Sys2Proof.Machine
end

