-- ==== Sys2Proof/Machine/Copy.lean ====
section
/-! DEFINITION. Copy commands (R138, R362 to R366) and cache ranges (R143, R371). -/

namespace Sys2Proof.Machine

/-! ## The command (R362, R364) -/

/-- COUNT: bytes of a `cpy`, elements of the others. -/
def CopyCmd.num (c : CopyCmd) : Nat := c.count.toNat % 2 ^ 32
/-- GRAIN. -/
def CopyCmd.grain (c : CopyCmd) : Nat :=
  let g := bitsOf c.count.toNat 39 32
  if g = 0 then 1 else g
/-- ESIZE. -/
def CopyCmd.esize (c : CopyCmd) : Nat := bitsOf c.count.toNat 47 32
/-- The bytes of a command. -/
def CopyCmd.total (c : CopyCmd) : Nat :=
  match c.kind with
  | .flat => c.num
  | _ => c.num * c.esize

/-- The end of the chunk of a `cpy` that begins at an offset. -/
def CopyCmd.cut (c : CopyCmd) (o : Nat) : Nat :=
  let b := Nat.min (4096 - (c.src.toNat + o) % 4096) (4096 - (c.dst.toNat + o) % 4096)
  Nat.min (ceilDiv (o + b) c.grain * c.grain) c.num
/-- The offset at which chunk `k` of a `cpy` begins. -/
def CopyCmd.start (c : CopyCmd) : Nat → Nat
  | 0 => 0
  | k + 1 => c.cut (c.start k)

/-- A chunk: its offset and its bytes. -/
def CopyCmd.chunk (c : CopyCmd) (k : Nat) : Option (Nat × Nat) :=
  match c.kind with
  | .flat => if c.start k < c.num then some (c.start k, c.cut (c.start k) - c.start k) else none
  | _ => if k < c.num then some (k * c.esize, c.esize) else none

/-- An index, as the engine reads it: an element whose index was read keeps it, and a poisoned word stops the engine
(R208). -/
def copyIndex (s : State) (i : Issuer) (c : CopyCmd) (k : Nat) : Except EngineStop Nat :=
  match Tbl.find c.indexed k with
  | some x => .ok x
  | none => do
    let va := vaAdd c.idx.toNat (4 * k)
    let ps ← reachBytes s i .load va 4
    match poisonStop s i ((List.range 4).map (vaAdd va)) ps with
    | some e => .error e
    | none => .ok (engineValue s ps)

/-- The source and destination of a chunk. -/
def chunkAddrs (s : State) (i : Issuer) (c : CopyCmd) (k o : Nat) : Except EngineStop (Nat × Nat) :=
  match c.kind with
  | .flat => .ok (vaAdd c.src.toNat o, vaAdd c.dst.toNat o)
  | .gather => (copyIndex s i c k).map fun x => (vaAdd c.src.toNat (x * c.esize), vaAdd c.dst.toNat o)
  | .scatter => (copyIndex s i c k).map fun x => (vaAdd c.src.toNat o, vaAdd c.dst.toNat (x * c.esize))

/-! ## Acceptance (R364, R365) -/

/-- The scratchpad line that a byte of a destination lies in. -/
def destLine (s : State) (i : Issuer) (va : Nat) : Option Nat :=
  match translate s i va .store with
  | .ok (pa, _) => if (spadCore pa).isSome then some (pa / 128) else none
  | .error _ => none

/-- The scratchpad lines of `n` destination bytes, with the bytes that fall in each. -/
def destLines (s : State) (i : Issuer) (va n : Nat) : Tbl Nat Nat :=
  (List.range n).foldl (fun m k =>
    match destLine s i (vaAdd va k) with
    | some l => Tbl.put m l (Tbl.getD m l 0 + 1)
    | none => m) []

/-- Presence bits cleared. -/
def clearLines (s : State) (ls : List Nat) : State :=
  { s with absent := s.absent ++ ls.filter fun l => !s.absent.contains l }

/-- The free command numbers of a core. -/
def freeCopies (s : State) (core : Nat) : List Nat :=
  (List.range 64).filter fun k => !Tbl.has (s.core core).copies k

/-- The commands that wait for a number on a core. -/
def waitingCopies (s : State) (core : Nat) : List CopyCmd :=
  (s.groups.filter fun p => p.1.core == core).flatMap fun p => p.2.copyWait

/-- Whether a command is the next of its core to be accepted: commands of a core start in the order of issue (R163). -/
def copyTurn (s : State) (c : CopyCmd) : Bool := (waitingCopies s c.group.core).all fun d => decide (c.seq ≤ d.seq)

/-- The threads of a command. -/
def CopyCmd.threads (c : CopyCmd) : List TId := c.slots.map fun k => ⟨c.group.core, c.group.bank, k⟩

/-- A command accepted under a number: the release, then the presence bits of its destination lines. A
command of no bytes completes at once. -/
def acceptCopy (s : State) (c : CopyCmd) (n : Nat) : State :=
  let s := engineRelease s c.bar c.threads
  if c.total = 0 then s
  else
    let lines := match c.kind with
      | .scatter => []
      | _ => destLines s (issuerOf s c.group) c.dst.toNat c.total
    let (k, s) := (clearLines s (lines.map Prod.fst)).takeFresh
    s.modCore c.group.core fun x => { x with copies := Tbl.put x.copies n { c with cleared := lines, accepted := k } }

/-- The checks of R363 on the registers of a command. -/
def copyCheck (c : CopyCmd) : Option Nat :=
  match c.kind with
  | .flat => if c.num % c.grain = 0 then none else some cUNDEF
  | _ =>
    if c.esize = 0 || 4096 < c.esize then some cUNDEF
    else if c.idx.toNat % 4 = 0 then none else some cALIGN

/-- A copy word of a portion: its checks, then acceptance or the wait for a command number. -/
def copyPortion (kind : CopyKind) (d x n : Reg) (bar : Fin 16) (g : GId) (t : TId) (ts : List TId) (s : State) :
    Except Stop State := do
  let b ← reachBar s t (readS s t (highReg bar))
  let c : CopyCmd :=
    { kind := kind, dst := readS s t d, src := readS s t x, count := readS s t n
      idx := match kind with
        | .flat => 0
        | _ => readS s t (oddOf n)
      bar := b.pa, group := g, slots := ts.map TId.slot, pc := (s.thread t).pc, ctx := (s.group g).ctx }
  match copyCheck c with
  | some k => .error (.trap k 0)
  | none =>
    let (seq, s) := (popPlan s).takeFresh
    let c := { c with seq := seq }
    match if (waitingCopies s g.core).isEmpty then pickOne s (g.core * 16 + 2) (freeCopies s g.core) else none with
    | some k => .ok (seqAll (acceptCopy s c k) ts)
    | none =>
      let s := s.modGroup g fun y => { y with copyWait := y.copyWait ++ [c] }
      .ok (ts.foldl (fun s u => enterWait s u .copySlot) s)

def execCpy (d x n : Reg) (bar : Fin 16) (la : La) (s : State) : Result :=
  groupExec (.cpy d x n bar la) (copyPortion .flat d x n bar) s
def execCpyg (d x n : Reg) (bar : Fin 16) (la : La) (s : State) : Result :=
  groupExec (.cpyg d x n bar la) (copyPortion .gather d x n bar) s
def execCpys (d x n : Reg) (bar : Fin 16) (la : La) (s : State) : Result :=
  groupExec (.cpys d x n bar la) (copyPortion .scatter d x n bar) s

/-- COPY_COMMAND_ACCEPT: the first command of the core that waits takes a free number, and its portion goes on. -/
def execCopyCommandAccept (g : GId) (s : State) : Result :=
  match (s.group g).copyWait, pickOne s (g.core * 16 + 2) (freeCopies s g.core) with
  | c :: rest, some k =>
    if copyTurn s c then
      let s := s.modGroup g fun y => { y with copyWait := rest }
      let s := acceptCopy s c k
      .next (c.threads.foldl (fun s t => seqPc (endWait s t) t) s)
    else pass s
  | _, _ => pass s

/-! ## Landing (R364 to R366) -/

/-- The addresses of the bytes that a command reads as its source. -/
def copySources (s : State) (i : Issuer) (c : CopyCmd) : List Nat :=
  match c.kind with
  | .gather => (List.range c.num).flatMap fun k =>
      match copyIndex s i c k with
      | .ok x => (List.range c.esize).map fun j => vaAdd c.src.toNat (x * c.esize + j)
      | .error _ => []
  | _ => (List.range c.total).map fun j => vaAdd c.src.toNat j
/-- The bytes among some that a command also reads, by their places in physical memory (R366). -/
def copyShared (s : State) (i : Issuer) (c : CopyCmd) (dst : List (Nat × MemTy)) : List Nat :=
  (copySources s i c).filterMap fun va =>
    match translate s i va .load with
    | .ok (pa, _) => if dst.any fun p => p.1 == pa then some pa else none
    | .error _ => none

/-- Whether a chunk of a command has been tried. -/
def CopyCmd.started (c : CopyCmd) : Bool := !(c.landed.isEmpty && c.held.isEmpty && c.again.isEmpty)

/-- Whether a command may move: the commands of a core start in the order of issue (R163). -/
def mayStart (s : State) (core : Nat) (c : CopyCmd) : Bool :=
  c.started || (s.core core).copies.all fun q => q.2.started || decide (c.seq ≤ q.2.seq)

/-- A command whose source is an absent line waits on it where an earlier command has still to fill it (R365). -/
def sourceAbsent (s : State) (c : CopyCmd) (ps : List (Nat × MemTy)) : Bool :=
  ps.any fun p => s.absent.contains (p.1 / 128) &&
    s.cores.any fun k => k.2.copies.any fun q => Tbl.has q.2.cleared (p.1 / 128) && decide (q.2.accepted < c.accepted)

/-- A byte of a command's source: one that the command has itself written is read as it stood before (R366). -/
def sourceByte (s : State) (c : CopyCmd) (p : Nat × MemTy) : Byte × Bool := (Tbl.find c.kept p.1).getD (engineByte s p)
/-- The bytes of a chunk as they land: where the command reads a byte that it writes, the byte is open
(R366) (DESIGN CHOICE, log 47). -/
def chunkBytes (s : State) (c : CopyCmd) (shared : List Nat) (src dst : List (Nat × MemTy)) : List EByte :=
  (List.range dst.length).map fun j =>
    let q := dst.getD j (0, .wb)
    let (x, poison) := sourceByte s c (src.getD j (0, .wb))
    if shared.contains q.1 then ⟨q.1, q.2, Config.freeByte s.tick q.1, false⟩ else ⟨q.1, q.2, x, poison⟩
/-- The command keeps the bytes that it both reads and writes, as they stand before it writes them. -/
def keepShared (s : State) (c : CopyCmd) (shared : List Nat) (dst : List (Nat × MemTy)) : CopyCmd :=
  { c with kept := (dst.filter fun p => shared.contains p.1).foldl (fun m p =>
      if Tbl.has m p.1 then m else Tbl.put m p.1 (engineByte s p)) c.kept }

/-- The scratchpad lines of a chunk of a `cpys`, with its bytes in each. -/
def scatterLines (s : State) (i : Issuer) (c : CopyCmd) (dva n : Nat) : Tbl Nat Nat :=
  match c.kind with
  | .scatter => destLines s i dva n
  | _ => []
/-- The index of an element has been read: the lines that it will write are cleared, once (R365). -/
def clearElement (s : State) (i : Issuer) (c : CopyCmd) (k dva n : Nat) : CopyCmd × State :=
  if c.kind != .scatter || Tbl.has c.indexed k then (c, s)
  else
    let lines := scatterLines s i c dva n
    let x := match copyIndex s i c k with
      | .ok x => x
      | .error _ => 0
    ({ c with indexed := Tbl.put c.indexed k x
              cleared := lines.foldl (fun m p => Tbl.put m p.1 (Tbl.getD m p.1 0 + p.2)) c.cleared },
      clearLines s (lines.map Prod.fst))

/-- A command's lines after bytes have landed in them: those it has filled, and those still to fill. -/
def fillLines (m : Tbl Nat Nat) (dst : List (Nat × MemTy)) : Tbl Nat Nat :=
  (dst.foldl (fun m p =>
    match Tbl.find m (p.1 / 128) with
    | some n => Tbl.put m (p.1 / 128) (n - 1)
    | none => m) m)

/-- The lines of a table that no accepted command has bytes still to land in become present. -/
def presentLines (s : State) (ls : List Nat) : State :=
  ls.foldl (fun s l =>
    if lineAwaited s l then s else setLine s l) s

/-- A command replaced, or gone once all of its bytes have landed. -/
def putCopy (s : State) (core cmd : Nat) (c : CopyCmd) : State :=
  s.modCore core fun x =>
    { x with copies := if c.bytesLanded < c.total then Tbl.put x.copies cmd c else Tbl.drop x.copies cmd }

/-- A landing in a core's scratchpad is a waking event of that core (R155). -/
def wakeLanding (s : State) (dst : List (Nat × MemTy)) : State :=
  (dedup (dst.filterMap fun p => spadCore p.1)).foldl wakeCore s

/-- A chunk lands: its bytes, of which the command also reads those at `shared`, its lines, its barrier and its count. -/
def landChunk (s : State) (core cmd chunk n : Nat) (c : CopyCmd) (dva : Nat) (shared : List Nat) (src dst : List (Nat × MemTy)) : State :=
  let i := issuerOf s c.group
  let (c, s) := clearElement (engineSnoop s src) i c chunk dva n
  let bytes := chunkBytes s c shared src dst
  let c := keepShared s c shared dst
  let lines := fillLines c.cleared dst
  let s := engineLand s (partOfCore s core) c.bar bytes
  let full := (lines.filter fun p => p.2 == 0).map Prod.fst
  let c := { c with landed := c.landed ++ [chunk], held := c.held.filter (· != chunk), again := c.again.filter (· != chunk)
                    indexed := Tbl.drop c.indexed chunk
                    bytesLanded := c.bytesLanded + n, cleared := lines.filter fun p => p.2 != 0 }
  let s := wakeLanding (presentLines (putCopy s core cmd c) full) dst
  let s := barLand (wakeWaiters (countCore s core 15 n) c.bar) (barPlace s core c.bar) n
  relevel (releaseGroup s c.group) (core / 2)

/-- A chunk stops: it is held by its record, or by the cluster it is for. -/
def stopChunk (s : State) (core cmd chunk o : Nat) (c : CopyCmd) : EngineStop → Result
  | .fault f =>
    let s := putCopy s core cmd { c with held := c.held ++ [chunk] }
    .next (engineFault s c.group (engineRec s c.group 1 cmd f c.pc o) (.copy core cmd chunk))
  | .remote n f =>
    let s := putCopy s core cmd { c with held := c.held ++ [chunk] }
    .next (holdRequest s n (.copy core cmd chunk) f)

/-- A chunk of a command: every byte is translated before any is written (R205). -/
def performChunk (s : State) (core cmd chunk : Nat) (c : CopyCmd) : Result :=
  match c.chunk chunk with
  | none => pass s
  | some (o, n) =>
    let i := issuerOf s c.group
    let go : Except EngineStop (Nat × Nat × List (Nat × MemTy) × List (Nat × MemTy)) := do
      let (sva, dva) ← chunkAddrs s i c chunk o
      let src ← reachBytes s i .load sva n
      let dst ← reachBytes s i .store dva n
      .ok (sva, dva, src, dst)
    match go with
    | .error e =>
      let (c, s) := match chunkAddrs s i c chunk o with
        | .ok (_, dva) => clearElement s i c chunk dva n
        | .error _ => (c, s)
      stopChunk s core cmd chunk o c e
    | .ok (sva, dva, src, dst) =>
      let vas := (src ++ dst).zipIdx.map fun p => if p.2 < n then vaAdd sva p.2 else vaAdd dva (p.2 - n)
      if sourceAbsent s c src || engineWaits s i vas then pass s
      else .next (landChunk (engineWalks s i vas) core cmd chunk n c dva (copyShared s i c dst) src dst)

/-- COPY_CHUNK_LAND (R364): a chunk that has neither landed nor is held. One that replays after an answer waits until
its context is active (R211). -/
def execCopyChunkLand (core cmd chunk : Nat) (s : State) : Result :=
  match Tbl.find (s.core core).copies cmd with
  | none => pass s
  | some c =>
    if !engineRuns s core || c.landed.contains chunk || c.held.contains chunk || !mayStart s core c
        || (c.again.contains chunk && !(isActive s c.group && ownsCopy s c.group c)) then pass s
    else performChunk s core cmd chunk c

/-! ## Cache ranges (R371) -/

/-- The virtual addresses at which the lines of a range begin, in ascending order. -/
def rangeLines (a n : Nat) : List Nat :=
  if n = 0 then [] else (List.range ((a + n - 1) / 128 - a / 128 + 1)).map fun k => (a / 128 + k) * 128

/-- Whether a line has dirty bytes in a core's L1. -/
def lineDirty (s : State) (core line : Nat) : Bool := (s.core core).smL1.any fun e => e.2.2 && e.1 / 128 == line

/-- The lines of SM pages of a range, each translated as LOAD, and as STORE where dirty bytes of its page
are to be written back. -/
def smLines (s : State) (t : TId) (writes : Bool) : List Nat → Except Stop (List Nat)
  | [] => .ok []
  | va :: rest => do
    let (pa, ty) ← reachMem s t (BitVec.ofNat 64 va) .load
    if ty == .sm && writes && lineDirty s t.core (pa / 128) then
      let _ ← reachMem s t (BitVec.ofNat 64 va) .store
      let i := issuerOf s (groupOf s t)
      if peerDown s i.part pa then .error (.fault (peerFault s i va pa .store))
      match lostStop s i va pa .store with
      | some f => .error (.fault f)
      | none => .ok ()
      let ls ← smLines s t writes rest
      .ok (pa / 128 :: ls)
    else
      let ls ← smLines s t writes rest
      .ok (if ty == .sm then pa / 128 :: ls else ls)

/-- A range instruction of a portion: the range's end, its pages, then each SM line. -/
def rangePortion (base len : Reg) (imm : BitVec 12) (writes : Bool) (act : State → Nat → State) (t : TId)
    (ts : List TId) (s : State) : Except Stop State := do
  let a := (effAddr (readS s t base) 0 imm.toInt).toNat
  let n := (readS s t len).toNat
  if n != 0 && 2 ^ 57 < a + n then .error (.fault (accessFault kADDRFORM .load a 0 0 0))
  else
    let ls ← smLines s t writes (rangeLines a n)
    .ok (seqAll (ls.foldl act (popPlan s)) ts)

/-- Both copies of a line dropped: the core's, and its die's. -/
def dropCopies (core : Nat) (s : State) (line : Nat) : State :=
  smDropLlc (smDropL1 s core line) (dieOfCore core) line

def execWbr (base len : Reg) (imm : BitVec 12) (s : State) : Result :=
  groupExec (.wbr base len imm) (fun g t ts s =>
    rangePortion base len imm true (fun s l => smWriteBack s g.core l) t ts (ts.foldl fencedBefore s)) s
/-- The outstanding acquire loads of a group take their values: an `invr` follows them (R143). -/
def acquiresFirst (s : State) (g : GId) : State :=
  (groupThreads s g).foldl (fun s t => satisfyIf s t (orderedBefore 0 0)) s
def execInvr (base len : Reg) (imm : BitVec 12) (s : State) : Result :=
  groupExec (.invr base len imm) (fun g t ts s =>
    rangePortion base len imm true (fun s l => dropCopies g.core (smWriteBack s g.core l) l) t ts (acquiresFirst s g)) s
def execInvrD (base len : Reg) (imm : BitVec 12) (s : State) : Result :=
  groupExec (.invrD base len imm) (fun g t ts s =>
    rangePortion base len imm false (dropCopies g.core) t ts s) s
/-- A line of an SM page requested into the core's L1 at normal priority: its faults are discarded (R175, R371). -/
def prefetchSm (t : TId) (s : State) (va : Nat) : State :=
  match translate s (issuerOf s (groupOf s t)) va .hint with
  | .ok (_, .sm) => prefetch s t va .normal
  | _ => s

/-- `pfr` changes no value that any thread can read (R143). -/
def execPfr (base len : Reg) (imm : BitVec 12) (s : State) : Result :=
  groupExec (.pfr base len imm) (fun _ t ts s =>
    let a := (effAddr (readS s t base) 0 imm.toInt).toNat
    .ok (seqAll ((rangeLines a (readS s t len).toNat).foldl (prefetchSm t) s) ts)) s

end Sys2Proof.Machine
end

