-- ==== Sys2Proof/Machine/Hyper.lean ====
section
/-! DEFINITION. Hypervectors, bundling and the Glasshouse (R372 to R388). Each word executes once for its
portion. -/

namespace Sys2Proof.Machine

/-! ## Moving vectors (R375, R376) -/

/-- The slice that a thread addresses. -/
def sliceOf (s : State) (x : W64) (t : TId) : Nat := (x.toNat % 128 + homeLane s t) % 128
/-- 32 bits of a vector. -/
def hvSlice (x : HVec) (m : Nat) : W32 := (x >>> (32 * m)).setWidth 32
/-- A vector with a slice replaced. -/
def putSlice (x : HVec) (m : Nat) (y : W32) : HVec :=
  (x &&& ~~~((BitVec.ofNat 4096 (2 ^ 32 - 1)) <<< (32 * m))) ||| ((y.setWidth 4096) <<< (32 * m))

/-- A vector with slices written: a 64-bit word both of whose halves are written loses its mark. -/
def writeSlices (s : State) (g : GId) (h : Reg8) (ws : List (Nat × W32)) : State :=
  let y := s.group g
  let x := ws.foldl (fun x w => putSlice x w.1 w.2) (y.h.get h)
  let ms := ws.map Prod.fst
  let clean := (List.range 64).foldl (fun acc i =>
    acc + bit (ms.contains (2 * i) && ms.contains (2 * i + 1)) (64 * h.val + i)) 0
  let s := s.modGroup g fun z => { z with h := z.h.set h.val x h.isLt, hPoison := z.hPoison &&& ~~~(BitVec.ofNat 512 clean) }
  if hypPending s g h then writeWords s g h x ms else s

def execHvmovToH (d : Reg8) (v x : Reg) (s : State) : Result :=
  groupExec (.hvmovToH d v x) (fun g t ts s =>
    let b := readS s t x
    .ok (seqAll (writeSlices s g d (ts.map fun u => (sliceOf s b u, readV s u v))) ts)) s

/-- A poisoned slice stops the word where a thread addresses it (R208, R376). -/
def execHvmovToV (a : Reg8) (v x : Reg) (s : State) : Result :=
  groupExec (.hvmovToV a v x) (fun _ t ts s =>
    let b := readS s t x
    let y := readH s t a
    if (s.thread t).snap.isNone && ts.any fun u => hWordBad s t a (sliceOf s b u) then .error (.fault { kind := kPOISON })
    else .ok (seqAll (ts.foldl (fun s u => writeV s u v (hvSlice y (sliceOf s b u))) s) ts)) s

/-- The lines of a vector's blocks, with the normal hint (R279, R375). -/
def hintBlocks (s : State) (t : TId) (blocks : List (Nat × MemTy)) : State :=
  blocks.foldl (fun s k => hintLine s t.core k.1 k.2 .normal) s

/-- The first of a block's eight words that a core window refuses (R33, R375), with its offset. -/
def refusedWord (s : State) (part pa : Nat) (k : Access) : Option (Nat × Nat) :=
  match placeOf pa with
  | .window core off => (List.range 8).findSome? fun j => (windowCheck s part core (off + 8 * j) k).map fun kind => (kind, 8 * j)
  | _ => none

/-- The addresses of the 64-byte blocks of a vector, each word translated before any byte moves. -/
def reachVector (s : State) (t : TId) (a : W64) (k : Access) : Nat → Except Stop (List (Nat × MemTy))
  | 0 => .ok []
  | n + 1 => do
    let p ← reach s t a k
    let i := issuerOf s (groupOf s t)
    let _ ← match refusedWord s i.part p.1 k with
      | some (kind, j) => .error (.fault (accessFault kind k (a.toNat + j) 0 (ipaOf s i (a.toNat + j)) (p.1 + j)))
      | none => .ok ()
    let rest ← reachVector s t (a + 64) k n
    .ok (p :: rest)

/-- The first block that stops an access after its translation. -/
def vectorStop (s : State) (t : TId) (load : Bool) (va : Nat) : List (Nat × MemTy) → Option Stop
  | [] => none
  | p :: rest =>
    match deviceStop s (issuerOf s (groupOf s t)) p.1 va (if load then .load else .store) with
    | some f => some (.fault f)
    | none =>
      if load && parksAt s t p.1 p.2 then some (presenceWait p.1) else vectorStop s t load (va + 64) rest

/-- A vector read from an address, free where its words lie in a choice stack or trail (R309). -/
def stackVector (s : State) (t : TId) (a : Nat) (x : HVec) : HVec :=
  (List.range 64).foldl (fun acc j =>
    match stackOwner s t (a + 8 * j) with
    | none => acc
    | some _ =>
      let old : W64 := (acc >>> (64 * j)).setWidth 64
      acc ^^^ (((old ^^^ stackValue s t (a + 8 * j) old).setWidth 4096) <<< (64 * j))) x
/-- Whether a vector's words touch a choice stack or trail. -/
def onStack (s : State) (t : TId) (a : Nat) : Bool := (List.range 64).any fun j => (stackOwner s t (a + 8 * j)).isSome

/-- A vector register written with a loaded value and the poison of its words. -/
def landVector (s : State) (g : GId) (h : Reg8) (x : HVec) (p : BitVec 64) : State :=
  (writeH s g h x).modGroup g fun y => { y with hPoison := y.hPoison ||| ((p.setWidth 512) <<< (64 * h.val)) }

/-- `hvld` (R375). -/
def hvldPortion (h : Reg8) (base : Reg) (imm : BitVec 12) (la : La) (g : GId) (t : TId) (ts : List TId)
    (s : State) : Except Stop State := do
  let a := effAddr (readS s t base) 0 (imm.toInt * 64)
  if misaligned a 64 then .error (.trap cALIGN 0)
  else
    let blocks ← reachVector s t a .load 8
    match vectorStop s t true a.toNat blocks with
    | some st => .error st
    | none =>
      let s := hintBlocks s t blocks
      if landsLate s && !(blocks.any fun k => k.2 == .uc) && !onStack s t a.toNat then
        let s := blocks.foldl (fun s k => loadAfter s t k.1 64) s
        .ok (seqAll (addJoint (popPlan s) t ts (.hyp h) la (.hypLoad blocks) false a.toNat) ts)
      else
        let s := blocks.foldl (fun s k => loadAfter s t k.1 64) s
        let (s, x, p) := takeVector s t blocks
        let x := stackVector s t a.toNat x
        let s := blocks.foldl (fun s k => loadEffect s t k.2 k.1 64) s
        if landsLate s then .ok (seqAll (addJoint (popPlan s) t ts (.hyp h) la (.hyp x p) false) ts)
        else .ok (seqAll (landVector (popPlan s) g h x p) ts)

def execHvld (h : Reg8) (base : Reg) (imm : BitVec 12) (la : La) (s : State) : Result :=
  groupExec (.hvld h base imm la) (hvldPortion h base imm la) s

/-- The 8 words of a block stored in ascending order (R120, R121). -/
def storeBlock (t : TId) (x : HVec) (s : State) (k : Nat × Nat × MemTy) : State :=
  (List.range 8).foldl (fun s j =>
    let word := (x >>> (64 * (8 * k.1 + j))).setWidth 64
    memWrite s t (k.2.1 + 8 * j) (toBytes 8 (word : W64).toNat) k.2.2 false .dev false none) s

/-- `hvst` (R375). -/
def hvstPortion (h : Reg8) (base : Reg) (imm : BitVec 12) (t : TId) (ts : List TId) (s : State) :
    Except Stop State := do
  let a := effAddr (readS s t base) 0 (imm.toInt * 64)
  if misaligned a 64 then .error (.trap cALIGN 0)
  else
    let blocks ← reachVector s t a .store 8
    match vectorStop s t false a.toNat blocks with
    | some st => .error st
    | none =>
      let s := hintBlocks (((List.range 8).zip blocks).foldl (storeBlock t (readH s t h)) (popPlan s)) t blocks
      .ok (seqAll ((List.range 8).foldl (fun s j => spoilStack s t (a.toNat + 64 * j) 64) s) ts)

def execHvst (h : Reg8) (base : Reg) (imm : BitVec 12) (s : State) : Result :=
  groupExec (.hvst h base imm) (fun _ t ts s => hvstPortion h base imm t ts s) s

/-! ## Binding, permuting and counting (R377 to R379) -/

/-- A vector register written with a function of the portion's registers. -/
def setVector (d : Reg8) (f : State → TId → HVec) (g : GId) (t : TId) (ts : List TId) (s : State) :
    Except Stop State := .ok (seqAll (writeH s g d (f s t)) ts)

def execHvxor (d a b : Reg8) (s : State) : Result :=
  groupExec (.hvxor d a b) (setVector d fun s t => readH s t a ^^^ readH s t b) s
def execHvrot (d a : Reg8) (imm : BitVec 12) (s : State) : Result :=
  groupExec (.hvrot d a imm) (setVector d fun s t => (readH s t a).rotateLeft imm.toNat) s
def execHvrotReg (d a : Reg8) (x : Reg) (s : State) : Result :=
  groupExec (.hvrotReg d a x) (setVector d fun s t => (readH s t a).rotateLeft ((readS s t x).toNat % 4096)) s
def execHvtri (d a b : Reg8) (tt : Byte) (s : State) : Result :=
  groupExec (.hvtri d a b tt) (setVector d fun s t => triOf tt (readH s t a) (readH s t b) (readH s t d)) s
def execHvpop (x : Reg) (a : Reg8) (s : State) : Result :=
  groupExec (.hvpop x a) (setUniform x fun s t => BitVec.ofNat 64 (popcount (readH s t a))) s
def execHvdist (x : Reg) (a b : Reg8) (s : State) : Result :=
  groupExec (.hvdist x a b) (setUniform x fun s t => BitVec.ofNat 64 (popcount (readH s t a ^^^ readH s t b))) s

/-- The words of `hvseed`, the last first: the steps of R96 on a local state. -/
def seedWords : Nat → W64 → List W64
  | 0, _ => []
  | n + 1, x =>
    let y := rngStep x
    y :: seedWords n y
/-- Words joined, the first at the low end. -/
def joinWords (ws : List W64) : HVec := BitVec.ofNat 4096 (ws.foldr (fun w acc => w.toNat + acc * 2 ^ 64) 0)

def execHvseed (d : Reg8) (x : Reg) (s : State) : Result :=
  groupExec (.hvseed d x) (setVector d fun s t => joinWords (seedWords 64 (readS s t x))) s

/-! ## Bundling (R380, R381) -/

/-- What a word reads of a counter set. -/
inductive SetReads where
  | nothing | counters | both
  deriving DecidableEq, Repr
/-- A word that names a counter set: UNDEF in every arriving thread where the set is not mapped (R223,
R372), and stopped by a poisoned counter or tie word that it reads (R208). -/
def setExec (i : Instr) (c : Reg4) (reads : SetReads) (f : GId → Nat → TId → List TId → State → State) (s : State) : Result :=
  match packThreads s with
  | [] => .fault .noThread
  | t :: ts =>
    match (s.group (groupOf s t)).cmap.get c with
    | none => .next ((t :: ts).foldl (fun s u => trapThread s u cUNDEF 0) s)
    | some n =>
      portionRun i (fun g t ts s =>
        if (reads != .nothing && memPoisoned s (windowAddr g.core (0x300000 + n * 4096)) 4096)
            || (reads == .both && memPoisoned s (windowAddr g.core (0x310000 + n * 512)) 512) then .error (.fault { kind := kPOISON })
        else .ok (seqAll (f g n t ts s) ts)) t (t :: ts) s

/-- A counter of a pool set. -/
def readCounter (s : State) (core n i : Nat) : Int := (readCell s.mem (windowAddr core (0x300000 + n * 4096 + i))).toInt
/-- One vote, kept within the limits. -/
def voted (w : Nat) (n : Int) (up : Bool) (weight : Nat) : Int :=
  max (-(counterLimit w)) (min (counterLimit w) (if up then n + weight else n - weight))

/-- Every counter of a set voted on by a vector. -/
def bundle (s : State) (g : GId) (n : Nat) (x : HVec) (weight : Nat) : State :=
  let w := counterWidth s g.core n
  let bytes := (List.range 4096).map fun i => BitVec.ofInt 8 (voted w (readCounter s g.core n i) (x.getLsbD i) weight)
  s.setMem (writeBytes s.mem (windowAddr g.core (0x300000 + n * 4096)) bytes)

/-- The vector of the signs of a set's counters, ties from its tie vector. -/
def threshold (s : State) (core n : Nat) : HVec :=
  let tie := readLE s.mem (windowAddr core (0x310000 + n * 512)) 512
  BitVec.ofNat 4096 ((List.range 4096).foldl (fun acc i =>
    let k := readCounter s core n i
    acc + bit (decide (0 < k) || (k == 0 && tie / 2 ^ i % 2 == 1)) i) 0)

/-- A tie vector written. -/
def setTie (s : State) (core n : Nat) (x : HVec) : State :=
  let a := windowAddr core (0x310000 + n * 512)
  setMemPoison (s.setMem (writeBytes s.mem a (toBytes 512 x.toNat))) a 512 false

def execHvbnd (c : Reg4) (a : Reg8) (w : Fin 16) (s : State) : Result :=
  setExec (.hvbnd c a w) c .counters (fun g n t _ s => bundle s g n (readH s t a) w.val) s
def execHvthr (d : Reg8) (c : Reg4) (s : State) : Result :=
  setExec (.hvthr d c) c .both (fun g n _ _ s => writeH s g d (threshold s g.core n)) s
def execHvclr (c : Reg4) (s : State) : Result :=
  setExec (.hvclr c) c .nothing (fun g n _ _ s => resetSet s g.core n) s
def execHvtie (c : Reg4) (a : Reg8) (s : State) : Result :=
  setExec (.hvtie c a) c .nothing (fun g n t _ s => setTie s g.core n (readH s t a)) s

/-! ## The Glasshouse (R383 to R388) -/

def execAmw (x : Reg) (h : Reg8) (s : State) : Result :=
  groupExec (.amw x h) (fun g t ts s =>
    let e := (readS s t x).toNat
    if 1024 ≤ e then .error (.trap cUNDEF 0)
    else
      let v := readH s t h
      let s := s.modCluster (g.core / 2) fun c =>
        { c with entries := Tbl.put c.entries e v, entryPoison := c.entryPoison.filter (· != e) }
      .ok (seqAll s ts)) s

def execAmclr (lo n : Reg) (s : State) : Result :=
  groupExec (.amclr lo n) (fun g t ts s =>
    let a := (readS s t lo).toNat
    let b := a + (readS s t n).toNat
    let inside (e : Nat) : Bool := decide (a ≤ e) && decide (e < b)
    let s := s.modCluster (g.core / 2) fun c =>
      { c with entries := c.entries.filter fun p => !inside p.1, entryPoison := c.entryPoison.filter fun e => !inside e }
    .ok (seqAll s ts)) s

/-- What a search finds no entry for (R385). -/
def noEntry : W64 × W64 := (0xFFFFFFFF, 4097)

/-- A pair put among others in ascending distance and, at one distance, after those before it. -/
def insertPair (x : Nat × Nat) : List (Nat × Nat) → List (Nat × Nat)
  | [] => [x]
  | y :: ys => if x.2 < y.2 then x :: y :: ys else y :: insertPair x ys

/-- The valid entries below a limit with their distances, nearest first and then lowest. -/
def nearest (c : Cluster) (x : HVec) (lim : Nat) : List (Nat × Nat) :=
  ((List.range lim).filterMap fun e => (Tbl.find c.entries e).map fun v => (e, popcount (v ^^^ x))).foldl
    (fun acc p => insertPair p acc) []

/-- The index and distance of the first `k` pairs, filled up with those of no entry. -/
def replyWords (ps : List (Nat × Nat)) (k : Nat) : List W64 :=
  (List.range k).flatMap fun j =>
    match ps[j]? with
    | some p => [BitVec.ofNat 64 p.1, BitVec.ofNat 64 p.2]
    | none => [noEntry.1, noEntry.2]

/-- Uniform registers written in order. -/
def landWords (s : State) (g : GId) (ds : List Reg) (xs : List W64) : State :=
  (ds.zip xs).foldl (fun s p => writeS s g p.1 p.2) s

/-- A search of a portion: a valid poisoned entry below its limit stops it; its reply lands now, where fewer than two of
its cluster stand before it (R163), or later. -/
def searchPortion (h : Reg8) (sl : Reg) (la : La) (k : Nat) (ds : List Reg) (pick : List W64 → List W64)
    (g : GId) (t : TId) (ts : List TId) (s : State) : Except Stop State :=
  let lim := Nat.min (readS s t sl).toNat 1024
  let c := s.cluster (g.core / 2)
  if c.entryPoison.any fun e => decide (e < lim) && Tbl.has c.entries e then .error (.fault { kind := kPOISON })
  else
    let xs := pick (replyWords (nearest c (readH s t h) lim) k)
    let s := countCore s g.core 13 1
    if landsLate s || decide (2 ≤ repliesBefore s (g.core / 2) s.fresh) then
      .ok (seqAll (addJoint (popPlan s) t ts (.uni ds) la (.words xs) false) ts)
    else .ok (seqAll (landWords (popPlan s) g ds xs) ts)

/-- The destinations of `hvnear`: one register where both fields name it, which ends with the distance. -/
def execHvnear (si sd : Reg) (h : Reg8) (sl : Reg) (la : La) (s : State) : Result :=
  groupExec (.hvnear si sd h sl la)
    (searchPortion h sl la 1 (if si = sd then [sd] else [si, sd]) (fun xs => if si = sd then xs.drop 1 else xs)) s

def execHvneark (si : Reg) (k1 : Reg4) (h : Reg8) (sl : Reg) (la : La) (s : State) : Result :=
  groupExec (.hvneark si k1 h sl la)
    (searchPortion h sl la (k1.val + 1) (uniDests (.hvneark si k1 h sl la)) id) s

end Sys2Proof.Machine
end

