-- ==== Sys2Proof/Machine/System.lean ====
section
/-! DEFINITION. System words of the G-set (R328 to R336): schedule tables, condition words, levels,
traps and breakpoints, user-level interrupts, and the system registers. -/

namespace Sys2Proof.Machine

/-! ## nexttile (R328, R75, R76) -/

/-- What `nexttile` takes from a table: nothing written yet, or the entry and the table after it. The end
of the table reads 0xFFFF_FFFF for ever. -/
def Schedule.take (x : Schedule) : Option (W32 × Schedule) :=
  match x.entries[x.cursor]? with
  | none => some (0xFFFFFFFF, x)
  | some none => none
  | some (some e) => some (e, { x with cursor := x.cursor + 1 })

def execNexttile (d : Reg) (s : State) : Result :=
  groupExec (.nexttile d) (fun g _ ts s =>
    let launch := (s.group g).launch
    let x : Schedule := Tbl.getD (s.core g.core).tables launch { entries := [] }
    match x.take with
    | none => .error (.wait .table)
    | some (e, y) =>
      let s := if x = y then s else s.modCore g.core fun c => { c with tables := Tbl.put c.tables launch y }
      .ok (seqAll (writeS s g d (e.setWidth 64)) ts)) s

/-! ## condw, perf (R329, R330) -/

def execCondw (base v : Reg) (imm : BitVec 11) (s : State) : Result :=
  groupExec (.condw base v imm) (fun _ t ts s =>
    storePortion 8 (effAddr (readS s t base) 0 (imm.toInt * 8)) (readS s t v) true .dev t ts s) s

/-- LEVEL set; the cluster looks at its level again. -/
def setLevel (s : State) (g : GId) (x : W64) : State :=
  relevel (s.modGroup g fun y => { y with level := levelOf x }) (g.core / 2)

def execPerf (l : Reg) (s : State) : Result :=
  groupExec (.perf l) (fun g t ts s => .ok (seqAll (setLevel s g (readS s t l)) ts)) s

/-! ## trap, bkpt (R332, R333) -/

def execTrap (imm : BitVec 16) (s : State) : Result :=
  groupExec (.trap imm) (fun _ _ _ _ => .error (.trap cSOFT (imm.setWidth 32))) s

/-- The halt scope that contains a group (R217, R219). -/
def haltScopeOf (s : State) (d : Debugger) (g : GId) : Halted :=
  match d.scope with
  | .group => .group g
  | .team => .team (s.group g).launch (s.group g).team
  | .launch => .launch (s.group g).launch

/-- Whether a halted scope holds a group. -/
def Halted.holds (h : Halted) (g : GId) (x : Group) : Bool :=
  match h with
  | .group k => k == g
  | .team l t => x.launch == l && x.team == t
  | .launch l => x.launch == l

/-- The cores of a halted scope: the halt is a waking event of each (R155). -/
def haltedCores (s : State) (h : Halted) : List Nat :=
  dedup (((s.groups ++ spilledGroups s).filter fun p => p.2.live && h.holds p.1 p.2).map fun p => p.1.core)

/-- A scope of a debugger is halted. -/
def haltScope (s : State) (p : Nat) (h : Halted) : State :=
  let join (d : Debugger) : Debugger :=
    if d.halted.contains h then d else { d with halted := d.halted ++ [h] }
  (haltedCores s h).foldl wakeCore (s.modPart p fun x => { x with debugger := x.debugger.map join })

/-- Whether a debugger holds a thread (R217). -/
def heldByDebugger (s : State) (t : TId) : Bool :=
  match (partOfCore s t.core).bind fun p => (s.part p).debugger with
  | none => false
  | some d =>
    let g := groupOf s t
    d.halted.contains (.group g) || d.halted.contains (.team (s.group g).launch (s.group g).team)
      || d.halted.contains (.launch (s.group g).launch)

/-- `bkpt` for a portion (R333): a soft halt and its event record with a debugger, a trap without. -/
def bkptPortion (imm : BitVec 16) (g : GId) (t : TId) (ts : List TId) (s : State) : Except Stop State :=
  match partOfCore s g.core with
  | none => .error (.trap cBKPT 0)
  | some p =>
    match (s.part p).debugger with
    | none => .error (.trap cBKPT 0)
    | some d =>
      let s := haltScope s p (haltScopeOf s d g)
      let s := debugEvent s p { kind := 1, core := coreField t.core t.bank, slot := t.slot
                                tti := (s.thread t).tti, pc := (s.thread t).pc.toNat, imm := imm.toNat
                                launch := (s.launch (s.group g).launch).number.toNat }
      .ok (seqAll s ts)

def execBkpt (imm : BitVec 16) (s : State) : Result := groupExec (.bkpt imm) (bkptPortion imm) s

/-! ## uint (R334, R209) -/

/-- An interrupt made pending in a thread: one raised by Preley also carries the wider acquire. -/
def raiseUint (u : Uint) (x : Thread) : Thread :=
  { x with uint := some (if x.uint = some .preley then .preley else u) }

/-- The live group of a launch with a team and team group index (R42). -/
def groupNamed (s : State) (launch team tgi : Nat) : Option GId :=
  (s.groups.find? fun p =>
    p.2.live && p.2.launch == launch && p.2.team == team && p.2.tgi == tgi).map Prod.fst

/-- A user-level interrupt at a group: pending in each of its live threads, and a waking event of its
core (R155, R209). A group that does not stand takes none. -/
def raiseAt (s : State) (launch team tgi : Nat) (u : Uint) : State :=
  match groupNamed s launch team tgi with
  | none =>
    let named (g : Group) : Bool := g.live && g.launch == launch && g.team == team && g.tgi == tgi
    let cores := dedup (((spilledGroups s).filter fun p => named p.2).map fun p => p.1.core)
    cores.foldl wakeCore (mapSpilled s fun _ g x => if named g && x.live then raiseUint u x else x)
  | some g => wakeCore ((liveThreads s g).foldl (fun s t => s.modThread t (raiseUint u)) s) g.core

/-- `uint`: a release at `.dev`, then the interrupt. -/
def uintPortion (r : Reg) (g : GId) (t : TId) (ts : List TId) (s : State) : Except Stop State :=
  let x := (readS s t r).toNat
  if x / 2 ^ 48 ≠ 0 then .error (.trap cRSVD 0)
  else
    let s := releaseAll s ts true .dev
    let s := carryMore s (.interrupt (s.group g).launch (bitsOf x 47 16) (bitsOf x 15 0)) (knownToAll s ts)
    .ok (raiseAt (seqAll s ts) (s.group g).launch (bitsOf x 47 16) (bitsOf x 15 0) .program)

def execUint (g : Reg) (s : State) : Result := groupExec (.uint g) (uintPortion g) s

/-! ## System registers (R335, R336) -/

/-- PERFLVL: the level the cluster runs, and LEVEL. -/
def perflvlWord (s : State) (g : GId) : W64 :=
  BitVec.ofNat 64 ((s.cluster (g.core / 2)).level % 32 * 2 ^ 8 + (s.group g).level % 32)
/-- SEQSTEP: BUSY and STEP. -/
def seqstepWord (x : Group) : W64 := BitVec.ofNat 64 (bit x.busy 32 + x.stepNo % 2 ^ 32)

/-- The counters of events that the model shows in part: cycles of cores, and misses of caches and TLBs (R189). -/
def pmcOpen (n : Nat) : Bool := n == 0 || n == 6 || n == 7 || n == 8

/-- Before a counter is read: one of events that the model shows in part advances by a free number, so that it counts
upward from its value at the last read (R189) (DESIGN CHOICE, log 50). -/
def advancePmc (s : State) (p n : Nat) : State :=
  if pmcOpen n then countPmc s p n (Config.freeNat s.tick (n + 4000)) else s

/-- What the read of a system register does first. -/
def beforeSrd (s : State) (core : Nat) (sr : SysReg) : State :=
  match sr with
  | .pmc n => advancePmc s ((partOfCore s core).getD 0) n.val
  | _ => s

/-- A system register as a thread reads it (R336). -/
def readSys (s : State) (t : TId) (sr : SysReg) : W64 :=
  let g := groupOf s t
  let x := s.group g
  let y := s.thread t
  let p := (partOfCore s t.core).getD 0
  match sr with
  | .fpstat => x.fpstat.setWidth 64
  | .nbv => if x.nbv1 then 1 else 0
  | .perflvl => perflvlWord s g
  | .seqstep => seqstepWord x
  | .trapvec => x.trapvec
  | .trappc => y.trappc
  | .trapcause => y.trapcause
  | .rngstate => y.rng
  | .framebase => y.framebase
  | .cpbase => y.cpbase
  | .trailbase => y.trailbase
  | .partid => BitVec.ofNat 64 (p % 32)
  | .pmc n => (s.pmc p).get n

/-- TRAPVEC without its reserved bits (R197). -/
def trapvecMask : W64 := 0x01FFFFFFFFFFFFFC
/-- FRAMEBASE, CPBASE and TRAILBASE without their reserved bits (R336). -/
def addressMask : W64 := 0x01FFFFFFFFFFFFFF
/-- TRAPCAUSE without its reserved bits (R197). -/
def trapcauseMask : W64 := 0xFFFFFFFF0001FFFF

/-- A group's register written: reserved fields and read-only registers keep their values (R5, R335). -/
def writeGroupSys (s : State) (g : GId) (sr : SysReg) (x : W64) : State :=
  match sr with
  | .fpstat => setFlags s g (x.setWidth 5)
  | .nbv => s.modGroup g fun y => { y with nbv1 := x.getLsbD 0 }
  | .perflvl => setLevel s g x
  | .trapvec => s.modGroup g fun y => { y with trapvec := x &&& trapvecMask }
  | .seqstep | .trappc | .trapcause | .rngstate | .framebase | .cpbase | .trailbase | .partid | .pmc _ => s

/-- A thread's register written (R335). -/
def writeThreadSys (s : State) (t : TId) (sr : SysReg) (x : W64) : State :=
  match sr with
  | .trappc => s.modThread t fun y => { y with trappc := x }
  | .trapcause => s.modThread t fun y => { y with trapcause := x &&& trapcauseMask }
  | .rngstate => s.modThread t fun y => { y with rng := x }
  | .fpstat | .nbv | .perflvl | .seqstep | .trapvec | .framebase | .cpbase | .trailbase | .partid | .pmc _ => s

/-- What `swr` from a uniform register gives a thread's register: RNGSTATE is XORed with the team thread
index (R97). -/
def uniformSource (s : State) (t : TId) (sr : SysReg) (x : W64) : W64 :=
  match sr with
  | .rngstate => x ^^^ BitVec.ofNat 64 (s.thread t).tti
  | _ => x

/-- `srd`: a uniform register takes the register, or that of the first arriving thread; a lane pair takes
each thread's own. -/
def execSrd (d : Reg) (v : Bool) (sr : SysReg) (s : State) : Result :=
  groupExec (.srd d v sr) (fun g t ts s =>
    let s := beforeSrd s g.core sr
    .ok (seqAll (if v then ts.foldl (fun s t => writePair s t d (readSys s t sr)) s
      else writeS s g d (readSys s t sr)) ts)) s

/-- `swr`. -/
def execSwr (x : Reg) (v : Bool) (sr : SysReg) (s : State) : Result :=
  groupExec (.swr x v sr) (fun g t ts s =>
    .ok (seqAll (
      if v then ts.foldl (fun s t => writeThreadSys s t sr (readPair s t x)) s
      else if SysReg.isThread sr then
        let y := readS s t x
        ts.foldl (fun s t => writeThreadSys s t sr (uniformSource s t sr y)) s
      else writeGroupSys s g sr (readS s t x)) ts)) s

end Sys2Proof.Machine
end

