-- ==== Sys2Proof/Machine/Matrix.lean ====
section
/-! DEFINITION. The quarter matrix units (R337 to R352): `mma`, `mfence`, `mwait`, `acczero` and `accmov`,
the queue of each quarter, and what an operand written too early leaves undefined. -/

namespace Sys2Proof.Machine

/-! ## Shape words and descriptors (R339 to R343) -/

def shapeK (x : W64) : Nat := bitsOf x.toNat 22 16
def shapeN (x : W64) : Nat := bitsOf x.toNat 14 8
def shapeM (x : W64) : Nat := bitsOf x.toNat 3 0

/-- The element format of a code that an operand may have. -/
def fmtOfCode (n : Nat) : Fmt :=
  if n = 1 then fp16 else if n = 2 then bf16 else if n = 3 then e4m3 else e5m2
/-- The bytes of an element. -/
def fmtBytes (f : Fmt) : Nat := f.width / 8

/-- The format code of an operand. -/
def MatOpnd.code : MatOpnd → Nat
  | .lanes _ f => f
  | .desc _ w1 => bitsOf w1.toNat 23 19
def MatOpnd.fmt (o : MatOpnd) : Fmt := fmtOfCode o.code
def MatOpnd.isLanes : MatOpnd → Bool
  | .lanes _ _ => true
  | .desc _ _ => false

/-- SPN of a metadata descriptor: the kept elements of each 16, nothing where it is invalid (R343). -/
def keptOf (w : W64) : Option Nat :=
  match bitsOf w.toNat 57 56 with
  | 1 => some 8
  | 2 => some 4
  | _ => none

/-- Whether a descriptor's format is one that the word allows (R340). -/
def descOk (fp8 : Bool) (o : MatOpnd) : Bool :=
  if fp8 then o.code == 3 || o.code == 4 else o.code == 1 || o.code == 2

/-- The checks of R345 on an operation. -/
def mmaOk (a b : MatOpnd) (shape : W64) (sparse : Option W64) (fp8 : Bool) : Bool :=
  let k := shapeK shape
  let most := if fp8 then 16 else 8
  let kOk := match sparse with
    | none => decide (1 ≤ k) && decide (k ≤ most)
    | some w =>
      match keptOf w with
      | none => false
      | some n => decide (1 ≤ k) && k % 16 == 0 && decide (k ≤ most * 16 / n)
  descOk fp8 a && descOk fp8 b && kOk && decide (1 ≤ shapeM shape) && decide (shapeM shape ≤ 8)
    && decide (1 ≤ shapeN shape) && decide (shapeN shape ≤ if b.isLanes then 8 else 64)

/-- OperandAddr (R341). -/
def operandAddr (w0 w1 : W64) (r c sz : Nat) : Nat :=
  let a := bitsOf w0.toNat 19 0 + c / 16 * bitsOf w1.toNat 15 0 + r * bitsOf w0.toNat 47 32 + c % 16 * sz
  let x := r * bitsOf w1.toNat 18 16 % 8
  a - a / 16 % 8 * 16 + (BitVec.ofNat 3 (a / 16) ^^^ BitVec.ofNat 3 x).toNat * 16

/-- A byte of a window that a descriptor's first word names by WIN (R340). -/
def windowByte (s : State) (i : Issuer) (w0 : W64) (a : Nat) : Option Nat :=
  if w0.getLsbD 20 then (if a < 2 ^ 20 then clusterWindowByte s i a else none) else coreWindowByte s i a

/-- The bytes of element (r, c) of a descriptor's operand. -/
def descBytes (s : State) (i : Issuer) (w0 w1 : W64) (sz r c : Nat) : Option (List Nat) :=
  (List.range sz).mapM fun j => windowByte s i w0 (operandAddr w0 w1 r c sz + j)

/-! ## The operand words of an operation -/

/-- A word or byte that an operation reads. -/
inductive Source where
  | lane (t : TId) (r : Nat)
  | byte (pa : Nat)
  deriving DecidableEq, Repr

/-- A lane of a quarter. -/
def quarterLane (g : GId) (q i : Nat) : TId := gidThread g (8 * q + i)

/-- The elements of a lane operand's first `k` elements: the registers they stand in. -/
def laneSources (t : TId) (r : Reg) (sz k : Nat) : List Source :=
  (List.range (ceilDiv (k * sz) 4)).map fun j => .lane t (r.val + j)

/-- The bytes of a row's metadata (R343, R117): `k / 16` groups of `n` positions of 4 bits. -/
def metaBytes (s : State) (i : Issuer) (w : W64) (n k r : Nat) : Option (List Nat) :=
  (List.range (k / 16 * n / 2)).mapM fun j => windowByte s i w (bitsOf w.toNat 19 0 + r * bitsOf w.toNat 47 32 + j)

/-- How many elements along K a row of A stores. -/
def storedK (sparse : Option W64) (k : Nat) : Nat :=
  match sparse.bind keptOf with
  | some n => k * n / 16
  | none => k

/-- The sources of row `r` of A: nothing where a byte lies outside its window. -/
def rowSources (s : State) (i : Issuer) (g : GId) (q : Nat) (a : MatOpnd) (sparse : Option W64) (k r : Nat) :
    Option (List Source) :=
  let sz := fmtBytes a.fmt
  match a with
  | .lanes v _ => some (laneSources (quarterLane g q r) v sz k)
  | .desc w0 w1 => do
    let es ← (List.range (storedK sparse k)).mapM fun c => descBytes s i w0 w1 sz r c
    let ms ← match sparse with
      | none => some []
      | some w => metaBytes s i w ((keptOf w).getD 8) k r
    some ((es.flatten ++ ms).map .byte)

/-- The sources of column `j` of B. -/
def colSources (s : State) (i : Issuer) (g : GId) (q : Nat) (b : MatOpnd) (k j : Nat) : Option (List Source) :=
  let sz := fmtBytes b.fmt
  match b with
  | .lanes v _ => some (laneSources (quarterLane g q j) v sz k)
  | .desc w0 w1 => do
    let es ← (List.range k).mapM fun r => descBytes s i w0 w1 sz r j
    some (es.flatten.map .byte)

/-- Whether a source holds poison. -/
def sourceBad (s : State) : Source → Bool
  | .lane t r => (s.thread t).vPoison.getLsbD r
  | .byte pa => memPoisoned s pa 1

/-- Whether a source is unstable for an operation whose window began at a step, after what `before` names (R348): a lane
register written since, or a word of 4 scratchpad bytes whose latest write neither happens before the `mfence` (R127) nor
stood there when the group was placed (DEDUCED, log 86). -/
def sourceMoved (s : State) (g : GId) (window : Nat) (before : Clock) (x : Source) : Bool :=
  match x with
  | .lane t r => decide (window < Tbl.getD (s.thread t).stamps r 0)
  | .byte pa => (List.range 4).any fun j =>
      match Tbl.find s.spadStamps (pa / 4 * 4 + j) with
      | none => false
      | some (at_, who) => !(who.any (fun a => before.holds a at_) || decide (at_ < (s.group g).placedAt))

/-! ## The elements of an operation (R341 to R343) -/

/-- The 128-bit value of a lane operand. -/
def laneVector (s : State) (t : TId) (r : Reg) : Nat :=
  (List.range 4).foldl (fun acc j => acc + ((s.thread t).v.getD (r.val + j) 0).toNat * 2 ^ (32 * j)) 0

/-- Element `k` of a lane operand. -/
def laneElem (s : State) (t : TId) (r : Reg) (f : Fmt) (k : Nat) : XReal :=
  f.decode (laneVector s t r / 2 ^ (f.width * k) % 2 ^ f.width)

/-- Element (r, c) of a descriptor's operand. -/
def descElem (s : State) (i : Issuer) (w0 w1 : W64) (f : Fmt) (r c : Nat) : XReal :=
  match descBytes s i w0 w1 (fmtBytes f) r c with
  | some bs => f.decode (ofBytes (bs.map fun a => readCell s.mem a))
  | none => .zero

/-- The positions of a row's metadata group: `n` numbers of 4 bits (R117). -/
def metaGroup (bytes : Nat) (n j : Nat) : List Nat :=
  (List.range n).map fun x => bytes / 2 ^ (4 * (j * n + x)) % 16

/-- The groups of a row's metadata. -/
def metaGroups (s : State) (i : Issuer) (w : W64) (k r : Nat) : List (List Nat) :=
  let n := (keptOf w).getD 8
  let x := match metaBytes s i w n k r with
    | some bs => ofBytes (bs.map fun a => readCell s.mem a)
    | none => 0
  (List.range (k / 16)).map fun j => metaGroup x n j

/-- Row `r` of A: each element with the place along K it pairs with; nothing where its metadata does not
ascend (R117). -/
def rowElems (s : State) (i : Issuer) (g : GId) (q : Nat) (a : MatOpnd) (sparse : Option W64) (k r : Nat) :
    Option (List (Nat × XReal)) :=
  match a with
  | .lanes v _ => some ((List.range k).map fun x => (x, laneElem s (quarterLane g q r) v a.fmt x))
  | .desc w0 w1 =>
    match sparse with
    | none => some ((List.range k).map fun x => (x, descElem s i w0 w1 a.fmt r x))
    | some w =>
      let gs := metaGroups s i w k r
      let n := (keptOf w).getD 8
      if gs.all ascends then
        some ((List.range (k / 16)).flatMap fun j =>
          (List.range n).map fun x =>
            (16 * j + (gs.getD j []).getD x 0, descElem s i w0 w1 a.fmt r (j * n + x)))
      else none

/-- Element (k, j) of B. -/
def colElem (s : State) (i : Issuer) (g : GId) (q : Nat) (b : MatOpnd) (k j : Nat) : XReal :=
  match b with
  | .lanes v _ => laneElem s (quarterLane g q j) v b.fmt k
  | .desc w0 w1 => descElem s i w0 w1 b.fmt k j

/-! ## The queue (R338) -/

def setQueueOf (s : State) (g : GId) (q : Nat) (ops : List MatOp) : State :=
  s.modGroup g fun x => { x with mq := Tbl.put x.mq q ops }
/-- The first operation of a queue not yet performed, with what stands before and after it. -/
def firstPending : List MatOp → Option (List MatOp × MatOp × List MatOp)
  | [] => none
  | o :: rest =>
    if o.performed then (firstPending rest).map fun p => (o :: p.1, p.2) else some ([], o, rest)

/-- The accumulator block of a quarter (R32). -/
def accBlock (x : Group) (q acc : Nat) : Nat := x.accFirst + q * x.accCount + acc

/-- The quarter's first mention of a working accumulator of a busy `tgemm`: it and the tiles to come are
undefined (R357). -/
def touchAcc (s : State) (g : GId) (q acc : Nat) : State :=
  let b := accBlock (s.group g) q acc
  match tileOfBlock s g.core g.bank b with
  | some _ => spoilTile (spoilBlock s g.core g.bank b) g.core g.bank b
  | none => s

/-- The cause of a word that names an accumulator at or beyond the count of its group (R223). -/
def accCheck (acc : Reg4) (s : State) (t : TId) : Option Nat :=
  if acc.val < (s.group (groupOf s t)).accCount then none else some cUNDEF

/-- An operation accepted into the queue of the quarter that executes (R338). -/
def acceptMat (acc : Reg4) (kind : MatKind) (g : GId) (t : TId) (ts : List TId) (s : State) : State :=
  let q := quarterOf s t
  let x := s.group g
  let s := noteMatrix (touchAcc s g q acc.val) g.core
  let op : MatOp :=
    { acc := acc.val, kind := kind, pc := (s.thread t).pc, lanes := ts.map fun u => homeLane s u % 8
      window := Tbl.getD x.fenceAt q x.placedAt, before := Tbl.getD x.fenceOrder q [] }
  seqAll (setQueueOf s g q (queueOf x q ++ [op])) ts

/-! ## mma (R344 to R346) -/

/-- An operand that an `mma` word names. -/
def mmaOpnd (s : State) (t : TId) (desc : Bool) (r : Reg) (fmt : Nat) : MatOpnd :=
  if desc then .desc (readS s t r) (readS s t (oddOf r)) else .lanes r fmt

/-- Whether a register holds poison that an operation would compute with (R208). -/
def mmaPoison (s : State) (g : GId) (t : TId) (acc : Reg4) (a b : MatOpnd) (shape : W64) (sparse : Option W64)
    (ts : List TId) : Bool :=
  let q := quarterOf s t
  let i := issuerOf s g
  let k := shapeK shape
  let here (o : MatOpnd) (r : Nat) : Bool := !o.isLanes || (ts.any fun u => homeLane s u % 8 == r)
  let bad (x : Option (List Source)) : Bool := (x.getD []).any (sourceBad s)
  ((List.range (shapeM shape)).any fun r => here a r && bad (rowSources s i g q a sparse k r))
    || ((List.range (shapeN shape)).any fun j => here b j && bad (colSources s i g q b k j))
    || (List.range (shapeM shape)).any fun r =>
        memPoisoned s (accAddr g.core g.bank (accBlock (s.group g) q acc.val) r 0) (4 * shapeN shape)

/-- An `mma` of a quarter. -/
def mmaColl (fp8 : Bool) (fmt : Nat) (acc : Reg4) (a b : Reg) (sh : Fin 16) (src : MmaSrc) (sp : Bool)
    (g : GId) (t : TId) (ts : List TId) (s : State) : Except Stop State :=
  let shape := readS s t (highReg sh)
  let sparse := if sp then some (readS s t (oddOf (highReg sh))) else none
  let oa := mmaOpnd s t (src == .dd || src == .dv) a fmt
  let ob := mmaOpnd s t (src == .dd || src == .vd) b fmt
  if !mmaOk oa ob shape sparse fp8 then .error (.trap cUNDEF 0)
  else if mmaPoison s g t acc oa ob shape sparse ts then .error (.fault { kind := kPOISON })
  else .ok (acceptMat acc (.mma oa ob shape sparse fp8) g t ts s)

def execMmaE4m3 (acc : Reg4) (a b : Reg) (sh : Fin 16) (src : MmaSrc) (sp : Bool) (la : La) (s : State) : Result :=
  collExec (.mmaE4m3 acc a b sh src sp la) .quarter (accCheck acc) (mmaColl true 3 acc a b sh src sp) s
def execMmaE5m2 (acc : Reg4) (a b : Reg) (sh : Fin 16) (src : MmaSrc) (sp : Bool) (la : La) (s : State) : Result :=
  collExec (.mmaE5m2 acc a b sh src sp la) .quarter (accCheck acc) (mmaColl true 4 acc a b sh src sp) s
def execMmaBf16 (acc : Reg4) (a b : Reg) (sh : Fin 16) (src : MmaSrc) (sp : Bool) (la : La) (s : State) : Result :=
  collExec (.mmaBf16 acc a b sh src sp la) .quarter (accCheck acc) (mmaColl false 2 acc a b sh src sp) s
def execMmaF16 (acc : Reg4) (a b : Reg) (sh : Fin 16) (src : MmaSrc) (sp : Bool) (la : La) (s : State) : Result :=
  collExec (.mmaF16 acc a b sh src sp la) .quarter (accCheck acc) (mmaColl false 1 acc a b sh src sp) s

/-! ## acczero, accmov (R351, R352) -/

def execAcczero (acc : Reg4) (s : State) : Result :=
  collExec (.acczero acc) .quarter (accCheck acc) (fun g t ts s => .ok (acceptMat acc .zero g t ts s)) s

/-- Element (lane, col) into one lane's register: open while an operation on the accumulator is pending
(R350), or a `tgemm` works in it (R357). -/
def accmovLane (acc : Reg4) (d col : Reg) (g : GId) (s : State) (t : TId) : State :=
  let b := accBlock (s.group g) (quarterOf s t) acc.val
  let a := accAddr g.core g.bank b (homeLane s t % 8) col.val
  let x : W64 := if blockPending s g.core g.bank b then (Config.freeWord s.tick (drawPlace t 2000)).setWidth 64
    else BitVec.ofNat 64 (readLE s.mem a 4)
  seqPc (landLane s t d false x (memPoisoned s a 4)) t

def execAccmov (acc : Reg4) (d col : Reg) (s : State) : Result :=
  collExec (.accmov acc d col) .quarter (accCheck acc) (fun g t ts s =>
    .ok (ts.foldl (accmovLane acc d col g) (touchAcc s g (quarterOf s t) acc.val))) s

/-! ## mfence (R349) -/

/-- Whether every earlier instruction of threads has written its lane registers. -/
def lanesLanded (s : State) (ts : List TId) : Bool :=
  ts.all fun t => (s.thread t).outs.all fun o =>
    match o.dest with
    | .lane _ _ => false
    | _ => true

/-- A thread's scratchpad stores are performed. -/
def performSpad (s : State) (t : TId) : State :=
  publishN s t (prefixThrough (fun e => e.ty == .spad) (s.thread t).sb)

/-- The completion of an `mfence`: scratchpad stores performed, and the window of later operations
begins. -/
def completeFence (g : GId) (q : Nat) (ts : List TId) (s : State) : State :=
  let s := (publishHeld (ts.foldl performSpad s) g.core)
  let c := knownToAll s ts
  s.modGroup g fun x => { x with fenceAt := Tbl.put x.fenceAt q s.tick, fenceOrder := Tbl.put x.fenceOrder q c }

def execMfence (s : State) : Result :=
  collExec .mfence .quarter anyGroup (fun g t ts s =>
    .ok (if lanesLanded s ts then seqAll (completeFence g (quarterOf s t) ts s) ts
      else ts.foldl (fun s u => enterWait s u (.matrix true)) s)) s

/-- The threads of a quarter that wait for the completion of an `mfence` or `mwait`. -/
def matrixWaiters (s : State) (g : GId) (q : Nat) (fence : Bool) : List TId :=
  (liveThreads s g).filter fun t => quarterOf s t == q && (s.thread t).wait == .matrix fence

/-- The end of a matrix completion: the threads go on at the next word. -/
def passMatrix (s : State) (ts : List TId) : State := ts.foldl (fun s t => seqPc (endWait s t) t) s

/-- MFENCE_COMPLETE. -/
def execMfenceComplete (g : GId) (quarter : Nat) (s : State) : Result :=
  match matrixWaiters s g quarter true with
  | [] => pass s
  | t :: ts =>
    if lanesLanded s (t :: ts) then .next (passMatrix (completeFence g quarter (t :: ts) s) (t :: ts))
    else pass s

/-! ## mwait (R348, R349) -/

/-- An element of an accumulator of a group. -/
def elemAddr (g : GId) (x : Group) (q acc row col : Nat) : Nat :=
  accAddr g.core g.bank (accBlock x q acc) row col

/-- The elements that an operation computed from an unstable word become undefined (R348); its flags are those of the
values it read (DESIGN CHOICE, log 46). -/
def unsettle (s : State) (g : GId) (q : Nat) (op : MatOp) : State :=
  match op.kind with
  | .zero => s
  | .mma a b shape sparse _ =>
    let i := issuerOf s g
    let k := shapeK shape
    let moved (x : Option (List Source)) : Bool := (x.getD []).any (sourceMoved s g op.window op.before)
    let rows := op.rows.filter fun r => moved (rowSources s i g q a sparse k r)
    let cols := op.cols.filter fun j => moved (colSources s i g q b k j)
    let cells := op.rows.flatMap fun r => (op.cols.filter fun j => rows.contains r || cols.contains j).map fun j => (r, j)
    cells.foldl (fun s c =>
      let a := elemAddr g (s.group g) q op.acc c.1 c.2
      s.setMem (writeLE s.mem a 4 (Config.freeWord s.tick a).toNat)) s

/-- The operations of a queue after which no `acczero` of the same accumulator stands. -/
def unzeroed : List MatOp → List MatOp
  | [] => []
  | o :: rest =>
    if rest.any fun p => p.acc == o.acc && p.kind == .zero then unzeroed rest else o :: unzeroed rest

/-- What a block holds as of the latest `mwait` is kept before it first changes (R218). -/
def keepAcc (s : State) (g : GId) (block : Nat) : State :=
  let x := s.group g
  let k := block - x.accFirst
  if Tbl.has x.accOld k then s
  else s.modGroup g fun y => { y with accOld := Tbl.put y.accOld k (readBytes s.mem (accAddr g.core g.bank block 0 0) 2048) }

/-- The completion of an `mwait`: no operation stays pending. -/
def completeWait (g : GId) (q : Nat) (s : State) : State :=
  let ops := queueOf (s.group g) q
  let s := setQueueOf ((unzeroed ops).foldl (fun s o => unsettle s g q o) s) g q []
  s.modGroup g fun x => { x with accOld := x.accOld.filter fun e => e.1 / Nat.max 1 x.accCount != q }

/-- Whether every operation of a queue has been performed. -/
def allPerformed (x : Group) (q : Nat) : Bool := (queueOf x q).all fun o => o.performed

def execMwait (s : State) : Result :=
  collExec .mwait .quarter anyGroup (fun g t ts s =>
    .ok (if allPerformed (s.group g) (quarterOf s t) then seqAll (completeWait g (quarterOf s t) s) ts
      else ts.foldl (fun s u => enterWait s u (.matrix false)) s)) s

/-- MWAIT_COMPLETE. -/
def execMwaitComplete (g : GId) (quarter : Nat) (s : State) : Result :=
  match matrixWaiters s g quarter false with
  | [] => pass s
  | t :: ts =>
    if allPerformed (s.group g) quarter then .next (passMatrix (completeWait g quarter s) (t :: ts))
    else pass s

/-! ## Performing an operation (R346, R351) -/

/-- The threads of a group that wait for a quarter's queue, or for the tile sequencer, perform their words again: each
wait ends on its own event (R149). -/
def wakeQueue (s : State) (g : GId) (q : Option Nat) : State := retryWaits s fun t w => w == .queue q && groupOf s t == g

/-- An operation of a queue performed: its entry frees. -/
def donePerform (s : State) (g : GId) (q : Nat) (pre : List MatOp) (op : MatOp) (post : List MatOp) : State :=
  relevel (releaseGroup (wakeQueue (setQueueOf s g q (pre ++ { op with performed := true } :: post)) g (some q)) g) (g.core / 2)

/-- One element of an `mma` written: `row` is nothing where its metadata does not ascend. -/
def mmaCell (g : GId) (q acc : Nat) (row : Option (List (Nat × XReal))) (col : Nat → XReal) (poison : Bool)
    (r j : Nat) (s : State) (f : Flags) : State × Flags :=
  let a := elemAddr g (s.group g) q acc r j
  let (x, fl) := match row with
    | none => ((Config.freeWord s.tick a).toNat, (0 : Flags))
    | some es => mmaElement (readLE s.mem a 4) (es.map fun e => (e.2, col e.1))
  (setMemPoison (s.setMem (writeLE s.mem a 4 x)) a 4 (poison || memPoisoned s a 4), f ||| fl)

/-- The products that an operation performs for one element. -/
def productsOf (sparse : Option W64) (k : Nat) : Nat := storedK sparse k

/-- An `mma` whose operands all lie inside their windows. -/
def runMma (s : State) (g : GId) (q acc : Nat) (a b : MatOpnd) (shape : W64) (sparse : Option W64) (fp8 : Bool)
    (rows cols : List Nat) (bad : Bool) : State :=
  let i := issuerOf s g
  let k := shapeK shape
  let s0 := s
  let (s, f) := rows.foldl (fun (p : State × Flags) r =>
    let row := rowElems s0 i g q a sparse k r
    cols.foldl (fun (p : State × Flags) j =>
      mmaCell g q acc row (fun x => colElem s0 i g q b x j) bad r j p.1 p.2) p) (s, 0)
  countCore (orFlags s g f) g.core (if fp8 then 4 else 5) (rows.length * cols.length * productsOf sparse k)

/-- The lowest team thread index among the live threads of a quarter, which the record of an operand outside its window
names (R341), or of its group where none lives (R200) (DEDUCED, log 27). -/
def quarterTti (s : State) (g : GId) (q : Nat) : Nat :=
  match ((liveThreads s g).filter fun t => quarterOf s t == q).map fun t => (s.thread t).tti with
  | [] => lowestTti s g
  | x :: xs => xs.foldl Nat.min x

/-- MMA_PERFORM: the first operation of the quarter's queue. An operand outside its window leaves the
accumulator undefined and files a record of the matrix unit, by whose answer the launch ends: the group is
not released before (R341) (DEDUCED, log 27). -/
def execMmaPerform (g : GId) (quarter : Nat) (s : State) : Result :=
  match firstPending (queueOf (s.group g) quarter) with
  | none => pass s
  | some (pre, op, post) =>
    match op.kind with
    | .zero => pass s
    | .mma a b shape sparse fp8 =>
      if (s.group g).live then
        let i := issuerOf s g
        let k := shapeK shape
        let rows := (List.range (shapeM shape)).filter fun r => !a.isLanes || op.lanes.contains r
        let cols := (List.range (shapeN shape)).filter fun j => !b.isLanes || op.lanes.contains j
        let rs := rows.map fun r => rowSources s i g quarter a sparse k r
        let cs := cols.map fun j => colSources s i g quarter b k j
        if (rs ++ cs).all Option.isSome then
          let bad := (rs ++ cs).any fun x => (x.getD []).any (sourceBad s)
          let s := keepAcc s g (accBlock (s.group g) quarter op.acc)
          let s := runMma s g quarter op.acc a b shape sparse fp8 rows cols bad
          .next (donePerform s g quarter pre { op with rows := rows, cols := cols } post)
        else
          let s := keepAcc s g (accBlock (s.group g) quarter op.acc)
          let s := spoilBlock s g.core g.bank (accBlock (s.group g) quarter op.acc)
          let r := { engineRec s g 3 g.slot { kind := kADDRFORM } op.pc 0 with tti := quarterTti s g quarter }
          let s := (engineFault s g r (.matrix g quarter)).modGroup g fun x => { x with fatal := true }
          .next (donePerform s g quarter pre op post)
      else pass s

/-- ACCZERO_PERFORM: 512 elements of +0. -/
def execAcczeroPerform (g : GId) (quarter : Nat) (s : State) : Result :=
  match firstPending (queueOf (s.group g) quarter) with
  | none => pass s
  | some (pre, op, post) =>
    match op.kind with
    | .mma _ _ _ _ _ => pass s
    | .zero =>
      if (s.group g).live then
        let s := keepAcc s g (accBlock (s.group g) quarter op.acc)
        let s := zeroBytes s (elemAddr g (s.group g) quarter op.acc 0 0) 2048
        .next (donePerform s g quarter pre op post)
      else pass s

end Sys2Proof.Machine
end

