-- ==== Sys2Proof/Machine/Tensor.lean ====
section
/-! DEFINITION. Tensor identifier entries (R114 to R117) and what they name: rows, vectors of elements,
scales and sparsity metadata, as tile instructions and tile-copy nodes read and write them. -/

namespace Sys2Proof.Machine

/-! ## Entries (R114, R115) -/

/-- A tensor identifier entry. -/
abbrev TEntry := Vector W64 4

def tWord (e : TEntry) (w : Nat) : Nat := (e.getD w 0).toNat
def tRank (e : TEntry) : Nat := bitsOf (tWord e 0) 63 62 + 1
def tFmtCode (e : TEntry) : Nat := bitsOf (tWord e 0) 61 57
def tBase (e : TEntry) : Nat := bitsOf (tWord e 0) 56 0
/-- The extent of a dimension: 1 at or above the rank. -/
def tExt (e : TEntry) (d : Nat) : Nat := if d < tRank e then bitsOf (tWord e 1) (16 * d + 15) (16 * d) + 1 else 1
def tSpn (e : TEntry) : Nat := bitsOf (tWord e 2) 63 62
/-- The stride of a dimension above 0 in bytes. -/
def tStride (e : TEntry) (d : Nat) : Nat :=
  if d = 1 then bitsOf (tWord e 2) 23 0
  else if d = 2 then bitsOf (tWord e 2) 42 24 * 4096
  else bitsOf (tWord e 2) 61 43 * 4096
def tSlay (e : TEntry) : Nat := bitsOf (tWord e 3) 61 60
def tMeta (e : TEntry) : Nat := tBase e + bitsOf (tWord e 3) 59 30 * 4096
def tScales (e : TEntry) : Nat := tBase e + bitsOf (tWord e 3) 29 0 * 4096
def tFmt (e : TEntry) : Option EFmt := eFmtOf (tFmtCode e)

/-- Whether an entry has one of some format codes. -/
def tHasFmt (e : TEntry) (codes : List Nat) : Bool := codes.contains (tFmtCode e)

/-- The check of R115. -/
def entryOk (e : TEntry) : Bool :=
  match tFmt e with
  | none => false
  | some f =>
    tSpn e != 3 && tSlay e != 3
      && (tSpn e == 0 || tExt e 0 % 16 == 0)
      && (tSlay e == 0 || tHasFmt e [3, 4, 2, 1])
      && (tSpn e == 0 || !f.isBlock)

/-- The format of an entry that R115 accepts. -/
def tElem (e : TEntry) : EFmt := (tFmt e).getD (.flt fp32)

/-- Whether two entries have one shape: rank and extents (R358, R359). -/
def sameShape (a b : TEntry) : Bool := tRank a == tRank b && (List.range 4).all fun d => tExt a d == tExt b d

/-- The rows of a tensor: dimension 1 fastest, then 2, then 3 (R358). -/
def tRows (e : TEntry) : Nat := tExt e 1 * tExt e 2 * tExt e 3
/-- The elements of a tensor. -/
def tCount (e : TEntry) : Nat := tRows e * tExt e 0

/-- The coordinates of a flattened row. -/
def rowCoord (e : TEntry) (r d : Nat) : Nat :=
  if d = 1 then r % tExt e 1
  else if d = 2 then r / tExt e 1 % tExt e 2
  else r / (tExt e 1 * tExt e 2)

/-- The address at which a row begins. -/
def rowAddr (e : TEntry) (r : Nat) : Nat :=
  tBase e + rowCoord e r 1 * tStride e 1 + rowCoord e r 2 * tStride e 2 + rowCoord e r 3 * tStride e 3

/-- The kept elements of each 16, all of them in a dense tensor (R117). -/
def tKept (e : TEntry) : Nat := if tSpn e = 1 then 8 else if tSpn e = 2 then 4 else 16

/-- The bytes from the base to the end of the last row. -/
def tSpan (e : TEntry) : Nat :=
  rowAddr e (tRows e - 1) - tBase e + (tElem e).rowBytes (tExt e 0 * tKept e / 16)

/-- The index of an element's scale (R116). -/
def scaleIndex (e : TEntry) (i0 r : Nat) : Nat :=
  let c := ceilDiv (tExt e 0) 128
  let i1 := rowCoord e r 1
  let hi := rowCoord e r 3 * tExt e 2 + rowCoord e r 2
  if tSlay e = 2 then (hi * ceilDiv (tExt e 1) 128 + i1 / 128) * c + i0 / 128
  else (hi * tExt e 1 + i1) * c + i0 / 128
/-- The address of an element's scale. -/
def scaleAddr (e : TEntry) (i0 r : Nat) : Nat := tScales e + 4 * scaleIndex e i0 r
/-- The bytes that the scales of a tensor take. -/
def scaleSpan (e : TEntry) : Nat :=
  if tSlay e = 0 then 0 else 4 * (scaleIndex e (tExt e 0 - 1) (tRows e - 1) + 1)

/-- The bytes of one group's metadata, and the address of group `j` of a row (R117). -/
def groupMeta (e : TEntry) : Nat := tKept e / 2
def metaAddr (e : TEntry) (r j : Nat) : Nat := tMeta e + (r * (tExt e 0 / 16) + j) * groupMeta e
/-- The bytes that the metadata of a tensor takes. -/
def metaSpan (e : TEntry) : Nat := if tSpn e = 0 then 0 else tRows e * (tExt e 0 / 16) * groupMeta e

/-! ## Byte ranges -/

/-- A range of virtual addresses: its first byte and its length. -/
abbrev VRange := Nat × Nat

/-- Whether two ranges share a byte. -/
def rangesMeet (a b : VRange) : Bool := overlaps a.1 a.2 b.1 b.2

/-- The intervals of a tensor: its rows, its metadata, and its scales where the operation has them (R359). -/
def tIntervals (scaled : Bool) (e : TEntry) : List VRange :=
  [(tBase e, tSpan e), (tScales e, if scaled then scaleSpan e else 0), (tMeta e, metaSpan e)].filter fun r => r.2 != 0

/-- Whether a destination overlaps a source by interval (R360): the scales of either count where the operation writes or
reads them. -/
def tOverlap (dstScaled srcScaled : Bool) (dst : TEntry) (srcs : List TEntry) : Bool :=
  (tIntervals dstScaled dst).any fun a => srcs.any fun e => (tIntervals srcScaled e).any (rangesMeet a)

/-- The addresses of the bytes of ranges. -/
def rangeVas (rs : List VRange) : List Nat := rs.flatMap fun r => (List.range r.2).map fun j => (r.1 + j) % 2 ^ 64

/-- The physical bytes of ranges, translated in order. -/
def reachRanges (s : State) (i : Issuer) (k : Access) : List VRange → Except EngineStop (List (Nat × MemTy))
  | [] => .ok []
  | r :: rest => do
    let ps ← reachBytes s i k r.1 r.2
    let qs ← reachRanges s i k rest
    .ok (ps ++ qs)

/-- The number in a range that has been translated. -/
def peek (s : State) (i : Issuer) (r : VRange) : Nat :=
  match reachBytes s i .load r.1 r.2 with
  | .ok ps => engineValue s ps
  | .error _ => 0

/-! ## Vectors of elements (R90, R104, R105, R117) -/

/-- The bytes of elements p to p + n − 1 of a dense row, p being a multiple of 32. -/
def vecRange (e : TEntry) (r p n : Nat) : VRange :=
  match tElem e with
  | .blk f => (rowAddr e r + p / 32 * recordBytes f, ceilDiv n 32 * recordBytes f)
  | k => (rowAddr e r + p * k.bits / 8, ceilDiv (n * k.bits) 8)

/-- Element `j` of a number that holds a vector of a format. -/
def elemOf (k : EFmt) (x j : Nat) : XReal :=
  match k with
  | .blk f =>
    let rec_ := x / 2 ^ (8 * (j / 32 * recordBytes f)) % 2 ^ (8 * recordBytes f)
    blockValue f (rec_ % 256) (rec_ / 2 ^ (8 + f.width * (j % 32)) % 2 ^ f.width)
  | _ => k.value (x / 2 ^ (k.bits * j) % 2 ^ k.bits)

/-- The values of elements p to p + n − 1 of a dense row. -/
def denseVec (s : State) (i : Issuer) (e : TEntry) (r p n : Nat) : List XReal :=
  let x := peek s i (vecRange e r p n)
  (List.range n).map fun j => elemOf (tElem e) x j

/-- The stored elements and the metadata of elements p to p + n − 1 of a row, both multiples of 16. -/
def sparseRanges (e : TEntry) (r p n : Nat) : List VRange :=
  [vecRange e r (p * tKept e / 16) (n * tKept e / 16), (metaAddr e r (p / 16), n / 16 * groupMeta e)]

/-- The ranges that a vector of a row is read from. -/
def vecRanges (e : TEntry) (r p n : Nat) : List VRange :=
  if tSpn e = 0 then [vecRange e r p n] else sparseRanges e r p n

/-- The logical elements of a vector, a skipped one being none; nothing where metadata does not ascend
(R117). -/
def logicalVec (s : State) (i : Issuer) (e : TEntry) (r p n : Nat) : Option (List (Option XReal)) :=
  if tSpn e = 0 then some ((denseVec s i e r p n).map some)
  else
    let kept := tKept e
    let x := peek s i (vecRange e r (p * kept / 16) (n * kept / 16))
    let m := peek s i (metaAddr e r (p / 16), n / 16 * groupMeta e)
    let groups := (List.range (n / 16)).map fun j => (List.range kept).map fun k => m / 2 ^ (4 * (j * kept + k)) % 16
    if groups.all ascends then
      some ((List.range n).map fun l =>
        ((groups.getD (l / 16) []).idxOf? (l % 16)).map fun k => elemOf (tElem e) x (l / 16 * kept + k))
    else none

/-- The scale of a vector: 1.0 where the tensor has none (R111). -/
def scaleRanges (e : TEntry) (i0 r : Nat) : List VRange := if tSlay e = 0 then [] else [(scaleAddr e i0 r, 4)]
def scaleOf (s : State) (i : Issuer) (e : TEntry) (i0 r : Nat) : Nat :=
  if tSlay e = 0 then f32One else peek s i (scaleAddr e i0 r, 4)

/-! ## The vectors of a row by step (R358) -/

/-- The vectors of a row, and of a tensor. -/
def rowVecs (e : TEntry) : Nat := ceilDiv (tExt e 0) 128
def tVecs (e : TEntry) : Nat := tRows e * rowVecs e
/-- The row, first element and length of a vector. -/
def vecAt (e : TEntry) (v : Nat) : Nat × Nat × Nat :=
  let p := v % rowVecs e * 128
  (v / rowVecs e, p, Nat.min 128 (tExt e 0 - p))

/-! ## Writing a vector (R90, R104, R106) -/

/-- Codes of `w` bits packed into bytes; the bits past the last code are open (DESIGN CHOICE, log 49). -/
def packCodes (tick place w : Nat) (codes : List Nat) : List Byte :=
  let n := ceilDiv (w * codes.length) 8
  let pad := (Config.freeNat tick place) % 2 ^ (8 * n - w * codes.length)
  toBytes n (codes.foldr (fun c acc => c % 2 ^ w + acc * 2 ^ w) pad)

/-- One block record of 32 values. -/
def packBlock (f : Fmt) (xs : List XReal) : List Byte × Flags :=
  let full := xs ++ List.replicate (32 - xs.length) .zero
  let (scale, codes, fl) := encodeBlock f full
  (BitVec.ofNat 8 scale :: toBytes (recordBytes f - 1) (codes.foldr (fun c acc => c % 2 ^ f.width + acc * 2 ^ f.width) 0), fl)

/-- Values converted into an entry's format and packed (R359). -/
def packVec (tick place : Nat) (k : EFmt) (c : RoundCtl) (xs : List XReal) : List Byte × Flags :=
  match k with
  | .blk f =>
    (chunksOf 32 (xs.length + 1) xs).foldl (fun acc ys =>
      let (bs, fl) := packBlock f ys
      (acc.1 ++ bs, acc.2 ||| fl)) ([], 0)
  | _ =>
    let rs := xs.map fun x => k.round c x
    (packCodes tick place k.bits (rs.map Prod.fst), rs.foldl (fun acc r => acc ||| r.2) 0)

/-- Bytes from a virtual address upward. -/
def placeBytes (va : Nat) (bs : List Byte) : List (Nat × Byte) := (List.range bs.length).map fun j => (va + j, bs.getD j 0)

end Sys2Proof.Machine
end

