-- ==== Sys2Proof/Machine/Tile.lean ====
section
/-! DEFINITION. The tile sequencer (R353 to R361): `tidget` and `tidset`, the issue of `tgemm`, `tquant` and
`tcopy`, and their numbered steps. -/

namespace Sys2Proof.Machine

/-! ## The entries of a context (R353, R354) -/

/-- An entry of a group's context: zero where nothing has set it. -/
def tidEntry (s : State) (g : GId) (k : Reg) : TEntry :=
  Tbl.getD (s.ctx (ctxOf s g)).tid k.val (Vector.replicate 4 0)

def execTidget (x t : Reg) (w : Reg4) (s : State) : Result :=
  groupExec (.tidget x t w) (setUniform x fun s u => (tidEntry s (groupOf s u) t).get w) s

/-- A word of an entry set. -/
def setTid (s : State) (g : GId) (k : Reg) (w : Reg4) (x : W64) : State :=
  let c := s.ctx (ctxOf s g)
  s.setCtx (ctxOf s g) { c with tid := Tbl.put c.tid k.val ((tidEntry s g k).set w.val (tidMask w.val x) w.isLt) }

def execTidset (t : Reg) (w : Reg4) (x : Reg) (s : State) : Result :=
  groupExec (.tidset t w x) (fun g u ts s => .ok (seqAll (setTid s g t w (readS s u x)) ts)) s

/-! ## Checks of the entries (R356, R358, R359) -/

/-- Formats by pairs: FP8, and sixteen bits. -/
def bothIn (a b : TEntry) (codes : List Nat) : Bool := tHasFmt a codes && tHasFmt b codes

def gemmOk (c a b : TEntry) : Bool :=
  entryOk c && entryOk a && entryOk b && tRank c == 2 && tRank a == 2 && tRank b == 2
    && (bothIn a b [3, 4] || bothIn a b [1, 2]) && tHasFmt c [0, 1, 2]
    && tSpn b == 0 && tSpn c == 0 && tSlay c == 0
    && tExt a 0 == tExt b 0 && tExt a 1 == tExt c 1 && tExt b 1 == tExt c 0

def quantOk (d x : TEntry) : Bool :=
  entryOk d && entryOk x && tHasFmt x [0, 1, 2] && tHasFmt d [3] && tSlay d == 1 && tSpn d == 0 && tSpn x == 0
    && sameShape d x

/-- Whether a format is an integer. -/
def EFmt.isInt : EFmt → Bool
  | .int _ => true
  | _ => false

def tileCopyOk (d x : TEntry) (rm : TileRm) (sat : Bool) : Bool :=
  entryOk d && entryOk x && tSpn d == 0 && tSpn x == 0 && sameShape d x
    && !((tElem d).isBlock && rm != .rn) && !(sat && (tElem d).isInt)

/-- The check of an operation's entries. -/
def tileOk (o : TileOp) : Bool :=
  match o.kind with
  | .gemm => gemmOk o.dst o.srcA o.srcB
  | .quant => quantOk o.dst o.srcA
  | .copy rm sat => tileCopyOk o.dst o.srcA rm sat

/-- The bytes an operation writes (R356, R358, R359). -/
def tileTotal (o : TileOp) : Nat :=
  match o.kind with
  | .gemm => tExt o.dst 0 * tExt o.dst 1 * ((tElem o.dst).bits / 8)
  | .quant => tCount o.dst + 4 * tVecs o.dst
  | .copy _ _ => tRows o.dst * (tElem o.dst).rowBytes (tExt o.dst 0)

/-! ## Issue (R355) -/

/-- Whether operations of the quarters that a `tgemm` works in are still to be performed: it is accepted once they have
been (R357). -/
def gemmQueued (x : Group) : Bool := (List.range 4).any fun q => !allPerformed x q

/-- Until a group's `tgemm` is accepted, its threads issue no further than the lookahead says (R234). -/
def awaitAccept (s : State) (g : GId) (ts : List TId) (la : La) : State :=
  if ((s.group g).tile.any fun o => o.kind == .gemm) && gemmQueued (s.group g) then
    let (id, s) := s.takeFresh
    ts.foldl (fun s t => addOut s t id .accept la .joint false) s
  else s
/-- The acceptance of a group's tile operation. -/
def acceptTile (s : State) (g : GId) : State :=
  (groupThreads s g).foldl (fun s t =>
    ((s.thread t).outs.filter fun o => o.dest == .accept).foldl (fun s o => s.modThread t (dropOut o.id)) s) s

/-- A tile word of a group: the barrier, the group, the entries. -/
def tileColl (kind : TileKind) (d a b : Reg) (bar : Fin 16) (la : La) (g : GId) (t : TId) (ts : List TId) (s : State) :
    Except Stop State := do
  let x := s.group g
  let p ← reachBar s t (readS s t (highReg bar))
  let o : TileOp :=
    { kind := kind, dst := tidEntry s g d, srcA := tidEntry s g a, srcB := tidEntry s g b, bar := p.pa
      nbv1 := x.nbv1, pc := (s.thread t).pc }
  if kind == .gemm && (x.width == 16 || x.accCount == 0) then .error (.trap cUNDEF 0)
  else if !tileOk o then .error (.trap cTID 0)
  else
    let s := barExpect (popPlan s) p (tileTotal o)
    let s := if kind == .gemm then noteMatrix s g.core else s
    let s := s.modGroup g fun y => { y with tile := some o, stepNo := 0, busy := true }
    .ok (seqAll (awaitAccept (engineRelease s p.pa ts) g ts la) ts)

def execTgemm (tc ta tb : Reg) (bar : Fin 16) (la : La) (s : State) : Result :=
  collExec (.tgemm tc ta tb bar la) .group anyGroup (tileColl .gemm tc ta tb bar la) s
def execTquant (td ts : Reg) (bar : Fin 16) (la : La) (s : State) : Result :=
  collExec (.tquant td ts bar la) .group anyGroup (tileColl .quant td ts ts bar la) s
def execTcopy (td ts : Reg) (rm : TileRm) (sat : Bool) (bar : Fin 16) (la : La) (s : State) : Result :=
  collExec (.tcopy td ts rm sat bar la) .group anyGroup (tileColl (.copy rm sat) td ts ts bar la) s

/-! ## The steps -/

/-- What a step changes: bytes of memory, accumulator words, flags, and the products it performs. -/
structure TileEffect where
  mem : List (Nat × Byte) := []
  acc : List (Nat × Nat) := []
  flags : Flags := 0
  products : Nat := 0
  /-- how many of the last bytes are no elements, but a scale (R360) -/
  scales : Nat := 0
  deriving DecidableEq, Repr

/-! ### tgemm (R357) -/

/-- The block length along K (R111). -/
def gemmBlock (o : TileOp) : Nat := if tHasFmt o.srcA [3, 4] then 128 else 64
def gemmKB (o : TileOp) : Nat := ceilDiv (tExt o.srcA 0) (gemmBlock o)
def gemmTJ (o : TileOp) : Nat := ceilDiv (tExt o.srcB 1) 64
def gemmSteps (o : TileOp) : Nat := ceilDiv (tExt o.srcA 1) 32 * gemmTJ o * gemmKB o

/-- A step of a `tgemm`: its first row and column, its K-block, and how many of each it has. -/
structure GemmStep where
  i0 : Nat
  j0 : Nat
  kb : Nat
  rows : Nat
  cols : Nat
  lo : Nat
  n : Nat
  deriving DecidableEq, Repr

def gemmStep (o : TileOp) (k : Nat) : GemmStep :=
  let t := k / gemmKB o
  let kb := k % gemmKB o
  let i0 := 32 * (t / gemmTJ o)
  let j0 := 64 * (t % gemmTJ o)
  { i0 := i0, j0 := j0, kb := kb, rows := Nat.min 32 (tExt o.srcA 1 - i0), cols := Nat.min 64 (tExt o.srcB 1 - j0)
    lo := kb * gemmBlock o, n := Nat.min (gemmBlock o) (tExt o.srcA 0 - kb * gemmBlock o) }

/-- The ranges that a step reads. -/
def gemmReads (o : TileOp) (x : GemmStep) : List VRange :=
  ((List.range x.rows).flatMap fun r =>
      vecRanges o.srcA (x.i0 + r) x.lo x.n ++ scaleRanges o.srcA x.lo (x.i0 + r))
    ++ (List.range x.cols).flatMap fun c =>
      vecRanges o.srcB (x.j0 + c) x.lo x.n ++ scaleRanges o.srcB x.lo (x.j0 + c)

/-- A working accumulator's address. -/
def gemmAcc (s : State) (g : GId) (r c : Nat) : Nat := elemAddr g (s.group g) (r / 8) 0 (r % 8) c

/-- Pairs along K, none where A skips the product. -/
def pairUp (a : List (Option XReal)) (b : List XReal) : List (Option (XReal × XReal)) :=
  (a.zip b).map fun p => p.1.map fun x => (x, p.2)

/-- One output element of a step: the new accumulator and its flags. -/
def gemmCell (s : State) (g : GId) (o : TileOp) (x : GemmStep) (a : Option (List (Option XReal))) (sa : Nat)
    (b : List XReal) (sb r c : Nat) : Nat × Flags :=
  let at_ := gemmAcc s g r c
  match a with
  | none => ((Config.freeWord s.tick at_).toNat, 0)
  | some es => promote o.nbv1 (if x.kb = 0 then 0 else readLE s.mem at_ 4) sa sb (pairUp es b)

/-- The accumulators of a step that starts a tile: +0 where nothing else is written. -/
def gemmZeros (s : State) (g : GId) (x : GemmStep) : List (Nat × Nat) :=
  if x.kb = 0 then
    (List.range 32).flatMap fun r => ((List.range 64).filter fun c => !(r < x.rows && c < x.cols)).map fun c =>
      (gemmAcc s g r c, 0)
  else []

/-- The bytes of a finished output element, with the flags of its conversion. -/
def gemmOut (o : TileOp) (x : GemmStep) (r c acc : Nat) : List (Nat × Byte) × Flags :=
  let f := match tElem o.dst with
    | .flt f => f
    | _ => fp32
  let (code, fl) := roundTo f rnCtl (ofF32 acc)
  let n := f.width / 8
  (placeBytes (rowAddr o.dst (x.i0 + r) + (x.j0 + c) * n) (toBytes n code), fl)

/-- What a step of a `tgemm` changes; the flags of a value that R117 leaves undefined are those of the free value
(DESIGN CHOICE, log 46). -/
def gemmEffect (s : State) (g : GId) (o : TileOp) (k : Nat) : TileEffect :=
  let i := issuerOf s g
  let x := gemmStep o k
  let cols := (List.range x.cols).map fun c =>
    (denseVec s i o.srcB (x.j0 + c) x.lo x.n, scaleOf s i o.srcB x.lo (x.j0 + c))
  let last := x.kb + 1 = gemmKB o
  (List.range x.rows).foldl (fun (e : TileEffect) r =>
    let a := logicalVec s i o.srcA (x.i0 + r) x.lo x.n
    let sa := scaleOf s i o.srcA x.lo (x.i0 + r)
    (List.range x.cols).foldl (fun (e : TileEffect) c =>
      let (b, sb) := cols.getD c ([], 0)
      let (acc, fl) := gemmCell s g o x a sa b sb r c
      let (out, fo) := if last then gemmOut o x r c acc else ([], 0)
      { mem := e.mem ++ out, acc := e.acc ++ [(gemmAcc s g r c, acc)], flags := e.flags ||| fl ||| fo
        products := e.products + x.n * tKept o.srcA / 16 }) e) { acc := gemmZeros s g x }

/-! ### tquant (R113, R358) and tcopy (R359) -/

/-- What a step of a `tquant` changes: the elements of its vector and their scale. -/
def quantEffect (s : State) (g : GId) (o : TileOp) (k : Nat) : TileEffect :=
  let i := issuerOf s g
  let (r, p, n) := vecAt o.srcA k
  let xs := denseVec s i o.srcA r p n
  let (scale, f0) := quantScale (maxMag (xs.map XReal.abs))
  let qs := xs.map fun x => quantElement x (ofF32 scale)
  { mem := placeBytes (rowAddr o.dst r + p) (qs.map fun q => BitVec.ofNat 8 q.1)
      ++ placeBytes (scaleAddr o.dst p r) (toBytes 4 scale)
    flags := qs.foldl (fun acc q => acc ||| q.2) f0
    scales := 4 }

/-- The bytes of one vector converted from one tensor to another, with the flags. -/
def copyVec (s : State) (i : Issuer) (dst src : TEntry) (c : RoundCtl) (k : Nat) : List (Nat × Byte) × Flags :=
  let (r, p, n) := vecAt src k
  let (bs, fl) := packVec s.tick (60001 + k) (tElem dst) c (denseVec s i src r p n)
  (placeBytes (vecRange dst r p n).1 bs, fl)

/-- What a step of a `tcopy` changes. -/
def copyEffect (s : State) (g : GId) (o : TileOp) (rm : TileRm) (sat : Bool) (k : Nat) : TileEffect :=
  let (mem, fl) := copyVec s (issuerOf s g) o.dst o.srcA ⟨TileRm.mode rm, sat, 0, o.nbv1⟩ k
  { mem := mem, flags := fl }

/-! ### A step of any operation -/

/-- The steps of an operation. -/
def tileSteps (o : TileOp) : Nat :=
  match o.kind with
  | .gemm => gemmSteps o
  | _ => tVecs o.srcA

/-- The ranges that a step reads. -/
def tileReads (o : TileOp) (k : Nat) : List VRange :=
  match o.kind with
  | .gemm => gemmReads o (gemmStep o k)
  | _ =>
    let (r, p, n) := vecAt o.srcA k
    [vecRange o.srcA r p n]

def tileEffect (s : State) (g : GId) (o : TileOp) (k : Nat) : TileEffect :=
  match o.kind with
  | .gemm => gemmEffect s g o k
  | .quant => quantEffect s g o k
  | .copy rm sat => copyEffect s g o rm sat k

/-- Whether the elements of a step are undefined: the destination overlaps a source, or a touched
accumulator has spoiled the tiles to come (R357, R360). `tquant` reads no scale and writes some, `tcopy` neither. -/
def tileOpen (o : TileOp) : Bool :=
  o.spoiled ||
    match o.kind with
    | .gemm => tOverlap true true o.dst [o.srcA, o.srcB]
    | .quant => tOverlap true false o.dst [o.srcA]
    | .copy _ _ => tOverlap false false o.dst [o.srcA]

/-- Whether a tile operation is paused: a live thread holds a user-level interrupt or runs its handler
(R209). -/
def tilePaused (s : State) (g : GId) : Bool :=
  (liveThreads s g).any fun t =>
    let x := s.thread t
    x.uint.isSome || (isHandling x && x.trapcause.toNat % 256 == cUINT)

/-- The operations performed in a working accumulator before the first step zeroes it: what they computed is gone
(R357). -/
def forgetCells (x : Group) : Group :=
  { x with mq := x.mq.map fun q =>
      if q.1 < 4 then (q.1, q.2.map fun op => if op.acc = 0 then { op with rows := [], cols := [] } else op) else q }

/-- Whether a step of a `tgemm` adds to an accumulator that holds poison (R208). -/
def gemmPoison (s : State) (g : GId) (o : TileOp) (k : Nat) : Bool :=
  let x := gemmStep o k
  o.kind == .gemm && x.kb != 0 &&
    (List.range x.rows).any fun r => (List.range x.cols).any fun c => memPoisoned s (gemmAcc s g r c) 4

/-- A step whose accesses all translate, to bytes at `dst`: where elements are undefined, scales are not (R360). -/
def runTile (s : State) (g : GId) (o : TileOp) (k : Nat) (e : TileEffect) (dst : List (Nat × MemTy)) : State :=
  let free := tileOpen o
  let bytes := (List.range dst.length).map fun j =>
    let p := dst.getD j (0, .wb)
    ({ pa := p.1, ty := p.2
       val := if free && decide (j + e.scales < dst.length) then Config.freeByte s.tick p.1 else (e.mem.getD j (0, 0)).2 } : EByte)
  let s := if e.acc.isEmpty then s
    else ((List.range 4).foldl (fun s q => keepAcc s g (accBlock (s.group g) q 0)) s).modGroup g fun x =>
      if k = 0 then forgetCells x else x
  let s := e.acc.foldl (fun s a => setMemPoison (s.setMem (writeLE s.mem a.1 4 a.2)) a.1 4 false) s
  let s := engineLand s (partOfCore s g.core) o.bar bytes
  let s := orFlags s g e.flags
  let s := countCore s g.core (if tHasFmt o.srcA [3, 4] then 4 else 5) (if o.kind == .gemm then e.products else 0)
  let s := countCore s g.core 15 bytes.length
  let last := k + 1 = tileSteps o
  let s := s.modGroup g fun y =>
    { y with stepNo := k + 1, busy := !last, tile := if last then none else some o }
  let s := if bytes.isEmpty then s else barLand s (barPlace s g.core o.bar) bytes.length
  if last then relevel (releaseGroup (wakeQueue s g none) g) (g.core / 2) else s

/-- A step that stops is held, and nothing has changed (R205). -/
def stopTile (s : State) (g : GId) (o : TileOp) (k : Nat) : EngineStop → Result
  | .fault f =>
    let s := s.modGroup g fun y => { y with tile := some { o with held := true, key := s.fresh } }
    .next (engineFault s g (engineRec s g 2 g.slot f o.pc k) (.tile g))
  | .remote n f => .next (holdRequest (s.modGroup g fun y => { y with tile := some { o with held := true } }) n (.tile g) f)

/-- A step: every address it reads or writes is translated before it changes anything (R205). A poisoned
source stops it. -/
def performTile (s : State) (g : GId) (o : TileOp) (k : Nat) : Result :=
  let i := issuerOf s g
  match reachRanges s i .load (tileReads o k) with
  | .error e => stopTile s g o k e
  | .ok src =>
    match poisonStop s i (rangeVas (tileReads o k)) src with
    | some f => stopTile s g o k f
    | none =>
    if gemmPoison s g o k then stopTile s g o k (.fault { kind := kPOISON })
    else
      let s1 := engineSnoop s src
      let e := tileEffect s1 g o k
      match reachRanges s1 i .store (e.mem.map fun b => (b.1, 1)) with
      | .error st => stopTile s g o k st
      | .ok dst =>
        let vas := rangeVas (tileReads o k) ++ e.mem.map Prod.fst
        if engineWaits s i vas then pass s else .next (runTile (engineWalks s1 i vas) g o k e dst)

/-- Whether the blocks that a group's working accumulators stand in are in place (R211, R215). -/
def tilePlaced (s : State) (g : GId) : Bool := isActive s g && inPlace s g

/-- TILE_SEQUENCER_STEP: the next step of a group's operation (R361), the first once it is accepted (R357). -/
def execTileSequencerStep (g : GId) (s : State) : Result :=
  match (s.group g).tile with
  | none => pass s
  | some o =>
    if o.held || tilePaused s g || !engineRuns s g.core || !tilePlaced s g
        || (o.kind == .gemm && (s.group g).stepNo == 0 && gemmQueued (s.group g)) then pass s
    else performTile (acceptTile s g) g o (s.group g).stepNo

end Sys2Proof.Machine
end

