-- ==== Sys2Proof/Machine/Waits.lean ====
section
/-! DEFINITION. What ends a wait: results that return (R50, R234), page walks (R181), aged paths (R45),
yields, bound waits and sweeps (R150, R289, R294), clock gating (R153 to R155), the delivery of
user-level interrupts (R209), illegal words (R222) and the publication of stores (R125). -/

namespace Sys2Proof.Machine

/-! ## What a core may do -/

/-- Whether a core issues and delivers: its partition is enabled, no swap is in progress and its clock
runs (R202, R210, R153, R418). -/
def coreRuns (s : State) (core : Nat) : Bool :=
  (match partOfCore s core with
    | some p => (s.part p).state == 1
    | none => false) &&
    (s.core core).swap.isNone && !(s.core core).gated && !(s.cluster (core / 2)).gated

/-- Whether a thread's context is the active one and no swap is in progress. -/
def inActive (s : State) (t : TId) : Bool := isActive s (groupOf s t) && (s.core t.core).swap.isNone

/-- The architectural waits of R149. A thread whose request a gated cluster holds waits for its result;
one whose result is beyond its lookahead is parked. -/
def inWait (x : Thread) : Bool :=
  match x.wait with
  | .none => waitsForResult x
  | w => w.isArch

/-! ## Results that return (R50, R126, R208, R234) -/

/-- The threads of a group that an outstanding result stands with. -/
def outHolders (s : State) (g : GId) (id : Nat) : List TId :=
  (groupThreads s g).filter fun t => (s.thread t).outs.any fun o => o.id == id

/-- An outstanding result with its value: the entry of the thread that holds it. -/
def findOut (s : State) (id : Nat) : Option (TId × Out) :=
  s.threads.findSome? fun p =>
    (p.2.outs.find? fun o => o.id == id && o.val != .joint).map fun o => (p.1, o)

/-- Outstanding results of one destination contest each other as they land: each word ends with either (R234). -/
def contestOther (o : Out) (f : Out → Bool) (r : Nat) (outs : List Out) : List Out :=
  contest (fun o' => o'.id != o.id && f o') r outs

/-- A word that returns to a lane register. -/
def landWord (s : State) (t : TId) (o : Out) (r : Reg) (x : W32) (poison : Bool) : State :=
  let keep := o.contested.contains r.val && Config.freeBit s.tick (drawPlace t r.val)
  s.modThread t fun th =>
    if keep then th
    else
      { th with v := th.v.set r.val x r.isLt
                vPoison := (th.vPoison &&& ~~~(BitVec.ofNat 64 (2 ^ r.val)))
                  ||| (if poison then BitVec.ofNat 64 (2 ^ r.val) else 0)
                stamps := Tbl.put th.stamps r.val s.tick
                outs := contestOther o (laneDest r.val) r.val th.outs }

/-- A word that returns to a bound register's snapshot. Where a refresh of the lookahead read a newer word and this one
stands over it, the binding is marked again, so that the newer store is not missed (R137, R234) (DEDUCED, log 19). -/
def landSnapshot (s : State) (t : TId) (o : Out) (k : Reg8) (x : W32) (poison : Bool) : State :=
  let keep := o.contested.contains k.val && Config.freeBit s.tick (drawPlace t (64 + k.val))
  s.modThread t fun th =>
    if keep then th
    else
      { th with b := th.b.set k.val { th.b.get k with
                  value := x, changed := (th.b.get k).changed || ((th.b.get k).bound && o.contested.contains (64 + k.val)) } k.isLt
                bPoison := putBit th.bPoison k poison
                outs := contestOther o (boundDest k.val) k.val th.outs }

/-- The outstanding results of a group's other long-latency instructions, contested at a word. -/
def contestGroupOther (s : State) (g : GId) (o : Out) (f : Out → Bool) (r : Nat) : State :=
  contestGroup s g (fun o' => o'.id != o.id && f o') r

/-- A mark of poison with a result's joined: none of it where every word keeps the later write, else with it alone, or
with what was there where one half of two is kept. -/
def landMark (keepLo keepHi old new : Bool) : Bool :=
  if keepLo && keepHi then old else if keepLo || keepHi then old || new else new

/-- A word that returns to a uniform register. -/
def landUni (s : State) (g : GId) (o : Out) (r : Reg) (x : W64) (poison : Bool) : State :=
  let c := o.contested.contains r.val
  let place := drawGroup g (2 * r.val)
  let keepLo := c && Config.freeBit s.tick place
  let keepHi := c && Config.freeBit s.tick (place + 1)
  let s := s.modGroup g fun y =>
    let old := y.s.get r
    let mark := landMark keepLo keepHi (y.sPoison.getLsbD r.val) poison
    { y with s := y.s.set r.val (pair (if keepLo then old.low else x.low) (if keepHi then old.high else x.high)) r.isLt
             sPoison := (y.sPoison &&& ~~~(BitVec.ofNat 64 (2 ^ r.val)))
               ||| (if mark then BitVec.ofNat 64 (2 ^ r.val) else 0) }
  contestGroupOther s g o (uniDest r) r.val

/-- A vector that returns. -/
def landHyp (s : State) (g : GId) (o : Out) (h : Reg8) (x : HVec) (p : BitVec 64) : State :=
  let place := drawGroup g (1024 + 128 * h.val)
  let keeps (i : Nat) : Bool := o.contested.contains i && Config.freeBit s.tick (place + i)
  let s := s.modGroup g fun y =>
    let new := if o.contested.isEmpty then x else mixWords keeps (y.h.get h) x
    let marks : BitVec 64 := if o.contested.isEmpty then p
      else BitVec.ofNat 64 ((List.range 64).foldl (fun acc i =>
        acc + bit (landMark (keeps (2 * i)) (keeps (2 * i + 1)) (y.hPoison.getLsbD (64 * h.val + i)) (p.getLsbD i)) i) 0)
    { y with h := y.h.set h.val new h.isLt
             hPoison := (y.hPoison &&& ~~~(hypMarks h)) ||| ((marks.setWidth 512) <<< (64 * h.val)) }
  if (groupThreads s g).any fun t => (s.thread t).outs.any fun o' => o'.id != o.id && hypDest h o' then
    (List.range 128).foldl (fun s i => contestGroupOther s g o (hypDest h) i) s
  else s

/-- A result written to its destination. -/
def landOut (s : State) (t : TId) (o : Out) : State :=
  let g := groupOf s t
  let s := if o.flags = 0 then s else orFlags s g o.flags
  match o.dest, o.val with
  | .lane d wide, .known x p =>
    let s := landWord s t o d x.low p
    if wide then landWord s t o (oddOf d) x.high p else s
  | .bound k, .known x p => landSnapshot s t o k x.low p
  | .uni ds, .known x p => ds.foldl (fun s r => landUni s g o r x p) s
  | .uni ds, .words xs => (ds.zip xs).foldl (fun s p => landUni s g o p.1 p.2 false) s
  | .hyp h, .hyp x p => landHyp s g o h x p
  | _, _ => s

/-- A trap within a lookahead is taken once nothing is outstanding (R234). -/
def dueTrap (s : State) (t : TId) : State :=
  match (s.thread t).wait with
  | .trap c d i => if nothingDue (s.thread t) then takeTrap s t c d i else s
  | _ => s

/-- The threads that a uniform result holds perform their instruction. -/
def retryParked (s : State) (id : Nat) : State := retryWaits s fun _ w => w == .parked id

/-- A result arrives (R50): it lands, an acquire refreshes, and the threads that stood beyond it are
ready. -/
def returnOut (s : State) (t : TId) (id : Nat) (o : Out) : State :=
  let g := groupOf s t
  let (s, o) := satisfyOut s t o
  let s := landOut s t o
  let hs := outHolders s g id
  let s := hs.foldl (fun s u => s.modThread u (dropOut id)) s
  let s := if o.acq then hs.foldl refreshHere s else s
  let s := hs.foldl dueTrap (retryParked s id)
  wakeCore s t.core

/-- The blocks of a vector load translated anew, or the first fault. -/
def reachBlocks (s : State) (i : Issuer) (va : Nat) : Nat → Except SysFault (List (Nat × MemTy))
  | 0 => .ok []
  | n + 1 => do
    let k ← translate s i va .load
    let rest ← reachBlocks s i (vaAdd va 64) n
    .ok (k :: rest)

/-- The access of an outstanding load translated anew. -/
def reachOut (s : State) (i : Issuer) (o : Out) : Except SysFault Out :=
  match o.val with
  | .load _ n _ acq => (translate s i o.va .load).map fun p => { o with val := .load p.1 n p.2 acq }
  | .hypLoad blocks => (reachBlocks s i o.va blocks.length).map fun ks => { o with val := .hypLoad ks }
  | .known _ _ | .words _ | .hyp _ _ | .joint => .ok o

/-- A result whose record is answered performs its access again, once its context is active (R204, R211): translated
anew, or held by a record of the fault. -/
def replayOut (s : State) (t : TId) (id : Nat) (o : Out) : Result :=
  let g := groupOf s t
  if !isActive s g then pass s
  else
    match reachOut s (issuerOf s g) o with
    | .error f =>
      .next (fileRec s ((partOfCore s t.core).getD 0) { threadRec s t f with pc := o.pc.toNat } (.outload id)).1
    | .ok o => .next (returnOut s t id o)

/-- LOAD_RESULT_RETURN: a result that a record holds does not return. -/
def execLoadResultReturn (id : Nat) (s : State) : Result :=
  match findOut s id with
  | some (t, o) =>
    if OutVal.isReply o.val || recordHolds s ((partOfCore s t.core).getD 0) (.outload id) then pass s
    else if o.again then replayOut s t id o
    else .next (returnOut s t id o)
  | none => pass s

/-- GLASSHOUSE_REPLY: the result of a search. Searches are taken in order of arrival on the two ports of their cluster
(R163). -/
def execGlasshouseReply (id : Nat) (s : State) : Result :=
  match findOut s id with
  | some (t, o) =>
    if OutVal.isReply o.val && decide (repliesBefore s (t.core / 2) id < 2) then .next (returnOut s t id o) else pass s
  | none => pass s

/-- STEAL_LANDING_COMPLETE (R319): the thief goes on where the choice point says, after a refresh. -/
def execStealLandingComplete (t : TId) (s : State) : Result :=
  if (s.thread t).wait == .stealLanding then .next (wakeCore (refreshHere (endWait s t) t) t.core)
  else pass s

/-! ## Page walks (R180, R181) -/

/-- The fault that a walk ends in, where it does (R176, R181). -/
def walkFault (s : State) (t : TId) (w : Walk) : Option SysFault :=
  match translate s (issuerOf s (groupOf s t)) w.va w.access with
  | .error f => if f.kind = kNOTPRESENT || f.kind = kMALFORMED then some f else none
  | .ok _ => none

/-- PAGE_WALK_COMPLETE: the requesters merged onto the walk perform their accesses, or one record of its
fault holds them all (R181). The walker then takes a walk that waits. -/
def execPageWalkComplete (id : Nat) (s : State) : Result :=
  match Tbl.find s.walks id with
  | none => pass s
  | some w =>
    if !w.started then pass s
    else
      let s := takeWalk { s with walks := Tbl.drop s.walks id } w.die
      let s := match w.ts with
        | [] => s
        | t :: _ =>
          let i := issuerOf s (groupOf s t)
          fillWalkCache (walkSnoops s i w.va) i w.va
      let onWalk (x : Thread) : Bool := x.wait == .walk id true || x.wait == .walk id false
      let ts := w.ts.filter fun t => onWalk (s.thread t)
      let go (p : TId × Thread) : TId × Thread :=
        if onWalk p.2 then (p.1, { retry p.2 with walked := true }) else p
      match ts with
      | [] => .next s
      | t :: _ =>
        match walkFault s t w with
        | none =>
          let s := ts.foldl (fun s t => fillTlb s (issuerOf s (groupOf s t)) w.va) s
          let s := { s with threads := s.threads.map go }
          .next (if w.access == .load || w.access == .rmw then (dedup (ts.map TId.core)).foldl wakeCore s else s)
        | some f =>
          let r := threadRec s t f
          let (s, h) := fileRec s w.part r (.walkers ts)
          .next (ts.foldl (fun s t => holdThread s t w.part r.sev h) s)

/-! ## Paths, yields and bound waits -/

/-- Whether a thread is ready (R44). -/
def isReady (s : State) (t : TId) : Bool :=
  let x := s.thread t
  x.live && x.wait == .none && !waitsForResult x && isActive s (groupOf s t)
    && inPlace s (groupOf s t) && !heldByDebugger s t

/-- The threads of a path: a group's live threads at a pc (R45). -/
def pathThreads (s : State) (g : GId) (pc : W64) : List TId :=
  (liveThreads s g).filter fun t => (s.thread t).pc == pc

/-- PATH_AGED: the counter of a path that holds a ready thread reaches 256. It runs on where the core is gated, and its
expiry is a waking event (R154). -/
def execPathAged (g : GId) (pc : W64) (s : State) : Result :=
  let ts := pathThreads s g pc
  if ts.any (isReady s) then
    .next (wakeCore (ts.foldl (fun s t => s.modThread t fun x => { x with age := Nat.max x.age 256 }) s) g.core)
  else pass s

/-- Whether a wait is a bound wait with a timeout. -/
def Wait.hasTimeout : Wait → Bool
  | .bound _ finite => finite
  | _ => false
/-- The wait of a thread in a save area, of the context that owns its slot there, where `f` holds of it and it has not
ended. -/
def spilledWait (s : State) (t : TId) (f : Wait → Bool) : Bool :=
  (spilledThreads s).any fun p => p.1 == t && p.2.live && f p.2.wait && !p.2.woken
/-- A timer of a thread in a save area expires: its wait has ended, and it returns as its bank comes back (R159). -/
def expireSpilled (s : State) (t : TId) (f : Wait → Bool) : State :=
  let one (p : TId × Thread) : TId × Thread := if p.1 = t && f p.2.wait then (p.1, { p.2 with woken := true }) else p
  let bank (k : Nat × SpilledBank) : Nat × SpilledBank := (k.1, { k.2 with threads := k.2.threads.map one })
  wakeCore { s with ctxs := s.ctxs.map fun c => (c.1, { c.2 with spilled := c.2.spilled.map bank }) } t.core

/-- YIELD_INTERVAL_END (R150); the expiry is a waking event (R155), but of an interval that an interrupt abandons. -/
def execYieldIntervalEnd (t : TId) (s : State) : Result :=
  if (s.thread t).wait == .yield then
    if interruptDue (s.thread t) then pass s else .next (wakeCore (s.modThread t endYield) t.core)
  else if spilledWait s t (· == .yield) then .next (expireSpilled s t (· == .yield))
  else pass s

/-- Whether a named binding of a bound wait is marked. -/
def waitMarked (x : Thread) (mask : Byte) : Bool := (boundNamed x mask).any fun b => b.changed

/-- The return of a bound wait. -/
def endBound (s : State) (t : TId) (timedOut : Bool) : State :=
  returnWait (s.modThread t fun x => { x with lastto := timedOut }) t

/-- The lines of the marked bindings that a bound wait names: a store of a word, and a snoop, mark bindings of one line. -/
def markedLines (x : Thread) (mask : Byte) : List Nat := ((boundNamed x mask).filter fun b => b.changed).map fun b => b.pa / 128

/-- Whether a thread's bound wait may return: a named binding is marked. A displaced context's wait returns at its
restore (R159), a gated core's once it restarts. -/
def boundDue (s : State) (t : TId) : Bool :=
  match (s.thread t).wait with
  | .bound mask _ => waitMarked (s.thread t) mask && inActive s t && !(s.core t.core).gated
  | _ => false

/-- The threads whose bound waits the marks of some lines end: those of a store become ready together (R152). -/
def wokenWith (s : State) (t : TId) (lines : List Nat) : List TId :=
  (s.threads.filter fun p => decide (p.1 ≠ t) && boundDue s p.1 &&
    (match p.2.wait with
      | .bound mask _ => (markedLines p.2 mask).any lines.contains
      | _ => false)).map Prod.fst

/-- BWAIT_WAKE (R294): a named binding is marked. Every thread whose wait a mark of the same line ends goes on with it. -/
def execBwaitWake (t : TId) (s : State) : Result :=
  match (s.thread t).wait with
  | .bound mask _ =>
    if boundDue s t then
      .next ((t :: wokenWith s t (markedLines (s.thread t) mask)).foldl (fun s u => endBound s u false) s)
    else pass s
  | _ => pass s

/-- BWAIT_TIMEOUT (R294): the expiry is a waking event (R155), also of a displaced thread (R159) (DESIGN CHOICE, log 41). -/
def execBwaitTimeout (t : TId) (s : State) : Result :=
  match (s.thread t).wait with
  | .bound mask finite =>
    if finite && !waitMarked (s.thread t) mask then .next (wakeCore (endBound s t true) t.core)
    else pass s
  | _ => if spilledWait s t Wait.hasTimeout then .next (expireSpilled s t Wait.hasTimeout) else pass s

/-- BINDING_OVERFLOW_SWEEP (R289): every overflow binding of the core is marked. -/
def execBindingOverflowSweep (core : Nat) (s : State) : Result :=
  if core < 160 then
    let mark (b : Bound) : Bound := if b.bound && b.ovf then { b with changed := true } else b
    let sweep (p : TId × Thread) : TId × Thread :=
      if p.1.core = core then (p.1, { p.2 with b := p.2.b.map mark }) else p
    let marks := s.threads.foldl (fun n p =>
      if p.1.core = core then n + (p.2.b.toList.filter fun b => b.bound && b.ovf && !b.changed).length else n) 0
    .next (wakeCore (countCore { s with threads := s.threads.map sweep } core 11 marks) core)
  else pass s

/-! ## Clocks (R153 to R155) -/

/-- Whether the matrix units or the tile sequencer of a core hold accepted work. -/
def engineHolds (s : State) (core : Nat) : Bool :=
  s.groups.any fun p =>
    p.1.core == core && p.2.live &&
      ((p.2.tile.isSome && isActive s p.1) || p.2.mq.any fun q => q.2.any fun op => !op.performed)

/-- The live threads of a core's active context. -/
def activeThreads (s : State) (core : Nat) : List TId :=
  (s.groups.filter fun p => p.1.core == core && p.2.live && isActive s p.1).flatMap fun p => liveThreads s p.1

/-- The live threads of a core's active contexts whose banks wait to come back (R214). -/
def awaitedThreads (s : State) (core : Nat) : List Thread :=
  (s.ctxs.filter fun c => c.2.core == core && c.2.displaced.isNone).flatMap fun c =>
    c.2.spilled.flatMap fun k => (k.2.threads.filter fun p => p.2.live).map Prod.snd
/-- Whether the live threads of a core's active contexts are all as `f` says, wherever they stand. -/
def allActive (s : State) (core : Nat) (f : Thread → Bool) : Bool :=
  (activeThreads s core).all (fun t => f (s.thread t)) && (awaitedThreads s core).all f
/-- Whether a core's active contexts have a live thread. -/
def anyActive (s : State) (core : Nat) : Bool := !((activeThreads s core).isEmpty && (awaitedThreads s core).isEmpty)

/-- CLOCK_GATE (R153): the three conditions have held for 1,024 cycles. -/
def execClockGate (core : Nat) (s : State) : Result :=
  if core < 160 && !(s.core core).gated && (s.core core).swap.isNone && !engineHolds s core
      && allActive s core (fun x => inWait x && !(x.wait != .none && x.woken)) then
    .next (s.modCore core fun c => { c with gated := true, restarting := false })
  else pass s

/-- CORE_RESTART (R155). -/
def execCoreRestart (core : Nat) (s : State) : Result :=
  if (s.core core).gated && (s.core core).restarting then
    .next (s.modCore core fun c => { c with gated := false, restarting := false })
  else pass s

/-! ## Interrupts (R209) -/

/-- The waits that a delivery abandons, and no wait. -/
def abandons : Wait → Bool
  | .none | .bound _ _ | .barrier _ _ | .collective _ | .table | .spawn | .queue _ | .yield => true
  | _ => false

/-- Whether a thread delivers its pending interrupt: an instruction boundary with ACTIVE clear. -/
def delivers (s : State) (t : TId) : Bool :=
  let x := s.thread t
  x.live && interruptDue x && nothingDue x && abandons x.wait && inActive s t
    && coreRuns s t.core && !heldByDebugger s t

/-- UINT_DELIVERY: a wait is abandoned, the delivery is an acquire and a refresh point, and Trap(UINT). -/
def execUintDelivery (t : TId) (s : State) : Result :=
  if delivers s t then
    let g := s.group (groupOf s t)
    let s := acquire ((endWait s t).modThread t fun x => { x with uint := none }) t (carriedBy s (.interrupt g.launch g.team g.tgi))
    match refresh s t with
    | .ok s => .next (takeTrap s t cUINT 0 0)
    | .error (.fault f) => .next (threadFault (s.modThread t fun x => { x with uint := (s.thread t).uint }) t f)
    | .error _ => pass s
  else pass s

/-! ## Illegal words (R222) -/

/-- ILLEGAL_INSTRUCTION: every thread of the pack takes the precise trap. -/
def execIllegalInstruction (why : Illegal) (s : State) : Result :=
  match packThreads s with
  | [] => .fault .noThread
  | t :: ts => .next ((t :: ts).foldl (fun s u => issueTrap s u (illegalCause why) 0) s)

/-! ## Stores (R119, R125) -/

/-- STORE_PUBLICATION: the oldest store of a buffer, or the eviction of a line from a cache, the victim of its set
(R279): from an L1 its dirty SM bytes go home, and the narrow-held stores of its bytes are published (R132). -/
def execStorePublication (what : Publish) (s : State) : Result :=
  let evict (c : CacheId) (line : Nat) (copied : Bool) : Result :=
    if (copied || s.lines.any fun l => l.isOf c line) && mayEvict s c line then .next (evictLine s c line) else pass s
  match what with
  | .store t => if (s.thread t).sb.isEmpty then pass s else .next (publishOldest s t)
  | .smLine core line =>
    if smWaits s core line then pass s
    else evict (.l1 core) line ((s.core core).smL1.any fun e => e.1 / 128 == line)
  | .llcLine die line => evict (.llc die) line ((s.die die).smLlc.any fun e => e.1 / 128 == line)
  | .sysLine io line => evict (.sys io) line false

end Sys2Proof.Machine
end

