-- ==== Sys2Proof/Machine/Teams.lean ====
section
/-! DEFINITION. Placing teams (R42, R68, R69, R75): the seats of a team's initial groups, its scratchpad
allocation, its schedule table, and the core or cluster where it goes. -/

namespace Sys2Proof.Machine

/-! ## The shape of a team (R42) -/

/-- The groups of a team. -/
def teamGroups (k : Kernel) : Nat := k.team / k.group
/-- A team of more than 1,024 threads takes both cores of a cluster. -/
def isTwoCore (k : Kernel) : Bool := decide (1024 < k.team)
/-- The other core of a core's cluster. -/
def partner (core : Nat) : Nat := if core % 2 = 0 then core + 1 else core - 1
/-- The cores a team takes beginning at one, with the first group index and the groups of each. -/
def teamHalves (k : Kernel) (core : Nat) : List (Nat × Nat × Nat) :=
  if isTwoCore k then
    let n := 1024 / k.group
    [(core, 0, n), (core + 1, n, teamGroups k - n)]
  else [(core, 0, teamGroups k)]

/-! ## Room (R68) -/

/-- Where a scratchpad allocation of `size` bytes fits on a core: whole lines that no allocation holds. -/
def spadChoices (s : State) (core size : Nat) : List Nat :=
  ((List.range ((524288 - size) / 128 + 1)).map fun i => i * 128).filter fun b =>
    !(s.core core).allocs.any fun a => overlaps b size a.base a.size

/-- A team's scratchpad allocation on a core. -/
def takeSpad (s : State) (core launch team size : Nat) : Option State :=
  if size = 0 then some s
  else
    (pickOne s (core * 16 + 3) (spadChoices s core size)).map fun b =>
      s.modCore core fun c => { c with allocs := c.allocs ++ [⟨launch, team, b, size⟩] }

/-- `n` groups of a team seated in turn, from a team group index. -/
def seatGroups (low : Bool) (core bank launch team ctx : Nat) : Nat → Nat → State → Option State
  | _, 0, s => some s
  | tgi, n + 1, s =>
    let l := s.launch launch
    let start (i : Nat) : Start := { lane := i, pc := l.kernel.entry }
    match seatFor low s core bank l l.kernel.group with
    | none => none
    | some seat =>
      seatGroups low core bank launch team ctx (tgi + 1) n
        (startGroup s core bank launch team tgi ctx seat ((List.range l.kernel.group).map start))

/-- The schedule table a core gets with the first team of a launch that it takes (R75). -/
def listTable (s : State) (launch core : Nat) : State :=
  let l := s.launch launch
  if l.placedCores.contains core then s
  else
    let n := (l.tables.getD l.placedCores.length []).length
    let s := s.modLaunch launch fun x => { x with placedCores := x.placedCores ++ [core] }
    s.modCore core fun c => { c with tables := Tbl.put c.tables launch { entries := List.replicate n none } }

/-- The part of a team that stands on one core: all of its groups, or nothing. Where the slots and blocks chosen
leave a later group none, the lowest are taken: they seat every group where any choice does. -/
def placeHalf (s : State) (core bank launch team first count : Nat) : Option State := do
  let s ← takeSpad s core launch team (s.launch launch).kernel.spad
  let (c, s) := ensureCtx s core bank launch
  let s ← (seatGroups false core bank launch team c first count s).or (seatGroups true core bank launch team c first count s)
  some (wakeCore (listTable s launch core) core)

/-- Whether a core holds the teams of at most one launch with schedule tables when it takes one of a launch: those of
displaced contexts count (R37, R69). -/
def tablesAllow (s : State) (core launch : Nat) : Bool :=
  (s.launch launch).tables.isEmpty ||
    !(s.groups ++ spilledGroups s).any fun p =>
      p.1.core == core && p.2.live && p.2.launch != launch && !(s.launch p.2.launch).tables.isEmpty
/-- Whether a core may take a team of a launch: its tables allow it, and no swap is in progress. -/
def coreTakes (s : State) (core launch : Nat) : Bool := (s.core core).swap.isNone && tablesAllow s core launch

/-- A team placed with its first core given. -/
def placeAt (s : State) (launch core : Nat) : Option State :=
  let l := s.launch launch
  (teamHalves l.kernel core).foldl (fun (acc : Option State) h =>
    acc.bind fun s =>
      if coreTakes s h.1 launch then placeHalf s h.1 (s.core h.1).act launch l.nextTeam h.2.1 h.2.2 else none) (some s)

/-- The cores of a partition, in ascending order. -/
def partCores (s : State) (p : Nat) : List Nat := (List.range 160).filter fun c => partOfCore s c == some p
/-- The cores at which a team of a launch may begin: every core, or the even ones. -/
def firstCores (s : State) (l : Launch) : List Nat :=
  (partCores s l.part).filter fun c => !isTwoCore l.kernel || c % 2 == 0

/-- The lowest core or cluster where the next team of a launch fits, with the state it leaves (R69). -/
def placement (s : State) (launch : Nat) : Option (Nat × State) :=
  (firstCores s (s.launch launch)).findSome? fun c => (placeAt s launch c).map fun s' => (c, s')

/-- Whether a launch has a team that waits to be placed, in a partition that is enabled. -/
def teamWaits (s : State) (l : Launch) : Bool :=
  decide (l.nextTeam < l.teams) && !l.ended && !l.complete && (s.part l.part).state == 1

/-- Whether the teams of a launch are placed before those of another: the higher priority, then the
earlier submission (R69); of one graph's launches the lower node, then the earlier launch (DESIGN CHOICE, log 29). -/
def placedBefore (s : State) (a b : Nat) : Bool :=
  let x := s.launch a
  let y := s.launch b
  let order (l : Launch) : Nat := ((s.graph? l.graph).map Graph.order).getD 0
  decide (y.prio < x.prio) || (x.prio == y.prio && (decide (order x < order y) ||
    (order x == order y && (decide (x.node < y.node) || (x.node == y.node && decide (a < b))))))

/-- The launches of a partition with teams that wait ahead of a launch's. -/
def aheadOf (s : State) (launch : Nat) : List Nat :=
  (s.launches.filter fun p =>
    p.1 != launch && p.2.part == (s.launch launch).part && teamWaits s p.2 && placedBefore s p.1 launch).map Prod.fst

/-- The next team of a launch counted as placed, with its group indices. -/
def countTeam (s : State) (launch : Nat) : State :=
  let l := s.launch launch
  let s := useTgi s launch l.nextTeam (teamGroups l.kernel)
  s.modLaunch launch fun x => { x with nextTeam := x.nextTeam + 1 }

/-- PLACE_TEAM (R69): a team is placed unless one that goes before it would fit; where that finds no room it does not
hold back the others (DESIGN CHOICE, log 29). A placement on a gated cluster waits for its wake (R418). -/
def execPlaceTeam (launch : Nat) (s : State) : Result :=
  let l := s.launch launch
  if teamWaits s l && (aheadOf s launch).all fun a => (placement s a).isNone then
    match placement s launch with
    | some (c, s') =>
      if (s.cluster (c / 2)).gated then pass s else .next (countTeam s' launch)
    | none => pass s
  else pass s

/-- SCHEDULE_TABLE_WRITE (R76): the launch writes the next entries of a core's table; a write ends table
waits and is a waking event (R155). -/
def execScheduleTableWrite (core count : Nat) (s : State) : Result :=
  let unwritten (p : Nat × Schedule) : Bool := p.2.entries.any Option.isNone
  match (s.core core).tables.find? unwritten with
  | none => pass s
  | some (launch, x) =>
    let l := s.launch launch
    let table := l.tables.getD ((l.placedCores.idxOf? core).getD l.placedCores.length) []
    let done := (x.entries.takeWhile Option.isSome).length
    let entry (i : Nat) (e : Option W32) : Option W32 :=
      if decide (done ≤ i) && decide (i < done + count) then table[i]? else e
    if count = 0 then pass s
    else
      let s := s.modCore core fun c =>
        { c with tables := Tbl.put c.tables launch { x with entries := x.entries.mapIdx entry } }
      let s := retryWaits s fun t w => w == .table && t.core == core
      .next (wakeCore s core)

/-! ## Spawn bins and overflow queues (R73, R74) -/

/-- SPAWN_BIN_TIMEOUT: the timer of a bin that holds records ends, a waking event (R155): it fires, or is
held back for lack of room. -/
def execSpawnBinTimeout (core bin : Nat) (s : State) : Result :=
  match Tbl.find (s.core core).bins bin with
  | none => pass s
  | some b =>
    if b.due || (s.core core).swap.isSome then pass s
    else
      let s := wakeCore s core
      match binSeat s core b with
      | some seat => .next (fireBin s core bin b seat)
      | none => .next (s.modCore core fun c => { c with bins := Tbl.put c.bins bin { b with due := true } })

/-- SPAWN_BIN_FIRE: a bin held back fires as room frees. -/
def execSpawnBinFire (core bin : Nat) (s : State) : Result :=
  match Tbl.find (s.core core).bins bin with
  | none => pass s
  | some b =>
    if b.due && (s.core core).swap.isNone then
      match binSeat s core b with
      | some seat => .next (fireBin s core bin b seat)
      | none => pass s
    else pass s

/-- The issuer of a core's accesses to a team's overflow ring. -/
def ringIssuer (s : State) (core launch team : Nat) : Issuer := { launchIssuer s launch with core := core, team := team }

/-- The record at the head of an overflow ring, where its bytes can be read. -/
def overflowHead (s : State) (i : Issuer) (o : Overflow) : Option (W64 × SpawnRec) :=
  match ringBytes s i .load (Overflow.slot o 0) 32 with
  | .error _ => none
  | .ok ps =>
    let x := ofBytes (ps.map fun p => readCell s.mem p.1)
    some (BitVec.ofNat 64 (x % 2 ^ 64), ⟨BitVec.ofNat 64 (x / 2 ^ 64), x / 2 ^ 128 % 2 ^ 32⟩)

/-- The head of a team's overflow queue with the bin that it finds, if there is one. -/
def headBin (s : State) (core launch team : Nat) : Option (Overflow × W64 × SpawnRec × Nat) :=
  match Tbl.find (s.launch launch).overflow team with
  | none => none
  | some o =>
    if o.count = 0 then none
    else
      (overflowHead s (ringIssuer s core launch team) o).bind fun h =>
        (binFor s core launch team h.1).map fun k => (o, h.1, h.2, k)

/-- Records move from the head of a team's overflow queue into the bins of a core, stopping at the first
that finds no bin. -/
def moveRecords (core launch team : Nat) : Nat → State → State
  | 0, s => s
  | n + 1, s =>
    match headBin s core launch team with
    | none => s
    | some (o, entry, r, k) =>
      let s := s.modLaunch launch fun l =>
        { l with overflow := Tbl.put l.overflow team { o with head := (o.head + 1) % o.cap, count := o.count - 1 } }
      moveRecords core launch team n (pushBin s core k launch team entry r)

/-- The overflow queues whose records a core takes: those of teams with groups on it, or of launches that
have had teams there. -/
def queuesOf (s : State) (core : Nat) : List (Nat × Nat × Nat) :=
  s.launches.flatMap fun p =>
    if p.2.placedCores.contains core && !p.2.ended then
      (p.2.overflow.filter fun o =>
        o.2.count != 0 &&
          (s.groups.any (fun g => g.1.core == core && g.2.launch == p.1 && g.2.team == o.1) || (groupsOfTeam s p.1 o.1).isEmpty)).map
        fun o => (p.1, o.1, o.2.count)
    else []
/-- The first of them whose head finds a bin (R74). -/
def queueFor (s : State) (core : Nat) : Option (Nat × Nat × Nat) :=
  (queuesOf s core).find? fun q => (headBin s core q.1 q.2.1).isSome

/-- OVERFLOW_QUEUE_MOVE: with a bin empty; a record that leaves frees the spawns that wait (R74, R149). -/
def execOverflowQueueMove (core : Nat) (s : State) : Result :=
  match queueFor s core with
  | none => pass s
  | some (launch, team, n) =>
    if (List.range 16).all fun k => Tbl.has (s.core core).bins k then pass s
    else
      let s' := moveRecords core launch team n s
      let mine (t : TId) : Bool := launchOf s' t == launch && (s'.group (groupOf s' t)).team == team
      .next (retryWaits s' fun t w => w == .spawn && mine t)

end Sys2Proof.Machine
end

