-- ==== Sys2Proof/Machine/Summerhouse.lean ====
section
/-! DEFINITION. The Summerhouse (R70, R71, R156 to R161, R210 to R216): swaps for a priority
pre-emption, for progress and for the return of a context, and the banks that are spilled and reloaded. -/

namespace Sys2Proof.Machine

/-! ## Contexts of a core -/

/-- The numbers of the contexts of a core that `f` holds of. -/
def ctxsOf (s : State) (core : Nat) (f : Ctx → Bool) : List Nat :=
  (s.ctxs.filter fun c => c.2.core == core && f c.2).map Prod.fst
/-- The active contexts of a core. -/
def activeCtxs (s : State) (core : Nat) : List Nat := ctxsOf s core fun c => c.displaced.isNone
/-- The priority of a context's launch. -/
def ctxPrio (s : State) (c : Nat) : Nat := (s.launch (s.ctx c).launch).prio

/-- The orders of displacement that stand on a core: contexts displaced by one swap share one. -/
def displacedOrders (s : State) (core : Nat) : List Nat :=
  dedup ((s.ctxs.filter fun c => c.2.core == core).filterMap fun c => c.2.displaced)
/-- The contexts of one displacement. -/
def ofOrder (s : State) (core n : Nat) : List Nat := ctxsOf s core fun c => c.displaced == some n
/-- The highest priority of one displacement. -/
def orderPrio (s : State) (core n : Nat) : Nat := ((ofOrder s core n).map (ctxPrio s)).foldl Nat.max 0
/-- The displacement that R214 returns first among some: the higher priority, then the oldest. -/
def firstReturn (s : State) (core : Nat) : List Nat → Option Nat
  | [] => none
  | n :: ns =>
    match firstReturn s core ns with
    | none => some n
    | some m =>
      if orderPrio s core m < orderPrio s core n then some n
      else if orderPrio s core n < orderPrio s core m then some m
      else some (Nat.min n m)

/-- Whether any context owns a bank of a bank set. -/
def setOwned (s : State) (core bank : Nat) : Bool :=
  (s.groups ++ spilledGroups s).any fun p => p.1.core == core && p.1.bank == bank && p.2.live
/-- The bank set that an incoming context takes (R213): one that no context owns, else that of the
context displaced longest ago (DEDUCED, log 32). -/
def enterBank (s : State) (core : Nat) : Nat :=
  let act := (s.core core).act
  if !setOwned s core act then act
  else if !setOwned s core (1 - act) then 1 - act
  else
    match displacedOrders s core with
    | [] => 1 - act
    | n :: ns => ((ofOrder s core (ns.foldl Nat.min n)).map fun c => (s.ctx c).bank).headD (1 - act)

/-! ## The start of a swap (R210) -/

/-- The active contexts of a core step aside (DEDUCED, log 31). -/
def displace (s : State) (core : Nat) (byProgress : Bool) : State :=
  let (n, s) := s.takeFresh
  (activeCtxs s core).foldl (fun s c => s.modCtx c fun x => { x with displaced := some n, byProgress := byProgress }) s

/-- A swap begins: its request is a waking event (R155), the outgoing contexts issue nothing further, their narrow-held
stores are published (R132), and the bank set that comes in is active. -/
def beginSwap (s : State) (core : Nat) (kind : SwapKind) (byProgress : Bool) : State :=
  let s := displace (publishHeld (wakeCore s core) core) core byProgress
  let bank := match kind with
    | .returning n => ((ofOrder s core n).map fun c => (s.ctx c).bank).headD (s.core core).act
    | .incoming _ _ _ _ | .spawned _ | .empty => enterBank s core
  let s := s.modCore core fun c => { c with act := bank, swap := some kind, gated := false, restarting := false }
  relevel s (core / 2)

/-- A swap for work that comes in (R189: PMC14). -/
def swapIn (s : State) (core : Nat) (kind : SwapKind) (byProgress : Bool) : State :=
  countCore (beginSwap s core kind byProgress) core 14 1

/-- Whether a displacement holds half of a two-core team. -/
def orderCoupled (s : State) (core n : Nat) : Bool :=
  (ofOrder s core n).any fun c => isTwoCore (s.launch (s.ctx c).launch).kernel

/-- What a core takes back when its cluster's other core swaps: the first of its own displaced contexts that `f` holds of
and that is no half of a two-core team, or nothing (R71). -/
def ownReturn (s : State) (core : Nat) (f : Nat → Bool) : SwapKind :=
  match firstReturn s core ((displacedOrders s core).filter fun n => f n && !orderCoupled s core n) with
  | some n => .returning n
  | none => .empty

/-- The swap-in of a team on each of its cores. -/
def swapTeam (s : State) (launch core : Nat) (byProgress : Bool) : State :=
  let l := s.launch launch
  let s' := (teamHalves l.kernel core).foldl (fun s h =>
    swapIn s h.1 (.incoming launch l.nextTeam h.2.1 h.2.2) byProgress) s
  countTeam s' launch

/-- Whether the active contexts of a core hold half of a two-core team. -/
def coupled (s : State) (core : Nat) : Bool :=
  (activeCtxs s core).any fun c => isTwoCore (s.launch (s.ctx c).launch).kernel

/-! ## Priority pre-emption (R70, R71) -/

/-- Whether every context resident on a core is of lower priority. -/
def outranks (s : State) (prio core : Nat) : Bool :=
  (s.core core).swap.isNone && (ctxsOf s core fun _ => true).all fun c => decide (ctxPrio s c < prio)
/-- Whether a context resides on a core. -/
def resides (s : State) (core : Nat) : Bool := !(ctxsOf s core fun _ => true).isEmpty
/-- Whether a waiting team may pre-empt a core, or the cluster it begins (DEDUCED, log 36). -/
def mayPreempt (s : State) (l : Launch) (core : Nat) : Bool :=
  let pair := isTwoCore l.kernel || coupled s core
  outranks s l.prio core && (!pair || outranks s l.prio (partner core)) && (resides s core || (pair && resides s (partner core)))
/-- The first core that the next team of a launch may pre-empt, where its tables allow it. -/
def preemptCore (s : State) (launch : Nat) : Option Nat :=
  let l := s.launch launch
  (firstCores s l).find? fun c => mayPreempt s l c && (teamHalves l.kernel c).all fun h => tablesAllow s h.1 launch

/-- The core that a launch's team pre-empts: the one that waits first, of those that could be placed or pre-empt. -/
def preemptTarget (s : State) (launch : Nat) : Option Nat :=
  if teamWaits s (s.launch launch) && (aheadOf s launch).all (fun a => (placement s a).isNone && (preemptCore s a).isNone)
      && (placement s launch).isNone then
    preemptCore s launch
  else none

/-- Whether a pre-emption is due on a core, which goes before a progress swap (R161). -/
def preemptDue (s : State) (core : Nat) : Bool :=
  s.launches.any fun l => (preemptTarget s l.1).any fun c => c / 2 == core / 2

/-- PRIORITY_PREEMPTION: the team that waits first cannot be placed. -/
def execPriorityPreemption (launch : Nat) (s : State) : Result :=
  let l := s.launch launch
  match preemptTarget s launch with
  | none => pass s
  | some core =>
    let both := !isTwoCore l.kernel && coupled s core
    let s' := swapTeam s launch core false
    .next (if both then beginSwap s' (partner core) (ownReturn s' (partner core) fun _ => true) false else s')

/-! ## Progress swaps (R156 to R158) -/

/-- Whether a thread is waiting (R151). -/
def isWaiting (x : Thread) : Bool := inWait x || decide (x.since < 256)

/-- Whether every live thread of a core's active contexts is waiting, and there is one. -/
def allWaiting (s : State) (core : Nat) : Bool :=
  (match partOfCore s core with
    | some p => (s.part p).state == 1
    | none => false) && (s.core core).swap.isNone && anyActive s core && allActive s core isWaiting

/-- The launches of a core's active contexts. -/
def activeLaunches (s : State) (core : Nat) : List Nat := dedup ((activeCtxs s core).map fun c => (s.ctx c).launch)

/-- What a progress swap brings in (R158): held-back bins, an unplaced team, a context displaced by
progress. -/
inductive Incoming where
  | bins (launch : Nat)
  | team (launch : Nat)
  | back (order : Nat)
  deriving DecidableEq, Repr

def nonResident (s : State) (core : Nat) : Option Incoming :=
  let ls := activeLaunches s core
  let held := (s.core core).bins.find? fun b => b.2.due && ls.contains b.2.launch
  let waits := ls.find? fun l => teamWaits s (s.launch l)
  let back := (displacedOrders s core).filter fun n =>
    (ofOrder s core n).any fun c => (s.ctx c).byProgress && ls.contains (s.ctx c).launch
  match held, waits, back with
  | some b, _, _ => some (.bins b.2.launch)
  | none, some l, _ => some (.team l)
  | none, none, n :: ns => some (.back (ns.foldl Nat.min n))
  | none, none, [] => none

/-- Whether a core is stalled (R156). -/
def stalled (s : State) (core : Nat) : Bool := allWaiting s core && (nonResident s core).isSome

/-- Whether a core swaps whole with its partner for a team: the team, or a resident one, spans both. -/
def swapsBoth (s : State) (core launch : Nat) : Bool :=
  isTwoCore (s.launch launch).kernel || coupled s core || coupled s (partner core)

/-- Whether an unplaced team goes to a lower-numbered stalled core first, one that can swap for it (R158). -/
def lowerTakes (s : State) (core launch : Nat) : Bool :=
  (List.range core).any fun c => stalled s c && nonResident s c == some (.team launch)
    && (!swapsBoth s c launch || stalled s (partner c))

/-- Whether a core has work that a progress swap may bring in now. -/
def progressTakes (s : State) (core : Nat) : Bool :=
  match nonResident s core with
  | none => false
  | some (.team l) => !lowerTakes s core l
  | some _ => true

/-- A core's part of a progress swap: the work of its own launches (R158, R161), or a context of theirs that it takes back
as its cluster's other core swaps. -/
def progressOne (s : State) (core : Nat) : State :=
  let back := ownReturn s core fun n => (ofOrder s core n).any fun c => (activeLaunches s core).contains (s.ctx c).launch
  match nonResident s core with
  | some (.bins l) => swapIn s core (.spawned l) true
  | some (.team l) =>
    if isTwoCore (s.launch l).kernel || lowerTakes s core l then beginSwap s core back true else swapTeam s l core true
  | some (.back n) => swapIn s core (.returning n) true
  | none => beginSwap s core back true

/-- The launch whose two-core team comes in on both cores of a cluster: the first work of its even core, where the other
has no spawn bins of its own to bring in. -/
def pairTeam (s : State) (even : Nat) : Option Nat :=
  match nonResident s even, nonResident s (even + 1) with
  | _, some (.bins _) => none
  | some (.team l), _ => if isTwoCore (s.launch l).kernel && !lowerTakes s even l then some l else none
  | _, _ => none

/-- Whether a core swaps only with its cluster's other core: a two-core team is resident, or would come in. -/
def swapsPair (s : State) (core : Nat) : Bool :=
  coupled s core || coupled s (partner core) ||
    (match nonResident s core with
      | some (.team l) => isTwoCore (s.launch l).kernel
      | _ => false)

/-- PROGRESS_SWAP (R157, R158): the stall has lasted 10 us. A two-core team swaps with both its halves. A pre-emption
that is due goes first (R161). -/
def execProgressSwap (core : Nat) (s : State) : Result :=
  let even := core / 2 * 2
  if !stalled s core || preemptDue s core then pass s
  else if !swapsPair s core then (if progressTakes s core then .next (progressOne s core) else pass s)
  else if !stalled s (partner core) then pass s
  else
    match pairTeam s even with
    | some l => .next (swapTeam s l even true)
    | none =>
      let takes (c : Nat) : Bool := progressTakes s c &&
        (match nonResident s c with
          | some (.team l) => !isTwoCore (s.launch l).kernel
          | _ => true)
      if takes even || takes (even + 1) then .next (progressOne (progressOne s even) (even + 1)) else pass s

/-! ## The return of a context (R159, R214) -/

/-- Whether the wait of a thread of a displaced context has ended while it was away: by its mark or its timer, or by what it
waits for, which now stands ready (R149, R159). -/
def waitOver (s : State) (g : GId) (y : Group) (x : Thread) : Bool :=
  match x.wait with
  | .none => x.woken && !beyondLookahead x
  | .presence l => !s.absent.contains l
  | .table => (Schedule.take (Tbl.getD (s.core g.core).tables y.launch { entries := [] })).isSome
  | .spawn => (match Tbl.find (s.launch y.launch).overflow y.team with
    | some o => decide (o.count < o.cap)
    | none => false)
  | .queue none => !y.busy
  | .queue (some q) => !queueFull y q
  | _ => x.woken
/-- Whether a waking event is pending for a thread of a displaced context: a marked binding (R160), a wait that has ended
since it last issued, or a user-level interrupt (R155). -/
def wakePending (s : State) (g : GId) (y : Group) (x : Thread) : Bool :=
  x.live && (x.b.toList.any (fun b => b.bound && b.changed) || waitOver s g y x || interruptDue x)
/-- Whether a displacement has a thread with a waking event pending, in place or in its save area. -/
def orderWakes (s : State) (core n : Nat) : Bool :=
  let cs := ofOrder s core n
  (s.groups.any fun p => p.2.live && cs.contains p.2.ctx && (liveThreads s p.1).any fun t => wakePending s p.1 p.2 (s.thread t))
    || cs.any fun c => (s.ctx c).spilled.any fun k => k.2.threads.any fun p =>
      wakePending s (k.2.owner p.1).1 (k.2.owner p.1).2 p.2

/-- The displacement of a core that may return now: with the active contexts done or in a stall that
R158 does not serve, R214's; else one displaced by progress whose wake is pending. -/
def returnChoice (s : State) (core : Nat) : Option Nat :=
  let ns := displacedOrders s core
  if (s.core core).swap.isSome then none
  else if !anyActive s core || (allWaiting s core && (nonResident s core).isNone) then firstReturn s core ns
  else
    match ns.filter fun n => (ofOrder s core n).any (fun c => (s.ctx c).byProgress) && orderWakes s core n with
    | [] => none
    | m :: ms => some (ms.foldl Nat.min m)

/-- The teams of a displacement, with their launches. -/
def orderTeams (s : State) (core n : Nat) : List (Nat × Nat) :=
  let cs := ofOrder s core n
  ((s.groups ++ spilledGroups s).filter fun p => p.1.core == core && p.2.live && cs.contains p.2.ctx).map fun p =>
    (p.2.launch, p.2.team)
/-- The displacement of a cluster's other core that holds the other half of a two-core team. -/
def otherHalf (s : State) (core n : Nat) : Option Nat :=
  (displacedOrders s (partner core)).find? fun m =>
    orderCoupled s (partner core) m && (orderTeams s (partner core) m).any fun t => (orderTeams s core n).contains t

/-- Both cores of a cluster begin a swap for the return of contexts. -/
def returnBoth (s : State) (core n : Nat) (other : SwapKind) : State :=
  beginSwap (beginSwap s core (.returning n) true) (partner core) other true

/-- CONTEXT_RETURN: the two halves of a two-core team return in the same cycle, once both its cores can take it back
(R71). Where a two-core team makes room, the other core takes back a context of its own. -/
def execContextReturn (core : Nat) (s : State) : Result :=
  match returnChoice s core with
  | none => pass s
  | some n =>
    if orderCoupled s core n then
      match otherHalf s core n with
      | some m => if returnChoice s (partner core) == some m then .next (returnBoth s core n (.returning m)) else pass s
      | none => .next (beginSwap s core (.returning n) true)
    else if coupled s core then
      match returnChoice s (partner core) with
      | some m => if orderCoupled s (partner core) m then pass s else .next (returnBoth s core n (.returning m))
      | none => pass s
    else .next (beginSwap s core (.returning n) true)

/-! ## The save area (R215) -/

/-- The intermediate address of a context's save area. -/
def saveBase (s : State) (c : Nat) : Nat := (s.ctx c).save * 2 ^ 21
/-- The offset of a bank in it. -/
def bankOffset (k : Nat) : Nat := 0x1000 + k * 0x14000

/-- Bytes of the implementation-specific parts. -/
def implBytes (a n : Nat) : List Byte := (List.range n).map fun i => Config.implByte (a + i)

/-- A thread's system block. -/
def threadBlock (a : Nat) (x : Thread) : List Byte :=
  toBytes 8 x.rng.toNat ++ toBytes 8 x.trappc.toNat ++ toBytes 8 x.trapcause.toNat ++ toBytes 8 x.framebase.toNat
    ++ toBytes 8 x.cpbase.toNat ++ toBytes 8 x.trailbase.toNat ++ implBytes a 16
/-- A group's system block. -/
def groupBlock (s : State) (g : GId) (a : Nat) : List Byte :=
  let x := s.group g
  toBytes 8 x.fpstat.toNat ++ toBytes 8 (bit x.nbv1 0) ++ toBytes 8 x.trapvec.toNat
    ++ toBytes 8 (seqstepWord x).toNat ++ toBytes 8 (perflvlWord s g).toNat ++ implBytes a 216

/-- The 80 KiB of a bank. -/
def bankBytes (s : State) (core bank k : Nat) : List Byte :=
  let ts := (List.range 64).map fun i => s.thread ⟨core, bank, 64 * k + i⟩
  let gs : List GId := (List.range 4).map fun j => ⟨core, bank, 4 * k + j⟩
  (ts.flatMap fun x => x.v.toList.flatMap fun r => toBytes 4 r.toNat)
    ++ (ts.flatMap fun x => x.b.toList.flatMap fun b => toBytes 16 (boundEntry b))
    ++ (ts.flatMap fun x => toBytes 16 (controlEntry x))
    ++ (ts.zipIdx.flatMap fun x => threadBlock (0x6400 + x.2 * 64) x.1)
    ++ (gs.zipIdx.flatMap fun g => groupBlock s g.1 (0x7400 + g.2 * 256))
    ++ List.replicate 2048 0
    ++ (gs.flatMap fun g => (List.range 8192).map (groupByte (s.group g)))
    ++ readBytes s.mem (accAddr core bank (8 * k) 0 0) 16384

/-- An address of the save area through the stage-2 tables only, as they stand. -/
def saveReach (s : State) (part ipa : Nat) (k : Access) : Except SysFault (Nat × MemTy) :=
  match stage2 s.uncached 0 part ipa with
  | .error f => .error (accessFault f.kind k 0 f.wher ipa 0)
  | .ok (pa, p, ty) =>
    if permits p k then
      match placeCheck s part pa ty k with
      | some kind => .error (accessFault kind k 0 0 ipa pa)
      | none => .ok (pa, ty)
    else .error (accessFault kPERM k 0 0 ipa pa)

/-- The runs of an area of `n` bytes, cut at pages: each its address and offset. -/
def savePages (s : State) (part ipa n : Nat) (k : Access) : Except SysFault (List (Nat × Nat × MemTy)) :=
  (List.range (ceilDiv n 4096)).foldl (fun acc i => do
    let ps ← acc
    let (pa, ty) ← saveReach s part (ipa + i * 4096) k
    .ok (ps ++ [(i * 4096, pa, ty)])) (.ok [])

/-- Offsets of the poisoned 8-byte words among `n` bytes of memory. -/
def poisonMarks (s : State) (a n : Nat) : List Nat :=
  if s.poison.isEmpty then []
  else ((List.range (n / 8)).map fun i => 8 * i).filter fun o => memPoisoned s (a + o) 8
/-- Words of memory marked at offsets (R208). -/
def markWords (s : State) (a : Nat) (marks : List Nat) : State :=
  marks.foldl (fun s o => setMemPoison s (a + o) 8 true) s

/-- Bytes put at the runs of a save area with the poison of their words. -/
def savePut (s : State) (part : Nat) (ps : List (Nat × Nat × MemTy)) (bs : List Byte) (marks : List Nat) : State :=
  let page (s : State) (p : Nat × Nat × MemTy) : State :=
    let s := homeWrite s (some part) p.2.1 ((bs.drop p.1).take 4096) p.2.2 false none
    markWords s p.2.1 ((marks.filter fun o => decide (p.1 ≤ o) && decide (o < p.1 + 4096)).map fun o => o - p.1)
  ps.foldl page s
/-- Bytes written into a save area from a page boundary, all of it translated first. -/
def saveWrite (s : State) (part ipa : Nat) (bs : List Byte) (marks : List Nat) : Except SysFault State :=
  (savePages s part ipa bs.length .store).map fun ps => savePut s part ps bs marks
/-- Bytes read from a save area, with the offsets of their poisoned words. -/
def saveRead (s : State) (part ipa n : Nat) : Except SysFault (List Byte × List Nat) := do
  let ps ← savePages s part ipa n .load
  .ok ((ps.flatMap fun p => readBytes s.mem p.2.1 4096).take n,
    ps.flatMap fun p => (poisonMarks s p.2.1 4096).map fun o => p.1 + o)

/-- Bytes written into a save area at any offset: the pages are written whole, and what else stands in them is kept. -/
def saveSplice (s : State) (part area o : Nat) (bs : List Byte) (marks : List Nat) : Except SysFault State := do
  let lo := o / 4096 * 4096
  let n := ceilDiv (o - lo + bs.length) 4096 * 4096
  let old ← saveRead s part (area + lo) n
  let new := old.1.take (o - lo) ++ bs ++ old.1.drop (o - lo + bs.length)
  let kept := old.2.filter fun m => !(decide (o - lo ≤ m) && decide (m < o - lo + bs.length))
  saveWrite s part (area + lo) new (kept ++ marks.map fun m => o - lo + m)

/-- Bytes of a save area, from an offset, put at an address of the on-chip map with their poison. -/
def putSaved (s : State) (a o n : Nat) (bs : List Byte × List Nat) : State :=
  let s := setMemPoison (s.setMem (writeBytes s.mem a ((bs.1.drop o).take n))) a n false
  markWords s a ((bs.2.filter fun m => decide (o ≤ m) && decide (m < o + n)).map fun m => m - o)

/-- The header of a context's save area: spilled and owned banks, and the launch number. -/
def headerBytes (s : State) (c : Nat) : List Byte :=
  let x := s.ctx c
  let mine (p : GId × Group) : Bool := p.2.live && p.2.ctx == c
  let owned := (List.range 16).filter fun k =>
    (s.groups ++ spilledGroups s).any fun p => mine p && (groupBanks p.1 p.2).contains k
  let mask (ks : List Nat) : Nat := ks.foldl (fun acc k => acc + 2 ^ k) 0
  toBytes 2 (mask ((List.range 16).filter fun k => Tbl.has x.spilled k)) ++ toBytes 2 (mask owned)
    ++ implBytes 4 4 ++ toBytes 8 (s.launch x.launch).number.toNat

/-- The record of a fault of the spill engine (R200). -/
def spillFault (s : State) (core bank k c : Nat) (f : SysFault) : State :=
  let x := s.ctx c
  match partOfCore s core with
  | none => s
  | some p =>
    (fileRec s p { kind := f.kind, sev := sevOf f.kind, wher := f.wher, access := f.access, req := 5
                   core := coreField core bank, tti := 0xFFFFFFFF, ipa := f.ipa, pa := f.pa
                   tag := tagOf s x.launch, graph := graphOfLaunch s x.launch } (.spill core bank k)).1

/-! ## Spilling a bank (R213) -/

/-- The displaced contexts that own a bank in place. -/
def bankOwners (s : State) (core bank k : Nat) : List Nat :=
  let owns (c : Nat) : Bool := (s.groups ++ spilledGroups s).any fun p =>
    p.2.live && p.2.ctx == c && (groupBanks p.1 p.2).contains k
  (ctxsOf s core fun x => x.bank == bank && x.displaced.isSome && !Tbl.has x.spilled k).filter owns

/-- Whether a copy command has a chunk in flight: one that a record holds, or that replays once its context is active, is
none (R211). -/
def CopyCmd.moves (c : CopyCmd) : Bool :=
  (List.range c.total).any fun k =>
    (c.chunk k).isSome && !c.landed.contains k && !c.held.contains k && !c.again.contains k
/-- Whether copies of a group are in flight, or a cluster holds a request of its tile sequencer. -/
def requestsStand (s : State) (g : GId) : Bool :=
  ((s.core g.core).copies.any fun c => ownsCopy s g c.2 && c.2.moves) || s.clusters.any fun c => c.2.heldReqs.any fun h => h.who == .tile g

/-- Whether an outstanding result is in flight: not where a record holds it, or where it replays once its context is
active (R211). -/
def outMoves (s : State) (core : Nat) (o : Out) : Bool :=
  !(o.again || recordHolds s ((partOfCore s core).getD 0) (.outload o.id))

/-- Whether no accepted work and no outstanding result targets a bank (DEDUCED, log 33). -/
def bankQuiet (s : State) (core bank k : Nat) : Bool :=
  let quiet (x : Thread) : Bool := x.outs.all (fun o => !outMoves s core o) &&
    (match x.wait with
      | .walk _ _ | .remote _ _ | .stealLanding | .copySlot | .matrix _ => false
      | _ => true)
  (List.range 64).all (fun i => quiet (s.thread ⟨core, bank, 64 * k + i⟩)) &&
    s.groups.all fun p =>
      !(p.1.core == core && p.1.bank == bank && (groupBanks p.1 p.2).contains k) ||
        !((p.2.mq.any fun q => q.2.any fun op => !op.performed) || requestsStand s p.1)

/-- The stores of a bank's threads reach their homes before the bank leaves, and the Trellis writes their choice points
and trail entries (R309). -/
def publishBank (s : State) (core bank k : Nat) : State :=
  (List.range 64).foldl (fun s i => putStacks (publishAll s ⟨core, bank, 64 * k + i⟩) ⟨core, bank, 64 * k + i⟩) s

/-- A bank of a context leaves for its save area, with its header; all of both translated first
(DEDUCED, log 34). -/
def spillBank (s : State) (core bank k c : Nat) : Except SysFault State := do
  let part := (partOfCore s core).getD 0
  let s := publishBank s core bank k
  let area ← savePages s part (saveBase s c + bankOffset k) 0x14000 .store
  let head ← savePages s part (saveBase s c) 16 .store
  let s := savePut s part area (bankBytes s core bank k)
    ((poisonMarks s (accAddr core bank (8 * k) 0 0) 16384).map fun o => 0x10000 + o)
  let inBank (g : GId) (x : Group) : Bool :=
    g.core == core && g.bank == bank && g.slot / 4 == k && x.live && x.ctx == c
  let gs := s.groups.filter fun p => inBank p.1 p.2
  let mine (t : TId) : Bool := gs.any fun p =>
    t.core == core && t.bank == bank && inGroup p.1 p.2.width t.slot
  let bankState : SpilledBank := { threads := s.threads.filter (fun p => mine p.1), groups := gs }
  let s := { s with threads := s.threads.filter (fun p => !mine p.1), groups := s.groups.filter fun p => !inBank p.1 p.2 }
  let s := s.modCtx c fun x => { x with spilled := Tbl.put x.spilled k bankState }
  .ok (savePut s part head (headerBytes s c) [])

/-- Spill of a bank for every context that owns it, or the record of a fault. -/
def spillAll (s : State) (core bank k : Nat) : List Nat → State
  | [] => s
  | c :: cs =>
    match spillBank s core bank k c with
    | .ok s' => spillAll s' core bank k cs
    | .error f => spillFault s core bank k c f

/-! ## Scratchpads and counter sets (R213) -/

/-- The contexts of a core that hold a team. -/
def ctxsOfTeam (s : State) (core launch team : Nat) : List Nat :=
  ((s.groups ++ spilledGroups s).filter fun p =>
    p.1.core == core && p.2.live && p.2.launch == launch && p.2.team == team).map fun p => p.2.ctx
/-- Whether only displaced contexts hold a team of a core. -/
def teamDisplaced (s : State) (core launch team : Nat) : Bool :=
  let cs := ctxsOfTeam s core launch team
  !cs.isEmpty && cs.all fun c => (s.ctx c).displaced.isSome

/-- The lines of an allocation. -/
def allocLines (core : Nat) (a : SpadAlloc) : List Nat :=
  (List.range (a.size / 128)).map fun i => spadLineId core (a.base / 128 + i)

/-- A scratchpad allocation leaves for its context's save area, with its presence bits. -/
def spillSpad (s : State) (core : Nat) (a : SpadAlloc) : Except SysFault State :=
  match (ctxsOfTeam s core a.launch a.team).head? with
  | none => .ok s
  | some c => do
    let part := (partOfCore s core).getD 0
    let s ← saveSplice s part (saveBase s c + 0x160000) a.base (readBytes s.mem (spadAddr core a.base) a.size)
      (poisonMarks s (spadAddr core a.base) a.size)
    let lines := allocLines core a
    let s := s.modCtx c fun x =>
      { x with spilledSpad := x.spilledSpad ++ [a], spilledAbsent := x.spilledAbsent ++ s.absent.filter fun l => lines.contains l }
    let s := { s with absent := s.absent.filter fun l => !lines.contains l }
    .ok (s.modCore core fun x => { x with allocs := x.allocs.filter fun b => b != a })

/-- A counter set leaves for its context's save area. -/
def spillSet (s : State) (core n c team : Nat) : Except SysFault State := do
  let part := (partOfCore s core).getD 0
  let bytes := readBytes s.mem (windowAddr core (0x300000 + n * 4096)) 4096
    ++ readBytes s.mem (windowAddr core (0x310000 + n * 512)) 512
  let marks := poisonMarks s (windowAddr core (0x300000 + n * 4096)) 4096
    ++ (poisonMarks s (windowAddr core (0x310000 + n * 512)) 512).map fun o => 4096 + o
  let s ← saveSplice s part (saveBase s c + 0x141000) (n * 0x1200) bytes marks
  let s := s.modCtx c fun x => { x with spilledSets := Tbl.put x.spilledSets n team }
  .ok (s.modCore core fun x => { x with sets := Tbl.drop x.sets n })

/-- Whether engine work of a team's groups still moves its scratchpad. -/
def teamCopies (s : State) (core launch team : Nat) : Bool :=
  (s.core core).copies.any fun c => (copyGroup s c.2).launch == launch && (copyGroup s c.2).team == team

/-- Allocations of displaced contexts are spilled until `ok` holds of the core, at most `n` of them. -/
def freeSpads (core : Nat) (ok : State → Bool) : Nat → State → Except SysFault State
  | 0, s => .ok s
  | n + 1, s =>
    if ok s then .ok s
    else
      match (s.core core).allocs.find? fun a =>
          teamDisplaced s core a.launch a.team && !teamCopies s core a.launch a.team with
      | none => .ok s
      | some a => do
        let s ← spillSpad s core a
        freeSpads core ok n s
/-- The same for counter sets. -/
def freeSetsUntil (core : Nat) (ok : State → Bool) : Nat → State → Except SysFault State
  | 0, s => .ok s
  | n + 1, s =>
    if ok s then .ok s
    else
      match (s.core core).sets.find? fun k => (s.ctx k.2.1).displaced.isSome with
      | none => .ok s
      | some k => do
        let s ← spillSet s core k.1 k.2.1 k.2.2
        freeSetsUntil core ok n s

/-- Room for a team that comes in. -/
def makeRoom (s : State) (core launch count : Nat) : Except SysFault State := do
  let k := (s.launch launch).kernel
  let s ← freeSpads core (fun s => k.spad == 0 || !(spadChoices s core k.spad).isEmpty) 512 s
  freeSetsUntil core (fun s => decide (count * k.ncset ≤ (freeSets s core).length)) 16 s

/-- A context's scratchpad allocations and counter sets come back to their places. -/
def restoreCore (s : State) (core c : Nat) : Except SysFault State := do
  let part := (partOfCore s core).getD 0
  let x := s.ctx c
  let s ← x.spilledSpad.foldl (fun acc a => do
    let s ← acc
    let s ← freeSpads core (fun s => !(s.core core).allocs.any fun b => overlaps a.base a.size b.base b.size) 512 s
    let page := a.base / 4096 * 4096
    let bs ← saveRead s part (saveBase s c + 0x160000 + page) (a.base + a.size - page)
    let s := putSaved s (spadAddr core a.base) (a.base - page) a.size bs
    .ok (s.modCore core fun y => { y with allocs := y.allocs ++ [a] })) (.ok s)
  let s ← x.spilledSets.foldl (fun acc k => do
    let s ← acc
    let s ← freeSetsUntil core (fun s => !Tbl.has (s.core core).sets k.1) 16 s
    let at0 := k.1 * 0x1200 / 4096 * 4096
    let bs ← saveRead s part (saveBase s c + 0x141000 + at0) (k.1 * 0x1200 - at0 + 0x1200)
    let o := k.1 * 0x1200 - at0
    let s := putSaved s (windowAddr core (0x300000 + k.1 * 4096)) o 4096 bs
    let s := putSaved s (windowAddr core (0x310000 + k.1 * 512)) (o + 4096) 512 bs
    .ok (s.modCore core fun y => { y with sets := Tbl.put y.sets k.1 (c, k.2) })) (.ok s)
  let s := { s with absent := s.absent ++ x.spilledAbsent }
  .ok (s.modCtx c fun y => { y with spilledSets := [], spilledSpad := [], spilledAbsent := [] })

/-! ## The end of a swap -/

/-- A team that comes in, on one core, where it finds room. -/
def enterTeam (s : State) (core launch team first count : Nat) : Except SysFault (Option State) := do
  if !tablesAllow s core launch then .ok none
  else
    let s ← makeRoom s core launch count
    let s := s.modCore core fun c => { c with swap := none }
    .ok (placeHalf s core (s.core core).act launch team first count)

/-- The held-back bins of a launch fire as groups find room: counter sets that displaced contexts hold make it (R213). -/
def enterBins (s : State) (core launch : Nat) : Except SysFault State :=
  ((s.core core).bins.filter fun b => b.2.due && b.2.launch == launch).foldl (fun acc p => do
    let s ← acc
    let s ← freeSetsUntil core (fun s => decide ((s.launch launch).kernel.ncset ≤ (freeSets s core).length)) 16 s
    .ok (match binSeat s core p.2 with
      | some seat => fireBin s core p.1 p.2 seat
      | none => s)) (.ok s)

/-- The threads of a context that are in place refresh before their next instruction (R210). -/
def restoreThreads (s : State) (c : Nat) : State :=
  let gs := (s.groups.filter fun p => p.2.live && p.2.ctx == c).map Prod.fst
  gs.foldl (fun s g => (liveThreads s g).foldl (fun s t => s.modThread t fun x => { x with restored := true }) s) s

/-- The contexts of one displacement are active again. -/
def enterContexts (s : State) (core n : Nat) : Except SysFault State :=
  (ofOrder s core n).foldl (fun acc c => do
    let s ← acc
    let s ← restoreCore s core c
    .ok (restoreThreads (s.modCtx c fun x => { x with displaced := none, byProgress := false }) c)) (.ok s)

/-- What comes in on one core: nothing where it does not find room yet. -/
def finishSwap (s : State) (core : Nat) : Except SysFault (Option State) :=
  match (s.core core).swap with
  | none => .ok none
  | some (.incoming l team first count) =>
    if (s.launch l).ended then .ok (some (s.modCore core fun c => { c with swap := none }))
    else enterTeam s core l team first count
  | some (.returning n) =>
    (enterContexts s core n).map fun s => some (s.modCore core fun c => { c with swap := none })
  | some (.spawned l) =>
    let due (s : State) : List Nat := ((s.core core).bins.filter fun b => b.2.due && b.2.launch == l).map Prod.fst
    (enterBins (s.modCore core fun c => { c with swap := none }) core l).map fun s' =>
      if due s == due s' && !(due s).isEmpty then none else some s'
  | some .empty => .ok (some (s.modCore core fun c => { c with swap := none }))

/-- The cores of a cluster whose swaps end together: the two halves of a two-core team. -/
def swapCores (s : State) (core : Nat) : List Nat :=
  match (s.core core).swap, (s.core (partner core)).swap with
  | some (.incoming l t _ _), some (.incoming l' t' _ _) =>
    if l = l' && t = t' then [core / 2 * 2, core / 2 * 2 + 1] else [core]
  | some (.returning n), some (.returning m) =>
    if orderCoupled s core n && orderCoupled s (partner core) m then [core / 2 * 2, core / 2 * 2 + 1] else [core]
  | _, _ => [core]

/-- Swaps of cores end one after the other, within one step. -/
def finishAll : List Nat → State → Except (Nat × SysFault) (Option State)
  | [], s => .ok (some s)
  | c :: cs, s =>
    match finishSwap s c with
    | .error f => .error (c, f)
    | .ok none => .ok none
    | .ok (some s) => finishAll cs s

/-- SWAP_COMPLETE: a fault of the spill engine holds it until its record is answered. -/
def execSwapComplete (core : Nat) (s : State) : Result :=
  let p := (partOfCore s core).getD 0
  let held := (swapCores s core).any fun c => recordHolds s p (.spill c (s.core c).act 16)
  if held || (s.core core).swap.isNone then pass s
  else
    match finishAll (swapCores s core) s with
    | .ok (some s') => .next ((swapCores s core).foldl (fun s c => relevel (wakeCore s c) (c / 2)) s')
    | .ok none => pass s
    | .error (c, f) =>
      let owner := ((ctxsOf s c fun x => x.displaced.isSome).headD 0)
      .next (spillFault s c (s.core c).act 16 owner f)

/-! ## Spills and reloads -/

/-- Whether work that comes in on a core waits for room. -/
def wantsRoom (s : State) (core : Nat) : Bool :=
  match (s.core core).swap with
  | some (.incoming _ _ _ _) | some (.spawned _) =>
    (match finishSwap s core with
      | .ok none => true
      | _ => false)
  | _ => false

/-- Whether an active context of a core waits to have a bank back that a displaced one owns. -/
def wantsBank (s : State) (core bank k : Nat) : Bool :=
  (activeCtxs s core).any fun c => (s.ctx c).bank == bank && bankSpilled s c k

/-- The slots and blocks of a bank as they stand once its displaced owners have left it. -/
def vacateBank (s : State) (core bank k : Nat) : State :=
  let owner (c : Ctx) : Bool := c.core == core && c.bank == bank && c.displaced.isSome && !Tbl.has c.spilled k
  let mine (p : GId × Group) : Bool := p.1.core == core && p.1.bank == bank && p.1.slot / 4 == k && owner (s.ctx p.2.ctx)
  { s with
    groups := s.groups.filter fun p => !mine p
    ctxs := s.ctxs.map fun c =>
      if owner c.2 then (c.1, { c.2 with spilled := Tbl.put c.2.spilled k { groups := s.groups.filter fun p => mine p && p.2.ctx == c.1 } })
      else c }
/-- Whether work that comes in finds room once banks no longer belong to displaced contexts: their slots and blocks alone
(R213). -/
def givesRoom (s : State) (core bank lo n : Nat) : Bool :=
  !wantsRoom ((List.range n).foldl (fun s i => vacateBank s core bank (lo + i)) s) core

/-- The bank that work which comes in claims: the lowest-numbered that gives it room (R213), or the first of the fewest
in a row that do (DEDUCED, log 34). -/
def claimBank (s : State) (core bank : Nat) : Option Nat :=
  let held := displacedBanks s core bank
  ((List.range 16).findSome? fun n =>
    ((List.range 16).find? fun lo => givesRoom s core bank lo (n + 1)).bind fun lo =>
      held.find? fun k => decide (lo ≤ k) && decide (k < lo + n + 1)).or held.head?

/-- BANK_SPILL: the bank that work which finds no other room claims, or the bank that a returning context waits for. -/
def execBankSpill (core bank k : Nat) (s : State) : Result :=
  let owners := bankOwners s core bank k
  let p := (partOfCore s core).getD 0
  let need := (wantsRoom s core && claimBank s core bank == some k) || wantsBank s core bank k
  if bank = (s.core core).act && need && !owners.isEmpty && bankQuiet s core bank k
      && !recordHolds s p (.spill core bank k) then
    .next (spillAll s core bank k owners)
  else pass s

/-- The number in `n` bytes of a list from an offset. -/
def bytesAt (bs : List Byte) (o n : Nat) : Nat := ofBytes ((bs.drop o).take n)

/-- A bound register as a save area holds it: it registers again, and refreshes (R160), unless the binding has ended
there (R287). -/
def loadBound (bs : List Byte) (o : Nat) (b : Bound) : Bound :=
  let e := bytesAt bs o 16
  let bound := b.bound && e / 2 ^ 32 % 2 == 1
  { b with value := BitVec.ofNat 32 e, bound := bound, changed := bound, pa := e / 2 ^ 64 % 2 ^ 64 }

/-- A thread as a save area holds it, slot `i` of its bank. -/
def loadThread (bs : List Byte) (i : Nat) (x : Thread) : Thread :=
  let sys (j : Nat) : W64 := BitVec.ofNat 64 (bytesAt bs (0x6400 + i * 64 + j * 8) 8)
  let ctl := bytesAt bs (0x6000 + i * 16) 16
  { x with
    v := Vector.ofFn fun (r : Fin 64) => BitVec.ofNat 32 (bytesAt bs (i * 256 + r.val * 4) 4)
    b := x.b.mapIdx fun k b => loadBound bs (0x4000 + i * 128 + k * 16) b
    pc := BitVec.ofNat 64 ctl, p := BitVec.ofNat 8 (ctl / 2 ^ 64) ||| 1, live := ctl / 2 ^ 72 % 2 == 1
    rng := sys 0, trappc := sys 1, trapcause := sys 2 &&& trapcauseMask, framebase := sys 3 &&& addressMask
    cpbase := sys 4 &&& addressMask, trailbase := sys 5 &&& addressMask
    restored := true }

/-- A group as a save area holds it, slot `j` of its bank. -/
def loadGroup (bs : List Byte) (j : Nat) (x : Group) : Group :=
  let sys (k : Nat) : Nat := bytesAt bs (0x7400 + j * 256 + k * 8) 8
  let base := 0x8000 + j * 8192
  { x with
    fpstat := BitVec.ofNat 5 (sys 0), nbv1 := sys 1 % 2 == 1, trapvec := BitVec.ofNat 64 (sys 2) &&& trapvecMask
    busy := sys 3 / 2 ^ 32 % 2 == 1, stepNo := sys 3 % 2 ^ 32, level := Nat.min (sys 4 % 32) 23
    s := Vector.ofFn fun (r : Fin 64) => BitVec.ofNat 64 (bytesAt bs (base + r.val * 8) 8)
    q := BitVec.ofNat 8 (bytesAt bs (base + 0x200) 1) ||| 1
    h := Vector.ofFn fun (r : Fin 8) => BitVec.ofNat 4096 (bytesAt bs (base + 0x1000 + r.val * 512) 512) }

/-- The waits of reloaded threads look again at what they wait for. -/
def recheck (s : State) (t : TId) : State :=
  match (s.thread t).wait with
  | .barrier pa _ => if (s.thread t).woken then returnBar s t pa else wakeBarThread pa (readBar s pa) s t
  | .bound _ _ => if (s.thread t).woken then endBound s t true else s
  | .yield => if (s.thread t).woken then s.modThread t endYield else s
  | .presence l => if s.absent.contains l then s else retryThread s t
  | .table | .spawn | .queue _ => retryThread s t
  | .collective _ => if domainReady s t then retryThread s t else s
  | .trap _ _ _ => dueTrap s t
  | _ => s

/-- A bank comes back to a context, and the header no longer marks it as spilled (R215). -/
def reloadBank (s : State) (core bank k c : Nat) (x : SpilledBank) : Except SysFault State := do
  let area ← saveRead s ((partOfCore s core).getD 0) (saveBase s c + bankOffset k) 0x14000
  let bs := area.1
  let ts := x.threads.map fun p => (p.1, loadThread bs (p.1.slot % 64) p.2)
  let gs := x.groups.map fun p => (p.1, loadGroup bs (p.1.slot % 4) p.2)
  let mine (g : Group) : List Nat := ((List.range (groupBlocks g)).map fun i => g.accFirst + i).filter fun b => b / 8 == k
  let oldT (p : TId × Thread) : Bool := !Tbl.has ts p.1
  let oldG (p : GId × Group) : Bool := !Tbl.has gs p.1
  let s := { s with threads := s.threads.filter oldT ++ ts, groups := s.groups.filter oldG ++ gs }
  let s := s.modCtx c fun y => { y with spilled := Tbl.drop y.spilled k }
  let owned := (s.groups ++ spilledGroups s).flatMap fun p => if p.2.live && p.2.ctx == c then mine p.2 else []
  let s := owned.foldl (fun s b => putSaved s (accAddr core bank b 0 0) (0x10000 + b % 8 * 2048) 2048 area) s
  let register (s : State) (t : TId) : State :=
    (List.range 8).foldl (fun s i =>
      let b := (s.thread t).b.getD i {}
      if b.bound then
        let overrun := bindOverflows (s.modThread t fun th => { th with b := th.b.set! i { b with bound := false } }) core (b.pa / 128)
        s.modThread t fun th => { th with b := th.b.set! i { b with ovf := overrun } }
      else s) s
  let s := (ts.map Prod.fst).foldl (fun s t => recheck (register s t) t) s
  let head ← savePages s ((partOfCore s core).getD 0) (saveBase s c) 16 .store
  .ok (relevel (savePut s ((partOfCore s core).getD 0) head (headerBytes s c) []) (core / 2))

/-- BANK_RELOAD (R214): a spilled bank of a context that is active again, its place free, of a partition that no halt
stops (R287). -/
def execBankReload (core bank k : Nat) (s : State) : Result :=
  let p := (partOfCore s core).getD 0
  if (s.core core).swap.isSome || !(bankOwners s core bank k).isEmpty || recordHolds s p (.spill core bank k)
      || (s.part p).state != 1 then
    pass s
  else
    match (activeCtxs s core).find? fun c => (s.ctx c).bank == bank && bankSpilled s c k with
    | none => pass s
    | some c =>
      match reloadBank s core bank k c (Tbl.getD (s.ctx c).spilled k {}) with
      | .ok s' => .next s'
      | .error f => .next (spillFault s core bank k c f)

end Sys2Proof.Machine
end

