-- ==== Sys2Proof/Machine/Binary.lean ====
section
/-! DEFINITION. The Dvorper graph binary (R77 to R83, R240, R241): its sections, its checks, its patch
points, and the graph it describes. Pergola reads the binary whole, checks its signature first, and
checks everything else as its patch points leave it. -/

namespace Sys2Proof.Machine

/-! ## Bytes at virtual addresses -/

/-- Bytes at a virtual address, or nothing where one does not translate. -/
def readAll (s : State) (i : Issuer) (va n : Nat) : Option (List Byte) :=
  match reachBytes s i .load va n with
  | .ok ps => some (ps.map fun p => (engineByte s p).1)
  | .error _ => none

/-- Bytes of an image replaced from an offset. -/
def putBytes (bs : List Byte) (o : Nat) (xs : List Byte) : List Byte :=
  bs.take o ++ xs ++ bs.drop (o + xs.length)

/-! ## Sections (R77, R78) -/

/-- A section: its kind, offset and length. -/
structure Section where
  kind : Nat
  off : Nat
  len : Nat
  deriving DecidableEq, Repr

/-- A binary: its address, its bytes and its sections. -/
structure Image where
  va : Nat
  bytes : List Byte
  sects : List Section
  deriving DecidableEq, Repr

/-- A number in the image. -/
def Image.num (m : Image) (o n : Nat) : Nat := bytesAt m.bytes o n
def Image.sect (m : Image) (kind : Nat) : Option Section := m.sects.find? fun x => x.kind == kind
/-- The length and offset of a section, 0 where there is none. -/
def Image.len (m : Image) (kind : Nat) : Nat := ((m.sect kind).map Section.len).getD 0
def Image.off (m : Image) (kind : Nat) : Nat := ((m.sect kind).map Section.off).getD 0

/-- The section table of a header. -/
def sectionTable (hd : List Byte) (n : Nat) : List Section :=
  (List.range n).map fun k =>
    ⟨bytesAt hd (0x10 + 16 * k) 4, bytesAt hd (0x10 + 16 * k + 8) 4, bytesAt hd (0x10 + 16 * k + 12) 4⟩

/-- Whether the numbers of a list are all different. -/
def allDiffer : List Nat → Bool
  | [] => true
  | x :: xs => !xs.contains x && allDiffer xs

/-- The checks of the table: kinds, offsets, lengths, and the signature last (R78, R83). -/
def sectionsOk (xs : List Section) (length : Nat) : Bool :=
  xs.all (fun x => decide (1 ≤ x.kind) && decide (x.kind ≤ 8) && x.off % 16 == 0 && decide (x.off + x.len ≤ length))
    && allDiffer (xs.map Section.kind)
    && xs.all (fun x => xs.all fun y => x == y || !overlaps x.off x.len y.off y.len)
    && [1, 6].all (fun k => (xs.map Section.kind).contains k)

/-- Whether the signature section is the last and ends the binary. -/
def signatureAt (xs : List Section) (length : Nat) : Option Section :=
  match xs.find? fun x => x.kind == 8 with
  | some x => if x.len = 122 && x.off + x.len = length && xs.all (fun y => decide (y.off ≤ x.off)) then some x else none
  | none => none

/-- A key's identifier: the first 8 bytes of its SHAKE256 digest (R83). -/
def keyId (key : List Byte) : List Byte := (Config.shake256 key).take 8
/-- The signature check of R83: a key of the partition has the section's key identifier, and the signature of the
64-byte digest of the bytes before the section is valid under it, which is a published standard's to say
(DESIGN CHOICE, log 71). -/
def signed (s : State) (part : Nat) (bytes : List Byte) (x : Section) : Bool :=
  let sec := (bytes.drop x.off).take 122
  s.device.keys.any fun k =>
    k.part == part && keyId k.key == sec.drop 114
      && s.device.signed.contains (k.key, Config.shake256 (bytes.take x.off), sec.take 114)

/-! ## Patch points (R81) -/

/-- An allocation of the memory plan (R82). -/
structure Alloc where
  size : Nat
  align : Nat
  ty : Nat
  base : Nat
  deriving DecidableEq, Repr

/-- The entries of a memory plan: type, offset in the image, length (DESIGN CHOICE, log 74). -/
def planEntries (m : Image) : Nat → Nat → Option (List (Nat × Nat × Nat))
  | _, 0 => some []
  | o, fuel + 1 =>
    if m.off 5 + m.len 5 ≤ o then (if o = m.off 5 + m.len 5 then some [] else none)
    else
      let n := m.num (o + 4) 4
      if n % 8 = 0 && decide (8 ≤ n) then
        (planEntries m (o + n) fuel).map fun rest => (m.num o 4, o, n) :: rest
      else none
/-- Every entry of the plan. -/
def plan (m : Image) : Option (List (Nat × Nat × Nat)) := planEntries m (m.off 5) (m.len 5 / 8 + 1)

/-- The allocations, numbered in order, read before any patch: where each stands is the memory plan's to choose, at a
multiple of its alignment, an alignment of 0 being 1 (DESIGN CHOICE, log 75). -/
def allocsOf (tick : Nat) (m : Image) (es : List (Nat × Nat × Nat)) : List Alloc :=
  (es.filter fun e => e.1 == 1).zipIdx.map fun e =>
    let align := Nat.max 1 (m.num (e.1.2.1 + 16) 8)
    { size := m.num (e.1.2.1 + 8) 8, align := align, ty := m.num (e.1.2.1 + 24) 1
      base := align * (Config.freeNat tick (70000 + e.2) % Nat.max 1 (2 ^ 57 / align)) }

/-- Where a data block begins in its section, in units of 256 bytes, with `room` units that no block begins at: the first
begins the section, every other follows the one before at a multiple of 256; which one the binary's formats do not
give (R243) (DESIGN CHOICE, log 75). -/
def blockUnit (tick room : Nat) : Nat → Nat
  | 0 => 0
  | k + 1 =>
    let u := blockUnit tick room k
    u + 1 + Config.freeNat tick (80000 + k) % (room + k + 1 - u)
/-- The highest data block that a patch point names. -/
def lastBlock (m : Image) : Nat :=
  (List.range (m.len 4 / 16)).foldl (fun n k =>
    let o := m.off 4 + 16 * k
    if m.num (o + 8) 1 = 1 then Nat.max n (m.num (o + 12) 4) else n) 0
/-- The address of a data block: the blocks before the last that a patch point names leave the place that it needs. -/
def dataBlock (tick : Nat) (m : Image) (k : Nat) : Option Nat :=
  let last := (m.len 7 - 1) / 256
  if m.len 7 = 0 || last < k then none
  else some (m.va + m.off 7 + 256 * blockUnit tick (last - Nat.min last (lastBlock m)) k)

/-- What a patch point writes, and where in the image that the points before it have left: nothing where it is
malformed, as it is with a source above 2, a target outside its section or an index that names nothing
(DESIGN CHOICE, log 91). -/
def patchOf (tick : Nat) (m : Image) (al : List Alloc) (values : List W64) (k : Nat) : Option (Nat × W64) :=
  let o := m.off 4 + 16 * k
  let kind := m.num o 4
  let off := m.num (o + 4) 4
  let idx := m.num (o + 12) 4
  match m.sect kind with
  | none => none
  | some x =>
    if off % 8 != 0 || decide (x.len < off + 8) then none
    else
      match m.num (o + 8) 1 with
      | 0 => (values[idx]?).map fun v => (x.off + off, v)
      | 1 => (dataBlock tick m idx).map fun a => (x.off + off, BitVec.ofNat 64 a)
      | 2 => (al[idx]?).map fun a => (x.off + off, BitVec.ofNat 64 (a.base + m.num (x.off + off) 8))
      | _ => none

/-- An image with one patch applied. -/
def patch1 (m : Image) (p : Nat × W64) : Image := { m with bytes := putBytes m.bytes p.1 (toBytes 8 p.2.toNat) }

/-- Every patch of the binary, in order: each reads what those before it have written (R81). -/
def patchesOf (tick : Nat) (al : List Alloc) (values : List W64) : List Nat → Image → Option (List (Nat × W64))
  | [], _ => some []
  | k :: ks, m =>
    (patchOf tick m al values k).bind fun p => (patchesOf tick al values ks (patch1 m p)).map fun ps => p :: ps

/-- The image as its patch points leave it. -/
def patched (m : Image) (ps : List (Nat × W64)) : Image :=
  ps.foldl patch1 m

/-! ## Kernels, regions, nodes, edges (R65, R79, R80, R241) -/

/-- Whether a number is a power of two between limits. -/
def powerWithin (x lo hi : Nat) : Bool := decide (lo ≤ x) && decide (x ≤ hi) && (List.range 17).any fun k => 2 ^ k == x

/-- A kernel descriptor at an offset of the code section. -/
def kernelAt (m : Image) (off : Nat) : Option Kernel :=
  let c := m.off 6
  let o := c + off
  let k : Kernel :=
    { entry := BitVec.ofNat 64 (m.va + c + m.num o 4), nwords := m.num (o + 4) 4, group := m.num (o + 8) 2
      team := m.num (o + 0xA) 2, regs := m.num (o + 0xC) 1, acc := m.num (o + 0xD) 1, hvc := m.num (o + 0xE) 1
      ncset := m.num (o + 0xF) 1, spad := m.num (o + 0x10) 4, frame := m.num (o + 0x14) 2, binto := m.num (o + 0x16) 2
      binq := m.num (o + 0x18) 4
      params := (List.range 16).map fun j => if j < m.num (o + 0x1C) 1 then BitVec.ofNat 64 (m.num (o + 0x40 + 8 * j) 8) else 0
      tidmap := (List.range 64).map fun j => m.num (o + 0xC0 + j) 1 }
  let ok := decide (16 ≤ off) && (off - 16) % 256 == 0 && decide ((off - 16) / 256 < m.num c 4)
    && decide (off + 256 ≤ m.len 6) && [16, 32, 64].contains k.group
    && decide (k.group ≤ k.team) && k.team % Nat.max 1 k.group == 0 && decide (k.team ≤ 2048)
    && decide (1 ≤ k.regs) && decide (k.regs ≤ 64) && decide (k.acc ≤ 4) && [4, 8].contains k.hvc
    && decide (k.ncset ≤ 4) && k.spad % 128 == 0 && decide (k.spad ≤ 524288) && k.frame % 16 == 0
    && decide (k.frame ≤ 1024) && decide (32 ≤ k.binto) && powerWithin k.binq 16 65536
    && decide (m.num (o + 0x1C) 1 ≤ 16) && m.num o 4 % 256 == 0
    && decide (m.num o 4 + 4 * k.nwords ≤ m.len 6)
  if ok then some k else none

/-- Every kernel descriptor of the code section (R240). -/
def kernelsOf (m : Image) : Option (List Kernel) :=
  let n := m.num (m.off 6) 4
  if 16 + 256 * n ≤ m.len 6 then (List.range n).mapM fun k => kernelAt m (16 + 256 * k) else none

/-- A region record. -/
def regionAt (m : Image) (k : Nat) : Option Region :=
  let o := m.off 3 + 64 * k
  let rank := m.num (o + 8) 1
  let acc := m.num (o + 9) 1
  let elem := m.num (o + 10) 2
  let ext (d : Nat) : Nat := m.num (o + 16 + 4 * d) 4
  let stride (d : Nat) : Nat := m.num (o + 32 + 8 * d) 8
  let base := m.num o 8
  if 1 ≤ rank && decide (rank ≤ 4) && decide (1 ≤ elem) && acc % 4 != 0 && decide (64 * (k + 1) ≤ m.len 3) then
    let dims := List.range rank
    some { lo := base, hi := dims.foldl (fun acc d => acc + (ext d - 1) * stride d) (base + elem - 1)
           empty := dims.any fun d => ext d == 0, rd := acc % 2 == 1, wr := acc / 2 % 2 == 1 }
  else none

/-- A node record. -/
def nodeAt (m : Image) (k : Nat) : Option Node := do
  let o := m.off 1 + 64 * k
  let n := m.num (o + 8) 2
  if 4096 < n then none
  else
    let rs ← (List.range n).mapM fun j => regionAt m (m.num (o + 4) 4 + j)
    let kind : Option NodeKind :=
      match m.num o 1 with
      | 1 => if m.num (o + 0x14) 4 = 0 then none else (kernelAt m (m.num (o + 0x10) 4)).map fun x => .launch x (m.num (o + 0x14) 4)
      | 2 => some (.tileCopy (m.num (o + 0x10) 1) (m.num (o + 0x11) 1))
      | 3 => if m.num (o + 0x10) 8 % 8 = 0 then some (.cond (BitVec.ofNat 64 (m.num (o + 0x10) 8))) else none
      | 4 => some (.loop (BitVec.ofNat 64 (m.num (o + 0x10) 8)) (m.num (o + 0x18) 4))
      | 5 => some (.event (BitVec.ofNat 64 (m.num (o + 0x10) 8)) (BitVec.ofNat 64 (m.num (o + 0x18) 8)))
      | 6 => some (.signal (BitVec.ofNat 64 (m.num (o + 0x10) 8)) (BitVec.ofNat 64 (m.num (o + 0x18) 8)) (m.num (o + 0x20) 2))
      | _ => none
    let kind ← kind
    some { kind := kind, regions := rs, index := k }

/-- Whether a node is a conditional, or a while. -/
def Node.isCond (x : Node) : Bool :=
  match x.kind with
  | .cond _ => true
  | _ => false
def Node.isLoop (x : Node) : Bool :=
  match x.kind with
  | .loop _ _ => true
  | _ => false

/-- An edge record. -/
def edgeAt (m : Image) (nodes : List Node) (k : Nat) : Option Edge := do
  let o := m.off 2 + 8 * k
  let a := m.num o 2
  let b := m.num (o + 2) 2
  let x ← nodes[a]?
  let y ← nodes[b]?
  let kind : Option EdgeKind :=
    match m.num (o + 4) 1 with
    | 0 => some .order
    | 1 => if x.isCond then some .ifTrue else none
    | 2 => if x.isCond then some .ifFalse else none
    | 3 => if x.isLoop then some .body else none
    | 4 => if x.isLoop then some .exit else none
    | 5 => if y.isLoop then some .back else none
    | _ => none
  let kind ← kind
  some { src := a, dst := b, kind := kind }

/-- Nodes left once those with no incoming edge from the rest are taken away, `fuel` times. -/
def peelNodes (es : List Edge) : Nat → List Nat → List Nat
  | 0, ns => ns
  | fuel + 1, ns =>
    peelNodes es fuel (ns.filter fun n => es.any fun e => e.dst == n && e.kind != .back && ns.contains e.src)
/-- Whether a graph is acyclic but for its loop-back edges (R80). -/
def acyclic (nodes : List Node) (es : List Edge) : Bool := (peelNodes es nodes.length (List.range nodes.length)).isEmpty

/-! ## The memory plan (R82) -/

/-- What a plan gives a graph. -/
structure PlanParts where
  tables : List (List W32) := []
  templates : Tbl Nat (Vector W64 4) := []
  overflow : List (Nat × Nat) := []
  pool : Option Alloc := none
  deriving DecidableEq, Repr

/-- The bytes that an entry's fields take. -/
def planFields (m : Image) (e : Nat × Nat × Nat) : Nat :=
  match e.1 with
  | 1 => 26
  | 2 => 48
  | 3 => 12 + 4 * m.num (e.2.1 + 8) 4
  | 4 => 12
  | _ => 16

/-- One entry joined to the parts: malformed where it is shorter than its fields (DESIGN CHOICE, log 74), of another
type, of a memory type above 1, or names no allocation; the index of an overflow entry is of 4 bytes
(DESIGN CHOICE, log 92). -/
def planPart (m : Image) (al : List Alloc) (x : PlanParts) (e : Nat × Nat × Nat) : Option PlanParts :=
  let o := e.2.1
  if e.2.2 < planFields m e then none
  else
  match e.1 with
  | 1 => if m.num (o + 24) 1 ≤ 1 then some x else none
  | 2 =>
    let w (k : Nat) : W64 := tidMask k (BitVec.ofNat 64 (m.num (o + 16 + 8 * k) 8))
    some { x with templates := Tbl.put x.templates (m.num (o + 8) 1) #v[w 0, w 1, w 2, w 3] }
  | 3 =>
    let es := (List.range (m.num (o + 8) 4)).map fun k => (BitVec.ofNat 32 (m.num (o + 12 + 4 * k) 4) : W32)
    if es.length ≤ 4096 && !es.contains 0xFFFFFFFF then some { x with tables := x.tables ++ [es] } else none
  | 4 => (al[m.num (o + 8) 4]?).map fun a => { x with overflow := x.overflow ++ [(a.base, a.size)] }
  | 5 => (al[m.num (o + 8) 4]?).map fun a => { x with pool := if x.pool.isSome then x.pool else some a }
  | _ => none

/-- The parts of a plan. -/
def planParts (m : Image) (al : List Alloc) (es : List (Nat × Nat × Nat)) : Option PlanParts :=
  es.foldlM (planPart m al) {}

/-- Whether a pool serves a kernel with frames (R308). The memory types are those of MTYPE, WB 0 and SM 1
(PRESUMED, log 88). -/
def poolOk (pool : Option Alloc) : Bool :=
  match pool with
  | none => false
  | some a => a.ty == 0 && a.base % 4096 == 0 && (a.size == 0 || a.base / 2 ^ 32 == (a.base + a.size - 1) / 2 ^ 32)

/-- Whether a kernel is well formed for the plan (R241, R242, R308). -/
def kernelOk (x : PlanParts) (k : Kernel) : Bool :=
  (k.frame == 0 || poolOk x.pool) && k.tidmap.all fun t => t == 0xFF || Tbl.has x.templates t

/-- Whether a node's templates are well formed for the plan: a tile copy between them passes the checks of `tcopy`
(DESIGN CHOICE, log 77). -/
def nodeOk (x : PlanParts) (n : Node) : Bool :=
  match n.kind with
  | .tileCopy a b =>
    (match Tbl.find x.templates a, Tbl.find x.templates b with
      | some src, some dst => tileCopyOk dst src .rn false
      | _, _ => false)
  | _ => true

/-- Whether a team needs more than an empty core or cluster offers, or than its pool holds (R59). -/
def teamTooLarge (x : PlanParts) (n : Node) : Bool :=
  match n.kind with
  | .launch k _ =>
    (teamHalves k 0).any (fun h =>
      decide (1024 < h.2.2 * k.group) || decide (128 < h.2.2 * (k.group / 8 * k.acc)) || decide (16 < h.2.2 * k.ncset)
        || decide (524288 < k.spad)) ||
      (k.frame != 0 && decide (((x.pool.map Alloc.size).getD 0) / recordSize k.frame < k.team))
  | _ => false

/-! ## The whole check -/

/-- A graph as a binary describes it, with the patches to write. -/
structure Parsed where
  nodes : List Node
  edges : List Edge
  parts : PlanParts
  patches : List (Nat × W64)
  deriving DecidableEq, Repr

/-- The parts of a binary with its patch points applied, or that it is malformed: the type and length of every plan entry,
and the allocations, are those before the patches (DESIGN CHOICE, log 75). -/
def parseImage (tick : Nat) (m : Image) (values : List W64) : Option Parsed := do
  let es ← plan m
  let al := allocsOf tick m es
  let ps ← patchesOf tick al values (List.range (m.len 4 / 16)) m
  let m := patched m ps
  let parts ← planParts m al es
  let kernels ← kernelsOf m
  let nodes ← (List.range (m.len 1 / 64)).mapM (nodeAt m)
  let edges ← (List.range (m.len 2 / 8)).mapM (edgeAt m nodes)
  if decide (m.len 1 / 64 ≤ 65535) && m.len 1 % 64 == 0 && m.len 2 % 8 == 0 && m.len 3 % 64 == 0 && m.len 4 % 16 == 0
      && kernels.all (kernelOk parts) && nodes.all (nodeOk parts) && acyclic nodes edges then
    some ⟨nodes, edges, parts, ps⟩
  else none

/-- The status of a binary (R59): nothing where its bytes cannot be read, 1 to 3 where it is rejected; a signature
section out of its place or length is no valid signature (DESIGN CHOICE, log 76). -/
def checkBinary (s : State) (i : Issuer) (va : Nat) (values : List W64) : Option (Except Nat Parsed) := do
  let hd ← readAll s i va 16
  let n := bytesAt hd 6 2
  let length := bytesAt hd 8 8
  if bytesAt hd 0 4 ≠ 0x31475644 || bytesAt hd 4 2 ≠ 1 || n < 2 || 64 < n then some (.error 2)
  else
    let hd ← readAll s i va (16 + 16 * n)
    let xs := sectionTable hd n
    match signatureAt xs length with
    | none => some (.error 1)
    | some sig =>
      let bytes ← readAll s i va length
      if !signed s i.part bytes sig then some (.error 1)
      else if !sectionsOk xs length then some (.error 2)
      else
        match parseImage s.tick ⟨va, bytes, xs⟩ values with
        | none => some (.error 2)
        | some p => if p.nodes.any (teamTooLarge p.parts) then some (.error 3) else some (.ok p)

end Sys2Proof.Machine
end

