-- ==== Sys2Proof/Machine/Pergola.lean ====
section
/-! DEFINITION. Pergola (R55 to R67): submission queues, completion records, the nodes and edges of a
graph, region dependences, and the completion of launches and graphs. -/

namespace Sys2Proof.Machine

/-! ## Queues and graphs -/

/-- The issuer of a queue's accesses: its stage-1 tables and its partition's. -/
def queueIssuer (q : Queue) : Issuer := ⟨q.part, q.root1, q.asn, 0, 0, 0⟩
/-- The issuer of a graph's accesses. -/
def graphIssuer (s : State) (g : Graph) : Issuer :=
  match s.queue? g.queue with
  | some q => queueIssuer q
  | none => ⟨0, 0, 0, 0, 0, 0⟩
/-- The graph at a number. -/
def State.graph (s : State) (g : Nat) : Graph :=
  Tbl.getD s.graphs g { queue := 0, prio := 0, addr := 0, done := 0, value := 0, tag := 0 }
def State.modGraph (s : State) (g : Nat) (f : Graph → Graph) : State := s.setGraph g (f (s.graph g))

/-- Pergola's record of a fault (R59, R200). -/
def pergolaFault (s : State) (gid : Nat) (f : SysFault) (who : Requester) : State :=
  let g := s.graph gid
  let s := dropLost s
  match graphPart s g with
  | none => s
  | some p =>
    (fileRec s p { kind := f.kind, sev := sevOf f.kind, wher := f.wher, access := f.access, req := 4
                   tti := 0xFFFFFFFF, va := f.va, ipa := f.ipa, pa := f.pa, tag := g.tag } who).1

/-- The bytes that an engine of Pergola writes at translated addresses. -/
def pergolaWrite (s : State) (part : Option Nat) (ps : List (Nat × MemTy)) (bs : List Byte) : State :=
  engineWrite s part ((List.range ps.length).map fun j =>
    let p := ps.getD j (0, .wb)
    ({ pa := p.1, ty := p.2, val := bs.getD j 0 } : EByte))

/-- The completion record as one 16-byte store (R59). -/
def completionBytes (g : Graph) : List Byte :=
  let st := g.status.getD 0
  toBytes 8 (if st = 0 then g.value.toNat else 0) ++ toBytes 8 st

/-- COMPLETION_RECORD_WRITE: translated as STORE; a fault writes nothing and files a record. -/
def storeDone (s : State) (gid : Nat) : Result :=
  let g := s.graph gid
  match reachBytes s (graphIssuer s g) .store g.done.toNat 16 with
  | .ok ps => .next (pergolaWrite s (graphPart s g) ps (completionBytes g))
  | .error (.fault f) => .next (pergolaFault s gid f (.completion gid))
  | .error (.remote n f) => .next (holdRequest s n (.completion gid) f)

/-- A graph completes with a status: it counts as completed whatever becomes of its record. -/
def completeGraph (s : State) (gid status : Nat) : Result :=
  storeDone (s.modGraph gid fun g => { g with status := some status, complete := true }) gid

/-! ## Edges (R61, R63, R64) -/

/-- The edges of a graph resolved by `f`, those it answers nothing for being left. -/
def resolve (g : Graph) (f : Edge → Option Bool) : Graph :=
  { g with edges := g.edges.map fun e => if e.taken.isSome then e else { e with taken := f e } }

/-- What the completion of a node makes of an edge that leaves it: `sel` is what a conditional or while
node selects. -/
def edgeTaken (n : Nat) (skipped sel : Bool) (e : Edge) : Option Bool :=
  if e.src ≠ n then none
  else if skipped then some false
  else
    match e.kind with
    | .order | .back => some true
    | .ifTrue => some sel
    | .ifFalse => some !sel
    | .body => some false
    | .exit => some true

/-- A node's phase. -/
def phaseOf (g : Graph) (n : Nat) : NodePhase := ((g.nodes[n]?).map Node.phase).getD .skipped
def setPhase (g : Graph) (n : Nat) (p : NodePhase) : Graph :=
  { g with nodes := g.nodes.modify n fun x => { x with phase := p } }

/-- A node completes, or is skipped, and its edges resolve. -/
def finishNode (g : Graph) (n : Nat) (skipped sel : Bool) : Graph :=
  setPhase (resolve g (edgeTaken n skipped sel)) n (if skipped then .skipped else .done)

/-- The edges that come to a node: loop-back ones, or the others. -/
def inEdges (g : Graph) (n : Nat) (back : Bool) : List Edge :=
  g.edges.filter fun e => e.dst == n && (e.kind == .back) == back
def allResolved (es : List Edge) : Bool := es.all fun e => e.taken.isSome

/-- A node looks at its incoming edges: it is ready, is skipped, or goes on waiting. A while node whose
loop-back edges are all resolved reads its word again (R64), its admission standing (DEDUCED, log 78). -/
def settleNode (g : Graph) (n : Nat) : Graph :=
  let es := inEdges g n false
  let backs := inEdges g n true
  match phaseOf g n with
  | .waiting =>
    if !allResolved es then g
    else if es.isEmpty || es.any fun e => e.taken == some true then
      setPhase g n .ready
    else finishNode g n true false
  | .running =>
    if ((g.nodes[n]?).map Node.isLoop).getD false && !backs.isEmpty && allResolved backs then setPhase g n .admitted else g
  | .ready | .admitted | .done | .skipped => g

/-- Every node settled, until nothing more is skipped. -/
def settleGraph : Nat → Graph → Graph
  | 0, g => g
  | fuel + 1, g => settleGraph fuel ((List.range g.nodes.length).foldl settleNode g)
def advance (g : Graph) : Graph := settleGraph g.nodes.length g

/-- A node of a graph completes, and the graph goes on. -/
def nodeDone (s : State) (gid n : Nat) (sel : Bool) : State :=
  s.modGraph gid fun g => advance (finishNode g n false sel)

/-! ## Iterations of a while node (R64) -/

/-- The nodes reachable from some, up to loop-back edges. -/
def reachable (es : List Edge) : Nat → List Nat → List Nat
  | 0, ns => ns
  | fuel + 1, ns =>
    reachable es fuel (dedup (ns ++ (es.filter fun e => e.kind != .back && ns.contains e.src).map Edge.dst))

/-- Whether a node instance has neither completed nor been skipped. -/
def pending (x : Node) : Bool := x.phase != .done && x.phase != .skipped

/-- The body of a while node: what its body edges reach, but for instances of earlier iterations. -/
def bodyOf (g : Graph) (n : Nat) : List Nat :=
  let fresh (k : Nat) : Bool := ((g.nodes[k]?).map fun x => x.past.isNone).getD false
  let es := g.edges.filter fun e => fresh e.dst
  reachable es g.nodes.length ((es.filter fun e => e.src == n && e.kind == .body).map Edge.dst)

/-- The body nodes whose instances an iteration leaves incomplete, and with a while node among them its own body. -/
def leftOver (g : Graph) (body : List Nat) : List Nat :=
  let own := body.filter fun k => ((g.nodes[k]?).map pending).getD false
  let loops := own.filter fun k => ((g.nodes[k]?).map Node.isLoop).getD false
  dedup (own ++ loops.flatMap (bodyOf g))

/-- Where each of them goes on, as a node of its own after the others. -/
def moved (g : Graph) (body : List Nat) (k : Nat) : Option Nat := ((leftOver g body).idxOf? k).map fun j => g.nodes.length + j

/-- The instances that an iteration leaves incomplete, with the edges that come to them: from one another, from a node
outside the body, which they go on waiting for, or from one that has completed. -/
def leftNodes (g : Graph) (body : List Nat) : List Node :=
  let index (k : Nat) : Nat := ((g.nodes[k]?).map Node.index).getD k
  (leftOver g body).filterMap fun k => (g.nodes[k]?).map fun x =>
    { x with past := some g.turns, body := body.map index }
def leftEdges (g : Graph) (n : Nat) (body : List Nat) : List Edge :=
  g.edges.filterMap fun e => (moved g body e.dst).map fun d =>
    let src := (moved g body e.src).getD (if e.src = n || body.contains e.src then d else e.src)
    { e with src := src, dst := d }

/-- An iteration begins: the body runs afresh as new instances, and its own edges are unresolved; instances of the
iteration before that are not complete go on beside them. -/
def iterate (g : Graph) (n : Nat) : Graph :=
  let body := bodyOf g n
  let past (k : Nat) : Bool := ((g.nodes[k]?).map fun x => x.past.isSome).getD false
  let edge (e : Edge) : Edge :=
    if past e.dst then { e with src := (moved g body e.src).getD e.src }
    else if e.src = n && e.kind == .body then { e with taken := some true }
    else if body.contains e.src then { e with taken := none } else e
  let node (k : Nat) (x : Node) : Node :=
    if k = n then { x with phase := .running, iters := x.iters + 1 }
    else if body.contains k then { x with phase := .waiting, iters := 0 } else x
  advance { g with
    edges := g.edges.map edge ++ leftEdges g n body
    nodes := g.nodes.mapIdx node ++ leftNodes g body
    turns := g.turns + 1 }

/-- What stands for a node instance of a graph stands for it where it goes on. -/
def repoint (s : State) (gid : Nat) (dest : Nat → Option Nat) : State :=
  let who (w : Requester) : Requester :=
    match w with
    | .node g k => if g = gid then .node g ((dest k).getD k) else w
    | _ => w
  let part (x : Partition) : Partition :=
    { x with opened := x.opened.map fun o => (o.1, o.2.1, who o.2.2), waiting := x.waiting.map fun o => (o.1, who o.2) }
  { s with
    launches := s.launches.map fun l =>
      if l.2.graph = gid && !l.2.complete then (l.1, { l.2 with node := (dest l.2.node).getD l.2.node }) else l
    nodeCopies := s.nodeCopies.map fun c => if c.graph = gid then { c with node := (dest c.node).getD c.node } else c
    parts := s.parts.map fun p => (p.1, part p.2) }

/-- A while node of a graph begins another iteration. -/
def iterateNode (s : State) (gid n : Nat) : State :=
  let g := s.graph gid
  (repoint s gid (moved g (bodyOf g n))).modGraph gid fun g => iterate g n

/-! ## Reading submissions (R56, R57) -/

/-- Whether Pergola reads records of a queue, and one stands at its head. -/
def queueReads (s : State) (q : Queue) : Bool :=
  (s.part q.part).state == 1 && !q.destroyed && q.cons != q.prod

/-- A submission record (R56). -/
structure Submission where
  kind : Nat
  prio : Nat
  graph : Nat
  patch : Nat
  npatch : Nat
  done : W64
  value : W64
  tag : W64
  deriving DecidableEq, Repr

/-- The record at the head of a queue's ring (DESIGN CHOICE, log 76). -/
def headRecord (s : State) (q : Queue) : Option Submission :=
  (readAll s (queueIssuer q) ((q.ring.toNat + q.cons.toNat % 2 ^ q.logn * 64) % 2 ^ 64) 64).map fun b =>
    { kind := bytesAt b 0 1, prio := bytesAt b 1 1 % 8, graph := bytesAt b 8 8, patch := bytesAt b 0x10 8
      npatch := bytesAt b 0x18 4, done := BitVec.ofNat 64 (bytesAt b 0x20 8), value := BitVec.ofNat 64 (bytesAt b 0x28 8)
      tag := BitVec.ofNat 64 (bytesAt b 0x30 8) }

/-- The head record of a queue that Pergola may read. -/
def nextRecord (s : State) (qid : Nat) : Option (Queue × Submission) :=
  match s.queue? qid with
  | none => none
  | some q => if queueReads s q then (headRecord s q).map fun r => (q, r) else none

/-- The consumer index moves past a record, which becomes a graph of no nodes yet. -/
def takeRecord (s : State) (qid : Nat) (q : Queue) (r : Submission) : Nat × State :=
  let (gid, s) := s.takeFresh
  let s := s.setQueue qid { q with cons := q.cons + 1 }
  (gid, s.setGraph gid
    { queue := qid, prio := r.prio, addr := BitVec.ofNat 64 r.graph, done := r.done, value := r.value, tag := r.tag
      order := gid })

/-- Whether a submit record is well formed (R56). PATCH is not looked at where there is no patch value
(DESIGN CHOICE, log 76). -/
def recordOk (r : Submission) : Bool :=
  r.graph % 256 == 0 && (r.npatch == 0 || r.patch % 8 == 0) && decide (r.npatch ≤ 4096) && r.done.toNat % 16 == 0

/-- The patch words written into the binary, in order; nothing where one does not translate: the record then stays at
the head of its queue, no fault being filed (DESIGN CHOICE, log 76). -/
def writePatches (s : State) (q : Queue) (va : Nat) (ps : List (Nat × W64)) : Option State :=
  ps.foldl (fun acc p =>
    acc.bind fun s =>
      match reachBytes s (queueIssuer q) .store (vaAdd va p.1) 8 with
      | .ok bs => some (pergolaWrite s (some q.part) bs (toBytes 8 p.2.toNat))
      | .error _ => none) (some s)

/-- The status of a submit record, or the graph it starts; nothing while its bytes cannot be read. -/
def checkSubmission (s : State) (q : Queue) (r : Submission) : Option (Except Nat Parsed) :=
  if !recordOk r then some (.error 2)
  else
    match readAll s (queueIssuer q) r.patch (8 * r.npatch) with
    | none => none
    | some bs =>
      checkBinary s (queueIssuer q) r.graph
        ((List.range r.npatch).map fun k => BitVec.ofNat 64 (bytesAt bs (8 * k) 8))

/-- Before Pergola reads bytes at virtual addresses: the host hands back the lines of them that it may have modified
(R395). -/
def readSnoops (s : State) (i : Issuer) (va n : Nat) : State :=
  if s.snoopFilter.isEmpty then s
  else
    (List.range ((va + n + 127) / 128 - va / 128)).foldl (fun s k =>
      match translate s i ((va / 128 + k) * 128 % 2 ^ 64) .load with
      | .ok (pa, _) => snoopRead s pa
      | .error _ => s) s
/-- Before the record at the head of a queue's ring is read. -/
def recordSnoops (s : State) (qid : Nat) : State :=
  match s.queue? qid with
  | none => s
  | some q => readSnoops s (queueIssuer q) ((q.ring.toNat + q.cons.toNat % 2 ^ q.logn * 64) % 2 ^ 64) 64
/-- Before a submission is read: its record, its patch words and its binary. -/
def submissionSnoops (s : State) (qid : Nat) : State :=
  let s := recordSnoops s qid
  match nextRecord s qid with
  | none => s
  | some (q, r) =>
    if s.snoopFilter.isEmpty || r.kind ≠ 1 then s
    else
      let i := queueIssuer q
      let s := readSnoops (readSnoops s i r.patch (8 * r.npatch)) i r.graph 16
      let hd := (readAll s i r.graph 16).getD []
      let s := readSnoops s i r.graph (16 + 16 * bytesAt hd 6 2)
      readSnoops s i r.graph (bytesAt ((readAll s i r.graph 16).getD []) 8 8)

/-- SUBMIT_GRAPH (R57): rejected with its status, or patched and started. -/
def execSubmitGraph (qid : Nat) (s : State) : Result :=
  let s := submissionSnoops s qid
  match nextRecord s qid with
  | none => pass s
  | some (q, r) =>
    if r.kind ≠ 1 then pass s
    else
      match checkSubmission s q r with
      | none => pass s
      | some (.error st) =>
        let (gid, s) := takeRecord s qid q r
        completeGraph s gid st
      | some (.ok p) =>
        match writePatches s q r.graph p.patches with
        | none => pass s
        | some s =>
          let (gid, s) := takeRecord s qid q r
          .next (s.modGraph gid fun g => advance
            { g with nodes := p.nodes, edges := p.edges, tables := p.parts.tables, templates := p.parts.templates
                     overflow := p.parts.overflow, pool := p.parts.pool.map fun a => (a.base, a.size) })

/-- SUBMISSION_FENCE (R56): it completes once every earlier record of its queue has (DEDUCED, log 20). -/
def execSubmissionFence (qid : Nat) (s : State) : Result :=
  let s := recordSnoops s qid
  match nextRecord s qid with
  | none => pass s
  | some (q, r) =>
    if r.kind = 2 && s.graphs.all (fun g => g.2.queue != qid || g.2.complete) then
      let (gid, s) := takeRecord s qid q r
      completeGraph s gid 0
    else pass s

/-- SUBMISSION_INVALID_KIND (R56). -/
def execSubmissionInvalidKind (qid : Nat) (s : State) : Result :=
  let s := recordSnoops s qid
  match nextRecord s qid with
  | none => pass s
  | some (q, r) =>
    if r.kind = 1 || r.kind = 2 then pass s
    else
      let (gid, s) := takeRecord s qid q r
      completeGraph s gid 2

/-! ## Region dependences (R65 to R67) -/

/-- Whether two regions conflict. -/
def conflicts (a b : Region) : Bool :=
  !a.empty && !b.empty && (a.wr || b.wr) && decide (a.lo ≤ b.hi) && decide (b.lo ≤ a.hi)
/-- The graphs of a queue that run, in submission order. -/
def queueGraphs (s : State) (qid : Nat) : List (Nat × Graph) :=
  (s.graphs.filter fun g => g.2.queue == qid && !g.2.complete)
/-- Whether one instance of a graph comes before another: by node index, an earlier iteration's before a later's
(R66). -/
def Node.before (y x : Node) : Bool :=
  let byIndex := decide (y.index < x.index)
  match y.past, x.past with
  | none, none => byIndex
  | some _, none => y.body.contains x.index || byIndex
  | none, some _ => !x.body.contains y.index && byIndex
  | some a, some b =>
    if a < b && y.body.contains x.index then true
    else if b < a && x.body.contains y.index then false else byIndex

/-- Whether an earlier instance of the queue conflicts with a node. -/
def blockedBy (s : State) (qid : Nat) (order : Nat) (x : Node) : Bool :=
  (queueGraphs s qid).any fun g => g.2.nodes.any fun y =>
    (decide (g.2.order < order) || (g.2.order == order && y.before x)) && pending y &&
      y.regions.any fun a => x.regions.any fun b => conflicts a b

/-- The regions of admitted, incomplete instances of a partition's queues on a die, where its Pergola context counts them
(R67, R183). -/
def regionsOnDie (s : State) (part die : Nat) : Nat :=
  s.graphs.foldl (fun acc g =>
    if ((s.queue? g.2.queue).any fun q => q.die == die && q.part == part) && !g.2.complete then
      g.2.nodes.foldl (fun acc x => if x.phase == .admitted || x.phase == .running then acc + x.regions.length else acc) acc
    else acc) 0

/-- A ready instance that nothing earlier blocks: its graph, that graph's order, and its place. -/
structure Candidate where
  gid : Nat
  order : Nat
  n : Nat
  x : Node
  deriving DecidableEq, Repr

/-- The first of a queue's ready instances that nothing earlier blocks, in the order of R66. -/
def admissible (s : State) (qid : Nat) : Option Candidate :=
  let all : List Candidate := (queueGraphs s qid).flatMap fun g =>
    (g.2.nodes.zipIdx.filter fun x => x.1.phase == .ready && g.2.status.isNone && !blockedBy s qid g.2.order x.1).map
      fun x => ⟨g.1, g.2.order, x.2, x.1⟩
  let first (a b : Candidate) : Candidate :=
    if b.order < a.order || (b.order == a.order && b.x.before a.x) then b else a
  match all with
  | [] => none
  | c :: cs => some (cs.foldl first c)

/-- Whether a partition's context on a die admits nothing: it has found no room for an instance, and no region has retired
since (R67). -/
def dieStopped (s : State) (part die : Nat) : Bool :=
  match Tbl.find (s.die die).regionStop part with
  | some n => decide (n ≤ regionsOnDie s part die)
  | none => false

/-- REGION_ADMIT (R67): the queue's first instance is admitted, or the context stops for want of room. -/
def execRegionAdmit (qid : Nat) (s : State) : Result :=
  match s.queue? qid, admissible s qid with
  | some q, some c =>
    if (s.part q.part).state = 1 && !dieStopped s q.part q.die then
      let n := regionsOnDie s q.part q.die
      if n + c.x.regions.length ≤ 4096 then
        .next ((s.modDie q.die fun d => { d with regionStop := Tbl.drop d.regionStop q.part }).modGraph c.gid
          fun g => setPhase g c.n .admitted)
      else .next (s.modDie q.die fun d => { d with regionStop := Tbl.put d.regionStop q.part n })
    else pass s
  | _, _ => pass s

/-! ## Nodes (R60 to R64) -/

/-- A node of a running graph that is admitted, in a partition that is enabled, and that no record and no gated cluster
holds. -/
def admittedNode (s : State) (gid n : Nat) : Option (Graph × Node) :=
  match s.graph? gid with
  | none => none
  | some g =>
    match g.nodes[n]? with
    | none => none
    | some x =>
      let p := (graphPart s g).getD 0
      if x.phase == .admitted && !g.complete && g.status.isNone && (s.part p).state == 1
          && !recordHolds s p (.node gid n) && !(s.clusters.any fun c => c.2.heldReqs.any fun h => h.who == .node gid n) then some (g, x) else none

/-- A node's access to a 64-bit word; a fault is Pergola's record, and the node is held by it. -/
def nodeAccess (s : State) (gid n : Nat) (k : Access) (va : W64) (f : List (Nat × MemTy) → State → State) : Result :=
  match reachBytes s (graphIssuer s (s.graph gid)) k va.toNat 8 with
  | .ok ps => .next (f ps s)
  | .error (.fault e) => .next (pergolaFault s gid e (.node gid n))
  | .error (.remote c e) => .next (holdRequest s c (.node gid n) e)

/-- LAUNCH_NODE (R62): the launch of a node begins; its teams wait to be placed. -/
def execLaunchNode (gid n : Nat) (s : State) : Result :=
  match admittedNode s gid n with
  | none => pass s
  | some (g, x) =>
    match x.kind with
    | .launch k teams =>
      let q := s.queue? g.queue
      let (id, s) := s.takeFresh
      let rings := g.overflow.zipIdx.map fun o => (o.2, ({ base := o.1.1, cap := k.binq } : Overflow))
      let s := s.setLaunch id
        { number := Config.launchNumber id, graph := gid, node := n, part := (q.map Queue.part).getD 0, prio := g.prio, root1 := (q.map Queue.root1).getD 0
          asn := (q.map Queue.asn).getD 0, tag := g.tag, kernel := k, teams := teams, tables := g.tables
          templates := g.templates, pool := if k.frame = 0 then none else g.pool, overflow := rings }
      .next (s.modGraph gid fun g => setPhase g n .running)
    | _ => pass s

/-- Whether a launch still holds anything: groups, bins, overflow records, copies, or a swap under way for
it. -/
def launchBusy (s : State) (l : Nat) : Bool :=
  !(groupsOfLaunch s l).isEmpty || launchSpilled s l || (s.launch l).overflow.any (fun o => o.2.count != 0)
    || s.cores.any fun c =>
      c.2.bins.any (fun b => b.2.launch == l) ||
        (match c.2.swap with
          | some (.incoming l' _ _ _) => l' == l
          | some (.spawned l') => l' == l
          | _ => false)

/-- The tables of a launch are gone from the cores. -/
def dropTables (s : State) (l : Nat) : State :=
  { s with cores := s.cores.map fun c => (c.1, { c.2 with tables := Tbl.drop c.2.tables l }) }

/-- LAUNCH_COMPLETE (R62). -/
def execLaunchComplete (l : Nat) (s : State) : Result :=
  match s.launch? l with
  | none => pass s
  | some x =>
    if x.nextTeam = x.teams && !x.ended && !x.complete && !launchBusy s l then
      let s := dropTables (s.modLaunch l fun y => { y with complete := true }) l
      .next (nodeDone s x.graph x.node false)
    else pass s

/-- TILE_COPY_NODE (R60): the copy, as `tcopy` converts with round to nearest; its completion follows
(DESIGN CHOICE, log 77). The check of the submission has found its templates well formed. -/
def execTileCopyNode (gid n : Nat) (s : State) : Result :=
  match admittedNode s gid n with
  | none => pass s
  | some (g, x) =>
    match x.kind with
    | .tileCopy a b =>
      let src := Tbl.getD g.templates a (Vector.replicate 4 0)
      let dst := Tbl.getD g.templates b (Vector.replicate 4 0)
      let i := graphIssuer s g
      if !tileCopyOk dst src .rn false then pass s
      else
        let vecs := List.range (tVecs src)
        let reads := vecs.map fun k =>
          let (r, p, m) := vecAt src k
          vecRange src r p m
        match reachRanges s i .load reads with
        | .error (.fault f) => .next (pergolaFault s gid f (.node gid n))
        | .error (.remote c e) => .next (holdRequest s c (.node gid n) e)
        | .ok ps =>
          match poisonStop s i (rangeVas reads) ps with
          | some (.fault f) => .next (pergolaFault s gid f (.node gid n))
          | _ =>
            let s' := engineSnoop s ps
            let bytes := vecs.flatMap fun k => (copyVec s' i dst src ⟨TileRm.mode .rn, false, 0, false⟩ k).1
            match reachRanges s' i .store (bytes.map fun b => (b.1, 1)) with
            | .error (.fault f) => .next (pergolaFault s' gid f (.node gid n))
            | .error (.remote c e) => .next (holdRequest s' c (.node gid n) e)
            | .ok ds =>
              let s := s'
              let free := tOverlap false false dst [src]
              let out := (List.range ds.length).map fun j =>
                let p := ds.getD j (0, .wb)
                ({ pa := p.1, ty := p.2
                   val := if free then Config.freeByte s.tick p.1 else (bytes.getD j (0, 0)).2 } : EByte)
              let s := engineWrite s (graphPart s g) out
              let s := { s with nodeCopies := s.nodeCopies ++ [({ graph := gid, node := n } : NodeCopy)] }
              .next (s.modGraph gid fun g => setPhase g n .running)
    | _ => pass s

/-- TILE_COPY_NODE_COMPLETE (R62). -/
def execTileCopyNodeComplete (gid n : Nat) (s : State) : Result :=
  if s.nodeCopies.contains ⟨gid, n⟩ then
    let s := { s with nodeCopies := s.nodeCopies.filter (· != (⟨gid, n⟩ : NodeCopy)) }
    .next (nodeDone s gid n false)
  else pass s

/-- The word a node reads. -/
def nodeWord (s : State) (ps : List (Nat × MemTy)) : Nat := engineValue s ps

/-- CONDITIONAL_NODE (R63): an acquire at device scope, one read, and the edges it selects. -/
def execConditionalNode (gid n : Nat) (s : State) : Result :=
  match admittedNode s gid n with
  | none => pass s
  | some (_, x) =>
    match x.kind with
    | .cond va => nodeAccess s gid n .load va fun ps s =>
        let s := engineSnoop s ps
        nodeDone s gid n (nodeWord s ps != 0)
    | _ => pass s

/-- WHILE_NODE (R64): another iteration, or the exit. -/
def execWhileNode (gid n : Nat) (s : State) : Result :=
  match admittedNode s gid n with
  | none => pass s
  | some (_, x) =>
    match x.kind with
    | .loop va limit => nodeAccess s gid n .load va fun ps s =>
        let s := engineSnoop s ps
        if nodeWord s ps != 0 && (limit == 0 || decide (x.iters < limit)) then iterateNode s gid n
        else nodeDone s gid n false
    | _ => pass s

/-- EVENT_WAIT_NODE (R60): once its word, unsigned, is at least the compare value. -/
def execEventWaitNode (gid n : Nat) (s : State) : Result :=
  match admittedNode s gid n with
  | none => pass s
  | some (_, x) =>
    match x.kind with
    | .event va value =>
      match reachBytes s (graphIssuer s (s.graph gid)) .load va.toNat 8 with
      | .ok ps =>
        let s' := engineSnoop s ps
        if value.toNat ≤ nodeWord s' ps then .next (nodeDone s' gid n false) else pass s
      | .error (.fault e) => .next (pergolaFault s gid e (.node gid n))
      | .error (.remote c e) => .next (holdRequest s c (.node gid n) e)
    | _ => pass s

/-- The host port of a graph's queue. -/
def graphPort (s : State) (g : Graph) : Nat := (s.mailbox (((s.queue? g.queue).map Queue.mailbox).getD 0)).port

/-- HOST_SIGNAL_NODE (R60): the store, then the vector. -/
def execHostSignalNode (gid n : Nat) (s : State) : Result :=
  match admittedNode s gid n with
  | none => pass s
  | some (g, x) =>
    match x.kind with
    | .signal va value vector => nodeAccess s gid n .store va fun ps s =>
        let s := pergolaWrite s (graphPart s g) ps (toBytes 8 value.toNat)
        let s := s.raise (graphPort s g) vector
        nodeDone s gid n false
    | _ => pass s

/-- Whether work of a graph's launches still stands. -/
def graphBusy (s : State) (gid : Nat) : Bool :=
  s.launches.any fun l => l.2.graph == gid && launchBusy s l.1

/-- GRAPH_COMPLETE (R61): every node has completed or been skipped, or the graph has ended and all of it
has stopped (R203); a completion record that a gated cluster held is stored once it has woken (R418). -/
def execGraphComplete (gid : Nat) (s : State) : Result :=
  match s.graph? gid with
  | none => pass s
  | some g =>
    if g.complete then
      if g.due then storeDone (s.modGraph gid fun g => { g with due := false }) gid else pass s
    else
      match g.status with
      | some st => if graphBusy s gid && (s.part ((graphPart s g).getD 0)).state == 1 then pass s
                   else completeGraph s gid st
      | none => if g.nodes.any pending then pass s else completeGraph s gid 0

end Sys2Proof.Machine
end

