-- ==== Sys2Proof/Machine/Answers.lean ====
section
/-! DEFINITION. Answers to system fault records (R203, R204): replay, the end of a launch with its graph,
the hand-over to the thread; the consumer count of the trap queue (R203); second-tier timeouts (R399),
and soft errors (R207). -/

namespace Sys2Proof.Machine

/-! ## Who a record holds -/

/-- The threads that stand with a requester. -/
def Requester.threads : Requester → List TId
  | .thread t => [t]
  | .portion ts => ts
  | .walkers ts => ts
  | .copy _ _ _ | .tile _ | .matrix _ _ | .completion _ | .node _ _ | .spill _ _ _ | .outload _ | .none => []

/-! ## Replay (R204) -/

/-- Threads held by a record perform their access again. -/
def releaseHeld (s : State) (p h : Nat) : State :=
  let s := retryWaits s fun _ w => w == .fault p h
  mapSpilled s fun _ _ x => if x.wait == .fault p h then retry x else x

/-- A tile operation that a record holds is free to move, in place or spilled. -/
def freeTile (s : State) (key : Nat) : State :=
  let free (x : Group) : Group :=
    { x with tile := x.tile.map fun o => if o.held && o.key = key then { o with held := false } else o }
  let bank (k : Nat × SpilledBank) : Nat × SpilledBank :=
    (k.1, { k.2 with groups := k.2.groups.map fun g => (g.1, free g.2) })
  { s with groups := s.groups.map (fun g => (g.1, free g.2))
           ctxs := s.ctxs.map fun c => (c.1, { c.2 with spilled := c.2.spilled.map bank }) }

/-- An outstanding result performs its access again. -/
def freeOut (id : Nat) (x : Thread) : Thread :=
  { x with outs := x.outs.map fun o => if o.id = id then { o with again := true } else o }

/-- A requester replays: engine work is free to move again, a completion record is stored again. -/
def replayWho (s : State) (p h : Nat) (r : Rec) (who : Requester) : Result :=
  let s := releaseHeld s p h
  match who with
  | .copy core cmd chunk =>
    .next (s.modCore core fun x =>
      { x with copies := x.copies.map fun c =>
          if c.1 = cmd then (c.1, { c.2 with held := c.2.held.filter (· != chunk), again := c.2.again ++ [chunk] }) else c })
  | .tile _ => .next (freeTile s r.key)
  | .completion gid => storeDone s gid
  | .outload id => .next (mapSpilled { s with threads := s.threads.map fun t => (t.1, freeOut id t.2) } fun _ _ x => freeOut id x)
  | .thread _ | .portion _ | .matrix _ _ | .node _ _ | .spill _ _ _ | .walkers _ | .none => .next s

/-! ## The end of a launch (R203) -/

/-- Every running thread of a launch stops: its earlier stores stand. -/
def stopThreads (s : State) (l : Nat) : State :=
  (groupsOfLaunch s l).foldl (fun s g =>
    let s := (groupThreads s g).foldl publishAll s
    (liveThreads s g).foldl endThread s) s

/-- The engine work of a launch's groups stops, and the groups go. -/
def stopGroups (s : State) (l : Nat) : State :=
  let gs := groupsOfLaunch s l
  let s := stopCopies s gs.contains fun c => (s.ctx c.ctx).launch == l
  gs.foldl (fun s g =>
    let s := s.modGroup g fun x => { x with mq := [], tile := none, busy := false, fatal := false }
    relevel (releaseGroup s g) (g.core / 2)) s

/-- What a launch holds on the cores: contexts, scratchpads, counter sets, bins and tables. -/
def dropHoldings (s : State) (l : Nat) : State :=
  let core (c : Core) : Core :=
    { c with allocs := c.allocs.filter (fun a => a.launch != l), sets := c.sets.filter (fun k => (s.ctx k.2.1).launch != l)
             bins := c.bins.filter (fun b => b.2.launch != l), tables := Tbl.drop c.tables l }
  { s with cores := s.cores.map (fun c => (c.1, core c.2)), ctxs := s.ctxs.filter fun c => c.2.launch != l }

/-- A launch that has not completed ends. -/
def endLaunch (s : State) (l : Nat) : State :=
  let s := dropHoldings (stopGroups (stopThreads s l) l) l
  s.modLaunch l fun x => { x with ended := true, overflow := [], poolTaken := [] }

/-- The launches of a graph that have not completed. -/
def graphLaunches (s : State) (gid : Nat) : List Nat :=
  (s.launches.filter fun l => l.2.graph == gid && !l.2.complete && !l.2.ended).map Prod.fst

/-- Requesters of a graph stand for nothing any more, in records and at gated clusters. -/
def dropRequesters (s : State) (gid : Nat) : State :=
  let open1 (o : Nat × Rec × Requester) : Nat × Rec × Requester :=
    if o.2.1.graph == some gid then (o.1, { o.2.1 with graph := none }, .none) else o
  let part (x : Partition) : Partition :=
    { x with opened := x.opened.map open1, waiting := x.waiting.filter fun o => o.1.graph != some gid }
  { s with parts := s.parts.map (fun p => (p.1, part p.2))
           clusters := s.clusters.map fun c =>
             (c.1, { c.2 with heldReqs := c.2.heldReqs.filter fun h => h.who.graph s != some gid }) }

/-- A graph ends with a launch of it: its nodes not yet run are skipped, and its completion record says 4
once all of it has stopped. One that has completed already is left alone (DEDUCED, log 52). -/
def endGraph (s : State) (gid : Nat) : Result :=
  if (s.graph gid).complete || (s.graph? gid).isNone then .next s
  else
    let s := dropRequesters s gid
    let s := (graphLaunches s gid).foldl endLaunch s
    let skip (x : Node) : Node :=
      if x.phase == .waiting || x.phase == .ready || x.phase == .admitted then { x with phase := .skipped } else x
    let s := s.modGraph gid fun g => { g with status := some 4, nodes := g.nodes.map skip }
    let s := { s with nodeCopies := s.nodeCopies.filter fun c => c.graph != gid }
    if graphBusy s gid then .next s else completeGraph s gid 4

/-! ## RESUME (R203) -/

/-- The record that a handle names, where it awaits an answer. -/
def openRecord (s : State) (p h : Nat) : Option (Rec × Requester) := Tbl.find (s.part p).opened h
/-- A record answered. -/
def closeRecord (s : State) (p h : Nat) : State := s.modPart p fun x => { x with opened := Tbl.drop x.opened h }

/-- RESUME_REPLAY: ACTION 0, accepted for severity 0. -/
def execResumeReplay (p h : Nat) (s : State) : Result :=
  match openRecord s p h with
  | some (r, who) => if r.sev = 0 then replayWho (closeRecord s p h) p h r who else .next s
  | none => .next s

/-- The answer that ends a requester's launch. -/
def answerEnd (s : State) (p h : Nat) (r : Rec) : Result :=
  match r.graph with
  | some gid => endGraph (closeRecord s p h) gid
  | none => .next (closeRecord s p h)

/-- RESUME_END_LAUNCH: ACTION 1, accepted for severities 0 and 1. -/
def execResumeEndLaunch (p h : Nat) (s : State) : Result :=
  match openRecord s p h with
  | some (r, _) => if r.sev = 0 || r.sev = 1 then answerEnd s p h r else .next s
  | none => .next s

/-- The threads that an outstanding result of a record stands with are held at its instruction: the result is dropped
(DEDUCED, log 73). -/
def handBack (s : State) (p h : Nat) (who : Requester) : State :=
  let back (id : Nat) (x : Thread) : Thread :=
    match x.outs.find? fun o => o.id == id with
    | none => x
    | some o =>
      { x with outs := x.outs.filter fun o => o.id != id, pc := o.pc, wait := .fault p h, beyond := false, walked := false
               again := false, snap := none, portion := none }
  match who with
  | .outload id => mapSpilled { s with threads := s.threads.map fun t => (t.1, back id t.2) } fun _ _ x => back id x
  | _ => s

/-- RESUME_HAND_TO_THREAD: ACTION 2, accepted for severity 1 with REQ 0: Trap(SYSF) at the faulting
instruction. -/
def execResumeHandToThread (p h : Nat) (s : State) : Result :=
  match openRecord s p h with
  | some (r, who) =>
    if r.sev = 1 && r.req = 0 then
      let s := handBack (closeRecord s p h) p h who
      let trapped (x : Thread) : Thread :=
        if x.wait == .fault p h then { x with wait := .trap cSYSF r.kind (BitVec.ofNat 32 r.seq) } else x
      let ts := (s.threads.filter fun q => q.2.wait == .fault p h).map Prod.fst
      let s := ts.foldl (fun s t => s.modThread t trapped) s
      let s := mapSpilled s fun _ _ x => trapped x
      .next (ts.foldl dueTrap s)
    else .next s
  | none => .next s

/-- RESUME_ACTION_IGNORED: ACTION 3. -/
def execResumeActionIgnored (_p _h : Nat) (s : State) : Result := .next s

/-! ## The consumer count (R202, R203) -/

/-- A record of engine work of a group shows the threads that are live as it files (R200). -/
def refileTti (s : State) (r : Rec) (who : Requester) : Rec :=
  let of (g : GId) : Rec := { r with tti := lowestTti s g }
  match who with
  | .copy core cmd _ => (match Tbl.find (s.core core).copies cmd with
    | some c => of c.group
    | none => r)
  | .tile g | .matrix g _ => of g
  | _ => r

/-- Records that wait for space file in arrival order while they find it. -/
def fileWaiting (p : Nat) : Nat → State → State
  | 0, s => s
  | n + 1, s =>
    let x := s.part p
    match x.waiting with
    | [] => s
    | (r, who) :: rest =>
      if x.occupancy < 4088 then
        let h := x.tqprod % 4096
        let s := enqueueRec (s.setPart p { x with waiting := rest }) p (refileTti s r who) who
        let holds (x : Thread) : Thread := if x.wait == .space r.key then { x with wait := .fault p h } else x
        let s := mapSpilled { s with threads := s.threads.map fun t => (t.1, holds t.2) } fun _ _ x => holds x
        fileWaiting p n s
      else s

/-- The answers that passed records get: a replay, or the end of a launch. -/
def answerPassed (p : Nat) : List (Nat × Rec × Requester) → State → Result
  | [], s => .next s
  | (h, r, who) :: rest, s =>
    let one : Result :=
      if r.sev = 0 then replayWho s p h r who
      else if r.sev = 1 then
        match r.graph with
        | some gid => endGraph s gid
        | none => .next s
      else .next s
    match one with
    | .next s => answerPassed p rest s
    | .fault e => .fault e
    | .refused e => .refused e

/-- Records that wait file once the answers to those passed have been given. -/
def thenFile (p : Nat) : Result → Result
  | .next s => .next (fileWaiting p (s.part p).waiting.length s)
  | .fault e => .fault e
  | .refused e => .refused e

/-- TQCONS_WRITE: taken only where it moves forward within the occupancy (DEDUCED, log 51). -/
def execTqconsWrite (p value : Nat) (s : State) : Result :=
  let x := s.part p
  let d := (value + 2 ^ 32 - x.tqcons % 2 ^ 32) % 2 ^ 32
  if x.occupancy < d then .next s
  else
    let hs := (List.range d).map fun i => (x.tqcons + i) % 4096
    let passed := hs.filterMap fun h => (Tbl.find x.opened h).map fun o => (h, o.1, o.2)
    let s := s.setPart p { x with tqcons := x.tqcons + d, opened := x.opened.filter fun o => !hs.contains o.1 }
    thenFile p (answerPassed p passed s)

/-! ## Second-tier timeouts (R399) -/

/-- The second-tier address that an outstanding result waits for. -/
def secondTier (o : Out) : Option Nat :=
  let second (pa : Nat) : Bool := placeOf pa == .second
  match o.val with
  | .load pa _ _ _ => if second pa then some pa else none
  | .hypLoad blocks => (blocks.map Prod.fst).find? second
  | .known _ _ | .words _ | .hyp _ _ | .joint => none

/-- SECOND_TIER_TIMEOUT: a request with no answer within 1 ms files its record and is held (DEDUCED, log 73). -/
def execSecondTierTimeout (id : Nat) (s : State) : Result :=
  match findOut s id with
  | none => pass s
  | some (t, o) =>
    match secondTier o, partOfCore s t.core with
    | some pa, some p =>
      if recordHolds s p (.outload id) then pass s
      else
        let r := { threadRec s t { kind := kTIMEOUT, va := o.va, ipa := o.ipa, pa := pa } with pc := o.pc.toNat }
        .next (fileRec s p r (.outload id)).1
    | _, _ => pass s

/-! ## Soft errors (R207) -/

/-- The die whose health counters an error counts in: for a line, the die that physical address bits 38:37 name, also
where its home is not in a compute die (R28) (DESIGN CHOICE, log 90); for an error in no named place, any. -/
def errDie (s : State) : ErrPlace → Nat
  | .laneReg t _ | .predicate t | .boundReg t _ | .trellis t | .directory t => dieOfCore t.core
  | .cleanLine _ line => homeDie (line * 128)
  | .uniformReg g _ | .uniformPred g | .hvecWord g _ _ => dieOfCore g.core
  | .accWord core _ _ _ | .counterSet core _ _ | .scratchpad core _ | .dirtyCopy core _ => dieOfCore core
  | .glasshouse cluster _ => dieOfCluster cluster
  | .dirtyLine line => homeDie (line * 128)
  | .hbm byte => homeDie byte
  | .translation | .partitionState _ => Config.freeNat s.tick 60001 % 4

/-- The SECE or SEUE count of a die. -/
def countError (s : State) (die : Nat) (corrected : Bool) : State :=
  s.modDie die fun x => if corrected then { x with sece := x.sece + 1 } else { x with seue := x.seue + 1 }

/-- Memory words marked poisoned. -/
def poisonBytes (s : State) (pa n : Nat) : State := setMemPoison s pa n true

/-- Lane registers of one 64-bit word: an even register and the next. -/
def poisonWord (r : Reg) : BitVec 64 := BitVec.ofNat 64 (3 * 2 ^ (r.val / 2 * 2))

/-- A clean line that a thread reads: the core's copy of it is dropped, or its die's, and the thread's next read of it is
held. -/
def cleanThread (s : State) (t : TId) (line : Nat) : Option State :=
  let copied := (s.core t.core).smL1.any fun e => e.1 / 128 == line
  if !(s.thread t).live || smDirty s t.core line then none
  else
    let s := if copied then smDropL1 s t.core line else smDropLlc s (dieOfCore t.core) line
    some (s.modThread t fun x => { x with struck := some line })

/-- A clean line that a chunk of a copy command reads: its home's cache drops it. -/
def cleanCopy (s : State) (core cmd chunk line : Nat) : Option State := do
  let c ← Tbl.find (s.core core).copies cmd
  let (o, n) ← c.chunk chunk
  if c.landed.contains chunk || c.held.contains chunk then none
  else
    let i := issuerOf s c.group
    let (sva, _) ← (chunkAddrs s i c chunk o).toOption
    let (va, ipa, pa) ← byteOfLine s i line ((List.range n).map (vaAdd sva))
    let s := putCopy (dropLine s line fun k => !k.isL1) core cmd { c with held := c.held ++ [chunk] }
    let r := engineRec s c.group 1 cmd (accessFault kPOISON .load va 0 ipa pa) c.pc o
    some (engineFault s c.group { r with sev := 0 } (.copy core cmd chunk))

/-- A clean line that a step of a tile operation reads. -/
def cleanTile (s : State) (g : GId) (line : Nat) : Option State := do
  let o ← (s.group g).tile
  if o.held then none
  else
    let (va, ipa, pa) ← byteOfLine s (issuerOf s g) line (rangeVas (tileReads o (s.group g).stepNo))
    let s := dropLine s line fun k => !k.isL1
    let r := engineRec s g 2 g.slot (accessFault kPOISON .load va 0 ipa pa) o.pc (s.group g).stepNo
    some (engineFault (s.modGroup g fun y => { y with tile := some { o with held := true, key := s.fresh } }) g
      { r with sev := 0 } (.tile g))

/-- An uncorrectable error in a clean line: the copy is dropped, and its reader is held by a record of severity 0, whose
replay refetches the line. -/
def cleanError (s : State) (r : LineReader) (line : Nat) : Option State :=
  match r with
  | .thread t => cleanThread s t line
  | .copy core cmd chunk => cleanCopy s core cmd chunk line
  | .tile g => cleanTile s g line

/-- What an uncorrectable error does in each structure (DESIGN CHOICE, log 53) (DEDUCED, log 54). -/
def strike (s : State) : ErrPlace → Option State
  | .laneReg t r => some (s.modThread t fun x => { x with vPoison := x.vPoison ||| poisonWord r })
  | .predicate t => some (s.modThread t fun x => { x with pPoison := 0xFE })
  | .boundReg t k => some (s.modThread t fun x => { x with bPoison := putBit x.bPoison k true })
  | .uniformReg g r => some (s.modGroup g fun x => { x with sPoison := x.sPoison ||| BitVec.ofNat 64 (2 ^ r.val) })
  | .uniformPred g => some (s.modGroup g fun x => { x with qPoison := 0xFE })
  | .hvecWord g h word =>
    some (s.modGroup g fun x => { x with hPoison := x.hPoison ||| BitVec.ofNat 512 (2 ^ (64 * h.val + word.val)) })
  | .accWord core bank block word => some (poisonBytes s (accAddr core bank block 0 0 + 8 * (word % 256)) 8)
  | .counterSet core set word =>
    some (poisonBytes s (if word < 512 then windowAddr core (0x300000 + set % 16 * 4096 + 8 * word)
      else windowAddr core (0x310000 + set % 16 * 512 + 8 * (word % 64))) 8)
  | .scratchpad core byte => some (poisonBytes s (spadAddr core (byte % 2 ^ 19 / 8 * 8)) 8)
  | .glasshouse cluster entry =>
    some (s.modCluster cluster fun x => { x with entryPoison := if x.entryPoison.contains entry then x.entryPoison else x.entryPoison ++ [entry] })
  | .dirtyLine line => some (poisonBytes s (line * 128) 128)
  | .dirtyCopy core line =>
    let dirty := ((s.core core).smL1.filter fun e => e.2.2 && e.1 / 128 == line).map Prod.fst
    if dirty.isEmpty then none
    else some (s.modCore core fun c => { c with smBad := c.smBad ++ dirty.filter fun a => !c.smBad.contains a })
  | .cleanLine r line => cleanError s r line
  | .translation => some s
  | .hbm byte => some (poisonBytes s (byte / 8 * 8) 8)
  | .trellis t => some (s.modThread t fun x => { x with trellisError := true })
  | .directory t => some (s.modThread t fun x => { x with directoryError := true })
  | .partitionState p =>
    let req := Config.freeNat s.tick 60002 % 6
    some (fileRec s p { kind := kSTATE, sev := 2, req := req
                        tti := if 4 ≤ req then 0xFFFFFFFF else (Config.freeWord s.tick 60003).toNat } .none).1

/-- SOFT_ERROR: counted in the die's health counters, and corrected or not. -/
def execSoftError (place : ErrPlace) (corrected : Bool) (s : State) : Result :=
  let s' := countError s (errDie s place) corrected
  if corrected then .next s'
  else
    match strike s' place with
    | some s => .next s
    | none => pass s

end Sys2Proof.Machine
end

