-- ==== Sys2Proof/Machine/Host.lean ====
section
/-! DEFINITION. What hosts and peers do to the package: snoops of host-backed lines (R392), requests to
device memory under its bias (R390, R393 to R395), requests of peers (R401), and the recovery of a port
(R402). -/

namespace Sys2Proof.Machine

/-! ## Snoops of host-backed lines (R392, R298) -/

/-- Whether a line number names host-backed memory that a host carries. -/
def hostLine (s : State) (line : Nat) : Bool := placeOf (line * 128) == .host && hostBacked s (line * 128)
/-- The bytes of a line. -/
def lineBytes (s : State) (line : Nat) : List Byte := readBytes s.mem (line * 128) 128
/-- Whether a store of a buffer may be found by a host load before it is published: it is no release, and no release fence
stands before it. Toward the host, plain stores stand in no order (R125, R448). -/
def mayShow (sb : List StoreEnt) (k : Nat) : Bool :=
  match sb[k]? with
  | none => false
  | some e => !e.rel && e.held.isNone && !(sb.take k).any fun f => f.fenced || overlaps f.pa f.bytes.length e.pa e.bytes.length
/-- Buffered plain stores of a line that a host load finds: a free bit says so for each, and one that it has found it finds
again (DESIGN CHOICE, log 55). -/
def showStores (s : State) (line : Nat) : State :=
  { s with threads := s.threads.map fun p =>
      (p.1, { p.2 with sb := p.2.sb.mapIdx fun k e =>
        { e with shown := e.shown || (e.pa / 128 == line && mayShow p.2.sb k && Config.freeBit s.tick (2 ^ 69 + e.seq)) } }) }
/-- The bytes of a line as a host load finds them. -/
def shownBytes (s : State) (line : Nat) : List Byte :=
  (List.range 128).map fun i =>
    let a := line * 128 + i
    (s.threads.findSome? fun p => (bufferByte p.2.sb a StoreEnt.shown).map fun b => b.2.1).getD (readCell s.mem a)
/-- Before a host load of a line: where narrow-held stores stand behind it, their holders publish, since the load may be
an acquire at `.sys` (R131, R443) (DESIGN CHOICE, log 55). -/
def hostAcquires (s : State) (line : Nat) : State :=
  let holds (p : TId × Thread) : Bool :=
    p.2.sb.any (fun e => e.pa / 128 == line && e.held.isSome) || s.narrow.any fun e => e.1 == line && e.2.1 == p.1
  showStores ((s.threads.filter holds).foldl (fun s p => publishHeld s p.1.core) s) line

/-- The data that a snoop returns. -/
def snoopOut (s : State) (line : Nat) : State := s.emit (.snoopData (line * 128) (shownBytes s line))

/-- SNP_INV: every copy goes, dirty data to the host, which then holds the line alone; the line's bindings are marked.
`stored` is what the host then stores in the line. -/
def execSnpInv (line : Nat) (stored : List Host.Cell) (s : State) : Result :=
  if hostLine s line then
    let s := if Tbl.find s.hbLines line = some .m then snoopOut (hostAcquires s line) line else s
    let mine := stored.filter fun c => c.1 / 128 == line
    let s := { s with hbLines := Tbl.drop s.hbLines line, hostHalf := Tbl.put s.hostHalf line (if mine.isEmpty then .e else .m) }
    let s := dropLine s line fun _ => true
    let s := mine.foldl (fun s c => setMemPoison (s.setMem (writeCell s.mem c.1 c.2)) c.1 1 false) s
    .next (markBytes s none (line * 128) 128 none)
  else pass s

/-- SNP_DATA: the line is shared, dirty data goes to the host; L1 copies go, and its bindings are marked. -/
def execSnpData (line : Nat) (s : State) : Result :=
  if hostLine s line then
    let s := hostAcquires s line
    let s := if Tbl.find s.hbLines line = some .m then snoopOut s line else s
    let s := if Tbl.has s.hbLines line then { s with hbLines := Tbl.put s.hbLines line .s } else s
    let s := dropLine { s with hostHalf := Tbl.put s.hostHalf line .s } line CacheId.isL1
    .next (markBytes s none (line * 128) 128 none)
  else pass s

/-- SNP_CUR: the current data, and no copy changes. -/
def execSnpCur (line : Nat) (s : State) : Result :=
  if hostLine s line then .next (if Tbl.has s.hbLines line then snoopOut (hostAcquires s line) line else s)
  else pass s

/-! ## Requests to device memory (R390, R393 to R395) -/

/-- A host request beyond HDMSIZE: an error response, counted in the port's health counters. -/
def beyondHdm (s : State) (port pa : Nat) : State :=
  (s.setLink port { s.link port with hdmerr := (s.link port).hdmerr + 1 }).emit (.hostError port pa)
/-- Whether a page of HBM is in host bias. -/
def inHostBias (s : State) (pa : Nat) : Bool := s.hostBias.contains (pa / 4096)
/-- Before the filter records a line that it does not hold: when it is full, its least recently used entry goes (R395). -/
def filterRoom (s : State) (line : Nat) : State :=
  if Tbl.has s.snoopFilter line || decide (s.snoopFilter.length < Config.filterSize) then s
  else
    match s.snoopFilter.getLast? with
    | some e => snoopWrite s (e.1 * 128)
    | none => s
/-- A line recorded in the filter, its latest entry. -/
def holdLine (s : State) (line : Nat) (any : Bool) : State :=
  let s := filterRoom s line
  { s with snoopFilter := (line, any) :: Tbl.drop s.snoopFilter line }
/-- The filter's record of a line as a request asks. -/
def recordHost (s : State) (line : Nat) (wants : Meta) : State :=
  match wants with
  | .any => holdLine s line true
  | .shared => holdLine s line false
  | .invalid => { s with snoopFilter := Tbl.drop s.snoopFilter line }

/-- HOST_MEM_RD: the line's data, in device bias with MetaValue Invalid (R394); in host bias with the state that is asked
for, which the filter records (R395) (DESIGN CHOICE, log 55). -/
def execHostMemRd (port pa : Nat) (wants : Meta) (s : State) : Result :=
  if !s.device.hostPorts.contains port then pass s
  else if s.device.hdmSize ≤ pa then .next (beyondHdm s port pa)
  else
    let base := lineBase pa
    let s := hostAcquires s (pa / 128)
    let s := s.emit (.hostData port base (shownBytes s (pa / 128)) (if inHostBias s pa then wants else .invalid))
    let s := if memPoisoned s base 128 then s.emit (.poisoned port base) else s
    .next (if inHostBias s pa && wants != .invalid then recordHost s (pa / 128) wants else s)

/-- HOST_MEM_WR: the device copies of its lines go, the write reaches HBM, and it marks the bindings of its words, as a
store from any agent. -/
def execHostMemWr (port pa : Nat) (bytes : List Byte) (s : State) : Result :=
  if !s.device.hostPorts.contains port then pass s
  else if s.device.hdmSize < pa + bytes.length then .next (beyondHdm s port pa)
  else
    let lines := (List.range ((pa + bytes.length + 127) / 128 - pa / 128)).map fun i => pa / 128 + i
    let s := lines.foldl (fun s l => dropLine s l fun _ => true) s
    let s := setMemPoison (s.setMem (writeBytes s.mem pa bytes)) pa bytes.length false
    .next (markBytes s none pa bytes.length none)

/-- HOST_MEM_INV: no data; in host bias the filter records the state that is asked for. -/
def execHostMemInv (port pa : Nat) (wants : Meta) (s : State) : Result :=
  if !s.device.hostPorts.contains port then pass s
  else if s.device.hdmSize ≤ pa then .next (beyondHdm s port pa)
  else .next (if inHostBias s pa then recordHost s (pa / 128) wants else s)

/-! ## Peers (R401, R402) -/

/-- The partition that a peer's request acts for: the one that the peer's own peer-map call names, which the request
carries; any, for all the package knows (DESIGN CHOICE, log 57). -/
def peerPart (s : State) : Nat := Config.freeNat s.tick 60004 % 20

/-- The bytes of a request. -/
def PeerOp.bytes : PeerOp → Nat
  | .load n => n
  | .store bs => bs.length
  | .atom _ n _ => n

/-- Whether the bytes of a request are HBM within a partition's ranges. -/
def peerReaches (s : State) (p pa n : Nat) : Bool :=
  (List.range n).all fun i => placeOf (pa + i) == .hbm && inRanges s p (pa + i)

/-- A peer's request performed for a partition, coherent as a device access. -/
def peerPerform (s : State) (p peer pa : Nat) (op : PeerOp) : State :=
  match op with
  | .load n =>
    let s := snoopReads s pa n
    s.emit (.peerData peer pa (readBytes s.mem pa n))
  | .store bs => homeWrite s (some p) pa bs .wb false none
  | .atom op n y =>
    let s := snoopWrites s pa n
    let x := BitVec.ofNat 64 (readLE s.mem pa n)
    let s := homeWrite s (some p) pa (toBytes n (atomValue op n x y).toNat) .wb (memPoisoned s pa n) none
    s.emit (.peerData peer pa (toBytes n x.toNat))

/-- PEER_INBOUND_REQUEST: one that fails its check, or names a partition that is not enabled, changes nothing, and the
sender is told. -/
def execPeerInboundRequest (peer pa : Nat) (op : PeerOp) (s : State) : Result :=
  let p := peerPart s
  if (s.part p).state = 1 && peerReaches s p pa (PeerOp.bytes op) then .next (peerPerform s p peer pa op)
  else .next (s.emit (.peerRefused peer pa))

/-- Whether a record waits for a peer that an Oluhus port reaches. -/
def waitsForPort (x : Partition) (port : Nat) (r : Rec) : Bool :=
  r.kind == kTIMEOUT &&
    (match placeOf r.pa with
      | .peer n => ((Tbl.find x.peers n).map fun y => y.ports.getLsbD (port - 16)).getD false
      | _ => false)

/-- The held requests of one partition replay. -/
def recoverPart (port : Nat) (p : Nat) (s : State) : Result :=
  let x := s.part p
  let mine := x.opened.filter fun o => waitsForPort x port o.2.1
  let spacers := x.waiting.filter fun o => waitsForPort x port o.1
  let s := s.setPart p { x with
    opened := x.opened.filter (fun o => !waitsForPort x port o.2.1)
    waiting := x.waiting.filter fun o => !waitsForPort x port o.1 }
  let keys := spacers.map fun o => o.1.key
  let ready (w : Wait) : Bool :=
    match w with
    | .space k => keys.contains k
    | _ => false
  let s := retryWaits s fun _ w => ready w
  let s := mapSpilled s fun _ _ x => if ready x.wait then retry x else x
  answerPassed p (mine.map fun o => (o.1, { o.2.1 with sev := 0 }, o.2.2)) s

/-- Partitions one after the other. -/
def recoverAll (port : Nat) : List Nat → State → Result
  | [], s => .next s
  | p :: ps, s =>
    match recoverPart port p s with
    | .next s => recoverAll port ps s
    | .fault e => .fault e
    | .refused e => .refused e

/-- PEER_PORT_RECOVERY: an Oluhus port, 16 to 27, that is trained again. -/
def execPeerPortRecovery (port : Nat) (s : State) : Result :=
  if 16 ≤ port && decide (port < 28) && !(s.link port).down then recoverAll port (s.parts.map Prod.fst) s
  else pass s

end Sys2Proof.Machine
end

