-- ==== Sys2Proof/Machine/Preley.lean ====
section
/-! DEFINITION. Preley's calls on the mailbox rings (R403 to R406): submission queues, invalidation
(R182), bias flips (R396), partitions (R168, R171, R190), peers (R400) and user interrupts (R209). -/

namespace Sys2Proof.Machine

/-! ## Records and answers (R404, R406) -/

/-- A call record. -/
structure Call where
  code : Nat
  part : Nat
  arg : List Nat
  deriving DecidableEq, Repr

/-- An argument of a call. -/
def Call.get (c : Call) (i : Nat) : Nat := c.arg.getD i 0

/-- Where the next call of a mailbox stands. -/
def callAddr (x : Mailbox) : Nat := x.base + x.done % 2 ^ x.logn * 64

/-- The next call of a mailbox: Preley executes them in index order, one at a time. -/
def headCall (s : State) (m : Nat) : Option Call :=
  let x := s.mailbox m
  if x.en && x.prod != x.done then
    let a := callAddr x
    some { code := readLE s.mem a 2, part := readLE s.mem (a + 2) 1
           arg := (List.range 5).map fun i => readLE s.mem (a + 8 + 8 * i) 8 }
  else none

/-- What Preley answers: the status and the results it gives. -/
structure Answer where
  status : Nat
  res : List Nat := []
  deriving DecidableEq, Repr

/-- STATUS and the results are written, DONE advances, and MSIX is raised. -/
def answerCall (s : State) (m : Nat) (a : Answer) : State :=
  let x := s.mailbox m
  let at0 := callAddr x
  let s := homeWrite s none (at0 + 4) (toBytes 4 a.status) .wb false none
  let s := if a.res.isEmpty then s else homeWrite s none (at0 + 0x30) (a.res.flatMap (toBytes 8)) .wb false none
  let s := s.setMailbox m { x with done := (x.done + 1) % 2 ^ 32 }
  s.raise x.port x.msix

/-- Before Preley reads the record of a mailbox's next call: the host hands back what it may have modified of its line
(R395). -/
def headSnoop (s : State) (m : Nat) : State := snoopReads s (callAddr (s.mailbox m)) 64

/-- A call by its code: refused for a partition that is not in PARTS; nothing where it cannot complete yet. -/
def runCall (m code : Nat) (f : Call → State → Option (State × Answer)) (s : State) : Result :=
  let s := headSnoop s m
  match headCall s m with
  | none => pass s
  | some c =>
    if c.code ≠ code then pass s
    else if !(s.mailbox m).parts.getLsbD c.part then .next (answerCall s m { status := 3 })
    else
      match f c s with
      | none => pass s
      | some (s, a) => .next (answerCall s m a)

/-- An answer that changes nothing else. -/
def refuse (s : State) (status : Nat) : Option (State × Answer) := some (s, { status := status })

/-- MAILBOX_UNKNOWN_CALL. -/
def execMailboxUnknownCall (m : Nat) (s : State) : Result :=
  let s := headSnoop s m
  match headCall s m with
  | none => pass s
  | some c => if 1 ≤ c.code && decide (c.code ≤ 15) then pass s else .next (answerCall s m { status := 1 })

/-! ## Submission queues (R55, R58) -/

/-- Whether the pages of a queue's ring that translate as it is created are device memory (R55). -/
def ringInDevice (s : State) (q : Queue) : Bool :=
  (List.range (ceilDiv (64 * 2 ^ q.logn) 4096)).all fun k =>
    match translate s (queueIssuer q) (q.ring.toNat + 4096 * k) .load with
    | .ok (pa, _) => placeOf pa == .hbm || placeOf pa == .second
    | .error _ => true

/-- Call 0x0001 (DESIGN CHOICE, log 58). -/
def createQueue (m : Nat) (c : Call) (s : State) : Option (State × Answer) :=
  let n := c.get 1
  if n < 6 || 16 < n || c.get 0 % (64 * 2 ^ n) != 0 || c.get 2 % 4096 != 0 || 4096 ≤ c.get 3 || (s.part c.part).state != 1 then
    refuse s 2
  else
    let (id, s) := s.takeFresh
    let q : Queue :=
      { part := c.part, mailbox := m, ring := BitVec.ofNat 64 (c.get 0), logn := n, root1 := c.get 2, asn := c.get 3
        die := Config.freeNat s.tick 60005 % 4, doorbell := Config.doorbellAddr id, consumer := Config.consumerAddr id }
    if ringInDevice s q then some (s.setQueue id q, { status := 0, res := [q.doorbell, q.consumer] }) else refuse s 2

/-- CREATE_SUBMISSION_QUEUE. -/
def execCreateSubmissionQueue (m : Nat) (s : State) : Result := runCall m 0x0001 (createQueue m) s

/-- Call 0x0002. -/
def destroyQueue (c : Call) (s : State) : Option (State × Answer) :=
  match s.queues.find? fun q => q.2.part == c.part && q.2.doorbell == c.get 0 && !q.2.destroyed with
  | none => refuse s 2
  | some (id, q) =>
    if s.graphs.any fun g => g.2.queue == id && !g.2.complete then refuse s 4
    else some (s.setQueue id { q with destroyed := true }, { status := 0 })

/-- DESTROY_SUBMISSION_QUEUE. -/
def execDestroySubmissionQueue (m : Nat) (s : State) : Result := runCall m 0x0002 destroyQueue s

/-! ## Invalidation (R182, R290) -/

/-- The named range of an invalidation. -/
structure Inval where
  asn : Option Nat
  base : Nat
  len : Nat
  stage2 : Bool
  deriving DecidableEq, Repr

/-- Whether the page of an address lies in the range: its 4 KiB, the page that the tables as they stand map it by, or a
larger one that the invalidated translation may have mapped it by: a free bit for each size says so (DESIGN CHOICE,
log 43). -/
def Inval.covers (x : Inval) (tick place a : Nat) (size : Option Nat) : Bool :=
  let meets (n : Nat) : Bool := overlaps (a / n * n) n x.base x.len
  x.len == 0 || meets (2 ^ 12) || size.any meets
    || [16, 21, 30].any fun k => meets (2 ^ k) && Config.freeBit tick (4 * place + k)
/-- Whether the invalidation names an address of an issuer: where its stage 1 maps it no more, which
intermediate address it had is open (DESIGN CHOICE, log 43). -/
def Inval.names (v : Inval) (s : State) (i : Issuer) (va place : Nat) : Bool :=
  if v.stage2 then
    match stage1 s.uncached i va with
    | .ok (ipa, _) => v.covers s.tick place ipa (size2 s i.part ipa)
    | .error _ => v.len == 0 || Config.freeBit s.tick place
  else v.covers s.tick place va (size1 s i va)

/-- Whether a TLB's entry may stem from an entry of the range: a page of any size around its region meets it. -/
def Inval.drops (v : Inval) (part : Nat) (e : TlbEntry) : Bool :=
  let a := if v.stage2 then e.ipa else e.page * 4096
  e.part == part && (v.stage2 || v.asn.all (· == e.asn))
    && (v.len == 0 || [12, 16, 21, 30].any fun k => overlaps (a / 2 ^ k * 2 ^ k) (2 ^ k) v.base v.len)

/-- Whether a walk cache's entry stems from an entry of the range: one of its stage that maps a part of it, or for an
intermediate range one of stage 1 that stands in a page of it. -/
def Inval.dropsWalk (v : Inval) (part : Nat) (e : WalkEntry) : Bool :=
  let own := v.len == 0 || overlaps (e.region * pageSize e.level) (pageSize e.level) v.base v.len
  let stands := v.len == 0 || [12, 16, 21, 30].any fun k => overlaps (e.place / 2 ^ k * 2 ^ k) (2 ^ k) v.base v.len
  e.part == part && (if v.stage2 then (if e.two then own else stands) else !e.two && v.asn.all (· == e.asn) && own)

/-- Whether the tables as they stand give a page W at a virtual address. -/
def givesW (s : State) (i : Issuer) (va pa : Nat) : Bool :=
  match stage1 s.uncached i va with
  | .error _ => false
  | .ok (ipa, p1) =>
    match stage2 s.uncached i.die i.part ipa with
    | .error _ => false
    | .ok (x, p2, _) => p1.w && p2.w && x / 4096 == pa / 4096

/-- A binding write-revoked where the invalidation takes W from its page. -/
def revoke (s : State) (v : Inval) (i : Issuer) (place : Nat) (b : Bound) : Bound :=
  if b.bound && v.names s i b.va.toNat place && !givesW s i b.va.toNat b.pa then { b with revoked := true } else b

/-- The issuer of a group in a save area. -/
def savedIssuer (s : State) (g : GId) (x : Group) : Issuer :=
  let l := s.launch x.launch
  ⟨l.part, l.root1, l.asn, g.core, x.launch, x.team⟩

/-- Whether an issuer is of the named partition and ASN. -/
def namesIssuer (part : Nat) (v : Inval) (i : Issuer) : Bool :=
  i.part == part && (match v.asn with
    | none => true
    | some a => i.asn == a)

/-- The accesses that the threads of a partition and ASN have translated are performed. -/
def performAll (s : State) (part : Nat) (v : Inval) : State :=
  s.threads.foldl (fun s p =>
    if partOfCore s p.1.core == some part && namesIssuer part v (issuerOf s (groupOf s p.1)) then
      publishAll (satisfyAll s p.1) p.1 else s) s

/-- The write-revoked bits of the bindings. -/
def revokeAll (s : State) (part : Nat) (v : Inval) : State :=
  let one (g : GId) (i : Issuer) (t : Thread) : Thread :=
    if namesIssuer part v i then { t with b := t.b.mapIdx fun k b => revoke s v i (drawGroup g (t.tti * 8 + k)) b } else t
  let own (p : TId × Thread) : TId × Thread :=
    if partOfCore s p.1.core == some part then (p.1, one (groupOf s p.1) (issuerOf s (groupOf s p.1)) p.2) else p
  mapSpilled { s with threads := s.threads.map own } fun g x t => one g (savedIssuer s g x) t

/-- Call 0x0003. -/
def invalidate (c : Call) (s : State) : Option (State × Answer) :=
  if 4096 ≤ c.get 0 && c.get 0 != 0xFFFF then refuse s 2
  else
    let v : Inval :=
      { asn := if c.get 0 = 0xFFFF then none else some (c.get 0), base := c.get 1, len := c.get 2, stage2 := c.get 3 % 2 == 1 }
    let s := revokeAll (performAll s c.part v) c.part v
    some ({ s with tlb := s.tlb.filter (fun e => !v.drops c.part e)
                   walkCache := s.walkCache.filter fun e => !v.dropsWalk c.part e }, { status := 0 })

/-- INVALIDATE_TRANSLATIONS. -/
def execInvalidateTranslations (m : Nat) (s : State) : Result := runCall m 0x0003 invalidate s

/-! ## Bias (R393, R396) -/

/-- The lines of a page. -/
def pageLines (page : Nat) : List Nat := (List.range 32).map fun i => page * 32 + i

/-- A line that the host holds leaves it, by BISnpInv (R395, R396). -/
def takeBack (s : State) (line : Nat) : State := snoopWrite s (line * 128)
/-- A line leaves the device's caches, whose modified data reaches HBM (R396). -/
def leaveDevice (s : State) (line : Nat) : State := dropLine s line fun _ => true

/-- Call 0x0004: a flip is one step, so that no request finds its page flipping (R397) (DEDUCED, log 96). -/
def flipBias (c : Call) (s : State) : Option (State × Answer) :=
  let page := c.get 0 / 4096
  let toHost := c.get 1 == 1
  if c.get 0 % 4096 != 0 || placeOf (c.get 0) != .hbm || 1 < c.get 1 then refuse s 2
  else if s.hostBias.contains page == toHost then refuse s 0
  else if s.device.hdmSize ≤ c.get 0 then refuse s 2
  else if toHost then
    let s := (pageLines page).foldl leaveDevice s
    some ({ s with hostBias := s.hostBias ++ [page] }, { status := 0 })
  else
    let s := (pageLines page).foldl takeBack s
    some ({ s with hostBias := s.hostBias.filter (· != page) }, { status := 0 })

/-- BIAS_FLIP. -/
def execBiasFlip (m : Nat) (s : State) : Result := runCall m 0x0004 flipBias s

/-! ## Enabling a partition (R168, R171, R190) -/

/-- The clusters that a descriptor grants. -/
def grantOf (x : Partition) : List Nat := (List.range 80).filter fun n => x.clusters.getLsbD n
/-- The ALLOT of every other enabled partition; one that is halted is not enabled (R168) (DESIGN CHOICE, log 59). -/
def otherAllot (s : State) (p : Nat) : Nat :=
  (List.range 20).foldl (fun acc q => if q != p && (s.part q).state == 1 then acc + (s.part q).allot else acc) 0

/-- The bytes of a descriptor that are measured: STATE read as 1 and METER as zero. -/
def descriptorBytes (x : Partition) : List Byte :=
  toBytes 8 1 ++ toBytes 16 x.clusters.toNat ++ toBytes 8 x.s2root ++ toBytes 8 x.allot ++ toBytes 8 0
    ++ toBytes 8 x.hostports.toNat ++ toBytes 8 0
    ++ x.ranges.toList.flatMap fun r => toBytes 8 (r.base + bit r.en 0) ++ toBytes 8 r.limit
/-- Measurement index 16 + p (R190, R191). -/
def measureOf (keys : List SigningKey) (p : Nat) (x : Partition) : List Byte :=
  Config.shake256 (descriptorBytes x ++ keys.flatMap fun k => if k.part = p then k.key else [])

/-- Whether the ranges of a descriptor grant an address that memory backs. -/
def grants (x : Partition) (a : Nat) : Bool :=
  (match placeOf a with
    | .hbm | .second | .host | .peer _ => true
    | .window _ _ | .device | .unbacked => false) &&
    x.ranges.toList.any fun r => r.en && decide (r.base ≤ a) && decide (a ≤ r.limit + 0xFFF)

/-- The memory that RANGE registers grant is zero before the partition runs, no cache, the host's among them, holding a
copy of it (R171). -/
def zeroGrant (s : State) (x : Partition) : State :=
  let own (line : Nat) : Bool := grants x (line * 128)
  let s := (s.snoopFilter.filter fun e => own e.1).foldl (fun s e => takeBack s e.1) s
  let s := (s.hostHalf.filter fun e => own e.1).foldl (fun s e => hbWrite s (e.1 * 128)) s
  let free (d : Die) : Die :=
    { d with smLlc := d.smLlc.filter (fun e => !grants x e.1), smLlcBad := d.smLlcBad.filter fun a => !grants x a }
  { s with mem := s.mem.filter (fun c => !grants x c.1), poison := s.poison.filter (fun w => !grants x (w * 8))
           bars := s.bars.filter (fun b => !grants x b.1), lines := s.lines.filter (fun l => !own l.line)
           dies := s.dies.map fun d => (d.1, free d.2) }

/-- A partition enabled: its memory is zero, the clusters of its descriptor become its own, it is measured, and its
ceiling, counters and trap queue begin afresh (R171, R190) (DESIGN CHOICE, log 59) (DEDUCED, log 60). -/
def startPart (s : State) (p : Nat) : State :=
  let x := s.part p
  let s := zeroGrant s x
  let s := (grantOf x).foldl (fun s n => s.modCluster n fun k => { k with owner := some p }) s
  let y : Partition :=
    { x with state := 1, meter := 0, overrun := false, fill := 0, tqprod := 0, tqcons := 0, fxv := false, fatalx := [], waiting := []
             opened := [], ceiling := 23, measured := some (measureOf s.device.keys p x) }
  (s.setPmcs (Tbl.drop s.pmcs p)).setPart p y

/-- Whether the boot lets partitions be enabled (R190). -/
def bootOk (s : State) : Bool := s.boot.firmwareOk && s.boot.preleyOk
/-- Whether the clusters of a descriptor are free. -/
def grantFree (s : State) (x : Partition) : Bool := (grantOf x).all fun n => (s.cluster n).owner.isNone

/-- Whether a descriptor's allotment suffices for its clusters, at least 4 of them, and fits beside the others' (R168). -/
def grantFits (s : State) (p : Nat) : Bool :=
  let x := s.part p
  let n := (grantOf x).length
  decide (4 ≤ n) && decide (10 * n ≤ x.allot) && decide (otherAllot s p + x.allot ≤ 3600)

/-- Call 0x0005. -/
def enable (c : Call) (s : State) : Option (State × Answer) :=
  let p := c.part
  let x := s.part p
  if x.state != 0 || !grantFree s x || !bootOk s then refuse s 4
  else if !grantFits s p then refuse s 2
  else some (startPart s p, { status := 0 })

/-- ENABLE_PARTITION. -/
def execEnablePartition (m : Nat) (s : State) : Result := runCall m 0x0005 enable s

/-! ## Disabling a partition (R171, R419) -/

/-- The clusters of a partition. -/
def ownClusters (s : State) (p : Nat) : List Nat := (List.range 80).filter fun n => (s.cluster n).owner == some p

/-- The record of a requester's fault. -/
def requesterRec (s : State) (who : Requester) (f : SysFault) : Rec :=
  match who with
  | .copy core cmd chunk =>
    match Tbl.find (s.core core).copies cmd with
    | some c => engineRec s c.group 1 cmd f c.pc (((c.chunk chunk).map Prod.fst).getD 0)
    | none => { kind := f.kind, sev := sevOf f.kind, wher := f.wher, req := 1, slot := cmd }
  | .tile g =>
    engineRec s g 2 g.slot f (((s.group g).tile.map TileOp.pc).getD 0) (s.group g).stepNo
  | .completion gid | .node gid _ =>
    { kind := f.kind, sev := sevOf f.kind, wher := f.wher, access := f.access, req := 4, tti := 0xFFFFFFFF
      tag := (s.graph gid).tag }
  | .thread _ | .portion _ | .walkers _ | .matrix _ _ | .spill _ _ _ | .outload _ | .none =>
    match who.threads with
    | t :: _ => threadRec s t f
    | [] => { kind := f.kind, sev := sevOf f.kind, wher := f.wher }

/-- REMOTEOFF: each request held for a gated cluster of the partition faults, and its record shows the access that was
held (R200, R419). -/
def remoteOff (s : State) (p : Nat) : State :=
  (ownClusters s p).foldl (fun s n =>
    let s := (s.cluster n).heldReqs.foldl (fun s h =>
      let r := requesterRec s h.who { kind := kPARTVIOL, wher := 0xF0, access := h.access, va := h.va, ipa := h.ipa, pa := h.pa }
      (fileRec s p { r with access := h.access, va := h.va, ipa := h.ipa, pa := h.pa } .none).1) s
    s.modCluster n fun k => { k with heldReqs := [] }) s

/-- Whether a context of the partition is active or in the Summerhouse, or a spill is under way. -/
def partBusy (s : State) (p : Nat) : Bool :=
  let cores := (ownClusters s p).flatMap fun n => [2 * n, 2 * n + 1]
  s.groups.any (fun g => g.2.live && cores.contains g.1.core) || s.ctxs.any (fun c => cores.contains c.2.core)
    || cores.any fun c => (s.core c).swap.isSome || !(s.core c).copies.isEmpty

/-- A cluster found in its reset state by its next partition. -/
def resetCluster (s : State) (n : Nat) : State :=
  let core (c : Nat) : Bool := c / 2 == n
  let window (a : Nat) : Bool :=
    match placeOf a with
    | .window c _ => core c
    | _ => false
  let keep (c : Host.Cell) : Bool := !window c.1
  let s := { s with
    mem := s.mem.filter keep
    poison := s.poison.filter fun w => !window (w * 8)
    absent := s.absent.filter fun l => !window (l * 128)
    spadStamps := s.spadStamps.filter fun e => !window e.1
    bars := s.bars.filter fun e => !window e.1
    lines := s.lines.filter fun l => (match l.cache with
      | .l1 c => !core c
      | _ => true)
    tlb := s.tlb.filter fun e => e.cluster != n
    threads := s.threads.filter fun t => !core t.1.core
    groups := s.groups.filter fun g => !core g.1.core
    ctxs := s.ctxs.filter fun c => !core c.2.core
    cores := s.cores.filter fun c => !core c.1 }
  s.modCluster n fun x =>
    { x with owner := none, entries := [], entryPoison := [], level := 0, settling := none, gated := true, heldReqs := [] }

/-- A number beyond the partitions'. -/
def noPart : Nat := 20
/-- The matrix work of a disabled partition is no partition's any more (R414). -/
def dropMatrix (s : State) (p : Nat) : State :=
  (List.range 80).foldl (fun s n =>
    if (s.cluster n).lastMatrix == some p then s.modCluster n fun k => { k with lastMatrix := some noPart } else s) s

/-- The walks of a partition end, with what they left in the walk caches, and the walkers take others that wait (R180). -/
def dropWalks (s : State) (p : Nat) : State :=
  let mine := s.walks.filter fun w => w.2.part == p
  (mine.filter fun w => w.2.started).foldl (fun s w => takeWalk s w.2.die)
    { s with walks := s.walks.filter (fun w => w.2.part != p), walkCache := s.walkCache.filter fun e => e.part != p }

/-- The work of a partition is gone: its launches, graphs and queues. -/
def dropWork (s : State) (p : Nat) : State :=
  let mine := (s.launches.filter fun l => l.2.part == p && !l.2.complete).map Prod.fst
  let s := mine.foldl (fun s l => (endLaunch s l).modLaunch l fun x => { x with complete := true }) s
  let graph (g : Graph) : Graph :=
    if graphPart s g == some p && !g.complete then { g with status := some 4, complete := true } else g
  let queue (q : Queue) : Queue := if q.part = p then { q with destroyed := true } else q
  { s with graphs := s.graphs.map (fun g => (g.1, graph g.2)), queues := s.queues.map (fun q => (q.1, queue q.2))
           nodeCopies := s.nodeCopies.filter fun c => graphPart s (s.graph c.graph) != some p }

/-- A partition disabled: what is left of its work goes, its clusters are released, and its descriptor names none (R171,
R193, R419). -/
def stopPart (s : State) (p : Nat) : State :=
  let s := dropMatrix (dropWalks (dropWork (remoteOff s p) p) p) p
  let s := (ownClusters s p).foldl resetCluster s
  s.modPart p fun y =>
    { y with state := 0, clusters := 0, measured := none, debugger := none, peers := [], waiting := [], fill := 0
             opened := y.opened.map fun o => (o.1, o.2.1, .none) }

/-- Call 0x0006: it waits for the partition's contexts, or after a halt, whose contexts issue nothing more and so never
end, for its submissions to complete (DEDUCED, log 61). One that a write of STATE disabled has its clusters to release. -/
def disable (c : Call) (s : State) : Option (State × Answer) :=
  let p := c.part
  let x := s.part p
  if x.state = 0 && (ownClusters s p).isEmpty then refuse s 0
  else if x.state != 2 && partBusy s p then none
  else if x.state = 2 && s.graphs.any (fun g => graphPart s g.2 == some p && !g.2.complete) then none
  else some (stopPart s p, { status := 0 })

/-- DISABLE_PARTITION. -/
def execDisablePartition (m : Nat) (s : State) : Result := runCall m 0x0006 disable s

/-! ## Peers and user interrupts (R400, R209) -/

/-- Call 0x0007. -/
def mapPeer (c : Call) (s : State) : Option (State × Answer) :=
  if 512 ≤ c.get 0 || 20 ≤ c.get 2 || 2 ^ 12 ≤ c.get 3 then refuse s 2
  else if Tbl.find s.device.peerIdentity (c.get 0) = some (BitVec.ofNat 64 (c.get 1)) then
    let x : Peer := ⟨BitVec.ofNat 64 (c.get 1), c.get 2, BitVec.ofNat 12 (c.get 3)⟩
    some (s.modPart c.part fun y => { y with peers := Tbl.put y.peers (c.get 0) x }, { status := 0 })
  else refuse s 2

/-- PEER_MAP. -/
def execPeerMap (m : Nat) (s : State) : Result := runCall m 0x0007 mapPeer s

/-- The launch of a number (R215, R405). -/
def launchNumbered (s : State) (n : Nat) : Option (Nat × Launch) := s.launches.find? fun l => l.2.number.toNat == n && !l.2.complete
/-- Call 0x0009. -/
def interrupt (c : Call) (s : State) : Option (State × Answer) :=
  match launchNumbered s (c.get 0) with
  | none => refuse s 2
  | some (id, l) =>
    if l.part != c.part || c.get 1 / 2 ^ 48 != 0 then refuse s 2
    else some (raiseAt s id (bitsOf (c.get 1) 47 16) (bitsOf (c.get 1) 15 0) .preley, { status := 0 })

/-- USER_INTERRUPT_CALL. -/
def execUserInterruptCall (m : Nat) (s : State) : Result := runCall m 0x0009 interrupt s

end Sys2Proof.Machine
end

