-- ==== Sys2Proof/Machine/Debug.lean ====
section
/-! DEFINITION. The debugger (R217 to R220): attaching, halting, freezing, reading and writing the state of
a partition, detaching. -/

namespace Sys2Proof.Machine

/-! ## Attachments -/

/-- Whether a buffer is one that a debugger call may name: HBM below HDMSIZE, within the partition's
ranges, aligned to 64, of at most 65,536 bytes. -/
def bufferOk (s : State) (p a n : Nat) : Bool :=
  a % 64 == 0 && decide (n ≤ 65536) && decide (a + n ≤ s.device.hdmSize) && decide (a < s.device.hdmSize) &&
    (List.range (ceilDiv (Nat.max n 1) 64)).all fun i => placeOf (a + 64 * i) == .hbm && inRanges s p (a + 64 * i)

/-- Call 0x0008 (DEDUCED, log 62). -/
def attach (m : Nat) (c : Call) (s : State) : Option (State × Answer) :=
  let scope : Option HaltScope := match c.get 0 with
    | 0 => some .group
    | 1 => some .team
    | 2 => some .launch
    | _ => none
  match (s.part c.part).debugger, scope with
  | some _, _ => refuse s 4
  | none, none => refuse s 2
  | none, some sc =>
    if c.get 1 % 4096 != 0 || !bufferOk s c.part (c.get 1) 4096 || (2048 ≤ c.get 2 && c.get 2 != 0xFFFF) then refuse s 2
    else
      let (n, s) := s.takeFresh
      let h := (Config.debugHandle n).toNat
      let d : Debugger := { handle := h, mailbox := m, scope := sc, area := c.get 1, vector := c.get 2 }
      some (s.modPart c.part fun x => { x with debugger := some d }, { status := 0, res := [h] })

/-- ATTACH_DEBUGGER. -/
def execAttachDebugger (m : Nat) (s : State) : Result := runCall m 0x0008 (attach m) s

/-- The partition of a mailbox whose attachment a handle names. -/
def attachedPart (s : State) (m h : Nat) : Option (Nat × Debugger) :=
  (List.range 20).findSome? fun p =>
    if (s.mailbox m).parts.getLsbD p then
      ((s.part p).debugger).bind fun d => if d.handle = h then some (p, d) else none
    else none

/-- A call on an attachment. -/
def onAttachment (m : Nat) (f : Nat → Debugger → Call → State → Option (State × Answer)) (c : Call) (s : State) :
    Option (State × Answer) :=
  match attachedPart s m (c.get 0) with
  | none => refuse s 2
  | some (p, d) => f p d c s

/-! ## Halt, resume, freeze (R217, R219) -/

/-- The scope of a group, in place or spilled, of a launch of a partition. -/
def namedScope (s : State) (p : Nat) (d : Debugger) (launch team tgi : Nat) : Option Halted :=
  let found := (s.groups ++ spilledGroups s).find? fun g =>
    g.2.live && (s.launch g.2.launch).number.toNat == launch && g.2.team == team && g.2.tgi == tgi &&
      (s.launch g.2.launch).part == p
  found.map fun g =>
    match d.scope with
    | .group => .group g.1
    | .team => .team g.2.launch team
    | .launch => .launch g.2.launch

/-- Call 0x000A. -/
def haltCall (p : Nat) (d : Debugger) (c : Call) (s : State) : Option (State × Answer) :=
  if c.get 2 / 2 ^ 48 != 0 then refuse s 2
  else
    match namedScope s p d (c.get 1) (bitsOf (c.get 2) 47 16) (bitsOf (c.get 2) 15 0) with
    | none => refuse s 2
    | some h => some (debugEvent (haltScope s p h) p { kind := 2, launch := c.get 1 }, { status := 0 })

/-- DEBUGGER_HALT. -/
def execDebuggerHalt (m : Nat) (s : State) : Result := runCall m 0x000A (onAttachment m haltCall) s

/-- Issue restarts in every halted scope of a partition: a waking event of its cores (R155). -/
def resumeAll (s : State) (p : Nat) : State :=
  let s := s.modPart p fun x => { x with debugger := x.debugger.map fun d => { d with halted := [] } }
  (partCores s p).foldl wakeCore s

/-- DEBUGGER_RESUME. -/
def execDebuggerResume (m : Nat) (s : State) : Result :=
  runCall m 0x000B (onAttachment m fun p _ _ s => some (resumeAll s p, { status := 0 })) s

/-- DEBUGGER_FREEZE. -/
def execDebuggerFreeze (m : Nat) (s : State) : Result :=
  runCall m 0x000C (onAttachment m fun p d c s =>
    some (s.modPart p fun x => { x with debugger := some { d with frozen := c.get 1 % 2 == 1 } }, { status := 0 })) s

/-- DEBUGGER_DETACH. -/
def execDebuggerDetach (m : Nat) (s : State) : Result :=
  runCall m 0x000F (onAttachment m fun p _ _ s =>
    some ((resumeAll s p).modPart p fun x => { x with debugger := none }, { status := 0 })) s

/-! ## Reading (R218, R219) -/

/-- The bank of a slot region and the offset in a saved bank of a byte of it. -/
def savedPlace (off : Nat) : Option (Nat × Nat × Nat) :=
  match winRegion off with
  | .regs bank o => some (bank, o / 16384, o % 16384)
  | .bounds bank o => some (bank, o / 8192, 0x4000 + o % 8192)
  | .control bank o => some (bank, o / 1024, 0x6000 + o % 1024)
  | .groups bank o => some (bank, o / 32768, 0x8000 + o % 32768)
  | .accs bank o => some (bank, o / 16384, 0x10000 + o % 16384)
  | _ => none

/-- The context whose spilled bank an offset of a window names, where no live group holds the bank. -/
def savedBy (s : State) (core bank k : Nat) : Option Nat :=
  if s.groups.any fun p => p.2.live && p.1.core == core && p.1.bank == bank && (groupBanks p.1 p.2).contains k then none
  else (ctxsOf s core fun c => c.bank == bank && Tbl.has c.spilled k).head?

/-- A byte of a core window as the debugger reads it: from the window, or from the save area of a bank that
is spilled. -/
def debugByte (s : State) (p core off : Nat) : Byte :=
  match savedPlace off with
  | none => winRead s core off
  | some (bank, k, o) =>
    match savedBy s core bank k with
    | none => winRead s core off
    | some c =>
      match saveReach s p (saveBase s c + bankOffset k + o) .load with
      | .ok (pa, _) => readCell s.mem pa
      | .error _ => Config.freeByte s.tick (windowAddr core off)

/-- A selector of a core and a slot. -/
def selCore (x : Nat) : Nat := x / 2 ^ 16
def selSlot (x : Nat) : Nat := x % 2 ^ 16
/-- Whether a core is one of the partition's. -/
def ownsCore (s : State) (p core : Nat) : Bool := partOfCore s core == some p && decide (core < 160)

/-- The accumulator blocks of a group as of its latest `mwait`, and the pending marks. -/
def accDump (s : State) (g : GId) : List Byte :=
  let x := s.group g
  let blocks := List.range (groupBlocks x)
  (blocks.flatMap fun k =>
    (Tbl.find x.accOld k).getD (readBytes s.mem (accAddr g.core g.bank (x.accFirst + k) 0 0) 2048))
    ++ toBytes 8 (blocks.foldl (fun acc k => acc + bit (blockPending s g.core g.bank (x.accFirst + k)) k) 0)

/-- The records of a core's copy commands (DESIGN CHOICE, log 63). -/
def copyDump (s : State) (core : Nat) : List Byte :=
  (List.range 64).flatMap fun k =>
    match Tbl.find (s.core core).copies k with
    | some c =>
      toBytes 8 c.dst.toNat ++ toBytes 8 c.src.toNat ++ toBytes 8 c.count.toNat ++ toBytes 4 c.bytesLanded
        ++ toBytes 3 0 ++ toBytes 1 1
    | none => (List.range 28).map (fun i => Config.freeByte s.tick (k * 32 + i)) ++ toBytes 4 0

/-- SEQSTEP and the state of a group's tile operation. -/
def tileDump (s : State) (g : GId) : List Byte :=
  let x := s.group g
  let st := if x.tile.isNone then 0 else if tilePaused s g then 1 else if !engineRuns s g.core then 2 else 3
  toBytes 8 (seqstepWord x).toNat ++ toBytes 8 st

/-- DEPTH, TTOP and the stacks of a thread. -/
def stackDump (x : Thread) : List Byte :=
  toBytes 8 x.stk.length ++ toBytes 8 x.trl.length ++ x.stk.reverse.flatMap choiceBytes ++ x.trl.reverse.flatMap trailBytes

/-- The binding-directory entries of a core: one for each line with a binding that is not an overflow one. -/
def directoryDump (s : State) (p core : Nat) : List Byte :=
  let bs := (s.threads.filter fun t => t.1.core == core).flatMap fun t =>
    t.2.b.toList.filter fun b => b.bound && !b.ovf
  (dedup (bs.map fun b => b.pa / 128)).flatMap fun l =>
    let on := bs.filter fun b => b.pa / 128 == l
    toBytes 8 (l * 128) ++ toBytes 1 p ++ toBytes 3 0 ++ toBytes 4 on.length
      ++ toBytes 4 (on.filter fun b => b.changed).length ++ toBytes 12 0

/-- The filed records that await an answer. -/
def recordDump (x : Partition) : List Byte :=
  (x.opened.filter fun o => o.2.1.sev != 2).flatMap fun o => toBytes 2 o.1 ++ toBytes 6 0 ++ o.2.1.bytes

/-- A group of the halted scopes, whose tables and windows a virtual address is read through. -/
def haltedGroup (s : State) (d : Debugger) : Option GId :=
  d.halted.findSome? fun h =>
    match h with
    | .group g => if (s.group g).live then some g else none
    | .team l t => (groupsOfTeam s l t).head?
    | .launch l => (groupsOfLaunch s l).head?

/-- A thread by its slot on a core's active bank set. -/
def activeSlot (s : State) (core slot : Nat) : TId := ⟨core, (s.core core).act, slot⟩

/-- What a read call writes, of a kind with a selector; nothing where they name no state. -/
def debugRead (s : State) (p : Nat) (d : Debugger) (kind sel n : Nat) : Option (List Byte) :=
  match kind with
  | 0 =>
    let inside (a : Nat) : Bool :=
      match placeOf a with
      | .window core _ => ownsCore s p core
      | _ => false
    if inside sel && inside (sel + n - 1) then
      some ((List.range n).map fun i =>
        match placeOf (sel + i) with
        | .window core off => debugByte s p core off
        | _ => 0)
    else none
  | 1 =>
    if ownsCore s p (selCore sel) && decide (selSlot sel < 64) then some (accDump s ⟨selCore sel, (s.core (selCore sel)).act, selSlot sel⟩)
    else none
  | 2 => if ownsCore s p sel then some (copyDump s sel) else none
  | 3 =>
    match haltedGroup s d with
    | none => none
    | some g =>
      match reachBytes s (issuerOf s g) .load sel 16 with
      | .ok ps => some (ps.map fun q => (engineByte s q).1)
      | .error _ => none
  | 4 =>
    if ownsCore s p (selCore sel) && decide (selSlot sel < 64) then some (tileDump s ⟨selCore sel, (s.core (selCore sel)).act, selSlot sel⟩)
    else none
  | 5 =>
    if ownsCore s p (selCore sel) && decide (selSlot sel < 1024) then some (stackDump (s.thread (activeSlot s (selCore sel) (selSlot sel))))
    else none
  | 6 => if ownsCore s p sel then some (directoryDump s p sel) else none
  | 7 => some (recordDump (s.part p))
  | _ => none

/-- Call 0x000D. -/
def readCall (p : Nat) (d : Debugger) (c : Call) (s : State) : Option (State × Answer) :=
  if d.halted.isEmpty then refuse s 4
  else if !bufferOk s p (c.get 3) (c.get 4) then refuse s 2
  else
    match debugRead s p d (c.get 1) (c.get 2) (c.get 4) with
    | none => refuse s 2
    | some bs =>
      let out := bs.take (c.get 4)
      some (homeWrite s none (c.get 3) out .wb false none, { status := 0, res := [out.length] })

/-- DEBUGGER_READ. -/
def execDebuggerRead (m : Nat) (s : State) : Result := runCall m 0x000D (onAttachment m readCall) s

/-! ## Writing (R33 to R37, R219) -/

/-- Whether the debugger may write a byte of the on-chip map: R33's conditions with the debugger as an
engine. -/
def debugMayWrite (s : State) (p a : Nat) : Bool :=
  match placeOf a with
  | .window core off =>
    ownsCore s p core && winRegion off != .reserved &&
      (match winRegion off with
        | .groups _ o => !isMapWord o
        | _ => true)
  | _ => false

/-- Bytes copied into the on-chip map; a scratchpad line that they land in becomes present (R36). -/
def debugPut (s : State) (a : Nat) (bs : List Byte) : State :=
  (List.range bs.length).foldl (fun s i =>
    match placeOf (a + i) with
    | .window core off => setPresent (setMemPoison (winWrite s core off (bs.getD i 0)) (a + i) 1 false) (a + i)
    | _ => s) s

/-- Call 0x000E. -/
def writeCall (p : Nat) (d : Debugger) (c : Call) (s : State) : Option (State × Answer) :=
  let n := c.get 3
  if d.halted.isEmpty then refuse s 4
  else if !bufferOk s p (c.get 2) n || !(List.range n).all (fun i => debugMayWrite s p (c.get 1 + i)) then refuse s 2
  else
    let s := snoopReads s (c.get 2) n
    let s := debugPut s (c.get 1) (readBytes s.mem (c.get 2) n)
    let s := retryWaits s fun _ w =>
      match w with
      | .presence l => !s.absent.contains l
      | _ => false
    some (s, { status := 0 })

/-- DEBUGGER_WRITE. -/
def execDebuggerWrite (m : Nat) (s : State) : Result := runCall m 0x000E (onAttachment m writeCall) s

end Sys2Proof.Machine
end

