-- ==== Sys2Proof/Machine/Power.lean ====
section
/-! DEFINITION. Power, health and attestation: SPDM answers (R190 to R193), the boot, telemetry and the
ceilings it moves (R185 to R187, R408 to R413), filler energy (R414), links (R415 to R417), and the gating
of clusters (R418). -/

namespace Sys2Proof.Machine

/-! ## Measured boot and SPDM (R190 to R193) -/

/-- POWER_ON_BOOT: each image is measured before it runs; a failed check stops the boot. -/
def execPowerOnBoot (firmwareOk preleyOk : Bool) (s : State) : Result :=
  if s.boot.started then pass s
  else
    .next { s with boot :=
      { started := true, firmwareOk := firmwareOk, preleyOk := firmwareOk && preleyOk
        m1 := Config.shake256 Config.romIdentity
        m2 := Config.shake256 Config.firmwareImage
        m3 := if firmwareOk then Config.shake256 Config.preleyImage else [] } }

/-- The numbers of the enabled partitions. -/
def enabledParts (s : State) : List Nat := (List.range 20).filter fun p => (s.part p).state == 1

/-- The device configuration: memory, links, and the enabled partitions' numbers (R191). -/
def configWords (s : State) : List (List Nat) :=
  [s.device.hdmSize :: s.device.secondTier.flatMap fun r => [r.1, r.2], s.device.hostPorts
   , s.device.peerIdentity.flatMap fun r => [r.1, r.2.toNat], enabledParts s]

/-- A measurement by its index, where the port may see it (R191, R193). -/
def measurement (s : State) (port i : Nat) : Option (List Byte) :=
  if i = 1 then some s.boot.m1
  else if i = 2 then some s.boot.m2
  else if i = 3 then some s.boot.m3
  else if i = 4 then some (Config.shake256 (Config.deviceConfig (configWords s)))
  else if 16 ≤ i && decide (i < 36) then
    let x := s.part (i - 16)
    if x.hostports.getLsbD port then x.measured else none
  else none

/-- Every index a port may see, or the one it asks for. -/
def measurements (s : State) (port : Nat) (index : Option Nat) : List (Nat × List Byte) :=
  let is := match index with
    | some i => [i]
    | none => [1, 2, 3, 4] ++ (List.range 20).map (16 + ·)
  is.filterMap fun i => (measurement s port i).map fun d => (i, d)

/-- An SPDM answer at a host port: its contents are DMTF's standard's. -/
def spdmAnswer (port req : Nat) (extra : List Byte) (s : State) : Result :=
  if s.device.hostPorts.contains port then .next (s.emit (.spdm port (Config.spdmBody req port ++ extra)))
  else pass s

/-- The versions that are answered: 1.2 and 1.3. -/
def spdmVersions : List Byte := [0x12, 0x13]
/-- The algorithms that are offered, by the codes of DMTF's standard: BaseAsymAlgo EdDSA Ed448, bit 10, and
BaseHashAlgo SHA3-512, bit 5, alone (R192) (PRESUMED, log 89). -/
def spdmAlgorithms : List Byte := toBytes 4 0x400 ++ toBytes 4 0x20

def execGetVersion (port : Nat) (s : State) : Result := spdmAnswer port 0 spdmVersions s
def execGetCapabilities (port : Nat) (s : State) : Result := spdmAnswer port 1 [] s
def execNegotiateAlgorithms (port : Nat) (s : State) : Result := spdmAnswer port 2 spdmAlgorithms s
/-- GET_DIGESTS: the mask of the slots that hold a chain, slot 0 alone, and its digest. -/
def execGetDigests (port : Nat) (s : State) : Result := spdmAnswer port 3 (1 :: Config.sha3 Config.certChain) s
/-- GET_CERTIFICATE: the chain stands in slot 0; what another slot answers is the standard's. -/
def execGetCertificate (port slot : Nat) (s : State) : Result :=
  spdmAnswer port (16 + slot) (if slot = 0 then Config.certChain else []) s
/-- CHALLENGE: signed with the device identity key. -/
def execChallenge (port : Nat) (nonce : Nat) (s : State) : Result :=
  spdmAnswer port 4 (Config.deviceSign (Config.spdmBody 4 port ++ toBytes 32 nonce)) s
/-- GET_MEASUREMENTS: indices 1 to 4, and those of the partitions that name the port. -/
def execGetMeasurements (port : Nat) (index : Option Nat) (s : State) : Result :=
  spdmAnswer port 5 ((measurements s port index).flatMap fun m => toBytes 1 m.1 ++ m.2) s
/-- SPDM_UNSUPPORTED_REQUEST. -/
def execSpdmUnsupportedRequest (port code : Nat) (s : State) : Result :=
  if s.device.hostPorts.contains port then .next (s.emit (.spdmError port code)) else pass s

/-! ## Health records (R417) -/

/-- A health record in the log, where EN is 1. Its time, and whether the record it overwrites has been
read, are outside the model (DESIGN CHOICE, log 64). -/
def healthRecord (s : State) (kind : Nat) (set : Bool) (index : Nat) : State :=
  let h := s.health
  if h.hlbase % 2 = 1 then
    let a := bitsOf h.hlbase 51 12 * 4096 + h.hlprod % 4096 * 16
    let bytes := toBytes 1 kind ++ toBytes 1 (bit set 0) ++ toBytes 1 index ++ toBytes 5 0
      ++ toBytes 8 (Config.freeWord64 s.tick (61000 + kind * 256 + index)).toNat
    let lost := 4096 ≤ h.hlprod && Config.freeBit s.tick (62000 + kind * 256 + index)
    let s := homeWrite s none a bytes .wb false none
    let s := { s with health := { h with hlprod := h.hlprod + 1, hllost := h.hllost + (if lost then 1 else 0) } }
    s.device.hostPorts.foldl (fun s k => s.raise k h.hevec) s
  else s

/-- A record where a condition has changed. -/
def recordChange (s : State) (kind index : Nat) (old new : Bool) : State :=
  if old == new then s else healthRecord s kind new index

/-! ## Meters and ceilings (R185 to R187) -/

/-- A partition's sample: METER, OVER and its ceiling. `mw` is the mean power without filler energy. -/
def meterPart (x : Partition) (mw : Nat) : Partition :=
  let m := mw + x.fill / 10
  let allot := x.allot * 1000
  let x := { x with meter := m, fill := 0 }
  if allot < m then
    if x.ceiling = 0 then { x with overrun := true } else { x with ceiling := x.ceiling - 1 }
  else if m * 100 < allot * 95 && decide (x.ceiling < 23) then { x with overrun := false, ceiling := x.ceiling + 1 }
  else { x with overrun := false }

/-- The samples of the partitions, whatever their STATE (R185). -/
def sampleMeters (s : State) (ms : List (Nat × Nat)) : State :=
  ms.foldl (fun s m => if m.1 < 20 then s.modPart m.1 fun x => meterPart x m.2 else s) s

/-- The clusters of a die. -/
def dieClusters (d : Nat) : List Nat := (List.range 20).map fun i => d * 20 + i

/-- The partition among some with the largest, or the smallest, fraction of its ALLOT; ties go to the lower
number. -/
def pickFraction (s : State) (largest : Bool) : List Nat → Option Nat
  | [] => none
  | p :: ps =>
    match pickFraction s largest ps with
    | none => some p
    | some q =>
      let a := (s.part p).meter * (s.part q).allot
      let b := (s.part q).meter * (s.part p).allot
      if (largest && decide (a < b)) || (!largest && decide (b < a)) then some q else some p

/-- The partitions with a cluster on a die whose boiling-limit ceiling can move. -/
def movable (s : State) (d : Nat) (down : Bool) : List Nat :=
  (List.range 20).filter fun p => (dieClusters d).any fun n =>
    (s.cluster n).owner == some p && (if down then decide (0 < (s.cluster n).boil) else decide ((s.cluster n).boil < 23))

/-- The boiling-limit ceiling of a partition's clusters on a die one step down or up. -/
def moveBoil (s : State) (d : Nat) (down : Bool) : State :=
  match pickFraction s down (movable s d down) with
  | none => s
  | some p =>
    (dieClusters d).foldl (fun s n =>
      if (s.cluster n).owner == some p then
        s.modCluster n fun c => { c with boil := if down then c.boil - 1 else Nat.min 23 (c.boil + 1) }
      else s) s

/-- DIECAP and TSAT + SUPER as they act (R409). -/
def Die.capMw (x : Die) : Nat := (if x.cap = 0 then 900 else Nat.min x.cap 900) * 1000
def Die.limit (x : Die) : Nat := x.tsat + x.super * 10

/-- A die's sample (R411, R412). -/
def sampleDie (s : State) (d : Nat) (r : DieReading) : State :=
  let x := s.die d
  let hot := decide (x.capMw < r.power) || decide (x.limit < r.tmax)
  let cool := decide (r.power * 100 < x.capMw * 95) && decide (r.tmax + 50 ≤ x.limit)
  let tripped := decide (1150 ≤ r.tmax)
  let trip := tripped || (x.trip && !cool)
  let s := s.setDie d { x with power := r.power, tmax := r.tmax, hotcl := r.hotcl, hot := hot, trip := trip }
  let s := if tripped then (dieClusters d).foldl (fun s n => s.modCluster n fun c => { c with boil := 0 }) s
    else if hot then moveBoil s d true
    else if cool then moveBoil s d false
    else s
  recordChange (recordChange s 1 d x.hot hot) 2 d x.trip trip

/-- The input voltage of a stage word in mV (R410). -/
def inputMv (x : W64) : Nat := x.toNat % 2 ^ 16

/-- The low-input condition (R413) (DESIGN CHOICE, log 80). -/
def sampleInput (s : State) (x : W64) : State :=
  let old := s.health.lowInput
  let low := decide (inputMv x < 44000) || (old && decide (inputMv x < 46000))
  recordChange { s with health := { s.health with input := x, lowInput := low } } 3
    ((Config.freeWord s.tick 60006).toNat % 256) old low

/-- Every cluster looks at its level again. -/
def relevelAll (s : State) : State := (List.range 80).foldl relevel s

/-- TELEMETRY_SAMPLE (R408). -/
def execTelemetrySample (r : Readings) (s : State) : Result :=
  let s := { s with health := { s.health with
    st1 := s.health.st1.mapIdx fun i x => r.stage1.getD i x
    st2 := s.health.st2.mapIdx fun i x => r.stage2.getD i x } }
  let s := r.clusters.foldl (fun s c =>
    s.modCluster c.1 fun x => { x with temp := c.2.1, volt := c.2.2.1, process := c.2.2.2 }) s
  let s := sampleMeters (sampleInput s r.input) r.meters
  let s := (r.dies.zipIdx.filter fun d => decide (d.2 < 4)).foldl (fun s d => sampleDie s d.2 d.1) s
  .next (relevelAll s)

/-- POWER_FAIL (R413): below 40 V the package stops and resets (DEDUCED, log 67). -/
def execPowerFail (millivolts : Nat) (s : State) : Result :=
  if millivolts < 40000 then
    .next { State.reset with device := s.device, agenda := s.agenda, plan := s.plan, fresh := s.fresh, tick := s.tick }
  else pass s

/-- FREQUENCY_SETTLE (R331, R407): the level that a cluster changes to is the one it runs. -/
def execFrequencySettle (cluster : Nat) (s : State) : Result :=
  match (s.cluster cluster).settling with
  | some l => .next (s.modCluster cluster fun c => { c with level := l, settling := none })
  | none => pass s

/-! ## Filler energy (R414) -/

/-- A share of filler energy, in a die's FILLMJ and in the sample of the partition it is charged to. That of a partition
which has been disabled counts in the die's power only, in neither (R414). -/
def chargeShare (s : State) (die part : Nat) : Option Nat → State
  | some p =>
    if (s.part p).state = 0 then s
    else (s.modDie die fun x => { x with fill := x.fill + part }).modPart p fun x => { x with fill := x.fill + part }
  | none => s.modDie die fun x => { x with fill := x.fill + part }

/-- The energy of the fillers of a die charged among its clusters, in shares that the manual does not give:
each to the partition that last issued matrix work there (DESIGN CHOICE, log 66). -/
def chargeFill (die : Nat) : List Nat → Nat → State → State
  | [], _, s => s
  | n :: ns, e, s =>
    let part := if ns.isEmpty then e else Nat.min e (Config.freeNat s.tick (63000 + n))
    chargeFill die ns (e - part) (chargeShare s die part (s.cluster n).lastMatrix)

/-- CURRENT_SLOPE_FILL: the current of a die falls at SLOPE; half the drop, for the drop over SLOPE, at
1.8 V. -/
def execCurrentSlopeFill (die fromAmp toAmp : Nat) (s : State) : Result :=
  if die < 4 && decide (toAmp < fromAmp) then
    let slope := if (s.die die).slope = 0 then 40 else (s.die die).slope
    let e := (fromAmp - toAmp) * (fromAmp - toAmp) * 900 / slope
    .next (chargeFill die (dieClusters die) e s)
  else pass s

/-! ## Links (R415 to R417) -/

/-- One link's 1 ms window (R416). -/
def windowLink (x : Link) (r : LinkReading) : Link :=
  let low := decide (r.eye < x.eyeth)
  let overrun := decide (x.corrth < x.count)
  let lowEye := if low then x.lowEye + 1 else 0
  let good := if low || overrun then 0 else x.good + 1
  { x with eye := r.eye, wlane := r.wlane, corr := x.count, count := 0, lowEye := lowEye, good := good
           degraded := decide (3 ≤ lowEye) || overrun || (x.degraded && decide (good < 100)) }

/-- LINK_HEALTH_WINDOW (DEDUCED, log 65). -/
def execLinkHealthWindow (links : List LinkReading) (s : State) : Result :=
  .next ((links.filter fun r => decide (r.port < 28)).foldl (fun s r =>
    let x := s.link r.port
    let y := windowLink x r
    recordChange (s.setLink r.port y) 4 r.port x.degraded y.degraded) s)

/-- The address of a peer window that an outstanding result waits for. -/
def peerWait (s : State) (t : TId) (o : Out) : Option Nat :=
  let dead (pa : Nat) : Bool := peerDown s ((partOfCore s t.core).getD 0) pa
  match o.val with
  | .load pa _ _ _ => if dead pa then some pa else none
  | .hypLoad blocks => (blocks.map Prod.fst).find? dead
  | .known _ _ | .words _ | .hyp _ _ | .joint => none

/-- Requests under way for peers that no port reaches any more file their records and are held (R402). -/
def holdPeers (s : State) : State :=
  s.threads.foldl (fun s q => q.2.outs.foldl (fun s o =>
    match peerWait s q.1 o, partOfCore s q.1.core with
    | some pa, some p =>
      if recordHolds s p (.outload o.id) then s
      else
        let r := { threadRec s q.1 { kind := kTIMEOUT, va := o.va, ipa := o.ipa, pa := pa } with pc := o.pc.toNat }
        (fileRec s p r (.outload o.id)).1
    | _, _ => s) s) s

/-- LINK_DOWN (R402, R416). -/
def execLinkDown (port : Nat) (s : State) : Result :=
  if port < 28 && !(s.link port).down then
    .next (holdPeers (healthRecord (s.setLink port { s.link port with down := true }) 5 true port))
  else pass s

/-- LINK_TRAINED. -/
def execLinkTrained (port : Nat) (s : State) : Result :=
  if port < 28 && (s.link port).down then
    .next (healthRecord (s.setLink port { s.link port with down := false }) 5 false port)
  else pass s

/-- LINK_LEVEL_REPLAY (R400): flits that the link has corrected. -/
def execLinkLevelReplay (port flits : Nat) (s : State) : Result :=
  if port < 28 then .next (s.setLink port { s.link port with count := (s.link port).count + flits })
  else pass s

/-! ## Gating a cluster (R418) -/

/-- Whether a core holds a context, active or in the Summerhouse, engine work, a swap or spawn records. -/
def coreHolds (s : State) (core : Nat) : Bool :=
  s.groups.any (fun g => g.1.core == core && g.2.live) || s.ctxs.any (fun c => c.2.core == core)
    || (s.core core).swap.isSome || !(s.core core).copies.isEmpty || !(s.core core).bins.isEmpty

/-- The lines of which a core's L1 copies hold dirty bytes. -/
def dirtyLines (s : State) (core : Nat) : List Nat := dedup (((s.core core).smL1.filter fun e => e.2.2).map fun e => e.1 / 128)
/-- Dirty SM lines of a core go home as `wbr` sends them; stores that have left no trace there go too. -/
def flushCore (s : State) (core : Nat) : State :=
  let ts := (s.threads.filter fun t => t.1.core == core).map Prod.fst
  let s := ts.foldl publishAll s
  (dirtyLines s core).foldl (fun s l => smWriteBack s core l) s
/-- Whether write-backs of a core wait for a peer that no port reaches (R402). -/
def flushWaits (s : State) (core : Nat) : Bool := (dirtyLines s core).any (smWaits s core)

/-- CLUSTER_GATE: dirty bytes go home, and everything but the Glasshouse is lost (DEDUCED, log 68). -/
def execClusterGate (n : Nat) (s : State) : Result :=
  if n < 80 && !(s.cluster n).gated && !coreHolds s (2 * n) && !coreHolds s (2 * n + 1)
      && !flushWaits s (2 * n) && !flushWaits s (2 * n + 1) then
    let x := s.cluster n
    let s := resetCluster (flushCore (flushCore s (2 * n)) (2 * n + 1)) n
    .next (s.modCluster n fun y =>
      { y with owner := x.owner, entries := x.entries, entryPoison := x.entryPoison, heldReqs := x.heldReqs
               lastMatrix := x.lastMatrix })
  else pass s

/-- Whether Pergola has a placement for a cluster. -/
def placementWaits (s : State) (n : Nat) : Bool :=
  s.launches.any fun l =>
    teamWaits s l.2 && (aheadOf s l.1).all (fun a => (placement s a).isNone) &&
      ((placement s l.1).map fun r => r.1 / 2) == some n

/-- The events of a node, of which its kind has one. -/
def nodeMoves (gid n : Nat) : List Move :=
  [.event (.tileCopyNode gid n), .event (.conditionalNode gid n), .event (.whileNode gid n), .event (.eventWaitNode gid n)
   , .event (.hostSignalNode gid n)]

/-- The move that serves a held request. -/
def serveMove : Requester → List Move
  | .copy core cmd chunk => [.event (.copyChunkLand core cmd chunk)]
  | .tile g => [.event (.tileSequencerStep g)]
  | .thread t => [.replay ⟨t.core, t.bank, [t.slot]⟩]
  | .portion (t :: ts) => [.replay ⟨t.core, t.bank, (t :: ts).map TId.slot⟩]
  | .completion gid => [.event (.graphComplete gid)]
  | .node gid n => nodeMoves gid n
  | .portion [] | .matrix _ _ | .spill _ _ _ | .outload _ | .walkers _ | .none => []

/-- A held request is free to be performed; a completion record is due. -/
def freeHeld (s : State) (who : Requester) : State :=
  match who with
  | .copy core cmd chunk =>
    s.modCore core fun x =>
      { x with copies := x.copies.map fun c =>
          if c.1 = cmd then (c.1, { c.2 with held := c.2.held.filter (· != chunk) }) else c }
  | .tile g => s.modGroup g fun x => { x with tile := x.tile.map fun o => { o with held := false } }
  | .completion gid => s.modGraph gid fun g => { g with due := true }
  | .thread _ | .portion _ | .matrix _ _ | .node _ _ | .spill _ _ _ | .outload _ | .walkers _ | .none => s

/-- CLUSTER_WAKE: for a held request or a placement; the held requests are served in arrival order, and the end of a
thread's wait is a waking event of its core (R155). -/
def execClusterWake (n : Nat) (s : State) : Result :=
  let x := s.cluster n
  if x.gated && x.owner.isSome && (!x.heldReqs.isEmpty || placementWaits s n) then
    let on (w : Wait) : Bool := w == .remote n true || w == .remote n false
    let woken := dedup ((s.threads.filter fun p => on p.2.wait).map fun p => p.1.core)
    let s := s.setCluster n { x with gated := false, heldReqs := [] }
    let s := woken.foldl wakeCore (retryWaits s fun _ w => on w)
    let s := x.heldReqs.foldl (fun s h => freeHeld s h.who) s
    .next { s with agenda := (x.heldReqs.flatMap fun h => serveMove h.who) ++ s.agenda }
  else pass s

end Sys2Proof.Machine
end

