-- ==== Sys2Proof/Machine/Registers.lean ====
section
/-! DEFINITION. Writes of management registers (R5, R58, R167, R189, R201, R216, R403, R406, R409): what
each field takes, from whom, and when. A reserved or read-only field keeps its value, and a write is one
8-byte word at an aligned address. -/

namespace Sys2Proof.Machine

/-- Whether an agent is a service core: Preley runs on one. -/
def Agent.isService : Agent → Bool
  | .service | .preley => true
  | .host _ | .other => false

/-! ## Partition descriptors (R167) -/

/-- A RANGE word. -/
def writeRange (x : Partition) (off v : Nat) : Partition :=
  let k := (off - 0x40) / 16
  let base := bitsOf v 51 12 * 4096
  let one (r : Range) : Range := if off % 16 = 0 then { r with en := v % 2 == 1, base := base } else { r with limit := base }
  { x with ranges := x.ranges.set! k (one (x.ranges.getD k {})) }

/-- STATE written with 1: a partition becomes enabled as by the call, where R168 and R190 let it, and one that halted
without having been measured too; a halted one that was enabled goes on. -/
def writeEnable (s : State) (p : Nat) : State :=
  let x := s.part p
  if x.state = 1 then s
  else if x.state = 2 && x.measured.isSome then
    if bootOk s && grantFits s p then s.modPart p fun x => { x with state := 1 } else s
  else if bootOk s && grantFree s x && grantFits s p then startPart s p
  else s

/-- STATE written: 3 is ignored. 0 disables the partition: requests held for its gated clusters fault (R419), and its
clusters are released at once where none of its contexts stands, else by the call; a disabled one has no measurement
(R193). 2 halts it (R202) (DEDUCED, log 69). -/
def writeState (s : State) (p v : Nat) : State :=
  match v % 4 with
  | 0 =>
    if (s.part p).state = 0 then s
    else if partBusy s p then (remoteOff s p).modPart p fun x => { x with state := 0, measured := none }
    else stopPart s p
  | 1 => writeEnable s p
  | 2 => if (s.part p).state = 1 then haltPart s p else s.modPart p fun x => { x with state := 2 }
  | _ => s

/-- A descriptor word other than STATE, written while the partition is disabled. -/
def writeDescriptor (x : Partition) (off v : Nat) : Partition :=
  if x.state != 0 then x
  else if off = 8 then
    { x with clusters := BitVec.ofNat 80 (x.clusters.toNat / 2 ^ 64 * 2 ^ 64 + v % 2 ^ 64) }
  else if off = 0x10 then
    { x with clusters := BitVec.ofNat 80 (v % 2 ^ 16 * 2 ^ 64 + x.clusters.toNat % 2 ^ 64) }
  else if off = 0x18 then { x with s2root := bitsOf v 51 12 * 4096 }
  else if off = 0x20 then { x with allot := v % 2 ^ 16 }
  else if off = 0x30 then { x with hostports := BitVec.ofNat 16 v }
  else if 0x40 ≤ off && decide (off < 0x140) then writeRange x off v
  else x

/-! ## The trap queue (R201, R203) -/

/-- RESUME. -/
def writeResume (p v : Nat) (s : State) : Result :=
  let h := v % 4096
  match bitsOf v 17 16 with
  | 0 => execResumeReplay p h s
  | 1 => execResumeEndLaunch p h s
  | 2 => execResumeHandToThread p h s
  | _ => execResumeActionIgnored p h s

/-- A trap-queue word of a partition. -/
def writeTrapQueue (p off v : Nat) (s : State) : Result :=
  if off = 0 then
    .next (s.modPart p fun x => if x.state = 0 then { x with tqbase := bitsOf v 51 18 * 2 ^ 18, tqen := v % 2 == 1 } else x)
  else if off = 0x10 then execTqconsWrite p (v % 2 ^ 32) s
  else if off = 0x18 then writeResume p v s
  else .next s

/-! ## Mailboxes (R403, R406) -/

/-- A PROD write: ignored while EN is 0 or more than the ring's length beyond DONE. -/
def writeProd (x : Mailbox) (v : Nat) : Mailbox :=
  let n := v % 2 ^ 32
  if x.en && decide ((n + 2 ^ 32 - x.done) % 2 ^ 32 ≤ 2 ^ x.logn) then { x with prod := n } else x

/-- A mailbox word: hosts write PROD and MSIX, service cores the configuration too. -/
def writeMailbox (x : Mailbox) (service : Bool) (off v : Nat) : Mailbox :=
  if off = 8 then writeProd x v
  else if off = 0x18 then { x with msix := v % 2 ^ 16 }
  else if !service then x
  else if off = 0 then { x with base := bitsOf v 51 12 * 4096, en := v / 2 ^ 8 % 2 == 1, logn := v % 32 }
  else if off = 0x20 then { x with parts := BitVec.ofNat 20 v }
  else if off = 0x28 then { x with port := v % 16 }
  else x

/-! ## The health block (R409, R415) -/

/-- A word of a die's block. -/
def writeDie (x : Die) (off v : Nat) : Die :=
  if off = 0 then { x with cap := if v % 1024 = 0 then 900 else v % 1024 }
  else if off = 8 then { x with slope := if v % 256 = 0 then 40 else v % 256 }
  else if off = 0x10 then { x with tsat := v % 4096, super := bitsOf v 23 16 }
  else x

/-- A word of a link entry. -/
def writeLink (x : Link) (off v : Nat) : Link :=
  if off = 0x10 then { x with eyeth := v % 256, corrth := bitsOf v 63 32 } else x

/-- A word of the health block. -/
def writeHealth (off v : Nat) (s : State) : State :=
  if 0x100 ≤ off && decide (off < 0x200) then s.modDie ((off - 0x100) / 0x40) fun x => writeDie x (off % 0x40) v
  else if 0x500 ≤ off && decide (off < 0x880) then
    let m := (off - 0x500) / 0x20
    s.setLink m (writeLink (s.link m) (off % 0x20) v)
  else if off = 0x880 then { s with health := { s.health with hlbase := bitsOf v 51 12 * 4096 + v % 2 } }
  else if off = 0x890 then { s with health := { s.health with hevec := v % 2 ^ 16 } }
  else s

/-! ## The map -/

/-- The blocks of the management range. -/
inductive Block where
  | descriptor (p off : Nat)
  | trapQueue (p off : Nat)
  | summerhouse (core off : Nat)
  | mailbox (m off : Nat)
  | health (off : Nat)
  | counters (p off : Nat)
  | other
  deriving DecidableEq, Repr

/-- The block of a physical address. -/
def blockOf (pa : Nat) : Block :=
  let o := pa - 0xE000000000000
  if pa < 0xE000000000000 then .other
  else if 0x100000 ≤ o && decide (o < 0x114000) then .descriptor ((o - 0x100000) / 0x1000) (o % 0x1000)
  else if 0x120000 ≤ o && decide (o < 0x121400) then .trapQueue ((o - 0x120000) / 0x100) (o % 0x100)
  else if 0x130000 ≤ o && decide (o < 0x132800) then .summerhouse ((o - 0x130000) / 0x40) (o % 0x40)
  else if 0x140000 ≤ o && decide (o < 0x140800) then .mailbox ((o - 0x140000) / 0x40) (o % 0x40)
  else if 0x160000 ≤ o && decide (o < 0x161000) then .health (o % 0x1000)
  else if 0x170000 ≤ o && decide (o < 0x171400) then .counters ((o - 0x170000) / 0x100) (o % 0x100)
  else .other

/-- Whether an agent's write of a mailbox reaches it: a service core's, or a host's on the port that MBPORT
names. -/
def reachesMailbox (a : Agent) (x : Mailbox) : Bool :=
  match a with
  | .service | .preley => true
  | .host k => k == x.port
  | .other => false

/-- A write that is refused: a partition violation (R167), recorded in a partition that is enabled, the manual naming
none, and a host is answered with an error (DESIGN CHOICE, log 97). -/
def refusedWrite (s : State) (a : Agent) (pa : Nat) : State :=
  let s := match pickOne s 60008 (enabledParts s) with
    | none => s
    | some p =>
      (fileRec s p { kind := kPARTVIOL, sev := 1, access := Access.code .store, req := 4, tti := 0xFFFFFFFF, pa := pa } .none).1
  match a with
  | .host k => s.emit (.hostError k pa)
  | .service | .preley | .other => s

/-- REGISTER_WRITE. What no register takes changes nothing; an address in the device range at which the
manual describes no register is a device's own (DEDUCED, log 69). -/
def execRegisterWrite (agent : Agent) (pa : Nat) (value : W64) (s : State) : Result :=
  let v := value.toNat
  match blockOf pa with
  | .descriptor p off =>
    .next (if !Agent.isService agent then refusedWrite s agent pa
      else if off = 0 then writeState s p v
      else s.modPart p fun x => writeDescriptor x off v)
  | .trapQueue p off => if Agent.isService agent then writeTrapQueue p off v s else .next (refusedWrite s agent pa)
  | .summerhouse _ _ => .next (if Agent.isService agent then s else refusedWrite s agent pa)
  | .counters _ _ => .next s
  | .mailbox m off =>
    .next (if reachesMailbox agent (s.mailbox m) then s.setMailbox m (writeMailbox (s.mailbox m) (Agent.isService agent) off v)
      else refusedWrite s agent pa)
  | .health off => .next (if Agent.isService agent then writeHealth off v s else refusedWrite s agent pa)
  | .other =>
    match doorbellAt s pa with
    | some (id, q) => .next (writeDoorbell s id q value)
    | none => .next s

/-! ## What the registers read as -/

/-- A word of a partition's descriptor (R167). -/
def descriptorWord (x : Partition) (off : Nat) : Nat :=
  if off = 0 then x.state
  else if off = 8 then x.clusters.toNat % 2 ^ 64
  else if off = 0x10 then x.clusters.toNat / 2 ^ 64
  else if off = 0x18 then x.s2root
  else if off = 0x20 then x.allot
  else if off = 0x28 then x.meter % 2 ^ 32 + bit x.overrun 32
  else if off = 0x30 then x.hostports.toNat
  else if 0x40 ≤ off && decide (off < 0x140) then
    let r := x.ranges.getD ((off - 0x40) / 16) {}
    if off % 16 = 0 then r.base + bit r.en 0 else r.limit
  else 0

/-- A word of a partition's trap-queue registers (R201): HOLDING and the number of requesters that wait stand in
TQSTAT, and RESUME reads as zero. -/
def trapQueueWord (x : Partition) (off : Nat) : Nat :=
  if off = 0 then x.tqbase + bit x.tqen 0
  else if off = 8 then x.tqprod % 2 ^ 32
  else if off = 0x10 then x.tqcons % 2 ^ 32
  else if off = 0x20 then bit (!x.waiting.isEmpty) 0 + bit x.fxv 1 + x.waiting.length % 2 ^ 16 * 2 ^ 32
  else if 0x40 ≤ off && decide (off < 0x80) then ofBytes ((x.fatalx.drop (off - 0x40)).take 8)
  else 0

/-- The banks of a bank set that any context owns. -/
def ownedBanks (s : State) (core bank : Nat) : Nat :=
  ((List.range 16).filter fun k => (s.groups ++ spilledGroups s).any fun p =>
    p.1.core == core && p.1.bank == bank && p.2.live && (groupBanks p.1 p.2).contains k && !bankSpilled s p.2.ctx k).foldl (fun acc k => acc + 2 ^ k) 0

/-- A word of a core's Summerhouse state (R216). -/
def summerhouseWord (s : State) (core off : Nat) : Nat :=
  let c := s.core core
  let ctxIn (bank : Nat) : Nat := ((ctxsOf s core fun x => x.bank == bank).head?.map (saveBase s)).getD 0
  if off = 0 then
    c.act % 2 + bit (!(displacedBanks s core (1 - c.act)).isEmpty) 1 + bit c.swap.isSome 2
  else if off = 8 then ownedBanks s core 0 + ownedBanks s core 1 * 2 ^ 16
  else if off = 0x10 then ctxIn 0
  else if off = 0x18 then ctxIn 1
  else 0

/-- A word of a mailbox (R403). -/
def mailboxWord (x : Mailbox) (off : Nat) : Nat :=
  if off = 0 then x.base + bit x.en 8 + x.logn
  else if off = 8 then x.prod
  else if off = 0x10 then x.done
  else if off = 0x18 then x.msix
  else if off = 0x20 then x.parts.toNat
  else if off = 0x28 then x.port
  else 0

/-- A word of a die's block, of a cluster and of a link (R409, R410, R415). -/
def dieWord (x : Die) (off : Nat) : Nat :=
  if off = 0 then x.cap
  else if off = 8 then x.slope
  else if off = 0x10 then x.tsat + x.super * 2 ^ 16
  else if off = 0x18 then x.power % 2 ^ 32 + bit x.hot 32 + bit x.trip 33 + x.hotcl % 32 * 2 ^ 40
  else if off = 0x20 then x.tmax % 2 ^ 12
  else if off = 0x28 then x.fill / 10 ^ 6
  else if off = 0x30 then x.sece % 2 ^ 32 + x.seue % 2 ^ 32 * 2 ^ 32
  else 0
def clusterWord (x : Cluster) : Nat :=
  x.temp % 2 ^ 12 + x.volt % 2 ^ 12 * 2 ^ 16 + x.process % 2 ^ 8 * 2 ^ 32 + x.level % 32 * 2 ^ 40 + bit x.gated 48
def linkWord (x : Link) (off : Nat) : Nat :=
  if off = 0 then x.eye % 2 ^ 8 + x.wlane % 32 * 2 ^ 8
  else if off = 8 then x.corr % 2 ^ 32 + x.hdmerr % 2 ^ 32 * 2 ^ 32
  else if off = 0x10 then x.eyeth + x.corrth * 2 ^ 32
  else bit x.degraded 0 + bit x.down 1

/-- A word of the health block (R409); bits 63:48 of a stage word are reserved (R410). -/
def healthWord (s : State) (off : Nat) : Nat :=
  let h := s.health
  if off = 0 then h.input.toNat % 2 ^ 48
  else if off < 0x28 then (h.st1.getD ((off - 8) / 8) 0).toNat % 2 ^ 48
  else if off < 0x58 then (h.st2.getD ((off - 0x28) / 8) 0).toNat % 2 ^ 48
  else if 0x100 ≤ off && decide (off < 0x200) then dieWord (s.die ((off - 0x100) / 0x40)) (off % 0x40)
  else if 0x200 ≤ off && decide (off < 0x480) then clusterWord (s.cluster ((off - 0x200) / 8))
  else if 0x500 ≤ off && decide (off < 0x880) then linkWord (s.link ((off - 0x500) / 0x20)) (off % 0x20)
  else if off = 0x880 then h.hlbase
  else if off = 0x888 then h.hlprod % 2 ^ 32 + h.hllost % 2 ^ 32 * 2 ^ 32
  else if off = 0x890 then h.hevec
  else 0

/-- Before a performance counter at its offset in a partition's block is read: it stands at a value that it held after
every event before the read (R189). -/
def counterRead (s : State) (p off : Nat) : State := if off < 0x80 then advancePmc s p (off / 8) else s
/-- A performance counter at its offset in a partition's block (R189). -/
def counterWord (s : State) (p off : Nat) : Nat := if off < 0x80 then ((s.pmc p).getD (off / 8) 0).toNat else 0

/-- Before a word of the management range is read. -/
def registerRead (s : State) (pa : Nat) : State :=
  match blockOf pa with
  | .counters p off => counterRead s p off
  | _ => s
/-- The word that an aligned address of the management range holds for a service core's read, reserved bits being zero
(R5, R167, R189, R201, R216, R403, R409). -/
def registerWord (s : State) (pa : Nat) : Nat :=
  match blockOf pa with
  | .descriptor p off => descriptorWord (s.part p) off
  | .trapQueue p off => trapQueueWord (s.part p) off
  | .summerhouse core off => summerhouseWord s core off
  | .mailbox m off => mailboxWord (s.mailbox m) off
  | .health off => healthWord s off
  | .counters p off => counterWord s p off
  | .other => ofBytes ((List.range 8).map fun i => deviceByte s (pa + i))

/-- The mailbox registers that BAR0 of a host port maps: those of mailboxes whose MBPORT names the port, at the offsets
they have from the first (R403) (DESIGN CHOICE, log 97). -/
def barMailbox (s : State) (port off : Nat) : Nat :=
  let x := s.mailbox (off / 0x40)
  if x.port = port then mailboxWord x (off % 0x40) else 0

/-- The word at an offset of BAR0 of a host port: the mailboxes, the health block, and the counter blocks of the partitions
whose HOSTPORTS name the port, which read as zero otherwise (R189, R403, R409). -/
def barWord (s : State) (port off : Nat) : Nat :=
  if off < 0x800 then barMailbox s port off
  else if 0x10000 ≤ off && decide (off < 0x11000) then healthWord s (off - 0x10000)
  else if 0x20000 ≤ off && decide (off < 0x21400) then
    let p := (off - 0x20000) / 0x100
    if (s.part p).hostports.getLsbD port then counterWord s p (off % 0x100) else 0
  else 0
/-- Before a word of BAR0 is read. -/
def barRead (s : State) (port off : Nat) : State :=
  if 0x20000 ≤ off && decide (off < 0x21400) then
    let p := (off - 0x20000) / 0x100
    if (s.part p).hostports.getLsbD port then counterRead s p (off % 0x100) else s
  else s

end Sys2Proof.Machine
end

