-- ==== Sys2Proof/Machine/Dispatch.lean ====
section
/-! DEFINITION. The meaning of every instruction: one direct call for each constructor. -/

namespace Sys2Proof.Machine

def exec (i : Instr) (s : State) : Host.Outcome State Fault Refusal :=
  match i with
  | .add d a b ty => Sys2Proof.Machine.execAdd d a b ty s
  | .sub d a b ty => Sys2Proof.Machine.execSub d a b ty s
  | .mul d a b ty => Sys2Proof.Machine.execMul d a b ty s
  | .mulhi d a b ty => Sys2Proof.Machine.execMulhi d a b ty s
  | .min d a b ty => Sys2Proof.Machine.execMin d a b ty s
  | .max d a b ty => Sys2Proof.Machine.execMax d a b ty s
  | .shl d a b ty => Sys2Proof.Machine.execShl d a b ty s
  | .shr d a b ty => Sys2Proof.Machine.execShr d a b ty s
  | .sar d a b ty => Sys2Proof.Machine.execSar d a b ty s
  | .rot d a b ty => Sys2Proof.Machine.execRot d a b ty s
  | .shlCount d a n ty => Sys2Proof.Machine.execShlCount d a n ty s
  | .shrCount d a n ty => Sys2Proof.Machine.execShrCount d a n ty s
  | .sarCount d a n ty => Sys2Proof.Machine.execSarCount d a n ty s
  | .rotCount d a n ty => Sys2Proof.Machine.execRotCount d a n ty s
  | .div d a b ty la => Sys2Proof.Machine.execDiv d a b ty la s
  | .rem d a b ty la => Sys2Proof.Machine.execRem d a b ty la s
  | .mad d a b c ty => Sys2Proof.Machine.execMad d a b c ty s
  | .tri d a b tt => Sys2Proof.Machine.execTri d a b tt s
  | .addi d a imm => Sys2Proof.Machine.execAddi d a imm s
  | .movi d imm => Sys2Proof.Machine.execMovi d imm s
  | .mvh d imm => Sys2Proof.Machine.execMvh d imm s
  | .mov d a ty => Sys2Proof.Machine.execMov d a ty s
  | .abs d a ty => Sys2Proof.Machine.execAbs d a ty s
  | .popc d a ty => Sys2Proof.Machine.execPopc d a ty s
  | .clz d a ty => Sys2Proof.Machine.execClz d a ty s
  | .brev d a ty => Sys2Proof.Machine.execBrev d a ty s
  | .rand d ty => Sys2Proof.Machine.execRand d ty s
  | .bfx d a pos len1 sgn => Sys2Proof.Machine.execBfx d a pos len1 sgn s
  | .bfi d a pos len1 => Sys2Proof.Machine.execBfi d a pos len1 s
  | .sel d a b p wide => Sys2Proof.Machine.execSel d a b p wide s
  | .cmp pd a b cond ty => Sys2Proof.Machine.execCmp pd a b cond ty s
  | .fadd d a b rm ty => Sys2Proof.Machine.execFadd d a b rm ty s
  | .fsub d a b rm ty => Sys2Proof.Machine.execFsub d a b rm ty s
  | .fmul d a b rm ty => Sys2Proof.Machine.execFmul d a b rm ty s
  | .fmin d a b ty => Sys2Proof.Machine.execFmin d a b ty s
  | .fmax d a b ty => Sys2Proof.Machine.execFmax d a b ty s
  | .fma d a b c => Sys2Proof.Machine.execFma d a b c s
  | .fms d a b c => Sys2Proof.Machine.execFms d a b c s
  | .fnma d a b c => Sys2Proof.Machine.execFnma d a b c s
  | .fnms d a b c => Sys2Proof.Machine.execFnms d a b c s
  | .fmacFma d a b rm ty => Sys2Proof.Machine.execFmacFma d a b rm ty s
  | .fmacFms d a b rm ty => Sys2Proof.Machine.execFmacFms d a b rm ty s
  | .fmacFnma d a b rm ty => Sys2Proof.Machine.execFmacFnma d a b rm ty s
  | .fmacFnms d a b rm ty => Sys2Proof.Machine.execFmacFnms d a b rm ty s
  | .fcmp pd a b cond => Sys2Proof.Machine.execFcmp pd a b cond s
  | .fcvt d a dt st rm sat => Sys2Proof.Machine.execFcvt d a dt st rm sat s
  | .frcp d a la => Sys2Proof.Machine.execFrcp d a la s
  | .frsq d a la => Sys2Proof.Machine.execFrsq d a la s
  | .fsqrt d a la => Sys2Proof.Machine.execFsqrt d a la s
  | .fexp2 d a la => Sys2Proof.Machine.execFexp2 d a la s
  | .flog2 d a la => Sys2Proof.Machine.execFlog2 d a la s
  | .fsin d a la => Sys2Proof.Machine.execFsin d a la s
  | .fcos d a la => Sys2Proof.Machine.execFcos d a la s
  | .fclass d a => Sys2Proof.Machine.execFclass d a s
  | .shfl d a b mode => Sys2Proof.Machine.execShfl d a b mode s
  | .vote form pk => Sys2Proof.Machine.execVote form pk s
  | .red op ty d a => Sys2Proof.Machine.execRed op ty d a s
  | .scan op ty ex d a => Sys2Proof.Machine.execScan op ty ex d a s
  | .matchLanes d a wide => Sys2Proof.Machine.execMatchLanes d a wide s
  | .ldx d base idx sz imm la => Sys2Proof.Machine.execLdx d base idx sz imm la s
  | .lda d base sz acq sc hint imm la => Sys2Proof.Machine.execLda d base sz acq sc hint imm la s
  | .stx data base idx sz imm => Sys2Proof.Machine.execStx data base idx sz imm s
  | .sta data base sz rel sc hint imm => Sys2Proof.Machine.execSta data base sz rel sc hint imm s
  | .atom d base op wide ord sc la => Sys2Proof.Machine.execAtom d base op wide ord sc la s
  | .cas d base wide ord sc la => Sys2Proof.Machine.execCas d base wide ord sc la s
  | .pf base hint imm => Sys2Proof.Machine.execPf base hint imm s
  | .stt data base sz imm => Sys2Proof.Machine.execStt data base sz imm s
  | .fence ord sc => Sys2Proof.Machine.execFence ord sc s
  | .ldb k base imm la => Sys2Proof.Machine.execLdb k base imm la s
  | .bwait mask t => Sys2Proof.Machine.execBwait mask t s
  | .bsync => Sys2Proof.Machine.execBsync s
  | .badd k src ord sc la => Sys2Proof.Machine.execBadd k src ord sc la s
  | .bunb k => Sys2Proof.Machine.execBunb k s
  | .bqry d k => Sys2Proof.Machine.execBqry d k s
  | .stBound k rel sc => Sys2Proof.Machine.execStBound k rel sc s
  | .bra off => Sys2Proof.Machine.execBra off s
  | .brc p off => Sys2Proof.Machine.execBrc p off s
  | .jmpi a => Sys2Proof.Machine.execJmpi a s
  | .land => Sys2Proof.Machine.execLand s
  | .call d off => Sys2Proof.Machine.execCall d off s
  | .ret a => Sys2Proof.Machine.execRet a s
  | .exit => Sys2Proof.Machine.execExit s
  | .spawn a off => Sys2Proof.Machine.execSpawn a off s
  | .yield => Sys2Proof.Machine.execYield s
  | .nop => Sys2Proof.Machine.execNop s
  | .try_ d c m => Sys2Proof.Machine.execTry d c m s
  | .fail pd => Sys2Proof.Machine.execFail pd s
  | .cut a => Sys2Proof.Machine.execCut a s
  | .prune base imm => Sys2Proof.Machine.execPrune base imm s
  | .steal pd => Sys2Proof.Machine.execSteal pd s
  | .cpd d => Sys2Proof.Machine.execCpd d s
  | .gAdd d a b ty => Sys2Proof.Machine.execGAdd d a b ty s
  | .gSub d a b ty => Sys2Proof.Machine.execGSub d a b ty s
  | .gMul d a b ty => Sys2Proof.Machine.execGMul d a b ty s
  | .gMin d a b ty => Sys2Proof.Machine.execGMin d a b ty s
  | .gMax d a b ty => Sys2Proof.Machine.execGMax d a b ty s
  | .gShl d a b ty => Sys2Proof.Machine.execGShl d a b ty s
  | .gShr d a b ty => Sys2Proof.Machine.execGShr d a b ty s
  | .gSar d a b ty => Sys2Proof.Machine.execGSar d a b ty s
  | .gAddI d a imm ty => Sys2Proof.Machine.execGAddI d a imm ty s
  | .gSubI d a imm ty => Sys2Proof.Machine.execGSubI d a imm ty s
  | .gMulI d a imm ty => Sys2Proof.Machine.execGMulI d a imm ty s
  | .gMinI d a imm ty => Sys2Proof.Machine.execGMinI d a imm ty s
  | .gMaxI d a imm ty => Sys2Proof.Machine.execGMaxI d a imm ty s
  | .gShlI d a imm ty => Sys2Proof.Machine.execGShlI d a imm ty s
  | .gShrI d a imm ty => Sys2Proof.Machine.execGShrI d a imm ty s
  | .gSarI d a imm ty => Sys2Proof.Machine.execGSarI d a imm ty s
  | .gaddi d a imm => Sys2Proof.Machine.execGaddi d a imm s
  | .gPopc d a ty => Sys2Proof.Machine.execGPopc d a ty s
  | .gClz d a ty => Sys2Proof.Machine.execGClz d a ty s
  | .gTri d a b tt => Sys2Proof.Machine.execGTri d a b tt s
  | .gCmp qd a b cond ty => Sys2Proof.Machine.execGCmp qd a b cond ty s
  | .gSel d a b q => Sys2Proof.Machine.execGSel d a b q s
  | .gMovi d imm => Sys2Proof.Machine.execGMovi d imm s
  | .gMvh d imm => Sys2Proof.Machine.execGMvh d imm s
  | .gld d base sz acq sc imm la => Sys2Proof.Machine.execGld d base sz acq sc imm la s
  | .gst data base sz rel sc imm => Sys2Proof.Machine.execGst data base sz rel sc imm s
  | .bru q off => Sys2Proof.Machine.execBru q off s
  | .loop c off => Sys2Proof.Machine.execLoop c off s
  | .mmaE4m3 acc a b sh src sp la => Sys2Proof.Machine.execMmaE4m3 acc a b sh src sp la s
  | .mmaE5m2 acc a b sh src sp la => Sys2Proof.Machine.execMmaE5m2 acc a b sh src sp la s
  | .mmaBf16 acc a b sh src sp la => Sys2Proof.Machine.execMmaBf16 acc a b sh src sp la s
  | .mmaF16 acc a b sh src sp la => Sys2Proof.Machine.execMmaF16 acc a b sh src sp la s
  | .mfence => Sys2Proof.Machine.execMfence s
  | .mwait => Sys2Proof.Machine.execMwait s
  | .acczero acc => Sys2Proof.Machine.execAcczero acc s
  | .accmov acc d col => Sys2Proof.Machine.execAccmov acc d col s
  | .tgemm tc ta tb bar la => Sys2Proof.Machine.execTgemm tc ta tb bar la s
  | .tquant td ts bar la => Sys2Proof.Machine.execTquant td ts bar la s
  | .tcopy td ts rm sat bar la => Sys2Proof.Machine.execTcopy td ts rm sat bar la s
  | .tidget src t w => Sys2Proof.Machine.execTidget src t w s
  | .tidset t w src => Sys2Proof.Machine.execTidset t w src s
  | .cpy dst src n bar la => Sys2Proof.Machine.execCpy dst src n bar la s
  | .cpyg dst src n bar la => Sys2Proof.Machine.execCpyg dst src n bar la s
  | .cpys dst src n bar la => Sys2Proof.Machine.execCpys dst src n bar la s
  | .barInit team base src imm => Sys2Proof.Machine.execBarInit team base src imm s
  | .barArrive team base imm => Sys2Proof.Machine.execBarArrive team base imm s
  | .barExpect team base src imm => Sys2Proof.Machine.execBarExpect team base src imm s
  | .barWait team base imm => Sys2Proof.Machine.execBarWait team base imm s
  | .barTest team base qd imm => Sys2Proof.Machine.execBarTest team base qd imm s
  | .barSync team base imm => Sys2Proof.Machine.execBarSync team base imm s
  | .wbr base len imm => Sys2Proof.Machine.execWbr base len imm s
  | .invr base len imm => Sys2Proof.Machine.execInvr base len imm s
  | .invrD base len imm => Sys2Proof.Machine.execInvrD base len imm s
  | .pfr base len imm => Sys2Proof.Machine.execPfr base len imm s
  | .hvmovToH hd v src => Sys2Proof.Machine.execHvmovToH hd v src s
  | .hvmovToV ha v src => Sys2Proof.Machine.execHvmovToV ha v src s
  | .hvxor hd ha hb => Sys2Proof.Machine.execHvxor hd ha hb s
  | .hvrot hd ha imm => Sys2Proof.Machine.execHvrot hd ha imm s
  | .hvrotReg hd ha src => Sys2Proof.Machine.execHvrotReg hd ha src s
  | .hvtri hd ha hb tt => Sys2Proof.Machine.execHvtri hd ha hb tt s
  | .hvbnd c ha w => Sys2Proof.Machine.execHvbnd c ha w s
  | .hvthr hd c => Sys2Proof.Machine.execHvthr hd c s
  | .hvclr c => Sys2Proof.Machine.execHvclr c s
  | .hvtie c ha => Sys2Proof.Machine.execHvtie c ha s
  | .hvpop src ha => Sys2Proof.Machine.execHvpop src ha s
  | .hvdist src ha hb => Sys2Proof.Machine.execHvdist src ha hb s
  | .hvseed hd src => Sys2Proof.Machine.execHvseed hd src s
  | .hvld h base imm la => Sys2Proof.Machine.execHvld h base imm la s
  | .hvst h base imm => Sys2Proof.Machine.execHvst h base imm s
  | .amw src h => Sys2Proof.Machine.execAmw src h s
  | .amclr lo n => Sys2Proof.Machine.execAmclr lo n s
  | .hvnear si sd h sl la => Sys2Proof.Machine.execHvnear si sd h sl la s
  | .hvneark si k1 h sl la => Sys2Proof.Machine.execHvneark si k1 h sl la s
  | .nexttile d => Sys2Proof.Machine.execNexttile d s
  | .condw base v imm => Sys2Proof.Machine.execCondw base v imm s
  | .perf l => Sys2Proof.Machine.execPerf l s
  | .trap imm => Sys2Proof.Machine.execTrap imm s
  | .srd d v sr => Sys2Proof.Machine.execSrd d v sr s
  | .swr src v sr => Sys2Proof.Machine.execSwr src v sr s
  | .bkpt imm => Sys2Proof.Machine.execBkpt imm s
  | .uint g => Sys2Proof.Machine.execUint g s
  | .registerWrite agent pa value => Sys2Proof.Machine.execRegisterWrite agent pa value s
  | .illegalInstruction why => Sys2Proof.Machine.execIllegalInstruction why s
  | .storePublication what => Sys2Proof.Machine.execStorePublication what s
  | .hostMemInv port pa wants => Sys2Proof.Machine.execHostMemInv port pa wants s
  | .linkLevelReplay port flits => Sys2Proof.Machine.execLinkLevelReplay port flits s
  | .frequencySettle cluster => Sys2Proof.Machine.execFrequencySettle cluster s
  | .clusterGate cluster => Sys2Proof.Machine.execClusterGate cluster s
  | .clusterWake cluster => Sys2Proof.Machine.execClusterWake cluster s
  | .loadResultReturn id => Sys2Proof.Machine.execLoadResultReturn id s
  | .pageWalkComplete id => Sys2Proof.Machine.execPageWalkComplete id s
  | .pathAged g pc => Sys2Proof.Machine.execPathAged g pc s
  | .yieldIntervalEnd t => Sys2Proof.Machine.execYieldIntervalEnd t s
  | .bwaitWake t => Sys2Proof.Machine.execBwaitWake t s
  | .bwaitTimeout t => Sys2Proof.Machine.execBwaitTimeout t s
  | .bindingOverflowSweep core => Sys2Proof.Machine.execBindingOverflowSweep core s
  | .clockGate core => Sys2Proof.Machine.execClockGate core s
  | .coreRestart core => Sys2Proof.Machine.execCoreRestart core s
  | .progressSwap core => Sys2Proof.Machine.execProgressSwap core s
  | .priorityPreemption launch => Sys2Proof.Machine.execPriorityPreemption launch s
  | .contextReturn core => Sys2Proof.Machine.execContextReturn core s
  | .swapComplete core => Sys2Proof.Machine.execSwapComplete core s
  | .bankSpill core bank k => Sys2Proof.Machine.execBankSpill core bank k s
  | .bankReload core bank k => Sys2Proof.Machine.execBankReload core bank k s
  | .uintDelivery t => Sys2Proof.Machine.execUintDelivery t s
  | .submitGraph queue => Sys2Proof.Machine.execSubmitGraph queue s
  | .submissionFence queue => Sys2Proof.Machine.execSubmissionFence queue s
  | .submissionInvalidKind queue => Sys2Proof.Machine.execSubmissionInvalidKind queue s
  | .launchNode graph node => Sys2Proof.Machine.execLaunchNode graph node s
  | .launchComplete launch => Sys2Proof.Machine.execLaunchComplete launch s
  | .tileCopyNode graph node => Sys2Proof.Machine.execTileCopyNode graph node s
  | .tileCopyNodeComplete graph node => Sys2Proof.Machine.execTileCopyNodeComplete graph node s
  | .conditionalNode graph node => Sys2Proof.Machine.execConditionalNode graph node s
  | .whileNode graph node => Sys2Proof.Machine.execWhileNode graph node s
  | .eventWaitNode graph node => Sys2Proof.Machine.execEventWaitNode graph node s
  | .hostSignalNode graph node => Sys2Proof.Machine.execHostSignalNode graph node s
  | .regionAdmit queue => Sys2Proof.Machine.execRegionAdmit queue s
  | .graphComplete graph => Sys2Proof.Machine.execGraphComplete graph s
  | .placeTeam launch => Sys2Proof.Machine.execPlaceTeam launch s
  | .scheduleTableWrite core count => Sys2Proof.Machine.execScheduleTableWrite core count s
  | .spawnBinTimeout core bin => Sys2Proof.Machine.execSpawnBinTimeout core bin s
  | .spawnBinFire core bin => Sys2Proof.Machine.execSpawnBinFire core bin s
  | .overflowQueueMove core => Sys2Proof.Machine.execOverflowQueueMove core s
  | .copyCommandAccept g => Sys2Proof.Machine.execCopyCommandAccept g s
  | .copyChunkLand core cmd chunk => Sys2Proof.Machine.execCopyChunkLand core cmd chunk s
  | .mmaPerform g quarter => Sys2Proof.Machine.execMmaPerform g quarter s
  | .acczeroPerform g quarter => Sys2Proof.Machine.execAcczeroPerform g quarter s
  | .mfenceComplete g quarter => Sys2Proof.Machine.execMfenceComplete g quarter s
  | .mwaitComplete g quarter => Sys2Proof.Machine.execMwaitComplete g quarter s
  | .tileSequencerStep g => Sys2Proof.Machine.execTileSequencerStep g s
  | .stealLandingComplete t => Sys2Proof.Machine.execStealLandingComplete t s
  | .glasshouseReply id => Sys2Proof.Machine.execGlasshouseReply id s
  | .secondTierTimeout id => Sys2Proof.Machine.execSecondTierTimeout id s
  | .peerInboundRequest peer pa op => Sys2Proof.Machine.execPeerInboundRequest peer pa op s
  | .peerPortRecovery port => Sys2Proof.Machine.execPeerPortRecovery port s
  | .snpInv line stored => Sys2Proof.Machine.execSnpInv line stored s
  | .snpData line => Sys2Proof.Machine.execSnpData line s
  | .snpCur line => Sys2Proof.Machine.execSnpCur line s
  | .hostMemRd port pa wants => Sys2Proof.Machine.execHostMemRd port pa wants s
  | .hostMemWr port pa bytes => Sys2Proof.Machine.execHostMemWr port pa bytes s
  | .resumeReplay part handle => Sys2Proof.Machine.execResumeReplay part handle s
  | .resumeEndLaunch part handle => Sys2Proof.Machine.execResumeEndLaunch part handle s
  | .resumeHandToThread part handle => Sys2Proof.Machine.execResumeHandToThread part handle s
  | .resumeActionIgnored part handle => Sys2Proof.Machine.execResumeActionIgnored part handle s
  | .tqconsWrite part value => Sys2Proof.Machine.execTqconsWrite part value s
  | .softError place corrected => Sys2Proof.Machine.execSoftError place corrected s
  | .createSubmissionQueue mailbox => Sys2Proof.Machine.execCreateSubmissionQueue mailbox s
  | .destroySubmissionQueue mailbox => Sys2Proof.Machine.execDestroySubmissionQueue mailbox s
  | .invalidateTranslations mailbox => Sys2Proof.Machine.execInvalidateTranslations mailbox s
  | .biasFlip mailbox => Sys2Proof.Machine.execBiasFlip mailbox s
  | .enablePartition mailbox => Sys2Proof.Machine.execEnablePartition mailbox s
  | .disablePartition mailbox => Sys2Proof.Machine.execDisablePartition mailbox s
  | .peerMap mailbox => Sys2Proof.Machine.execPeerMap mailbox s
  | .attachDebugger mailbox => Sys2Proof.Machine.execAttachDebugger mailbox s
  | .userInterruptCall mailbox => Sys2Proof.Machine.execUserInterruptCall mailbox s
  | .debuggerHalt mailbox => Sys2Proof.Machine.execDebuggerHalt mailbox s
  | .debuggerResume mailbox => Sys2Proof.Machine.execDebuggerResume mailbox s
  | .debuggerFreeze mailbox => Sys2Proof.Machine.execDebuggerFreeze mailbox s
  | .debuggerRead mailbox => Sys2Proof.Machine.execDebuggerRead mailbox s
  | .debuggerWrite mailbox => Sys2Proof.Machine.execDebuggerWrite mailbox s
  | .debuggerDetach mailbox => Sys2Proof.Machine.execDebuggerDetach mailbox s
  | .mailboxUnknownCall mailbox => Sys2Proof.Machine.execMailboxUnknownCall mailbox s
  | .getVersion port => Sys2Proof.Machine.execGetVersion port s
  | .getCapabilities port => Sys2Proof.Machine.execGetCapabilities port s
  | .negotiateAlgorithms port => Sys2Proof.Machine.execNegotiateAlgorithms port s
  | .getDigests port => Sys2Proof.Machine.execGetDigests port s
  | .getCertificate port slot => Sys2Proof.Machine.execGetCertificate port slot s
  | .challenge port nonce => Sys2Proof.Machine.execChallenge port nonce s
  | .getMeasurements port index => Sys2Proof.Machine.execGetMeasurements port index s
  | .spdmUnsupportedRequest port code => Sys2Proof.Machine.execSpdmUnsupportedRequest port code s
  | .powerOnBoot firmwareOk preleyOk => Sys2Proof.Machine.execPowerOnBoot firmwareOk preleyOk s
  | .telemetrySample r => Sys2Proof.Machine.execTelemetrySample r s
  | .powerFail millivolts => Sys2Proof.Machine.execPowerFail millivolts s
  | .currentSlopeFill die fromAmp toAmp => Sys2Proof.Machine.execCurrentSlopeFill die fromAmp toAmp s
  | .linkHealthWindow links => Sys2Proof.Machine.execLinkHealthWindow links s
  | .linkDown port => Sys2Proof.Machine.execLinkDown port s
  | .linkTrained port => Sys2Proof.Machine.execLinkTrained port s

end Sys2Proof.Machine
end

