-- ==== Sys2Proof/Machine/Issue.lean ====
section
/-! DEFINITION. Issue (R44 to R50): the paths of a core, the pack or portion that a slot chooses, the cycle
of its two slots, and the fetch of the word at the pack's PC. Then the events that engines, waits and Pergola
have ready, from which a step with an empty agenda takes one. -/

namespace Sys2Proof.Machine

/-! ## Paths (R45, R46) -/

/-- A list without its repeats. -/
def distinct {α : Type} [DecidableEq α] : List α → List α
  | [] => []
  | a :: l => a :: (distinct l).filter (· ≠ a)

/-- Whether a thread may issue: it is ready, its core runs, and no interrupt is to be delivered first. -/
def mayIssue (s : State) (t : TId) : Bool := isReady s t && coreRuns s t.core && !interruptDue (s.thread t)

/-- A path: a group's live threads at one PC, with its ageing counter and issue time. -/
structure Path where
  g : GId
  pc : W64
  ts : List TId
  age : Nat
  last : Nat
  deriving DecidableEq, Repr

/-- The path of a group at a PC. The threads that slot 0 issues in a cycle stand at their next word from the next cycle
on: they are in no path that slot 1 looks at. -/
def pathOf (s : State) (g : GId) (pc : W64) : Path :=
  let ts := (pathThreads s g pc).filter fun t => !(s.core g.core).taken.contains t
  ⟨g, pc, ts, (ts.map fun t => (s.thread t).age).foldl Nat.max 0, (ts.map fun t => (s.thread t).lastIssue).foldl Nat.max 0⟩

/-- The groups of a core's active context. -/
def activeGroups (s : State) (core : Nat) : List GId :=
  (s.groups.filter fun p => p.1.core == core && p.2.live && isActive s p.1).map Prod.fst

/-- Whether a slot may take a thread: slot 1 takes one that was ready when slot 0 chose (R44). -/
def slotMay (s : State) (core : Nat) (t : TId) : Bool :=
  mayIssue s t && ((s.core core).slot == 0 || (s.core core).offered.contains t)

/-- The paths of a core that hold a thread which the slot may take. -/
def readyPaths (s : State) (core : Nat) : List Path :=
  (activeGroups s core).flatMap fun g =>
    let pcs := distinct (((liveThreads s g).filter (slotMay s core)).map fun t => (s.thread t).pc)
    pcs.map fun pc => pathOf s g pc

/-- The launch priority of a path. -/
def pathPrio (s : State) (p : Path) : Nat := (s.launch (s.group p.g).launch).prio

/-- Whether a path leads another, by the first rule of R46 that separates them. -/
def leads (s : State) (a b : Path) : Bool :=
  let aged (p : Path) : Bool := decide (256 ≤ p.age)
  if aged a != aged b then aged a
  else if aged a && a.age != b.age then decide (b.age < a.age)
  else if pathPrio s a != pathPrio s b then decide (pathPrio s b < pathPrio s a)
  else if a.last != b.last then decide (a.last < b.last)
  else if a.g.slot != b.g.slot then decide (a.g.slot < b.g.slot)
  else decide (a.pc.toNat < b.pc.toNat)

/-- A path put among others in the order of R46. -/
def insertPath (s : State) (p : Path) : List Path → List Path
  | [] => [p]
  | q :: qs => if leads s p q then p :: q :: qs else q :: insertPath s p qs
def sortPaths (s : State) (ps : List Path) : List Path := ps.foldr (insertPath s) []

/-! ## Packs (R47, R48) -/

/-- The word at a PC as the threads of a group would fetch it: its bits, or why the fetch stops (R175)
(DESIGN CHOICE, log 22). -/
def fetchWord (s : State) (g : GId) (pc : W64) : Except Stop Nat :=
  match translate s (issuerOf s g) pc.toNat .exec with
  | .error f => .error (walkStop f pc.toNat .exec)
  | .ok (pa, _) =>
    let i := issuerOf s g
    match (deviceStop s i pa pc.toNat .exec).or
        ((peerStop s i g.core pc.toNat pa 4 .exec).or (lostStop s i pc.toNat pa .exec)), gatedTarget s g.core pa with
    | some f, _ => .error (.fault f)
    | none, some n => .error (.remote n (accessFault 0 .exec pc.toNat 0 (ipaOf s i pc.toNat) pa))
    | none, none =>
      if memPoisoned s pa 4 then
        .error (.fault (accessFault kPOISON .exec pc.toNat 0 (ipaOf s (issuerOf s g) pc.toNat) pa))
      else .ok (leNat ((List.range 4).map fun i => placeByte s (pa + i)))

/-- The word that a thread performs, `fetched` being that at its PC: one whose access is held keeps its own (R204). -/
def wordFor (s : State) (fetched : Except Stop Nat) (t : TId) : Except Stop Nat :=
  match (s.thread t).snap with
  | some k => .ok k.word
  | none => fetched
/-- Whether two fetches give one word. -/
def sameWord : Except Stop Nat → Except Stop Nat → Bool
  | .ok a, .ok b => a == b
  | .error _, .error _ => true
  | _, _ => false
/-- Those of some threads at a PC that perform the word which the first of them performs. -/
def oneWord (s : State) (fetched : Except Stop Nat) (ts : List TId) : List TId :=
  match ts with
  | [] => []
  | t :: _ => ts.filter fun u => sameWord (wordFor s fetched u) (wordFor s fetched t)

/-- Whether the word at a PC is a G-set word, by its SET bit (R221). -/
def isGset (r : Except Stop Nat) : Bool :=
  match r with
  | .ok w => w / 2 ^ 31 % 2 == 1
  | .error _ => false

/-- The threads of a path that may issue, in ascending home lane. -/
def pathReady (s : State) (core : Nat) (p : Path) : List TId :=
  sortLanes s (p.ts.filter (slotMay s core))

/-- Threads that join a pack: each on a lane bank that no thread of it uses. -/
def joinBanks : List TId → List TId → List TId
  | pack, [] => pack
  | pack, t :: ts => joinBanks (if pack.any fun u => laneBank u == laneBank t then pack else pack ++ [t]) ts

/-- Whether two threads at a PC belong to one portion: those that were held together perform their access by themselves
(R204) (DEDUCED, log 25), and those that came to a table wait together execute by themselves (R51). -/
def samePortion (s : State) (t u : TId) : Bool :=
  (s.thread u).snap.map Snap.since == (s.thread t).snap.map Snap.since && (s.thread u).portion == (s.thread t).portion
/-- The threads that one portion holds. -/
def onePortion (s : State) (ts : List TId) : List TId :=
  match ts with
  | [] => []
  | t :: _ => ts.filter (samePortion s t)

/-- The pack or portion that a slot of a core chooses. -/
def choosePack (s : State) (core : Nat) : Option (List TId) :=
  match sortPaths s (readyPaths s core) with
  | [] => none
  | p :: ps =>
    let lead := pathReady s core p
    let fetched := fetchWord s p.g p.pc
    if (lead.head?).any fun t => isGset (wordFor s fetched t) then some (onePortion s lead)
    else
      let same (q : Path) : Bool := q.pc == p.pc && (s.group q.g).launch == (s.group p.g).launch
      some (joinBanks [] (oneWord s fetched (lead ++ (ps.filter same).flatMap (pathReady s core))))

/-! ## The cycle of a core (R45, R46) -/

/-- A pack issues: the other ready threads are slot 1's to choose from, its time is now, and the counters of
their paths return to zero. -/
def noteCycle (s : State) (core : Nat) (ts : List TId) : State :=
  let c := s.core core
  let paths := distinct (ts.flatMap fun t => pathThreads s (groupOf s t) (s.thread t).pc)
  let s := paths.foldl (fun s t => s.modThread t fun x => { x with age := 0 }) s
  let s := ts.foldl (fun s t => s.modThread t fun x => { x with lastIssue := c.cycle }) s
  let rest := ((activeGroups s core).flatMap (liveThreads s)).filter fun t => slotMay s core t && !ts.contains t
  s.setCore core { c with offered := rest, issued := c.issued ++ paths, taken := if c.slot = 0 then ts else c.taken }

/-- The end of a cycle: the counter of each path that held a ready thread and did not issue advances. -/
def endCycle (s : State) (core : Nat) : State :=
  let c := s.core core
  let paths := (activeGroups s core).flatMap fun g =>
    let ts := (liveThreads s g).filter fun t => !c.issued.contains t
    (distinct (ts.map fun t => (s.thread t).pc)).map fun pc =>
      let own := ts.filter fun t => (s.thread t).pc == pc
      (own, (own.map fun t => (s.thread t).age).foldl Nat.max 0, own.any fun t => isReady s t)
  let s := paths.foldl (fun s p =>
    if p.2.2 then p.1.foldl (fun s t => s.modThread t fun x => { x with age := p.2.1 + 1 }) s else s) s
  s.setCore core { c with slot := 0, offered := [], issued := [], taken := [], cycle := c.cycle + 1 }

/-- After a slot has chosen: the other slot is next, or the cycle ends. -/
def passSlot (s : State) (core : Nat) : State :=
  if (s.core core).slot = 0 then s.modCore core fun c => { c with slot := 1 } else endCycle s core

/-! ## Issuing -/

/-- The first instruction of a thread after its context is restored is a refresh point (R210), that of a
spawned thread an acquire at `.team` (R306). -/
def firstRefresh (s : State) (t : TId) : State :=
  let x := s.thread t
  if x.restored || x.firstAcquire then
    let s := if x.firstAcquire then acquire s t (carriedBy s (.spawned (launchOf s t) (s.group (groupOf s t)).team)) else s
    refreshHere (s.modThread t fun x => { x with restored := false, firstAcquire := false }) t
  else s

/-- Before a thread issues: the part of its search frame that did not translate at its placement is zeroed, or its
fault holds the thread (R308) (DESIGN CHOICE, log 87); then its first refresh. -/
def beginThread (s : State) (t : TId) : State :=
  let x := s.thread t
  if x.frameDue then
    match zeroFrame s (issuerOf s (groupOf s t)) x.framebase.toNat (s.launch (launchOf s t)).kernel.frame with
    | .ok s => firstRefresh (s.modThread t fun x => { x with frameDue := false }) t
    | .error f => oweFault s t f
  else firstRefresh s t

/-- A fetch that stops: one access of the pack, held or stopped for all of its threads (R180) (DEDUCED, log 23). -/
def stopFetch (ts : List TId) (st : Stop) (s : State) : Result :=
  match ts with
  | [] => .next s
  | t :: _ =>
    match st with
    | .walk va k => .next (startWalk s ts va k)
    | .fault f =>
      let s := if f.kind = kTIMEOUT then dropLost s else s
      .next (portionFault (ts.foldl (fun s u => s.modThread u fun x => { x with owed := true }) s) (groupOf s t) ts f)
    | .remote n f => .next (stopRemote s ts (.portion ts) n f)
    | .trap _ _ | .wait _ => pass s

/-- A word begins for the threads of a pack: a replay of its fetch, or of a refresh before it, is over. -/
def beginWord (s : State) (w : Nat) (ts : List TId) : State :=
  let s := ts.foldl (fun s t => if (s.thread t).owed then s.modThread t fun x => { x with owed := false } else s) s
  { s with curWord := w }

/-- The threads of a pack execute the word at their PC. -/
def runPack (s : State) (core bank : Nat) (ts : List TId) : Result :=
  match ts with
  | [] => .next s
  | t :: _ =>
    match wordFor s (fetchWord s (groupOf s t) (s.thread t).pc) t with
    | .error st => stopFetch ts st s
    | .ok w =>
      let s := (beginWord s w ts).setCur (some ⟨core, bank, ts.map TId.slot⟩)
      match decode w with
      | .ok i => exec i s
      | .error why => exec (.illegalInstruction why) s

/-- A pack that has been chosen issues, those of its threads that their own refresh has not stopped. -/
def startPack (s : State) (core : Nat) (ts : List TId) : Result :=
  let s := ts.foldl beginThread s
  runPack s core (s.core core).act (ts.filter (mayIssue s))

/-- A pack issues. -/
def issuePack (s : State) (core : Nat) (ts : List TId) : Result :=
  startPack (passSlot (noteCycle s core ts) core) core ts

/-- The group slot of a portion whose word is `nexttile`. -/
def nexttileSlot (s : State) (ts : List TId) : Option Nat :=
  match ts with
  | [] => none
  | t :: _ =>
    match fetchWord s (groupOf s t) (s.thread t).pc with
    | .ok w =>
      (match decode w with
        | .ok (.nexttile _) => some (groupOf s t).slot
        | _ => none)
    | .error _ => none

/-- Whether slot 0's portion lets slot 1's take its schedule entry first: both execute `nexttile` in one cycle, and the
other's group slot is the lower (R76, R328). -/
def letsPass (s : State) (core : Nat) (ts : List TId) : Bool :=
  (s.core core).slot == 0 &&
    (match nexttileSlot s ts with
      | none => false
      | some a =>
        let s := passSlot (noteCycle s core ts) core
        match (choosePack s core).bind (nexttileSlot s) with
        | some b => decide (b < a)
        | none => false)

/-- The caches hold no more lines than they have room for before a pack issues (R24). -/
def settleCaches (s : State) (core : Nat) : State :=
  let n := s.lines.length
  ([CacheId.l1 core] ++ (List.range 4).map CacheId.llc ++ (List.range 2).map CacheId.sys).foldl (fun s c => settleCache c n s) s

/-- A slot of a core issues, where it finds a pack (DEDUCED, log 7). A portion of slot 0 that lets slot 1's pass issues
after it. -/
def issueCore (s : State) (core : Nat) : Result :=
  let s := settleCaches s core
  let c := s.core core
  if !c.deferred.isEmpty && c.slot == 0 then
    startPack (s.setCore core { c with deferred := [] }) core c.deferred
  else
    match choosePack s core with
    | none => .next (passSlot s core)
    | some ts =>
      if letsPass s core ts then
        .next ((passSlot (noteCycle s core ts) core).modCore core fun c => { c with deferred := ts })
      else issuePack s core ts

/-- Whether threads of a core that may issue make a pack or portion of their own: the one that a slot chooses, or threads
held for a replay that perform their word again, a portion of them whole (R204, R323). -/
def mayReplay (s : State) (core : Nat) (ts : List TId) : Bool :=
  match ts with
  | [] => false
  | t :: _ =>
    let held (u : TId) : Bool := (s.thread u).snap.isSome || (s.thread u).owed
    let fetched := fetchWord s (groupOf s t) (s.thread t).pc
    let mates := sortLanes s ((pathThreads s (groupOf s t) (s.thread t).pc).filter (mayIssue s))
    choosePack s core == some ts
      || (ts.all held && (ts.all fun u => (s.thread u).pc == (s.thread t).pc) &&
        (if isGset (wordFor s fetched t) then ts == mates.filter (samePortion s t)
          else joinBanks [] ts == ts && oneWord s fetched ts == ts))

/-- A pack or portion that performs its word again. -/
def replayPack (s : State) (c : Cur) : Result :=
  let ts : List TId := (c.slots.map fun k => (⟨c.core, c.bank, k⟩ : TId)).filter (mayIssue s)
  if mayReplay s c.core ts then startPack s c.core ts else pass s

/-! ## Loads that pass and are passed (R126) -/

/-- Whether a thread may take bytes for a load still to come: no acquire is outstanding that stands before it, none of its
results and none of what it has taken shares a byte with them, and they are memory of its partition that its load could
read now. Where a later access of the thread finds them, it finds them as they are now (DEDUCED, log 14). -/
def mayTake (s : State) (t : TId) (pa n : Nat) (ty : MemTy) : Bool :=
  let x := s.thread t
  x.live && isActive s (groupOf s t) && [1, 2, 4, 8].contains n && pa % n == 0
    && ty != .uc && ty != .sm
    && !x.outs.any (orderedBefore pa n)
    && !x.early.any (fun e => overlaps e.pa e.bytes.length pa n)
    && !x.firstAcquire
    && !parksAt s t pa ty
    && (match partOfCore s t.core with
      | some p => ty == .spad || inRanges s p pa
      | none => false)

/-- The type of bytes that a load takes early: by their place. -/
def earlyTy (pa : Nat) : Option MemTy :=
  match placeOf pa with
  | .host => some .hb
  | .window _ off => (match winRegion off with
    | .spad _ => some .spad
    | _ => none)
  | .device => none
  | .peer _ => none
  | _ => some .wb

/-- A load still to come takes its bytes before the thread's earlier accesses. -/
def takeEarly (t : TId) (pa n : Nat) (s : State) : Result :=
  match earlyTy pa with
  | none => pass s
  | some ty =>
    if mayTake s t pa n ty then
      let s := snoopReads (settleAt s t ty pa n) pa n
      let bs := (List.range n).map fun i => loadByte s t ty (pa + i)
      .next ((loadEffect s t ty pa n).modThread t fun y => { y with early := y.early ++ [⟨pa, bs, readClock s t ty pa n⟩] })
    else pass s

/-- A thread whose outstanding loads are relaxed and not satisfied goes on past them (DEDUCED, log 14). -/
def goOver (t : TId) (s : State) : Result :=
  let x := s.thread t
  if x.live && !x.beyond && beyondLookahead x && x.outs.all (fun o => o.left != 0 || Out.passed o) then
    .next (s.modThread t fun y => { y with beyond := true })
  else pass s

/-! ## What else is ready to happen -/

/-- Numbers of a table's keys. -/
def keysOf {α : Type} (t : Tbl Nat α) : List Nat := t.map Prod.fst

/-- Deliveries of interrupts, which come before a thread's next instruction. -/
def readyDeliveries (s : State) : List Instr := (s.threads.filter fun p => delivers s p.1).map fun p => .uintDelivery p.1

/-- Results, walks and waits of threads that may end. -/
def threadEvents (s : State) : List Instr :=
  s.threads.flatMap fun p =>
    (p.2.outs.flatMap fun o => [Instr.loadResultReturn o.id, Instr.glasshouseReply o.id])
      ++ (match p.2.wait with
        | .walk id _ => [.pageWalkComplete id]
        | .stealLanding => [.stealLandingComplete p.1]
        | .yield => [.yieldIntervalEnd p.1]
        | .bound _ _ => [.bwaitWake p.1]
        | _ => [])

/-- Engine work of groups and cores. -/
def engineEvents (s : State) : List Instr :=
  (s.groups.flatMap fun p =>
    (List.range 8).flatMap (fun q =>
      [Instr.mmaPerform p.1 q, Instr.acczeroPerform p.1 q, Instr.mfenceComplete p.1 q, Instr.mwaitComplete p.1 q])
      ++ [.tileSequencerStep p.1, .copyCommandAccept p.1])
    ++ s.cores.flatMap fun c => c.2.copies.flatMap fun k =>
      ((List.range k.2.total).find? fun i => !k.2.landed.contains i && !k.2.held.contains i).toList.map fun i =>
        Instr.copyChunkLand c.1 k.1 i

/-- The work of Pergola. -/
def pergolaEvents (s : State) : List Instr :=
  (keysOf s.queues).flatMap (fun q => [Instr.submitGraph q, .submissionFence q, .submissionInvalidKind q, .regionAdmit q])
    ++ (s.graphs.flatMap fun g => (List.range g.2.nodes.length).flatMap (fun n =>
      [Instr.launchNode g.1 n, .tileCopyNode g.1 n, .tileCopyNodeComplete g.1 n, .conditionalNode g.1 n, .whileNode g.1 n
       , .eventWaitNode g.1 n, .hostSignalNode g.1 n]) ++ [.graphComplete g.1])
    ++ (keysOf s.launches).flatMap fun l => [Instr.placeTeam l, .launchComplete l]

/-- The work of cores and clusters: tables, bins, swaps, banks, clocks. -/
def coreEvents (s : State) : List Instr :=
  ((keysOf s.cores).flatMap fun c =>
    [Instr.scheduleTableWrite c 1, .overflowQueueMove c, .swapComplete c, .contextReturn c, .coreRestart c]
      ++ (List.range 16).flatMap fun k => [Instr.spawnBinFire c k, .bankSpill c (s.core c).act k, .bankReload c (s.core c).act k])
    ++ (keysOf s.clusters).flatMap fun n => [Instr.clusterWake n, .frequencySettle n]

/-- Stores that may leave their buffers. -/
def storeEvents (s : State) : List Instr :=
  (s.threads.filter fun p => !p.2.sb.isEmpty).map fun p => Instr.storePublication (.store p.1)

/-- The cores with an overflow binding that no sweep has marked (R289). -/
def sweepCores (s : State) : List Nat :=
  distinct ((s.threads.filter fun p => p.2.b.toList.any fun b => b.bound && b.ovf && !b.changed).map fun p => p.1.core)

/-- What only time brings: pre-emptions, timers and sweeps, and swaps of stalled cores. -/
def timedEvents (s : State) : List Instr :=
  (keysOf s.launches).map Instr.priorityPreemption
    ++ (s.threads.flatMap fun p =>
      match p.2.wait with
      | .bound _ true => [Instr.bwaitTimeout p.1]
      | _ => [])
    ++ ((spilledThreads s).flatMap fun p => [Instr.bwaitTimeout p.1, Instr.yieldIntervalEnd p.1])
    ++ (sweepCores s).map Instr.bindingOverflowSweep
    ++ (keysOf s.cores).flatMap (fun c => ((List.range 16).map fun k => Instr.spawnBinTimeout c k) ++ [.progressSwap c])

/-- The first of some events that finds something to do (DESIGN CHOICE, log 10). -/
def firstEvent : List Instr → State → Option Result
  | [], _ => none
  | i :: is, s =>
    match exec i { s with idle := false } with
    | .next s' => if s'.idle then firstEvent is s else some (.next s')
    | r => some r

/-- The first core, in turn from one, with a pack to issue or a cycle to end. -/
def nextCore (s : State) : Option Nat :=
  let cores := distinct ((s.groups.filter fun p => p.2.live).map fun p => p.1.core)
  let ready := cores.filter fun c => (s.core c).slot != 0 || !(s.core c).deferred.isEmpty || (choosePack s c).isSome
  (ready.find? fun c => s.tick % 160 ≤ c).or ready.head?

/-- Events in turn: the first that is tried moves on with the counter of steps. -/
def turned (k : Nat) (is : List Instr) : List Instr := is.drop (k % (is.length + 1)) ++ is.take (k % (is.length + 1))

/-- What happens of itself: a delivery; else a pack, an event that is ready or a timer, each kind first in its
turn, so that no thread that goes on holds another's store, engine or timer back for ever. -/
def selfChoice (s : State) : Option Result :=
  match firstEvent (readyDeliveries s) s with
  | some r => some r
  | none =>
    let pack (s : State) : Option Result := (nextCore s).map (issueCore s)
    let work (s : State) : Option Result :=
      firstEvent (turned s.tick (threadEvents s ++ engineEvents s ++ coreEvents s ++ pergolaEvents s ++ storeEvents s)) s
    let time (s : State) : Option Result := firstEvent (turned s.tick (timedEvents s)) s
    let try3 (f g h : State → Option Result) : Option Result :=
      match f s with
      | some r => some r
      | none => (match g s with
        | some r => some r
        | none => h s)
    if s.tick % 256 = 255 then try3 time work pack
    else if s.tick % 4 = 3 then try3 work pack time
    else try3 pack work time

/-- What a machine with an empty agenda does. -/
def selfMove (s : State) : Result := (selfChoice s).getD (.next s)

/-! ## Moves -/

/-- A move of the agenda. -/
def move (m : Move) (s : State) : Result :=
  match m with
  | .event i => exec i s
  | .issue core => issueCore s core
  | .replay c => replayPack s c
  | .early t pa n => takeEarly t pa n s
  | .beyond t => goOver t s

end Sys2Proof.Machine
end

