-- ==== Sys2Proof/Machine/Step.lean ====
section
/-! DEFINITION. One step: the head of the agenda, or what the machine does by itself; and a state that
fetches a given word next. -/

namespace Sys2Proof.Machine

/-- A step counted: the free values of the next are its own. -/
def tickOn : Result → Result
  | .next s => .next { s with cur := none, curWord := 0, tick := s.tick + 1, idle := false }
  | .fault e => .fault e
  | .refused e => .refused e

/-- One step. -/
def step (s : State) : Host.Outcome State Fault Refusal :=
  match s.agenda with
  | m :: rest => tickOn (move m { s with agenda := rest })
  | [] => tickOn (selfMove s)

/-! ## A word placed where the next step fetches -/

/-- Stage-2 tables that map intermediate addresses below 1 GiB to themselves: R, W, X and WB. -/
def fetchTables (m : List Host.Cell) : List Host.Cell :=
  writeLE (writeLE (writeLE m 0x100000 8 0x101001) 0x101000 8 0x102001) 0x102000 8 0x1F

/-- The partition, the launch, the group and the thread that fetch at 0x200000. -/
def fetchPart : Partition :=
  { state := 1, clusters := 0xF, s2root := 0x100000, allot := 40
    ranges := (Vector.replicate 16 {}).set! 0 { en := true, base := 0, limit := 0x3FFFF000 } }
def fetchGroup : Group := { live := true }
def fetchThread : Thread := { live := true, pc := 0x200000 }

/-- The state with a word stored where `step` fetches its next instruction: partition 0 owns clusters 0 to 3,
cluster 0 runs, launch 0 has one group on core 0 with one live thread, at the word (DESIGN CHOICE, log 81). -/
def State.withFetchWord (s : State) (nbits w : Nat) : State :=
  { s with
    mem := writeBytes (fetchTables s.mem) 0x200000 (wordBytes (w % 2 ^ nbits))
    parts := Tbl.put s.parts 0 fetchPart
    clusters := [0, 1, 2, 3].foldl (fun m n => Tbl.put m n { Tbl.getD m n {} with owner := some 0, gated := false }) s.clusters
    launches := Tbl.put s.launches 0 { graph := 0, node := 0, part := 0 }
    ctxs := Tbl.put s.ctxs 0 {}
    groups := Tbl.put s.groups ⟨0, 0, 0⟩ fetchGroup
    threads := Tbl.put s.threads ⟨0, 0, 0⟩ fetchThread
    cores := Tbl.put s.cores 0 {}
    plan := []
    agenda := [.replay ⟨0, 0, [0]⟩] }

end Sys2Proof.Machine
end

