-- ==== Sys2Proof/Safety.lean ====
section
/-! DEFINITION. What counts as a safe run, and the terms that claims about the machine use: when an
instruction word meets nothing that holds or stops it, and what it then does to threads and groups. -/

namespace Sys2Proof.Machine

/-- A state from which `n` steps end in no fault and no refusal. -/
def SafeRun : Nat → State → Prop
  | 0, _ => True
  | n + 1, s => ∃ s', step s = .next s' ∧ SafeRun n s'

/-! ## When a word meets no obstacle -/

/-- What a word of one thread needs of the thread's group: no result is outstanding, and no source holds
poison (R15, R208, R322). -/
structure Ready (s : State) (t : TId) (i : Instr) : Prop where
  fresh : (s.thread t).snap = none
  own : (s.thread t).outs = []
  others : ∀ u ∈ groupThreads s (groupOf s t), (s.thread u).outs = []
  lane : laneBad s t (srcsOf i) = false
  group : groupBad s t (srcsOf i) = false

/-- One thread issues a word by itself. -/
structure Alone (s : State) (t : TId) (i : Instr) : Prop where
  cur : s.cur = some ⟨t.core, t.bank, [t.slot]⟩
  idle : (s.thread t).wait = .none
  ready : Ready s t i

/-- A portion of one group issues a G-set word: `t` is its first thread, `ts` all of them (R321). -/
structure Portion (s : State) (g : GId) (t : TId) (ts : List TId) (i : Instr) : Prop where
  pack : packThreads s = ts
  first : ts.head? = some t
  distinct : ts.Nodup
  member : ∀ u ∈ ts, groupOf s u = g ∧ (s.thread u).wait = .none ∧ Ready s u i

/-! ## What a word does to threads and groups -/

/-- The instruction answers a next state with the given threads and groups; all else is as before, but for
the counters of R189, the model's numbering and its plan. -/
def Effect (i : Instr) (s : State) (th : TId → Thread) (gr : GId → Group) : Prop :=
  ∃ s', exec i s = .next s' ∧ (∀ u, s'.thread u = th u) ∧ (∀ g, s'.group g = gr g) ∧
    s' = { s with threads := s'.threads, groups := s'.groups, pmcs := s'.pmcs, fresh := s'.fresh, plan := s'.plan }

/-- The same of an instruction that releases or acquires: what it orders (R127) may change too. -/
def Orders (i : Instr) (s : State) (th : TId → Thread) (gr : GId → Group) : Prop :=
  ∃ s', exec i s = .next s' ∧ (∀ u, s'.thread u = th u) ∧ (∀ g, s'.group g = gr g) ∧
    s' = { s with threads := s'.threads, groups := s'.groups, pmcs := s'.pmcs, fresh := s'.fresh, plan := s'.plan, order := s'.order }

/-- A thread that has issued an instruction, which counts toward R151 once. -/
def Thread.counted (x : Thread) : Thread := { x with since := if x.again then x.since else Nat.min 256 (x.since + 1) }
/-- A thread that enters a wait at an instruction it has issued (R149, R151). -/
def Thread.waits (x : Thread) (w : Wait) : Thread := { x with wait := w, since := 0, woken := false }
/-- A thread at an address after an instruction it has issued. -/
def Thread.goes (x : Thread) (pc : W64) : Thread :=
  { x.counted with pc := pc, woken := false, walked := false, again := false, snap := none, owed := false, portion := none
                   beyond := false }
/-- A thread at its next word. -/
def Thread.onward (x : Thread) : Thread := x.goes (x.pc + 4)

/-- A lane register written: its poison mark goes (R208). -/
def Thread.withV (x : Thread) (tick : Nat) (d : Reg) (y : W32) : Thread :=
  { x with v := x.v.set d.val y d.isLt
           vPoison := x.vPoison &&& ~~~(BitVec.ofNat 64 (2 ^ d.val))
           stamps := Tbl.put x.stamps d.val tick }
/-- A lane pair written, the even register least significant (R13). -/
def Thread.withPair (x : Thread) (tick : Nat) (d : Reg) (y : W64) : Thread :=
  (x.withV tick d (y.setWidth 32)).withV tick (oddOf d) ((y >>> 32).setWidth 32)
/-- The snapshot of a bound register written. -/
def Thread.withB (x : Thread) (k : Reg8) (y : W32) : Thread :=
  { x with b := x.b.set k.val { x.b.get k with value := y } k.isLt
           bPoison := x.bPoison &&& ~~~(BitVec.ofNat 8 (2 ^ k.val)) }
/-- A lane predicate written; p0 takes nothing (R11). -/
def Thread.withP (x : Thread) (k : Reg8) (y : Bool) : Thread :=
  if k.val = 0 then x
  else { x with p := if y then x.p ||| BitVec.ofNat 8 (2 ^ k.val) else x.p &&& ~~~(BitVec.ofNat 8 (2 ^ k.val))
                pPoison := x.pPoison &&& ~~~(BitVec.ofNat 8 (2 ^ k.val)) }
/-- What a thread has taken early of some bytes is of no use after its access of them (R124). -/
def Thread.past (x : Thread) (pa n : Nat) : Thread := { x with early := x.early.filter fun e => !overlaps e.pa e.bytes.length pa n }
/-- A store that waits in the thread's buffer. -/
def Thread.withStore (x : Thread) (e : StoreEnt) : Thread := { x.past e.pa e.bytes.length with sb := x.sb ++ [e] }

/-- Thread `t` alone has a new state. -/
def only (s : State) (t : TId) (x : Thread) (u : TId) : Thread := if u = t then x else s.thread u

/-- Every store that waits in a buffer issued in an earlier step: an invariant of the steps. -/
def Older (s : State) : Prop := ∀ p ∈ s.threads, ∀ e ∈ p.2.sb, e.step < s.tick

/-- The same of the threads in place and of those in save areas. -/
def StoresOlder (s : State) : Prop :=
  Older s ∧ ∀ c ∈ s.ctxs, ∀ k ∈ c.2.spilled, ∀ p ∈ k.2.threads, ∀ e ∈ p.2.sb, e.step < s.tick

/-- The store of R136 through a bound register: relaxed, at device scope. -/
def boundStore (s : State) (b : Bound) (k : Reg8) (y : W32) : StoreEnt :=
  { pa := b.pa, bytes := toBytes 4 y.toNat, ty := boundTy b.pa, sc := .dev, rel := false, seq := s.fresh, via := some k, step := s.tick }

/-- A 32-bit result in a destination with a class bit: a lane register; the snapshot of an unbound
register; or the snapshot of a bound one, with the store of R136. -/
def landsIn (s : State) (x : Thread) (d : LOp) (y : W32) : Thread :=
  match d with
  | .v r => x.withV s.tick r y
  | .b k =>
    if (x.b.get k).bound then (x.withB k y).withStore (boundStore s (x.b.get k) k y) else x.withB k y

/-- A destination that takes a result: not a binding that R290 turns away, nor one whose word lies in a choice stack
or another register of the thread is bound to (that register is marked, R135), and no release waits for its first
store (R127). -/
def Takes (s : State) (t : TId) : LOp → Prop
  | .v _ => True
  | .b k => ((s.thread t).b.get k).bound = true → boundFault s t ((s.thread t).b.get k) .store = none ∧
      stackOwner s t ((s.thread t).b.get k).va.toNat = none ∧ (s.thread t).fence = none ∧ Older s ∧
      ∀ j : Reg8, j ≠ k → ((s.thread t).b.get j).bound = true →
        overlaps ((s.thread t).b.get k).pa 4 (((s.thread t).b.get j).pa / 4 * 4) 4 = false

/-- The word whose bits `f` gives. -/
def bitsFrom (w : Nat) (f : Fin w → Bool) : BitVec w := (BitVec.iunfoldr (fun i (u : Unit) => (u, f i)) ()).2

/-- A word of one thread that gives a 32-bit result and goes on. -/
def Gives32 (i : Instr) (d : LOp) (f : State → TId → W32) : Prop :=
  ∀ s t, Alone s t i → Takes s t d →
    Effect i s (only s t (landsIn s (s.thread t) d (f s t)).onward) s.group

/-- A word of one thread that gives a 64-bit result in a lane pair and goes on. -/
def Gives64 (i : Instr) (d : Reg) (f : State → TId → W64) : Prop :=
  ∀ s t, Alone s t i → Effect i s (only s t ((s.thread t).withPair s.tick d (f s t)).onward) s.group

/-- A word of an integer type (R246): 32-bit types act on registers, 64-bit types on pairs. A 64-bit type
has no bound operand (R223). -/
def GivesInt (i : Instr) (d : LOp) (ty : ITy) (f : State → TId → W32) (g : State → TId → W64) : Prop :=
  if ty.wide then ∀ r, d = .v r → Gives64 i r g else Gives32 i d f

/-- A word of two operands and an integer type. -/
def GivesBin (i : Instr) (d a b : LOp) (ty : ITy) (f : (w : Nat) → BitVec w → BitVec w → BitVec w) : Prop :=
  GivesInt i d ty (fun s t => f 32 (readL s t a) (readL s t b)) (fun s t => f 64 (readL64 s t a) (readL64 s t b))
/-- A word of one operand and an integer type. -/
def GivesUn (i : Instr) (d a : LOp) (ty : ITy) (f : State → TId → (w : Nat) → BitVec w → BitVec w) : Prop :=
  GivesInt i d ty (fun s t => f s t 32 (readL s t a)) (fun s t => f s t 64 (readL64 s t a))

/-- A word of one thread that writes a predicate and goes on. -/
def GivesP (i : Instr) (pd : Reg8) (f : State → TId → Bool) : Prop :=
  ∀ s t, Alone s t i → Effect i s (only s t ((s.thread t).withP pd (f s t)).onward) s.group

/-! ## Floating point -/

/-- Group `g` alone has a new state. -/
def onlyG (s : State) (g : GId) (y : Group) (h : GId) : Group := if h = g then y else s.group h
/-- A group with flags joined to FPSTAT (R98, R247), which its core's cycle has now raised (R99). -/
def flagged (s : State) (g : GId) (f : Flags) : Group :=
  { s.group g with fpstat := (s.group g).fpstat ||| f, flagsAt := cycleOf s g.core, flagsNow := cycleFlags s g ||| f }

/-- A word of one thread that gives a 32-bit result and flags. -/
def GivesFlags (i : Instr) (d : Reg) (f : State → TId → W32 × Flags) : Prop :=
  ∀ s t, Alone s t i →
    Effect i s (only s t ((s.thread t).withV s.tick d (f s t).1).onward)
      (onlyG s (groupOf s t) (flagged s (groupOf s t) (f s t).2))

/-- A packed or single operation on two registers, element by element (R259). -/
def GivesElements (i : Instr) (ty : FTy) (d a b : Reg) (op : Fmt → Nat → Nat → Nat × Flags) : Prop :=
  GivesFlags i d fun s t => perElement ty (fun k x y _ => op k x y) (readV s t a) (readV s t b) 0
/-- A multiply-add of three registers, element by element (R261). -/
def GivesFma (i : Instr) (ty : FTy) (mode : Rm) (negProd negAdd : Bool) (d a b c : Reg) : Prop :=
  GivesFlags i d fun s t =>
    perElement ty (fun k x y z => fFma k mode negProd negAdd x y z) (readV s t a) (readV s t b) (readV s t c)

/-! ## Long-latency results (R15, R50, R234) -/

/-- An outstanding result of the instruction at the thread's pc, with the flags it will raise. -/
def IsOut (o : Out) (s : State) (t : TId) (d : OutDest) (la : La) (v : OutVal) (acq : Bool) (f : Flags) : Prop :=
  o.id = s.fresh ∧ o.pc = (s.thread t).pc ∧ o.dest = d ∧ o.left = la.val ∧ o.val = v ∧ o.contested = [] ∧ o.acq = acq ∧
    o.flags = f ∧ o.again = false

/-- A computed long-latency result, and its flags where it raises any: both land at once, or are outstanding with the
instruction's lookahead, as the plan says (R99). -/
def GivesLong (i : Instr) (d : Reg) (wide : Bool) (la : La) (ok : State → TId → Prop)
    (f : State → TId → W64 × Option Flags) : Prop :=
  ∀ s t, Alone s t i → ok s t →
    let x := s.thread t
    (s.plan.headD .now ≠ .late →
      Effect i s (only s t (if wide then x.withPair s.tick d (f s t).1 else x.withV s.tick d ((f s t).1.setWidth 32)).onward)
        (match (f s t).2 with
          | some k => onlyG s (groupOf s t) (flagged s (groupOf s t) k)
          | none => s.group)) ∧
    (s.plan.headD .now = .late →
      ∃ o, IsOut o s t (.lane d wide) la (.known (f s t).1 false) false ((f s t).2.getD 0) ∧
        Effect i s (only s t { x.onward with outs := [o] }) s.group)

/-! ## Portions (R321 to R323) -/

/-- Every thread of a portion is at its next word; the others are as before. -/
def seqOn (s : State) (ts : List TId) (u : TId) : Thread := if u ∈ ts then (s.thread u).onward else s.thread u
/-- Every thread of a portion goes to an address. -/
def jumpOn (s : State) (ts : List TId) (pc : W64) (u : TId) : Thread := if u ∈ ts then (s.thread u).goes pc else s.thread u

/-- A uniform register written: its poison mark goes. -/
def Group.withS (y : Group) (r : Reg) (x : W64) : Group :=
  { y with s := y.s.set r.val x r.isLt, sPoison := y.sPoison &&& ~~~(BitVec.ofNat 64 (2 ^ r.val)) }
/-- A uniform predicate written; q0 takes nothing (R11). -/
def Group.withQ (y : Group) (k : Reg8) (b : Bool) : Group :=
  if k.val = 0 then y
  else { y with q := if b then y.q ||| BitVec.ofNat 8 (2 ^ k.val) else y.q &&& ~~~(BitVec.ofNat 8 (2 ^ k.val))
                qPoison := y.qPoison &&& ~~~(BitVec.ofNat 8 (2 ^ k.val)) }
/-- A hypervector written. -/
def Group.withH (y : Group) (h : Reg8) (x : HVec) : Group :=
  { y with h := y.h.set h.val x h.isLt, hPoison := y.hPoison &&& ~~~(hypMarks h) }

/-- A G-set word that changes its group as `f` says, once for the portion, and goes on. -/
def GivesGroup (i : Instr) (f : State → GId → TId → Group) : Prop :=
  ∀ s g t ts, Portion s g t ts i → Effect i s (seqOn s ts) (onlyG s g (f s g t))
/-- A G-set word that writes one uniform register. -/
def GivesS (i : Instr) (d : Reg) (f : State → TId → W64) : Prop :=
  GivesGroup i fun s g t => (s.group g).withS d (f s t)
/-- A scalar form of a type: 32-bit results are zero-extended (R324). -/
def GivesScalar (i : Instr) (d : Reg) (ty : ITy) (f : State → TId → W32) (h : State → TId → W64) : Prop :=
  GivesS i d fun s t => if ty.wide then h s t else (f s t).setWidth 64

/-! ## Collectives (R52, R53) -/

/-- The live threads of a group gather at a collective: some arrive now and the others wait there. -/
structure Gathered (s : State) (g : GId) (i : Instr) : Prop where
  alive : (s.group g).live = true
  width : (s.group g).width = 16 ∨ (s.group g).width = 32 ∨ (s.group g).width = 64
  some' : packThreads s ≠ []
  arriving : ∀ u ∈ packThreads s, u ∈ liveThreads s g
  waiting : ∀ u ∈ liveThreads s g, u ∈ packThreads s ∨ (s.thread u).wait = .collective .group
  together : ∀ u ∈ liveThreads s g, ∀ v ∈ liveThreads s g, (s.thread u).pc = (s.thread v).pc
  member : ∀ u ∈ liveThreads s g, groupOf s u = g ∧ Ready s u i

/-- A thread at the word after a collective: its wait has ended (R151). -/
def Thread.released (x : Thread) : Thread :=
  { x with pc := x.pc + 4, wait := .none, since := 0, woken := false, walked := false, again := false, snap := none, owed := false
           portion := none, beyond := false }
/-- Every live thread of a group has a new state and is released; the others are as before. -/
def releasedOn (s : State) (g : GId) (f : TId → Thread) (u : TId) : Thread :=
  if u ∈ liveThreads s g then (f u).released else s.thread u

/-- The threads `ts` of a domain meet at a collective: some arrive now and the others wait there; `t` is the
first of them (R52, R53). -/
structure Meets (s : State) (dom : Domain) (t : TId) (ts : List TId) (i : Instr) : Prop where
  first : ts.head? = some t
  distinct : ts.Nodup
  some' : packThreads s ≠ []
  arriving : ∀ u ∈ packThreads s, u ∈ ts
  waiting : ∀ u ∈ ts, u ∈ packThreads s ∨ (s.thread u).wait = .collective dom
  together : ∀ u ∈ ts, (s.thread u).pc = (s.thread t).pc
  domain : ∀ u ∈ ts, domainThreads s dom u = ts ∧ domainSpilled s dom u = false
  inner : ∀ u ∈ ts, ∀ d : Domain, d.rank ≤ dom.rank → ∀ v ∈ domainThreads s d u, v ∈ ts
  own : ∀ u ∈ ts, u ∈ liveThreads s (groupOf s u) ∧ (s.group (groupOf s u)).live = true
  one : dom ≠ .team → ∀ u ∈ ts, groupOf s u = groupOf s t
  ready : ∀ u ∈ ts, Ready s u i
/-- Every thread that met has a new state and is released; the others are as before. -/
def metOn (s : State) (ts : List TId) (f : TId → Thread) (u : TId) : Thread :=
  if u ∈ ts then (f u).released else s.thread u

/-! ## Traps (R196 to R198) -/

/-- A group's handler can take a trap of a thread: TRAPVEC is not zero and ACTIVE is clear. -/
def CanTrap (s : State) (t : TId) : Prop :=
  (s.group (groupOf s t)).trapvec ≠ 0 ∧ (s.thread t).trapcause.getLsbD 16 = false
/-- A thread at its handler: TRAPPC names the instruction, and TRAPCAUSE holds the cause, ACTIVE and INFO. -/
def Thread.trapped (x : Thread) (vec : W64) (cause : Nat) (info : W32) : Thread :=
  { x with trappc := x.pc, trapcause := BitVec.ofNat 64 (info.toNat * 2 ^ 32 + 2 ^ 16 + cause), pc := vec
           wait := .none, walked := false, again := false, snap := none, owed := false
           portion := none, beyond := false }
/-- A word of one thread that takes a trap. -/
def Traps (i : Instr) (s : State) (t : TId) (cause : Nat) (info : W32) : Prop :=
  Effect i s (only s t ((s.thread t).counted.trapped (s.group (groupOf s t)).trapvec cause info)) s.group
/-- The threads of a portion that take a trap; the others are as before. -/
def trapOn (s : State) (g : GId) (ts : List TId) (cause : Nat) (info : W32) (u : TId) : Thread :=
  if u ∈ ts then (s.thread u).counted.trapped (s.group g).trapvec cause info else s.thread u

/-! ## Memory accesses (R118 to R137, R177) -/

/-- A thread's access reaches its physical address at once: the plan holds neither a walk nor a delay, the
address translates, and nothing on the way is down, gated, refused by its peer, without an answer, kept for the service
cores, absent or struck by a soft error. -/
structure Reaches (s : State) (t : TId) (va : W64) (k : Access) (pa : Nat) (ty : MemTy) : Prop where
  xlat : translate s (issuerOf s (groupOf s t)) va.toNat k = .ok (pa, ty)
  up : peerDown s (issuerOf s (groupOf s t)).part pa = false
  accepts : peerRefuses s (issuerOf s (groupOf s t)).part pa = false
  answers : lostStop s (issuerOf s (groupOf s t)) va.toNat pa k = none
  sound : (s.thread t).struck ≠ some (pa / 128)
  open' : gatedTarget s t.core pa = none
  place : deviceStop s (issuerOf s (groupOf s t)) pa va.toNat k = none
  present : parksAt s t pa ty = false
  own : stackOwner s t va.toNat = none
  back : Tbl.find s.snoopFilter (pa / 128) = none

/-- No thread holds a store within a narrow scope, no line is narrow-held (R131), and no binding of the thread awaits
a refresh (R134): an acquire then orders nothing more. -/
structure Calm (s : State) (t : TId) : Prop where
  held : ∀ p ∈ s.threads, ∀ e ∈ p.2.sb, e.held = none
  narrow : s.narrow = []
  sound : (s.thread t).directoryError = false
  marks : ∀ k : Reg8, (((s.thread t).b.get k).bound && ((s.thread t).b.get k).changed) = false

/-- No bound register of any thread is bound to a word that the bytes touch. -/
def Unwatched (s : State) (pa n : Nat) : Prop :=
  ∀ u, ∀ k : Reg8, ((s.thread u).b.get k).bound = true → overlaps pa n (((s.thread u).b.get k).pa / 4 * 4) 4 = false

/-- No register is bound to a word of a store that waits in the thread's buffer: a release then marks nothing. -/
def Unmarked (s : State) (t : TId) : Prop := ∀ e ∈ (s.thread t).sb, Unwatched s e.pa e.bytes.length

/-- What a release at a scope finds (R123, R131): no thread of the cluster holds a store back, no line is narrow-held
by it, and no register is bound to a word of the thread's stores, which at a narrow scope are all of narrow scopes. -/
structure Releases (s : State) (t : TId) (sc : Sc) : Prop where
  held : heldStores s t.core = []
  lines : ∀ e ∈ s.narrow, e.2.1.core / 2 ≠ t.core / 2
  marks : Unmarked s t
  scope : sc = .grp ∨ sc = .team → ∀ e ∈ (s.thread t).sb, e.sc = .grp ∨ e.sc = .team

/-- No release fence of the threads waits for a later store, and none of their stores stands before one (R123). -/
def Unfenced (s : State) (ts : List TId) : Prop := ∀ u ∈ ts, (s.thread u).fence = none ∧ ∀ e ∈ (s.thread u).sb, e.fenced = false

/-- No store that another thread holds back touches the bytes, and for UC no buffered store at all: a load reads
past none (R40, R124). -/
def Meets1 (s : State) (t : TId) (ty : MemTy) (pa n : Nat) : Prop :=
  ∀ p ∈ s.threads, ∀ e ∈ p.2.sb, overlaps e.pa e.bytes.length pa n = true → ty ≠ .uc ∧ (p.1 = t ∨ e.held = none)
/-- A load reads bytes in place: it reads past no store, and no tile operation works on an accumulator (R357). -/
structure InPlace (s : State) (t : TId) (ty : MemTy) (pa n : Nat) : Prop where
  past : Meets1 s t ty pa n
  tiles : ty = .uc → ∀ p ∈ s.groups, p.2.tile = none

/-- The instruction reads memory: every byte of memory is as before, and beside the given threads only the
caches of R119, R279 and R392 change. -/
def Reads (i : Instr) (s : State) (th : TId → Thread) : Prop :=
  ∃ s', exec i s = .next s' ∧ (∀ u, s'.thread u = th u) ∧ (∀ g, s'.group g = s.group g) ∧
    (∀ c, s'.core c = { s.core c with smL1 := (s'.core c).smL1, smBad := (s'.core c).smBad }) ∧
    (∀ d, s'.die d = { s.die d with smLlc := (s'.die d).smLlc, smLlcBad := (s'.die d).smLlcBad }) ∧
    s' = { s with threads := s'.threads, pmcs := s'.pmcs, fresh := s'.fresh, plan := s'.plan, cores := s'.cores
                  dies := s'.dies, hbLines := s'.hbLines, hostHalf := s'.hostHalf, lines := s'.lines, outputs := s'.outputs
                  order := s'.order }

/-- The same of an instruction that also gives groups a new state. -/
def ReadsTo (i : Instr) (s : State) (th : TId → Thread) (gr : GId → Group) : Prop :=
  ∃ s', exec i s = .next s' ∧ (∀ u, s'.thread u = th u) ∧ (∀ g, s'.group g = gr g) ∧
    (∀ c, s'.core c = { s.core c with smL1 := (s'.core c).smL1, smBad := (s'.core c).smBad }) ∧
    (∀ d, s'.die d = { s.die d with smLlc := (s'.die d).smLlc, smLlcBad := (s'.die d).smLlcBad }) ∧
    s' = { s with threads := s'.threads, groups := s'.groups, pmcs := s'.pmcs, fresh := s'.fresh, plan := s'.plan
                  cores := s'.cores, dies := s'.dies, hbLines := s'.hbLines, hostHalf := s'.hostHalf, lines := s'.lines
                  outputs := s'.outputs, order := s'.order }

/-- The instruction puts stores into a buffer: memory is as before, and beside the given threads only the narrow-held
lines of R131, as given, and the replacement priorities of R279 change. -/
def Buffers (i : Instr) (s : State) (th : TId → Thread) (nar : List (Nat × TId × Sc)) : Prop :=
  ∃ s', exec i s = .next s' ∧ (∀ u, s'.thread u = th u) ∧ (∀ g, s'.group g = s.group g) ∧
    s' = { s with threads := s'.threads, pmcs := s'.pmcs, fresh := s'.fresh, plan := s'.plan, narrow := nar, lines := s'.lines
                  order := s'.order }

/-- From memory in its canonical form, the instruction writes `n` bytes at `pa`: every other byte is as
before, and beside the given threads only poison, cached lines and stamps change. -/
def Writes (i : Instr) (s : State) (th : TId → Thread) (pa n x : Nat) : Prop :=
  Memory.wf s.mem = true → ∃ s', exec i s = .next s' ∧ (∀ u, s'.thread u = th u) ∧ (∀ g, s'.group g = s.group g) ∧
    readLE s'.mem pa n = x ∧ (∀ a, a < pa ∨ pa + n ≤ a → readCell s'.mem a = readCell s.mem a) ∧
    s' = { s with mem := s'.mem, poison := s'.poison, spadStamps := s'.spadStamps, threads := s'.threads, pmcs := s'.pmcs
                  fresh := s'.fresh, plan := s'.plan, hbLines := s'.hbLines, hostHalf := s'.hostHalf, lines := s'.lines
                  outputs := s'.outputs, order := s'.order }

/-- A lane register or pair takes a loaded value and its poison. -/
def Thread.withLoad (x : Thread) (tick : Nat) (d : Reg) (wide : Bool) (y : W64) (poison : Bool) : Thread :=
  let z := if wide then x.withPair tick d y else x.withV tick d (y.setWidth 32)
  if poison then
    { z with vPoison := z.vPoison ||| BitVec.ofNat 64 (2 ^ d.val)
        ||| (if wide then BitVec.ofNat 64 (2 ^ (oddOf d).val) else 0) }
  else z
/-- After an acquire that had nothing to refresh: FRESH is empty (R297), and what was taken before it is of no use
(R123). -/
def Thread.refreshed (x : Thread) (acq : Bool) : Thread := if acq then { x with fresh := 0, early := [] } else x

/-- The scope of an acquire, or none. -/
def acqScope (acq : Bool) (sc : Sc) : Option Sc := if acq then some sc else none

/-- A load of `n` bytes into a lane register or pair: landing at once, or outstanding and still to be read,
but for a UC load, which is read in program order (R120). -/
def GivesLoad (i : Instr) (d : Reg) (n : Nat) (acq : Bool) (sc : Sc) (la : La) (addr : State → TId → W64) : Prop :=
  ∀ s t pa ty, Alone s t i → (s.thread t).early = [] → (addr s t).toNat % n = 0 → Reaches s t (addr s t) .load pa ty →
    InPlace s t ty pa n → (acq = true → Calm s t) →
    (s.plan.headD .now = .now →
      Reads i s (only s t
        (((s.thread t).withLoad s.tick d (n == 8) (loadValue s t ty pa n).1 (loadValue s t ty pa n).2).refreshed acq).onward)) ∧
    (s.plan.headD .now = .late → ∃ o,
      IsOut o s t (.lane d (n == 8)) la
        (if ty = .uc then .known (loadValue s t ty pa n).1 (loadValue s t ty pa n).2 else .load pa n ty (acqScope acq sc)) acq 0 ∧
      Reads i s (only s t
        { (s.thread t).onward with outs := [o] }))

/-- The store of `n` bytes that a thread's buffer takes (R125, R131). -/
def bufferedStore (s : State) (pa n : Nat) (x : W64) (ty : MemTy) (rel : Bool) (sc : Sc) : StoreEnt :=
  { pa := pa, bytes := toBytes n x.toNat, ty := ty, sc := sc, rel := rel, seq := s.fresh, step := s.tick
    held := if rel then (match sc with
     | .grp => some .grp
     | .team => some .team
     | _ => none) else none }
/-- The stores of a buffer after a release at a scope: narrow scopes hold them (R131). -/
def releasedStores (sb : List StoreEnt) (rel : Bool) (sc : Sc) : List StoreEnt :=
  if rel && (sc == .grp || sc == .team) then
    sb.map fun e => { e with held := if e.held = some .team then some .team else some sc }
  else sb
/-- The narrow-held lines after a store of thread `t` to a line, which releases for the threads `ts`: at a narrow scope
it makes the line one while stores that it orders are unpublished (R131). -/
def narrowAfter (s : State) (t : TId) (ts : List TId) (pa : Nat) (rel : Bool) (sc : Sc) : List (Nat × TId × Sc) :=
  if rel && (sc == .grp || sc == .team) && (ts.any fun u => !(s.thread u).sb.isEmpty) then (pa / 128, t, sc) :: s.narrow
  else s.narrow

/-- A store of `n` bytes to which no register is bound: WB, HB and scratchpad stores wait in the thread's buffer;
an SM store of a thread whose buffer is empty enters the core's copy. Memory itself does not change. -/
def GivesStore (i : Instr) (n : Nat) (rel : Bool) (sc : Sc) (addr data : State → TId → W64) : Prop :=
  ∀ s t pa ty, Alone s t i → (addr s t).toNat % n = 0 → Reaches s t (addr s t) .store pa ty → s.plan.headD .now ≠ .walk →
    (rel = true → Releases s t sc) → Unwatched s pa n → Older s → (s.thread t).fence = none →
    (ty = .wb ∨ ty = .hb ∨ ty = .spad →
      Buffers i s (only s t
        { ((s.thread t).past pa n).onward with
            sb := releasedStores (s.thread t).sb rel sc ++ [bufferedStore s pa n (data s t) ty rel sc] })
        (narrowAfter s t [t] pa rel sc)) ∧
    (ty = .sm → (s.thread t).sb = [] → ∃ s', exec i s = .next s' ∧
      (∀ k < n, smByte s' t.core (pa + k) = (toBytes n (data s t).toNat).getD k 0) ∧
      (∀ a, a < pa ∨ pa + n ≤ a → smByte s' t.core a = smByte s t.core a) ∧
      s'.mem = s.mem ∧ (∀ u, s'.thread u = only s t ((s.thread t).past pa n).onward u) ∧ ∀ g, s'.group g = s.group g)

/-- A read-modify-write of `n` bytes at their home: the register takes the old value, and memory `f` of it
where there is one. -/
def GivesRmw (i : Instr) (d : Reg) (n : Nat) (ord : Ord) (addr : State → TId → W64) (f : State → TId → W64 → Option W64) :
    Prop :=
  ∀ s t pa ty, Alone s t i → (addr s t).toNat % n = 0 → Reaches s t (addr s t) .rmw pa ty → s.plan.headD .now = .now →
    ty = .wb ∨ ty = .hb ∨ ty = .spad → (s.thread t).sb = [] → (s.thread t).fence = none → Calm s t → Unwatched s pa n →
    memPoisoned s pa n = false →
    let old : W64 := BitVec.ofNat 64 (readLE s.mem pa n)
    Writes i s (only s t ((((s.thread t).past pa n).withLoad s.tick d (n == 8) old false).refreshed (Ord.acquires ord)).onward) pa n
      (((f s t old).getD old).toNat % 2 ^ (8 * n))

/-! ## Barriers (R142, R367) -/

/-- A barrier's fields as memory holds them, where no store by other means has left them undefined (R367). -/
structure BarIs (s : State) (pa pend left init flags : Nat) : Prop where
  pend : readLE s.mem pa 4 = pend
  left : readLE s.mem (pa + 4) 2 = left
  init : readLE s.mem (pa + 6) 2 = init
  flags : readLE s.mem (pa + 8) 1 = flags
  defined : barOpen s pa = false

/-- A thread reaches a barrier: an aligned address that translates as RMW to WB memory or a scratchpad, at
which no thread waits, in place or in a save area, and to which no register is bound. -/
structure ReachesBar (s : State) (t : TId) (va : W64) (pa : Nat) (ty : MemTy) : Prop where
  aligned : va.toNat % 16 = 0 ∧ pa % 16 = 0
  at' : Reaches s t va .rmw pa ty
  kind : ty = .wb ∨ ty = .spad
  now : s.plan.headD .now ≠ .walk
  quiet : ∀ u a p, (s.thread u).wait = .barrier a p → a ≠ pa
  away : ∀ p ∈ spilledThreads s, ∀ a q, p.2.wait = .barrier a q → a ≠ pa
  unwatched : Unwatched s pa 16

/-- From memory in its canonical form, the instruction answers a next state with the given threads and groups,
and the barrier at `pa` holds the given fields; every byte outside it is as before. -/
def SetsBar (i : Instr) (s : State) (th : TId → Thread) (gr : GId → Group) (pa pend left init flags : Nat) : Prop :=
  Memory.wf s.mem = true → ∃ s', exec i s = .next s' ∧ (∀ u, s'.thread u = th u) ∧ (∀ g, s'.group g = gr g) ∧ BarIs s' pa pend left init flags ∧
    (∀ a, a < pa ∨ pa + 9 ≤ a → readCell s'.mem a = readCell s.mem a) ∧
    s' = { s with mem := s'.mem, poison := s'.poison, spadStamps := s'.spadStamps, threads := s'.threads, groups := s'.groups
                  pmcs := s'.pmcs, clusters := s'.clusters, plan := s'.plan, lines := s'.lines, bars := s'.bars, order := s'.order }

/-! ## Engines -/

/-- No quarter of any group has an operation, and no group a tile operation. -/
def NoMatrix (s : State) : Prop := ∀ p ∈ s.groups, p.2.tile = none ∧ ∀ q ∈ p.2.mq, q.2 = []
/-- Nothing holds poison. -/
def Clean (s : State) : Prop := s.poison = [] ∧ ∀ u, (s.thread u).vPoison = 0
/-- No buffer of the threads holds a store, no store is held within a scope, and the cluster has no narrow-held line
(R131). -/
def Stored (s : State) (core : Nat) (ts : List TId) : Prop :=
  (∀ u ∈ ts, (s.thread u).sb = []) ∧ heldStores s core = [] ∧ ∀ e ∈ s.narrow, e.2.1.core / 2 ≠ core / 2

/-- `n` bytes from a virtual address translate to WB bytes of HBM from `pa` upward. -/
def Lies (s : State) (i : Issuer) (k : Access) (va n pa : Nat) : Prop :=
  ∀ j < n, translate s i ((va + j) % 2 ^ 64) k = .ok (pa + j, .wb) ∧ placeOf (pa + j) = .hbm

end Sys2Proof.Machine
end

