-- ==== Sys2Proof/Certificates/Slice0/Obligations.lean ====
section
/-! DEFINITION. The statements for the provers. -/

open Sys2Proof Sys2Proof.Machine

/-! ## Encodings (R221 to R243) -/

/-- Every well-formed instruction has a word that decodes to it: no bit of an encoding is dropped (R222,
R226 to R230). -/
def Obligations.DecodeOfEncode : Prop := ∀ i : Instr, i.WellFormed → decode (encode i) = .ok i

/-- Every 32-bit word that decodes is the one word of its instruction, and that instruction is well
formed: a reserved bit, a reserved code or a register field that R223 turns away decodes to nothing. -/
def Obligations.EncodeOfDecode : Prop :=
  ∀ w i, w < 2 ^ 32 → decode w = .ok i → i.WellFormed ∧ encode i = w

/-- Words of the spec's own tables decode to the instructions they stand for. -/
def Obligations.SpecWordsDecode : Prop :=
  decode 0x2C800860 = .ok (.cmp 1 (.b 0) (.v 1) .eq .n32) ∧
  decode 0x3D182800 = .ok (.fcmp 2 12 5 .eq) ∧
  decode 0x30C20840 = .ok (.fmul 12 8 8 .rn .f32) ∧
  decode 0x34C24930 = .ok (.fma 12 9 9 12) ∧
  decode 0x41020601 = .ok (.fcvt 16 8 .e4m3 .f32 .rn true) ∧
  decode 0x1CD83F80 = .ok (.mvh 13 0x3F80) ∧
  decode 0x49123800 = .ok (.red .add .n32 9 7) ∧
  decode 0x0C304202 = .ok (.div 3 1 2 .i32 2) ∧
  decode 0x145042E8 = .ok (.tri 5 1 2 0xE8) ∧
  decode 0x480C2023 = .ok (.shfl 6 4 1 .flip)

/-! ## Lane integers (R244 to R258) -/

/-- R248: `add`, `sub`, `mul`, `mulhi`, `min` and `max`. -/
def integerArithmetic : Prop :=
  ∀ (d a b : LOp) (ty : ITy),
    GivesBin (.add d a b ty) d a b ty (fun _ x y => x + y) ∧
    GivesBin (.sub d a b ty) d a b ty (fun _ x y => x - y) ∧
    GivesBin (.mul d a b ty) d a b ty (fun _ x y => x * y) ∧
    GivesBin (.mulhi d a b ty) d a b ty (fun w x y =>
      if ty.signed then BitVec.ofInt w (x.toInt * y.toInt / 2 ^ w) else BitVec.ofNat w (x.toNat * y.toNat / 2 ^ w)) ∧
    GivesBin (.min d a b ty) d a b ty (fun _ x y =>
      if (if ty.signed then x.toInt ≤ y.toInt else x.toNat ≤ y.toNat) then x else y) ∧
    GivesBin (.max d a b ty) d a b ty (fun _ x y =>
      if (if ty.signed then x.toInt ≤ y.toInt else x.toNat ≤ y.toNat) then y else x)

/-- A shift of R249 by a count of any size. -/
def shiftOf (k : Nat) (w : Nat) (x : BitVec w) (c : Nat) : BitVec w :=
  match k with
  | 0 => if c < w then BitVec.ofNat w (x.toNat * 2 ^ c) else 0
  | 1 => if c < w then BitVec.ofNat w (x.toNat / 2 ^ c) else 0
  | 2 => if c < w then BitVec.ofInt w (x.toInt / 2 ^ c) else if x.msb then BitVec.allOnes w else 0
  | _ => BitVec.ofNat w (x.toNat * 2 ^ (c % w) + x.toNat / 2 ^ (w - c % w))

/-- R249: `shl`, `shr`, `sar` and `rot` by a 32-bit count operand, and by the count field. -/
def shifts : Prop :=
  (∀ (d a b : LOp) (ty : ITy),
    GivesUn (.shl d a b ty) d a ty (fun s t w x => shiftOf 0 w x (readL s t b).toNat) ∧
    GivesUn (.shr d a b ty) d a ty (fun s t w x => shiftOf 1 w x (readL s t b).toNat) ∧
    GivesUn (.sar d a b ty) d a ty (fun s t w x => shiftOf 2 w x (readL s t b).toNat) ∧
    GivesUn (.rot d a b ty) d a ty (fun s t w x => shiftOf 3 w x (readL s t b).toNat)) ∧
  ∀ (d a : LOp) (n : Reg) (ty : ITy),
    GivesUn (.shlCount d a n ty) d a ty (fun _ _ w x => shiftOf 0 w x n.val) ∧
    GivesUn (.shrCount d a n ty) d a ty (fun _ _ w x => shiftOf 1 w x n.val) ∧
    GivesUn (.sarCount d a n ty) d a ty (fun _ _ w x => shiftOf 2 w x n.val) ∧
    GivesUn (.rotCount d a n ty) d a ty (fun _ _ w x => shiftOf 3 w x n.val)

/-- R248, R249: the two-operand integer words and the shifts, in every type and operand form. -/
def Obligations.ArithmeticAndShifts : Prop :=
  integerArithmetic ∧ shifts

/-- The quotient truncated toward zero, and the remainder with the dividend's sign (R250). -/
def quotient (ty : ITy) (w : Nat) (x y : BitVec w) : BitVec w :=
  if ty.signed then BitVec.ofInt w (x.toInt.tdiv y.toInt) else BitVec.ofNat w (x.toNat / y.toNat)
def remainder (ty : ITy) (w : Nat) (x y : BitVec w) : BitVec w :=
  if ty.signed then BitVec.ofInt w (x.toInt.tmod y.toInt) else BitVec.ofNat w (x.toNat % y.toNat)
/-- The operands of a division of a type, and its result as a pair holds it. -/
def divided (ty : ITy) (a b : Reg) (f : (w : Nat) → BitVec w → BitVec w → BitVec w) (s : State) (t : TId) :
    W64 × Option Flags :=
  (if ty.wide then f 64 (readPair s t a) (readPair s t b) else (f 32 (readV s t a) (readV s t b)).setWidth 64, none)
/-- The divisor of a division. -/
def divisor (ty : ITy) (b : Reg) (s : State) (t : TId) : W64 :=
  if ty.wide then readPair s t b else (readV s t b).setWidth 64

/-- R250: `div` and `rem` with a divisor that is not zero, landing at once or outstanding. The model's choice:
when the result lands is the plan's, log 5. -/
def Obligations.Divisions : Prop :=
  ∀ (d a b : Reg) (ty : ITy) (la : La),
    GivesLong (.div d a b ty la) d ty.wide la (fun s t => divisor ty b s t ≠ 0) (divided ty a b (quotient ty)) ∧
    GivesLong (.rem d a b ty la) d ty.wide la (fun s t => divisor ty b s t ≠ 0) (divided ty a b (remainder ty))

/-- R250, R198: a divisor of zero traps with DIVZ, and no register of the destination is written. -/
def divideByZeroTraps : Prop :=
  ∀ (d a b : Reg) (ty : ITy) (la : La) (s : State) (t : TId) (i : Instr),
    i = .div d a b ty la ∨ i = .rem d a b ty la → Alone s t i → CanTrap s t → divisor ty b s t = 0 → Traps i s t 0x09 0

/-- R251, R252, R255, R256: `mad`, `addi`, `movi`, `mvh`, `bfx`, `bfi` and `tri`. -/
def Obligations.LaneWords : Prop :=
  (∀ d a b c : Reg,
    Gives32 (.mad d a b c .b32) (.v d) (fun s t => readV s t a * readV s t b + readV s t c) ∧
    Gives64 (.mad d a b c .i64) d (fun s t =>
      BitVec.ofInt 64 ((readV s t a).toInt * (readV s t b).toInt) + readPair s t c) ∧
    Gives64 (.mad d a b c .n64) d (fun s t =>
      BitVec.ofNat 64 ((readV s t a).toNat * (readV s t b).toNat) + readPair s t c)) ∧
  (∀ (d a : Reg) (imm : BitVec 14),
    Gives32 (.addi d a imm) (.v d) (fun s t => readV s t a + BitVec.ofInt 32 imm.toInt)) ∧
  (∀ (d : Reg) (imm : BitVec 19), Gives32 (.movi d imm) (.v d) (fun _ _ => BitVec.ofInt 32 imm.toInt)) ∧
  (∀ (d : Reg) (imm : BitVec 16),
    Gives32 (.mvh d imm) (.v d) (fun s t => BitVec.ofNat 32 (imm.toNat * 2 ^ 16 + (readV s t d).toNat % 2 ^ 16))) ∧
  (∀ (d a : Reg) (p l : Fin 32),
    let e := min (l.val + 1) (32 - p.val)
    Gives32 (.bfx d a p l false) (.v d) (fun s t => BitVec.ofNat 32 ((readV s t a).toNat / 2 ^ p.val % 2 ^ e)) ∧
    Gives32 (.bfx d a p l true) (.v d) (fun s t =>
      ((BitVec.ofNat e ((readV s t a).toNat / 2 ^ p.val)).signExtend 32)) ∧
    Gives32 (.bfi d a p l) (.v d) (fun s t => bitsFrom 32 fun j =>
      if p.val ≤ j.val ∧ j.val < p.val + e then (readV s t a).getLsbD (j.val - p.val) else (readV s t d).getLsbD j.val)) ∧
  ∀ (d a b : Reg) (tt : Byte),
    Gives32 (.tri d a b tt) (.v d) (fun s t => bitsFrom 32 fun j =>
      tt.getLsbD (4 * ((readV s t a).getLsbD j.val).toNat + 2 * ((readV s t b).getLsbD j.val).toNat
        + ((readV s t d).getLsbD j.val).toNat))

/-- The number of one bits, and of leading zero bits, of a word (R254). -/
def onesOf {w : Nat} (x : BitVec w) : Nat := ((List.range w).filter fun i => x.getLsbD i).length
def zerosAhead {w : Nat} (x : BitVec w) : Nat := ((List.range w).takeWhile fun i => !x.getMsbD i).length

/-- R254: `mov`, `abs`, `popc`, `clz` and `brev`. -/
def unaryWords : Prop :=
  ∀ (d a : LOp) (ty : ITy),
    GivesUn (.mov d a ty) d a ty (fun _ _ _ x => x) ∧
    GivesUn (.abs d a ty) d a ty (fun _ _ w x => BitVec.ofNat w x.toInt.natAbs) ∧
    Gives32 (.popc d a ty) d (fun s t =>
      BitVec.ofNat 32 (if ty.wide then onesOf (readL64 s t a) else onesOf (readL s t a))) ∧
    Gives32 (.clz d a ty) d (fun s t =>
      BitVec.ofNat 32 (if ty.wide then zerosAhead (readL64 s t a) else zerosAhead (readL s t a))) ∧
    GivesUn (.brev d a ty) d a ty (fun _ _ w x => bitsFrom w fun j => x.getLsbD (w - 1 - j.val))

/-- R254, R96: `rand` steps the thread's generator once and gives its state, or the low half. -/
def randSteps : Prop :=
  ∀ (d : LOp) (ty : ITy) (s : State) (t : TId), Alone s t (.rand d ty) → Takes s t d →
    (ty.wide = true → ∃ r, d = .v r) →
    let x := rngStep (s.thread t).rng
    let y : Thread := { s.thread t with rng := x }
    Effect (.rand d ty) s
      (only s t (match ty.wide, d with
        | true, .v r => y.withPair s.tick r x
        | _, _ => landsIn s y d (x.setWidth 32)).onward) s.group

/-- R257, R258: `sel` and `cmp`. -/
def selectAndCompare : Prop :=
  (∀ (d a b : LOp) (p : Reg8),
    Gives32 (.sel d a b p false) d (fun s t => if readP s t p then readL s t a else readL s t b) ∧
    ∀ r, d = .v r → Gives64 (.sel d a b p true) r (fun s t => if readP s t p then readL64 s t a else readL64 s t b)) ∧
  ∀ (pd : Reg8) (a b : LOp) (ty : ITy) (c : Cond),
    GivesP (.cmp pd a b c ty) pd fun s t =>
      let x : Int := if ty.wide then (if ty.signed then (readL64 s t a).toInt else (readL64 s t a).toNat)
        else if ty.signed then (readL s t a).toInt else (readL s t a).toNat
      let y : Int := if ty.wide then (if ty.signed then (readL64 s t b).toInt else (readL64 s t b).toNat)
        else if ty.signed then (readL s t b).toInt else (readL s t b).toNat
      match c with
      | .eq => decide (x = y)
      | .ne => decide (x ≠ y)
      | .lt => decide (x < y)
      | .le => decide (x ≤ y)
      | .gt => decide (y < x)
      | .ge => decide (y ≤ x)

/-- R254, R257, R258: the one-operand words, `rand`, `sel` and `cmp`. -/
def Obligations.OneOperandAndSelect : Prop :=
  unaryWords ∧ randSteps ∧ selectAndCompare

/-! ## Lane floating point (R259 to R266) -/

/-- R259 to R261: the arithmetic words, element by element, with their flags in FPSTAT. -/
def Obligations.FloatArithmetic : Prop :=
  (∀ (d a b : Reg) (rm : Rm4) (ty : FTy),
    GivesElements (.fadd d a b rm ty) ty d a b (fun k x y => fAdd k (Rm4.mode rm) x y) ∧
    GivesElements (.fsub d a b rm ty) ty d a b (fun k x y => fSub k (Rm4.mode rm) x y) ∧
    GivesElements (.fmul d a b rm ty) ty d a b (fun k x y => fMul k (Rm4.mode rm) x y) ∧
    GivesElements (.fmin d a b ty) ty d a b (fun k x y => fMinMax k false x y) ∧
    GivesElements (.fmax d a b ty) ty d a b (fun k x y => fMinMax k true x y) ∧
    GivesFma (.fmacFma d a b rm ty) ty (Rm4.mode rm) false false d a b d ∧
    GivesFma (.fmacFms d a b rm ty) ty (Rm4.mode rm) false true d a b d ∧
    GivesFma (.fmacFnma d a b rm ty) ty (Rm4.mode rm) true false d a b d ∧
    GivesFma (.fmacFnms d a b rm ty) ty (Rm4.mode rm) true true d a b d) ∧
  ∀ d a b c : Reg,
    GivesFma (.fma d a b c) .f32 .rn false false d a b c ∧
    GivesFma (.fms d a b c) .f32 .rn false true d a b c ∧
    GivesFma (.fnma d a b c) .f32 .rn true false d a b c ∧
    GivesFma (.fnms d a b c) .f32 .rn true true d a b c

/-- R262 to R265: `fcmp` writes a predicate and flags, `fclass` one bit and no flag, and `fcvt` its
conversion, its flags and the generator. -/
def Obligations.FloatCompareClassConvert : Prop :=
  (∀ (pd : Reg8) (a b : Reg) (c : Cond) (s : State) (t : TId), Alone s t (.fcmp pd a b c) →
    let r := fCompare c (readV s t a).toNat (readV s t b).toNat
    Effect (.fcmp pd a b c) s (only s t ((s.thread t).withP pd r.1).onward)
      (onlyG s (groupOf s t) (flagged s (groupOf s t) r.2))) ∧
  (∀ d a : Reg, Gives32 (.fclass d a) (.v d) (fun s t => BitVec.ofNat 32 (fClass (readV s t a).toNat))) ∧
  ∀ (d a : Reg) (dt st : CTy) (rm : Rm) (sat : Bool) (s : State) (t : TId), Alone s t (.fcvt d a dt st rm sat) →
    let x := s.thread t
    let y := s.group (groupOf s t)
    let r := convWord dt st rm sat y.nbv1 x.rng
      (if CTy.isWide st then (readPair s t a).toNat else (readV s t a).toNat)
    let z : Thread := { x with rng := r.2.2 }
    Effect (.fcvt d a dt st rm sat) s
      (only s t (if CTy.isWide dt then z.withPair s.tick d (BitVec.ofNat 64 r.1)
        else z.withV s.tick d ((BitVec.ofNat 64 r.1).setWidth 32)).onward)
      (onlyG s (groupOf s t) (flagged s (groupOf s t) r.2.1))

/-- R266, R101, R99: the special functions, landing at once or outstanding, their flags joining FPSTAT as they
land. The model's choice: when the result lands is the plan's, log 5. -/
def Obligations.SpecialFunctions : Prop :=
  ∀ (d a : Reg) (la : La),
    let of (f : Nat → Nat × Flags) (s : State) (t : TId) : W64 × Option Flags :=
      (BitVec.ofNat 64 (f (readV s t a).toNat).1, some (f (readV s t a).toNat).2)
    let always (_ : State) (_ : TId) : Prop := True
    GivesLong (.frcp d a la) d false la always (of fRcp) ∧ GivesLong (.frsq d a la) d false la always (of fRsq) ∧
    GivesLong (.fsqrt d a la) d false la always (of fSqrt) ∧ GivesLong (.fexp2 d a la) d false la always (of fExp2) ∧
    GivesLong (.flog2 d a la) d false la always (of fLog2) ∧ GivesLong (.fsin d a la) d false la always (of fSin) ∧
    GivesLong (.fcos d a la) d false la always (of fCos)

/-! ## Collectives across lanes (R267 to R272) -/

/-- The value of a register of a gathered group at a home lane, if a participant stands there. -/
def laneOf (s : State) (g : GId) (lane : Nat) (a : Reg) : Option W32 :=
  ((liveThreads s g).find? fun u => homeLane s u == lane).map fun u => readV s u a

/-- R268: `shfl`. A lane takes the value of the lane that its own second operand picks, where that lane
holds a participant, and else its own. -/
def Obligations.ShuffleMovesLanes : Prop :=
  ∀ (d a b : Reg) (m : ShflMode) (s : State) (g : GId), Gathered s g (.shfl d a b m) →
    let w := (s.group g).width
    Effect (.shfl d a b m) s
      (releasedOn s g fun u =>
        let i := homeLane s u
        let k := readV s u b
        let x := match m with
          | .pick => laneOf s g (k.toNat % w) a
          | .rot => laneOf s g ((i + k.toNat) % w) a
          | .flip => laneOf s g (i ^^^ (k.toNat % w)) a
          | .shift => if 0 ≤ (i : Int) + k.toInt ∧ (i : Int) + k.toInt < w then laneOf s g ((i : Int) + k.toInt).toNat a else none
        (s.thread u).withV s.tick d (x.getD (readV s u a)))
      s.group

/-- The participants of a gathered group for which a test holds. -/
def countOf (s : State) (g : GId) (f : TId → Bool) : Nat := ((liveThreads s g).filter f).length
/-- The mask of R269: bit i is set where the participant at home lane i passes the test. -/
def maskOf (s : State) (g : GId) (f : TId → Bool) : W64 :=
  bitsFrom 64 fun i => (liveThreads s g).any fun u => homeLane s u == i.val && f u
/-- A mask in one register, or in a pair for a 64-wide group. -/
def withMask (s : State) (g : GId) (u : TId) (d : Reg) (m : W64) : Thread :=
  if (s.group g).width = 64 then (s.thread u).withPair s.tick d m else (s.thread u).withV s.tick d (m.setWidth 32)
/-- What R269 and R272 ask of the destination of a mask. -/
def maskFits (s : State) (g : GId) (d : Reg) : Prop := (s.group g).width = 64 → d.val % 2 = 0

/-- R269, R272: `vote` and `match`. -/
def Obligations.VotesAndMatches : Prop :=
  ∀ (d b : Reg) (pd pk : Reg8) (s : State) (g : GId),
    let m := (liveThreads s g).length
    let c := countOf s g fun u => readP s u pk
    (Gathered s g (.vote (.mask d) pk) → maskFits s g d →
      Effect (.vote (.mask d) pk) s (releasedOn s g fun u => withMask s g u d (maskOf s g fun v => readP s v pk)) s.group) ∧
    (Gathered s g (.vote (.count d) pk) →
      Effect (.vote (.count d) pk) s (releasedOn s g fun u => (s.thread u).withV s.tick d (BitVec.ofNat 32 c)) s.group) ∧
    (Gathered s g (.vote (.quorum pd b) pk) →
      Effect (.vote (.quorum pd b) pk) s (releasedOn s g fun u =>
        (s.thread u).withP pd (decide (((readV s u b).toNat ≠ 0 ∧ (readV s u b).toNat ≤ c) ∨ ((readV s u b).toNat = 0 ∧ c = m)))) s.group) ∧
    (Gathered s g (.vote (.unan pd) pk) →
      Effect (.vote (.unan pd) pk) s (releasedOn s g fun u => (s.thread u).withP pd (decide (c = m ∨ c = 0))) s.group) ∧
    (Gathered s g (.matchLanes d b false) → maskFits s g d →
      Effect (.matchLanes d b false) s
        (releasedOn s g fun u => withMask s g u d (maskOf s g fun v => decide (readV s v b = readV s u b))) s.group) ∧
    (Gathered s g (.matchLanes d b true) → maskFits s g d →
      Effect (.matchLanes d b true) s
        (releasedOn s g fun u => withMask s g u d (maskOf s g fun v => decide (readPair s v b = readPair s u b))) s.group)

/-- A fold over participants in ascending home lane: its value after each, and the flags of all steps. -/
def foldLanes (op : RedOp) (ty : RedTy) (x : W32) : List W32 → W32 × Flags
  | [] => (x, 0)
  | y :: ys =>
    let r := redStep op ty x y
    let q := foldLanes op ty r.1 ys
    (q.1, r.2 ||| q.2)
/-- The fold of a list of participants, and the identity over none (R270, R271). -/
def foldOf (op : RedOp) (ty : RedTy) : List W32 → W32 × Flags
  | [] => (redIdentity op ty, 0)
  | x :: xs => foldLanes op ty x xs

/-- R270, R271: `red` and `scan`. Each participant takes the fold of all, of those up to itself, or of those
below it; the flags of the full fold join FPSTAT once. -/
def Obligations.FoldsAcrossLanes : Prop :=
  ∀ (op : RedOp) (ty : RedTy) (d a : Reg) (s : State) (g : GId),
    let xs (ts : List TId) : List W32 := ts.map fun u => readV s u a
    let flags := (foldOf op ty (xs (liveThreads s g))).2
    let gr := onlyG s g (flagged s g flags)
    (Gathered s g (.red op ty d a) →
      Effect (.red op ty d a) s
        (releasedOn s g fun u => (s.thread u).withV s.tick d (foldOf op ty (xs (liveThreads s g))).1) gr) ∧
    (Gathered s g (.scan op ty false d a) →
      Effect (.scan op ty false d a) s
        (releasedOn s g fun u =>
          (s.thread u).withV s.tick d
            (foldOf op ty (xs ((liveThreads s g).filter fun v => decide (homeLane s v ≤ homeLane s u)))).1) gr) ∧
    (Gathered s g (.scan op ty true d a) →
      Effect (.scan op ty true d a) s
        (releasedOn s g fun u =>
          (s.thread u).withV s.tick d
            (foldOf op ty (xs ((liveThreads s g).filter fun v => decide (homeLane s v < homeLane s u)))).1) gr)

/-! ## Loads, stores and atomics (R275 to R286) -/

/-- The address of a lane memory operand (R16). -/
def laneAddr (base : Base) (off : Int) (s : State) (t : TId) : W64 := effAddr (readBase s t base) 0 off
/-- The address of an indexed operand: a v base, an s index and a scaled immediate. -/
def indexedAddr (base idx : Reg) (imm n : Nat) (s : State) (t : TId) : W64 :=
  (readV s t base).setWidth 64 + readS s t idx + BitVec.ofNat 64 (imm * n)
/-- The data of a lane store: a pair for 8 bytes. -/
def laneData (d : Reg) (sz : Sz) (s : State) (t : TId) : W64 :=
  if sz = .b64 then readPair s t d else (readV s t d).setWidth 64

/-- R277: `ld` gives the bytes at its address, zero-extended, in a register or a pair. The model's choice: when
the result lands is the plan's, log 5; what an outstanding load reads, log 16. -/
def Obligations.LoadsReadMemory : Prop :=
  ∀ (d idx r : Reg) (base : Base) (sz : Sz) (acq : Bool) (sc : Sc) (hint : Hint) (imm : Fin 4) (la : La),
    GivesLoad (.ldx d r idx sz imm la) d sz.bytes false .dev la (indexedAddr r idx imm.val sz.bytes) ∧
    GivesLoad (.lda d base sz acq sc hint imm la) d sz.bytes acq sc la (laneAddr base (imm.val * sz.bytes))

/-- R135, R137: a thread's plain store to a word to which it has a register bound marks that register changed. -/
def ownStoreMarks (i : Instr) (n : Nat) (addr : State → TId → W64) : Prop :=
  ∀ (s : State) (t : TId) (pa : Nat) (k : Reg8), Alone s t i → (addr s t).toNat % n = 0 →
    Reaches s t (addr s t) .store pa .wb → s.plan.headD .now ≠ .walk →
    ((s.thread t).b.get k).bound = true → ((s.thread t).b.get k).ovf = false → ((s.thread t).b.get k).pa / 4 = pa / 4 → Older s →
    ∃ s', exec i s = .next s' ∧ ((s'.thread t).b.get k).changed = true ∧ (s'.thread t).pc = (s.thread t).pc + 4 ∧ s'.mem = s.mem

/-- R277, R125, R135: `st` puts the low bytes of its data where R119 and R125 say, and marks the thread's own
bindings of the word. The model's choice: the store buffer, log 17; the marks, log 19. -/
def Obligations.StoresEnterMemory : Prop :=
  ∀ (d idx r : Reg) (base : Base) (sz : Sz) (rel : Bool) (sc : Sc) (hint : Hint) (imm : Fin 4),
    GivesStore (.stx d r idx sz imm) sz.bytes false .dev (indexedAddr r idx imm.val sz.bytes) (laneData d sz) ∧
    GivesStore (.sta d base sz rel sc hint imm) sz.bytes rel sc (laneAddr base (imm.val * sz.bytes)) (laneData d sz) ∧
    ownStoreMarks (.stx d r idx sz imm) sz.bytes (indexedAddr r idx imm.val sz.bytes) ∧
    ownStoreMarks (.sta d base sz false sc hint imm) sz.bytes (laneAddr base (imm.val * sz.bytes))

/-- f(x) of an atomic (R281): the new value of `n` bytes. -/
def atomOf (op : AtomOp) (w : Nat) (x y : BitVec w) : BitVec w :=
  match op with
  | .add => x + y
  | .exch => y
  | .and => x &&& y
  | .or => x ||| y
  | .xor => x ^^^ y
  | .min true => if x.toInt ≤ y.toInt then x else y
  | .min false => if x.toNat ≤ y.toNat then x else y
  | .max true => if x.toInt ≤ y.toInt then y else x
  | .max false => if x.toNat ≤ y.toNat then y else x

/-- R281, R282: `atom` and `cas` give the old value and write the new one at the home. The model's choice: when
the result lands is the plan's, log 5; one step performs the whole, log 13. -/
def Obligations.AtomicsReadModifyWrite : Prop :=
  ∀ (d : Reg) (base : Base) (op : AtomOp) (ord : Ord) (sc : Sc) (la : La),
    GivesRmw (.atom d base op false ord sc la) d 4 ord (laneAddr base 0)
      (fun s t x => some ((atomOf op 32 (x.setWidth 32) (readV s t d)).setWidth 64)) ∧
    GivesRmw (.atom d base op true ord sc la) d 8 ord (laneAddr base 0)
      (fun s t x => some (atomOf op 64 x (readPair s t d))) ∧
    GivesRmw (.cas d base false ord sc la) d 4 ord (laneAddr base 0)
      (fun s t x => if x = (readV s t d).setWidth 64 then some ((readV s t (d + 1)).setWidth 64) else none) ∧
    GivesRmw (.cas d base true ord sc la) d 8 ord (laneAddr base 0)
      (fun s t x => if x = readPair s t d then some (readPair s t (d + 2)) else none)

/-- A lane access whose address is not a multiple of its size (R275). -/
def misalignedLane (i : Instr) (s : State) (t : TId) : Prop :=
  match i with
  | .ldx _ r idx sz imm _ => (indexedAddr r idx imm.val sz.bytes s t).toNat % sz.bytes ≠ 0
  | .lda _ base sz _ _ _ imm _ => (laneAddr base (imm.val * sz.bytes) s t).toNat % sz.bytes ≠ 0
  | .stx _ r idx sz imm => (indexedAddr r idx imm.val sz.bytes s t).toNat % sz.bytes ≠ 0
  | .sta _ base sz _ _ _ imm => (laneAddr base (imm.val * sz.bytes) s t).toNat % sz.bytes ≠ 0
  | .atom _ base _ wide _ _ _ => (laneAddr base 0 s t).toNat % (if wide then 8 else 4) ≠ 0
  | .cas _ base wide _ _ _ => (laneAddr base 0 s t).toNat % (if wide then 8 else 4) ≠ 0
  | .ldb _ base imm _ => (laneAddr base (imm.toInt * 4) s t).toNat % 4 ≠ 0
  | .prune base imm => (laneAddr base (imm.toInt * 8) s t).toNat % 8 ≠ 0 ∧ (s.thread t).trellisError = false
  | _ => False

/-- R275, R198: a misaligned lane access traps with ALIGN and accesses nothing. -/
def misalignedAccessTraps : Prop :=
  ∀ i s t, Alone s t i → CanTrap s t → misalignedLane i s t → Traps i s t 0x03 0

/-- Whether a scope is narrower than `.dev` (R122). -/
abbrev isNarrow (sc : Sc) : Prop := sc = .grp ∨ sc = .team
/-- The stores of a buffer after a release fence at a scope: no later store of the thread passes them (R123). -/
def fencedStores (sb : List StoreEnt) (sc : Sc) : List StoreEnt :=
  (releasedStores sb true sc).map fun e => { e with fenced := true }

/-- R280, R284: `pf` requests a line and changes no value; a `fence` with nothing to publish holds the thread's
earlier stores at its scope, puts them before its later ones, or refreshes. -/
def prefetchAndFence : Prop :=
  (∀ (base : Base) (hint : Hint) (imm : BitVec 14) (s : State) (t : TId), Alone s t (.pf base hint imm) →
    Reads (.pf base hint imm) s (only s t (s.thread t).onward)) ∧
  ∀ (ord : FenceOrd) (sc : Sc) (s : State) (t : TId), Alone s t (.fence ord sc) → Calm s t →
    (ord = .ar → isNarrow sc ∨ (s.thread t).sb = []) →
    (ord ≠ .acq → isNarrow sc → Unmarked s t ∧ ∀ e ∈ (s.thread t).sb, isNarrow e.sc) →
    let x := s.thread t
    let y : Thread := if ord = .rel ∨ (ord = .ar ∧ isNarrow sc) then
        { x with sb := fencedStores x.sb sc, fence := if sc = .grp ∨ sc = .team then some sc else none }
      else x
    Orders (.fence ord sc) s (only s t (y.refreshed (ord != .rel)).onward) s.group

/-- The address of a trailed store: a v base is an offset within the thread's frame (R285). -/
def trailedAddr (base : Base) (imm : BitVec 8) (n : Nat) (s : State) (t : TId) : W64 :=
  match base with
  | .v r => (s.thread t).framebase + (readV s t r).setWidth 64 + BitVec.ofInt 64 (imm.toInt * n)
  | .s r => readS s t r + BitVec.ofInt 64 (imm.toInt * n)

/-- R285, R312: `stt` within the frame records the old value of the bytes on the trail, where the thread
has a choice point, and then stores. -/
def trailedStore : Prop :=
  ∀ (d : Reg) (base : Base) (sz : Sz) (imm : BitVec 8) (s : State) (t : TId) (pa : Nat) (ty : MemTy),
    let i : Instr := .stt d base sz imm
    let n := sz.bytes
    let a := trailedAddr base imm n s t
    let x := s.thread t
    let f := (s.launch (launchOf s t)).kernel.frame
    Alone s t i → a.toNat % n = 0 → x.framebase.toNat ≤ a.toNat → a.toNat + n ≤ x.framebase.toNat + f →
    Reaches s t a .store pa ty → translate s (issuerOf s (groupOf s t)) a.toNat .load = .ok (pa, ty) →
    s.plan.headD .now ≠ .walk → ty = .wb ∨ ty = .hb → x.trl.length < 2048 → Unwatched s pa n → InPlace s t ty pa n →
    Older s → x.fence = none → x.early = [] →
    let e : Trail := { addr := a.toNat, szl := Nat.log2 n, old := (loadValue s t ty pa n).1, psn := (loadValue s t ty pa n).2 }
    Reads i s (only s t
      { x.onward with trl := if x.stk = [] then x.trl else e :: x.trl
                      sb := x.sb ++ [bufferedStore s pa n (laneData d sz s t) ty false .grp] })

/-- R280, R284, R285, R312: `pf`, `fence` and `stt`. The model's choice: the store buffer and what a narrow
release holds, log 17 and 18. -/
def Obligations.FencesAndTrailedStores : Prop :=
  prefetchAndFence ∧ trailedStore

/-! ## Bound registers (R287 to R297) -/

/-- A binding of R288 to a word. -/
def boundTo (b : Bound) (va : W64) (pa : Nat) (y : W32) (ovf : Bool) : Bound :=
  { b with value := y, bound := true, changed := false, pa := pa, va := va, revoked := false, ovf := ovf }
/-- One bound register replaced. -/
def withBound (x : Thread) (k : Reg8) (b : Bound) : Thread := { x with b := x.b.set k.val b k.isLt }

/-- R288, R296: `ldb` binds a WB or HB word and takes its value; `bunb` ends the binding and keeps the
snapshot. -/
def bindAndUnbind : Prop :=
  (∀ (k : Reg8) (base : Base) (imm : BitVec 9) (la : La) (s : State) (t : TId) (pa : Nat) (ty : MemTy),
    let i : Instr := .ldb k base imm la
    let a := laneAddr base (imm.toInt * 4) s t
    let x := s.thread t
    Alone s t i → a.toNat % 4 = 0 → Reaches s t a .load pa ty → ty = .wb ∨ ty = .hb → s.plan.headD .now = .now →
    x.early = [] → InPlace s t ty pa 4 → (loadValue s t ty pa 4).2 = false →
    ∃ ovf, Reads i s (only s t
      ({ withBound x k (boundTo (x.b.get k) a pa ((loadValue s t ty pa 4).1.setWidth 32) ovf) with
          bPoison := x.bPoison &&& ~~~(BitVec.ofNat 8 (2 ^ k.val)) } : Thread).onward)) ∧
  ∀ (k : Reg8) (s : State) (t : TId), Alone s t (.bunb k) →
    let x := s.thread t
    Effect (.bunb k) s (only s t
      (withBound x k { x.b.get k with bound := false, changed := false, revoked := false, ovf := false }).onward) s.group

/-- R288, R118: a word of a type other than WB and HB has no binding: `ldb` traps with BINDTYPE. -/
def bindTypeTraps : Prop :=
  ∀ (k : Reg8) (base : Base) (imm : BitVec 9) (la : La) (s : State) (t : TId) (pa : Nat) (ty : MemTy),
    let i : Instr := .ldb k base imm la
    let a := laneAddr base (imm.toInt * 4) s t
    Alone s t i → CanTrap s t → a.toNat % 4 = 0 → Reaches s t a .load pa ty → s.plan.headD .now ≠ .walk →
    ty ≠ .wb → ty ≠ .hb → Traps i s t 0x05 0

/-- R198, R250, R275, R288: the traps that lane words take before any effect: a zero divisor, a misaligned address, a word of a type that no register binds. -/
def Obligations.InstructionTraps : Prop :=
  divideByZeroTraps ∧ misalignedAccessTraps ∧ bindTypeTraps

/-- Whether a binding of a thread awaits a refresh. -/
def awaits (x : Thread) (k : Reg8) : Bool := (x.b.get k).bound && (x.b.get k).changed
/-- FRESH after a refresh: the bindings that it read (R297). -/
def freshOf (x : Thread) : Byte := bitsFrom 8 fun k => awaits x k

/-- R134, R295: with no store waiting in any buffer, `bsync` gives every changed WB binding its word's
value in memory, unmarks it, and shows in FRESH which it read. -/
def refreshReadsChanged : Prop :=
  ∀ (s : State) (t : TId), Alone s t .bsync → (∀ p ∈ s.threads, p.2.sb = []) →
    let x := s.thread t
    x.directoryError = false → refreshFault s t = none → s.snoopFilter = [] → x.early = [] →
    (∀ k, awaits x k = true → boundTy (x.b.get k).pa = .wb ∧ memPoisoned s (x.b.get k).pa 4 = false) →
    ∃ s', exec .bsync s = .next s' ∧ s'.mem = s.mem ∧ (∀ u, u ≠ t → s'.thread u = s.thread u) ∧
      (∀ k, (s'.thread t).b.get k =
        if awaits x k then { x.b.get k with changed := false, value := BitVec.ofNat 32 (readLE s.mem (x.b.get k).pa 4) }
        else x.b.get k) ∧
      (s'.thread t).fresh = freshOf x ∧ (s'.thread t).v = x.v ∧ (s'.thread t).p = x.p ∧ (s'.thread t).pc = x.pc + 4

/-- R294: `bwait` with a zero time and no named binding returns at once; else, where no named binding is
changed, the thread waits at it. -/
def bwaitReturnsOrWaits : Prop :=
  ∀ (m : Byte) (r : Reg) (s : State) (t : TId), Alone s t (.bwait m r) →
    let x := s.thread t
    let named (k : Reg8) : Bool := m.getLsbD k.val && (x.b.get k).bound
    ((∀ k, named k = false) → readS s t r = 0 → Calm s t →
      Effect (.bwait m r) s (only s t ({ x with lastto := false, fresh := 0 } : Thread).onward) s.group) ∧
    ((∀ k, named k = true → (x.b.get k).changed = false) → ((∃ k, named k = true) ∨ readS s t r ≠ 0) →
      Effect (.bwait m r) s (only s t (x.waits (.bound m (readS s t r != 0)))) s.group)

/-- R134, R294, R295: `bsync` and `bwait`. -/
def Obligations.RefreshAndWait : Prop :=
  refreshReadsChanged ∧ bwaitReturnsOrWaits

/-- R293: `badd` adds through the binding and keeps the result, and on an unbound register adds to the
snapshot. -/
def boundAdd : Prop :=
  ∀ (k : Reg8) (r : Reg) (ord : Ord) (sc : Sc) (la : La) (s : State) (t : TId), Alone s t (.badd k r ord sc la) →
    let x := s.thread t
    let b := x.b.get k
    let y := readV s t r
    s.plan.headD .now = .now →
    (b.bound = false →
      Effect (.badd k r ord sc la) s (only s t (x.withB k (b.value + y)).onward) s.group) ∧
    (b.bound = true → boundFault s t b .rmw = none → memPoisoned s b.pa 4 = false → Calm s t → x.sb = [] →
      Tbl.find s.snoopFilter (b.pa / 128) = none → b.pa % 4 = 0 → x.fence = none → stackOwner s t b.va.toNat = none →
      (∀ u, ∀ j : Reg8, ¬(u = t ∧ j = k) → ((s.thread u).b.get j).bound = true → ((s.thread u).b.get j).pa / 4 ≠ b.pa / 4) →
      let old : W32 := BitVec.ofNat 32 (readLE s.mem b.pa 4)
      Writes (.badd k r ord sc la) s (only s t (((x.past b.pa 4).withB k (old + y)).refreshed (Ord.acquires ord)).onward) b.pa 4
        (old + y).toNat)

/-- R292, R297: the store form stores the snapshot of a bound register and does nothing on an unbound
one; `bqry` shows the state of the bindings. -/
def boundStoreAndQuery : Prop :=
  (∀ (k : Reg8) (rel : Bool) (sc : Sc) (s : State) (t : TId), Alone s t (.stBound k rel sc) →
    let x := s.thread t
    let b := x.b.get k
    (b.bound = false → Effect (.stBound k rel sc) s (only s t x.onward) s.group) ∧
    (b.bound = true → boundFault s t b .store = none → (rel = true → Releases s t sc) → b.pa % 4 = 0 → Older s →
      x.fence = none → stackOwner s t b.va.toNat = none →
      (∀ u, ∀ j : Reg8, ¬(u = t ∧ j = k) → ((s.thread u).b.get j).bound = true → ((s.thread u).b.get j).pa / 4 ≠ b.pa / 4) →
      Buffers (.stBound k rel sc) s (only s t
        { ((x.past b.pa 4).withB k b.value).onward with
            sb := releasedStores x.sb rel sc ++
              [{ bufferedStore s b.pa 4 (b.value.setWidth 64) (boundTy b.pa) rel sc with via := some k }] })
        (narrowAfter s t [t] b.pa rel sc))) ∧
  ∀ (d : Reg) (k : Reg8) (s : State) (t : TId), Alone s t (.bqry d k) →
    let x := s.thread t
    let b := x.b.get k
    let word : W32 := bitsFrom 32 fun j =>
      if j.val < 8 then (x.b.getD j.val {}).bound
      else if j.val < 16 then (x.b.getD (j.val - 8) {}).changed
      else if j.val < 24 then x.fresh.getLsbD (j.val - 16)
      else if j.val = 24 then x.lastto
      else if j.val < 30 then b.bound && (b.pa / 4).testBit (j.val - 25)
      else if j.val = 30 then b.bound && b.revoked
      else b.bound && b.ovf
    Effect (.bqry d k) s (only s t (x.withV s.tick d word).onward) s.group

/-- R288, R292, R293, R296, R297: `ldb`, `bunb`, `badd`, the store through a binding and `bqry`. The model's
choice: when a result lands is the plan's, log 5; the marks, log 19. -/
def Obligations.BoundWords : Prop :=
  bindAndUnbind ∧ boundAdd ∧ boundStoreAndQuery

/-! ## Transfers of control (R299 to R306) -/

/-- The target of a relative branch (R299). -/
def targetOf (s : State) (t : TId) (off : Int) : W64 := (s.thread t).pc + BitVec.ofInt 64 (off * 4)

/-- R300, R301, R303: branches, calls and returns move the pc; `call` links; `land` and `nop` go on;
`yield` waits for its interval. -/
def branchesMovePc : Prop :=
  (∀ (off : BitVec 25) (s : State) (t : TId), Alone s t (.bra off) →
    Effect (.bra off) s (only s t ((s.thread t).goes (targetOf s t off.toInt))) s.group) ∧
  (∀ (p : Reg8) (off : BitVec 21) (s : State) (t : TId), Alone s t (.brc p off) →
    Effect (.brc p off) s
      (only s t (if readP s t p then (s.thread t).goes (targetOf s t off.toInt) else (s.thread t).onward)) s.group) ∧
  (∀ (d : Reg) (off : BitVec 17) (s : State) (t : TId), Alone s t (.call d off) →
    Effect (.call d off) s
      (only s t (((s.thread t).withPair s.tick d ((s.thread t).pc + 4)).goes (targetOf s t off.toInt))) s.group) ∧
  (∀ (a : Reg) (s : State) (t : TId), Alone s t (.ret a) →
    ((readPair s t a).toNat % 4 = 0 → Effect (.ret a) s (only s t ((s.thread t).goes (readPair s t a))) s.group) ∧
    ((readPair s t a).toNat % 4 ≠ 0 → CanTrap s t → Traps (.ret a) s t 0x04 ((readPair s t a).setWidth 32))) ∧
  (∀ (s : State) (t : TId), Alone s t .land → Effect .land s (only s t (s.thread t).onward) s.group) ∧
  (∀ (s : State) (t : TId), Alone s t .nop → Effect .nop s (only s t (s.thread t).onward) s.group) ∧
  ∀ (s : State) (t : TId), Alone s t .yield →
    Effect .yield s (only s t ((s.thread t).waits .yield)) s.group

/-- R302, R198: `jmpi` returns from a handler, clearing ACTIVE, when its target is TRAPPC or TRAPPC + 4;
else it jumps to a `land`, and traps with IJMP at a target that is misaligned or holds another word. -/
def indirectJump : Prop :=
  ∀ (a : Reg) (s : State) (t : TId), Alone s t (.jmpi a) →
    let x := s.thread t
    let y := readPair s t a
    let returns := x.trapcause.getLsbD 16 = true ∧ (y = x.trappc ∨ y = x.trappc + 4)
    (returns →
      Effect (.jmpi a) s
        (only s t { x.goes y with trapcause := x.trapcause &&& ~~~(BitVec.ofNat 64 (2 ^ 16)) }) s.group) ∧
    (¬returns → y.toNat % 4 = 0 → ∀ pa ty, translate s (issuerOf s (groupOf s t)) y.toNat .exec = .ok (pa, ty) →
      placeOf pa = .hbm ∨ placeOf pa = .second →
      (readLE s.mem pa 4 = encode .land → Effect (.jmpi a) s (only s t (x.goes y)) s.group) ∧
      (readLE s.mem pa 4 ≠ encode .land → CanTrap s t → Traps (.jmpi a) s t 0x04 (y.setWidth 32))) ∧
    (¬returns → y.toNat % 4 ≠ 0 → CanTrap s t → Traps (.jmpi a) s t 0x04 (y.setWidth 32))

/-- R198, R299 to R303: branches, calls, returns, `jmpi`, `land`, `nop` and `yield`. -/
def Obligations.BranchesAndJumps : Prop :=
  branchesMovePc ∧ indirectJump

/-- R303, R287: a thread that executes `exit` is no longer live, its bindings end and its stacks are gone;
no other thread dies, and no register of another group changes. -/
def exitEndsThread : Prop :=
  ∀ (s : State) (t : TId), Alone s t .exit → ∃ s', exec .exit s = .next s' ∧
    (s'.thread t).live = false ∧ (s'.thread t).stk = [] ∧ (s'.thread t).trl = [] ∧
    (∀ k : Reg8, ((s'.thread t).b.get k).bound = false) ∧
    (∀ u, u ≠ t → (s'.thread u).live = (s.thread u).live ∧ (s'.thread u).v = (s.thread u).v) ∧
    ∀ g, g ≠ groupOf s t → (s'.group g).s = (s.group g).s ∧ (s'.group g).live = (s.group g).live

/-- R305, R72: `spawn` puts a record of its argument pair into the bin of its entry and team, and goes on. -/
def spawnPushesRecord : Prop :=
  ∀ (a : Reg) (off : BitVec 17) (s : State) (t : TId) (k : Nat) (b : Bin), Alone s t (.spawn a off) → Calm s t →
    let x := s.thread t
    let y := s.group (groupOf s t)
    let entry := targetOf s t off.toInt
    Tbl.find (s.core t.core).bins k = some b → binFor s t.core y.launch y.team entry = some k →
    b.recs.length + 1 < (s.launch b.launch).kernel.group → (∀ e ∈ x.sb, isNarrow e.sc) →
    ∃ s', exec (.spawn a off) s = .next s' ∧
      Tbl.find (s'.core t.core).bins k = some { b with recs := b.recs ++ [⟨readPair s t a, x.tti⟩] } ∧
      (s'.thread t).pc = x.pc + 4 ∧ (s'.thread t).v = x.v ∧ s'.mem = s.mem ∧ s'.groups = s.groups

/-- R303, R305: `exit` and `spawn`. The model's choice: a record for a due bin goes to the overflow queue, log
38. -/
def Obligations.ExitAndSpawn : Prop :=
  exitEndsThread ∧ spawnPushesRecord

/-! ## Search (R307 to R320) -/

/-- The values of the registers that a mask names, in ascending number. -/
def savedOf (x : Thread) (m : W64) : List W32 := ((List.finRange 64).filter fun r => m.getLsbD r.val).map fun r => x.v.get r
/-- A thread that meets no soft error of its search state (R207). -/
def Searches (s : State) (t : TId) (i : Instr) : Prop := Alone s t i ∧ (s.thread t).trellisError = false
/-- The word number of a thread's next word in its kernel (R310). -/
def resumeWord (s : State) (t : TId) : Nat :=
  ((s.thread t).pc + 4 - (s.launch (launchOf s t)).kernel.entry).toNat / 4

/-- R313, R208: `try` with n alternatives gives alternative 0, and for two or more pushes a choice point that
saves the masked registers and their poison; with none it gives 0xFFFF_FFFF. -/
def tryPushesChoice : Prop :=
  ∀ (d c m : Reg) (s : State) (t : TId), Searches s t (.try_ d c m) →
    let x := s.thread t
    let n := (readS s t c).toNat % 2 ^ 24
    let mask := readS s t m
    let cp : Choice :=
      { saved := savedOf x mask, mask := mask, rpc := resumeWord s t, dreg := d, tmark := x.trl.length, stolen := false
        owner := x.tti, nxt := 1, fin := n, pw := (readS s t c).toNat / 2 ^ 24, madeAt := s.tick
        savedBad := (List.finRange 64).filter fun r => mask.getLsbD r.val && x.vPoison.getLsbD r.val }
    (s.launch (launchOf s t)).kernel.frame ≠ 0 → onesOf mask ≤ 16 →
    (n = 0 → Effect (.try_ d c m) s (only s t (x.withV s.tick d 0xFFFFFFFF).onward) s.group) ∧
    (n = 1 → Effect (.try_ d c m) s (only s t (x.withV s.tick d 0).onward) s.group) ∧
    (2 ≤ n → x.stk.length < 128 →
      Effect (.try_ d c m) s (only s t (({ x with stk := cp :: x.stk } : Thread).withV s.tick d 0).onward) s.group) ∧
    (2 ≤ n → x.stk.length = 128 → CanTrap s t → Traps (.try_ d c m) s t 0x0A 0)

/-- A thread's registers with the saved values of a choice point back in place, poison with them, and then its next
alternative (R208, R312, R314). -/
def restored (x : Thread) (tick : Nat) (cp : Choice) : Thread :=
  ((((List.finRange 64).filter fun r => cp.mask.getLsbD r.val).zip cp.saved).foldl
    (fun y p => y.withLoad tick p.1 false (p.2.setWidth 64) (cp.savedBad.contains p.1)) x).withV tick cp.dreg (BitVec.ofNat 32 cp.nxt)

/-- R314: `fail` with nothing on the trail above its newest choice point, which has an alternative left and no
prune word, restores the saved registers, gives the next alternative and resumes after the `try`; the last
alternative pops the choice point. With no choice point it writes false. The model's choice: a stack that a
program stored into is set aside, log 48. -/
def Obligations.FailResumesChoice : Prop :=
  ∀ (pd : Reg8) (s : State) (t : TId), Searches s t (.fail pd) →
    let x := s.thread t
    (x.stk = [] → x.trl = [] →
      Effect (.fail pd) s (only s t (x.withP pd false).onward) s.group) ∧
    ∀ cp rest, x.stk = cp :: rest → cp.nxt < cp.fin → cp.pw = 0 → x.trl.length = cp.tmark → cp.spoiled = false →
      let stk := if cp.nxt + 1 = cp.fin then rest else { cp with nxt := cp.nxt + 1 } :: rest
      let y : Thread := { restored x s.tick cp with stk := stk, trl := if stk = [] then [] else x.trl }
      Effect (.fail pd) s
        (only s t ((y.withP pd true).goes ((s.launch (launchOf s t)).kernel.entry + BitVec.ofNat 64 (cp.rpc * 4)))) s.group

/-- R315, R316, R317: `cut` drops the choice points above a depth, `cpd` gives the depth, and `prune`
stores 1 as a release at `.team`. -/
def cutDepthPrune : Prop :=
  (∀ (a : Reg) (s : State) (t : TId), Searches s t (.cut a) →
    let x := s.thread t
    let k := (readV s t a).toNat
    Effect (.cut a) s
      (only s t ({ x with stk := x.stk.drop (x.stk.length - k), trl := if k = 0 ∧ x.stk ≠ [] then [] else x.trl } : Thread).onward)
      s.group) ∧
  (∀ (d : Reg) (s : State) (t : TId), Searches s t (.cpd d) →
    Effect (.cpd d) s (only s t ((s.thread t).withV s.tick d (BitVec.ofNat 32 (s.thread t).stk.length)).onward) s.group) ∧
  ∀ (base : Base) (imm : BitVec 16) (s : State) (t : TId) (pa : Nat) (ty : MemTy),
    let i : Instr := .prune base imm
    let a := laneAddr base (imm.toInt * 8) s t
    Searches s t i → a.toNat % 8 = 0 → Reaches s t a .store pa ty → s.plan.headD .now ≠ .walk →
    ty = .wb ∨ ty = .hb ∨ ty = .spad → Unwatched s pa 8 → Releases s t .team → Older s → (s.thread t).fence = none →
    Buffers i s (only s t
      { ((s.thread t).past pa 8).onward with
          sb := releasedStores (s.thread t).sb true .team ++ [bufferedStore s pa 8 1 ty true .team] })
      (narrowAfter s t [t] pa true .team)

/-- R313, R315 to R317: `try`, `cut`, `cpd` and `prune`. -/
def Obligations.ChoicePoints : Prop :=
  tryPushesChoice ∧ cutDepthPrune

/-- The threads of the team that `steal` may take from: active, with two or more alternatives left at
their oldest choice point (R318). -/
def mayGive (s : State) (t u : TId) : Prop :=
  u ∈ teamThreads s (s.group (groupOf s t)).launch (s.group (groupOf s t)).team ∧ u ≠ t ∧ isActive s (groupOf s u) = true ∧
    ∃ c, (s.thread u).stk.getLast? = some c ∧ c.nxt + 2 ≤ c.fin

/-- R318, R319: `steal` writes false where the thread has a choice point or no thread of the team may give;
where one thread may, it takes the upper half of that thread's alternatives and waits for them to land. The
model's choice: the copy happens in the step that issues the word, log 79. -/
def Obligations.StealSharesAlternatives : Prop :=
  ∀ (pd : Reg8) (s : State) (t : TId), Searches s t (.steal pd) →
    let x := s.thread t
    let f := (s.launch (launchOf s t)).kernel.frame
    f ≠ 0 → Memory.wf s.mem = true → (∀ c ∈ s.ctxs, c.2.spilled = []) →
    (x.stk ≠ [] ∨ (∀ u, ¬mayGive s t u) → Effect (.steal pd) s (only s t (x.withP pd false).onward) s.group) ∧
    ∀ u c src dst, x.stk = [] → mayGive s t u → (∀ v, mayGive s t v → v = u) →
      (teamThreads s (s.group (groupOf s t)).launch (s.group (groupOf s t)).team).Nodup →
      (s.thread u).stk.getLast? = some c → (beforeOf s (actorOf s t)).holds (actorOf s u) c.madeAt = true → c.pw = 0 → c.mask = 0 → c.spoiled = false → (s.thread u).sb = [] →
      x.sb = [] → heldStores s t.core = [] → heldStores s u.core = [] →
      framePlaces s t (s.thread u).framebase.toNat .load f = .ok src → framePlaces s t x.framebase.toNat .store f = .ok dst →
      let mid := c.nxt + (c.fin - c.nxt) / 2
      ∃ s', exec (.steal pd) s = .next s' ∧
        (s'.thread t).wait = .stealLanding ∧ (s'.thread t).v.get c.dreg = BitVec.ofNat 32 mid ∧
        (s'.thread t).pc = (s.launch (launchOf s t)).kernel.entry + BitVec.ofNat 64 (c.rpc * 4) ∧
        (s'.thread u).stk = (s.thread u).stk.dropLast ++ [{ c with fin := mid }] ∧
        (s'.thread t).stk = (if mid + 1 < c.fin then
          [{ c with nxt := mid + 1, tmark := 0, owner := x.tti, stolen := true, madeAt := s.tick }] else []) ∧
        ∀ a, a ∉ dst → Tbl.find s.snoopFilter (a / 128) = none → readCell s'.mem a = readCell s.mem a

/-! ## Scalar words of a group (R321 to R327) -/

/-- A scalar operation of a type on two words: bits 31:0 for a 32-bit type, its result zero-extended. -/
def scalarOf (ty : ITy) (f : (w : Nat) → BitVec w → BitVec w → BitVec w) (x y : W64) : W64 :=
  if ty.wide then f 64 x y else (f 32 (x.setWidth 32) (y.setWidth 32)).setWidth 64
/-- A scalar shift: the count is the whole 64-bit operand (R324). -/
def scalarShiftOf (k : Nat) (ty : ITy) (x y : W64) : W64 :=
  if ty.wide then shiftOf k 64 x y.toNat else (shiftOf k 32 (x.setWidth 32) y.toNat).setWidth 64
/-- The lesser and the greater of two words, signed or unsigned. -/
def lesserOf (ty : ITy) (w : Nat) (x y : BitVec w) : BitVec w :=
  if (if ty.signed then x.toInt ≤ y.toInt else x.toNat ≤ y.toNat) then x else y
def greaterOf (ty : ITy) (w : Nat) (x y : BitVec w) : BitVec w :=
  if (if ty.signed then x.toInt ≤ y.toInt else x.toNat ≤ y.toNat) then y else x

/-- R324: the two-operand scalar words, with registers and with a literal, write their result once for the
portion; every arriving thread goes on. -/
def scalarArithmetic : Prop :=
  ∀ (d a b : Reg) (imm : Byte) (ty : ITy),
    let two (f : W64 → W64 → W64) (s : State) (t : TId) : W64 := f (readS s t a) (readS s t b)
    let lit (f : W64 → W64 → W64) (s : State) (t : TId) : W64 := f (readS s t a) (imm.setWidth 64)
    GivesS (.gAdd d a b ty) d (two (scalarOf ty fun _ x y => x + y)) ∧
    GivesS (.gSub d a b ty) d (two (scalarOf ty fun _ x y => x - y)) ∧
    GivesS (.gMul d a b ty) d (two (scalarOf ty fun _ x y => x * y)) ∧
    GivesS (.gMin d a b ty) d (two (scalarOf ty (lesserOf ty))) ∧
    GivesS (.gMax d a b ty) d (two (scalarOf ty (greaterOf ty))) ∧
    GivesS (.gShl d a b ty) d (two (scalarShiftOf 0 ty)) ∧
    GivesS (.gShr d a b ty) d (two (scalarShiftOf 1 ty)) ∧
    GivesS (.gSar d a b ty) d (two (scalarShiftOf 2 ty)) ∧
    GivesS (.gAddI d a imm ty) d (lit (scalarOf ty fun _ x y => x + y)) ∧
    GivesS (.gSubI d a imm ty) d (lit (scalarOf ty fun _ x y => x - y)) ∧
    GivesS (.gMulI d a imm ty) d (lit (scalarOf ty fun _ x y => x * y)) ∧
    GivesS (.gMinI d a imm ty) d (lit (scalarOf ty (lesserOf ty))) ∧
    GivesS (.gMaxI d a imm ty) d (lit (scalarOf ty (greaterOf ty))) ∧
    GivesS (.gShlI d a imm ty) d (lit (scalarShiftOf 0 ty)) ∧
    GivesS (.gShrI d a imm ty) d (lit (scalarShiftOf 1 ty)) ∧
    GivesS (.gSarI d a imm ty) d (lit (scalarShiftOf 2 ty))

/-- R324: the other scalar words: constants, counts, `tri`, `sel` and `cmp`. -/
def scalarWords : Prop :=
  (∀ (d a : Reg) (imm : BitVec 14), GivesS (.gaddi d a imm) d fun s t => readS s t a + BitVec.ofInt 64 imm.toInt) ∧
  (∀ (d : Reg) (imm : BitVec 19), GivesS (.gMovi d imm) d fun _ _ => BitVec.ofInt 64 imm.toInt) ∧
  (∀ (d : Reg) (imm : BitVec 16), GivesS (.gMvh d imm) d fun s t =>
    BitVec.ofNat 64 (imm.toNat * 2 ^ 48 + (readS s t d).toNat % 2 ^ 48)) ∧
  (∀ (d a : Reg) (ty : ITy),
    GivesS (.gPopc d a ty) d (fun s t =>
      BitVec.ofNat 64 (if ty.wide then onesOf (readS s t a) else onesOf ((readS s t a).setWidth 32))) ∧
    GivesS (.gClz d a ty) d (fun s t =>
      BitVec.ofNat 64 (if ty.wide then zerosAhead (readS s t a) else zerosAhead ((readS s t a).setWidth 32)))) ∧
  (∀ (d a b : Reg) (tt : Byte), GivesS (.gTri d a b tt) d fun s t => bitsFrom 64 fun j =>
    tt.getLsbD (4 * ((readS s t a).getLsbD j.val).toNat + 2 * ((readS s t b).getLsbD j.val).toNat
      + ((readS s t d).getLsbD j.val).toNat)) ∧
  (∀ (d a b : Reg) (q : Reg8), GivesS (.gSel d a b q) d fun s t =>
    if readQ s (groupOf s t) q then readS s t a else readS s t b) ∧
  ∀ (qd : Reg8) (a b : Reg) (c : Cond) (ty : ITy), GivesGroup (.gCmp qd a b c ty) fun s g t =>
    let x : Int := if ty.wide then (if ty.signed then (readS s t a).toInt else (readS s t a).toNat)
      else if ty.signed then ((readS s t a).setWidth 32).toInt else ((readS s t a).setWidth 32).toNat
    let y : Int := if ty.wide then (if ty.signed then (readS s t b).toInt else (readS s t b).toNat)
      else if ty.signed then ((readS s t b).setWidth 32).toInt else ((readS s t b).setWidth 32).toNat
    (s.group g).withQ qd (match c with
      | .eq => decide (x = y)
      | .ne => decide (x ≠ y)
      | .lt => decide (x < y)
      | .le => decide (x ≤ y)
      | .gt => decide (y < x)
      | .ge => decide (y ≤ x))

/-- R324: every scalar word of a group but memory and branches. -/
def Obligations.ScalarArithmeticAndWords : Prop :=
  scalarArithmetic ∧ scalarWords

/-- R326, R327: `bru` moves the whole portion or none of it; `loop` counts down once for the portion and
branches until the counter is zero. -/
def uniformBranches : Prop :=
  (∀ (q : Reg8) (off : BitVec 22) (s : State) (g : GId) (t : TId) (ts : List TId), Portion s g t ts (.bru q off) →
    Effect (.bru q off) s (if readQ s g q then jumpOn s ts (targetOf s t off.toInt) else seqOn s ts) s.group) ∧
  ∀ (c : Reg) (off : BitVec 19) (s : State) (g : GId) (t : TId) (ts : List TId), Portion s g t ts (.loop c off) →
    let n := readS s t c - 1
    Effect (.loop c off) s (if n ≠ 0 then jumpOn s ts (targetOf s t off.toInt) else seqOn s ts)
      (onlyG s g ((s.group g).withS c n))

/-- The address of a uniform memory operand. -/
def uniformAddr (base : Reg) (off : Int) (s : State) (t : TId) : W64 := readS s t base + BitVec.ofInt 64 off

/-- R325: a uniform load makes one access, that of the lowest arriving thread, and gives its bytes to the group's
register: at once, each arriving thread refreshing for an acquire, or outstanding for every thread of the portion. -/
def uniformLoad : Prop :=
  ∀ (d base : Reg) (sz : Sz) (acq : Bool) (sc : Sc) (imm : BitVec 5) (la : La) (s : State) (g : GId) (t : TId) (ts : List TId)
    (pa : Nat) (ty : MemTy),
    let i : Instr := .gld d base sz acq sc imm la
    let n := sz.bytes
    let a := uniformAddr base (imm.toInt * n) s t
    let r := loadValue s t ty pa n
    Portion s g t ts i → (s.thread t).early = [] → a.toNat % n = 0 → Reaches s t a .load pa ty → InPlace s t ty pa n →
    (acq = true → ∀ u ∈ ts, Calm s u) →
    (s.plan.headD .now = .now → ∃ s', exec i s = .next s' ∧ s'.mem = s.mem ∧
      (∀ u, s'.thread u = if u ∈ ts then ((s.thread u).refreshed acq).onward else s.thread u) ∧
      let y := (s.group g).withS d r.1
      ∀ h, s'.group h = onlyG s g (if r.2 then { y with sPoison := y.sPoison ||| BitVec.ofNat 64 (2 ^ d.val) } else y) h) ∧
    (s.plan.headD .now = .late → ∃ s', exec i s = .next s' ∧ s'.mem = s.mem ∧ s'.groups = s.groups ∧
      (∀ u ∈ ts, ∃ o, (s'.thread u).outs = [o] ∧ o.id = s.fresh ∧ o.dest = .uni [d] ∧ o.left = la.val ∧ o.acq = acq ∧
        o.val = (if u = t then (if ty = .uc ∨ acq = true then .known r.1 r.2 else .load pa n ty none) else .joint) ∧
        (s'.thread u).pc = (s.thread u).pc + 4) ∧
      ∀ u, u ∉ ts → s'.thread u = s.thread u)

/-- R325, R329: a uniform store and `condw` make one store for the portion, that of its lowest thread; a release
orders the earlier stores of every arriving thread. -/
def uniformStores : Prop :=
  ∀ (x base : Reg) (sz : Sz) (rel : Bool) (sc : Sc) (imm : BitVec 9) (off : BitVec 11) (s : State) (g : GId) (t : TId)
    (ts : List TId) (pa : Nat) (ty : MemTy),
    ty = .wb ∨ ty = .hb ∨ ty = .spad → s.plan.headD .now ≠ .walk → Older s → (s.thread t).fence = none →
    let releases (sc : Sc) : Prop := ∀ u ∈ ts, Releases s u sc ∧ (isNarrow sc ∨ (s.thread u).sb = [])
    let puts (n : Nat) (y : W64) (rel : Bool) (sc : Sc) (u : TId) : Thread :=
      if u ∈ ts then
        { (if u = t then (s.thread u).past pa n else s.thread u).onward with
            sb := releasedStores (s.thread u).sb rel sc ++ (if u = t then [bufferedStore s pa n y ty rel sc] else []) }
      else s.thread u
    (let i : Instr := .gst x base sz rel sc imm
     let a := uniformAddr base (imm.toInt * sz.bytes) s t
     Portion s g t ts i → a.toNat % sz.bytes = 0 → Reaches s t a .store pa ty → Unwatched s pa sz.bytes →
     (rel = true → releases sc) → Buffers i s (puts sz.bytes (readS s t x) rel sc) (narrowAfter s t ts pa rel sc)) ∧
    (let i : Instr := .condw base x off
     let a := uniformAddr base (off.toInt * 8) s t
     Portion s g t ts i → a.toNat % 8 = 0 → Reaches s t a .store pa ty → releases .dev → Unwatched s pa 8 →
     Buffers i s (puts 8 (readS s t x) true .dev) s.narrow)

/-- R325, R329: `gld`, `gst` and `condw`. The model's choice: when the result lands is the plan's, log 5; an
acquire of a portion reads at once, log 15. -/
def Obligations.UniformMemory : Prop :=
  uniformLoad ∧ uniformStores

/-! ## System words (R328 to R336) -/

/-- R328: `nexttile` takes the entry at the cursor of its launch's schedule table on the core and advances the
cursor; past the end, and with no table, it gives 0xFFFF_FFFF. -/
def nexttileTakesEntry : Prop :=
  ∀ (d : Reg) (s : State) (g : GId) (t : TId) (ts : List TId), Portion s g t ts (.nexttile d) →
    let l := (s.group g).launch
    let table : Schedule := Tbl.getD (s.core g.core).tables l { entries := [] }
    (∀ e, table.entries[table.cursor]? = some (some e) → ∃ s', exec (.nexttile d) s = .next s' ∧
      (∀ h, s'.group h = onlyG s g ((s.group g).withS d (e.setWidth 64)) h) ∧
      Tbl.getD (s'.core g.core).tables l { entries := [] } = { table with cursor := table.cursor + 1 } ∧
      (∀ u, s'.thread u = seqOn s ts u) ∧ s'.mem = s.mem) ∧
    (table.entries.length ≤ table.cursor →
      Effect (.nexttile d) s (seqOn s ts) (onlyG s g ((s.group g).withS d 0x00000000FFFFFFFF)))

/-- R326 to R328: `bru`, `loop` and `nexttile`. -/
def Obligations.UniformControl : Prop :=
  uniformBranches ∧ nexttileTakesEntry

/-- R332, R198: `trap` takes the group's handler in every arriving thread, with its immediate in INFO. -/
def trapEveryThread : Prop :=
  ∀ (imm : BitVec 16) (s : State) (g : GId) (t : TId) (ts : List TId), Portion s g t ts (.trap imm) →
    (∀ u ∈ ts, CanTrap s u) →
    Effect (.trap imm) s (trapOn s g ts 0x0B (imm.setWidth 32)) s.group

/-- R333, R155: `bkpt` traps with BKPT where no debugger is attached; with one it completes, and the debugger's halt
scope that holds the group is halted, which ends the yield intervals of its cores. -/
def breakpointTrapsOrHalts : Prop :=
  ∀ (imm : BitVec 16) (s : State) (g : GId) (t : TId) (ts : List TId) (p : Nat), Portion s g t ts (.bkpt imm) →
    partOfCore s g.core = some p →
    ((s.part p).debugger = none → (∀ u ∈ ts, CanTrap s u) →
      Effect (.bkpt imm) s (trapOn s g ts 0x0C 0) s.group) ∧
    ∀ d, (s.part p).debugger = some d → ∃ s' d', exec (.bkpt imm) s = .next s' ∧
      (s'.part p).debugger = some d' ∧ d'.events = d.events + 1 ∧
      (match d.scope with
        | .group => .group g
        | .team => .team (s.group g).launch (s.group g).team
        | .launch => .launch (s.group g).launch) ∈ d'.halted ∧
      (∀ h ∈ d.halted, h ∈ d'.halted) ∧ (∀ u, (s.thread u).wait ≠ .yield → s'.thread u = seqOn s ts u) ∧ ∀ h, s'.group h = s.group h

/-- R334, R209: `uint` makes an interrupt pending in each live thread of the group it names and in no other
thread; reserved bits that are not zero trap with RSVD. -/
def userInterruptRaised : Prop :=
  ∀ (r : Reg) (s : State) (g : GId) (t : TId) (ts : List TId), Portion s g t ts (.uint r) →
    let x := (readS s t r).toNat
    (x / 2 ^ 48 ≠ 0 → (∀ u ∈ ts, CanTrap s u) →
      Effect (.uint r) s (trapOn s g ts 0x02 0) s.group) ∧
    ∀ h, x / 2 ^ 48 = 0 → heldStores s g.core = [] → (∀ u ∈ ts, (s.thread u).sb = []) →
      groupNamed s (s.group g).launch (x / 2 ^ 16 % 2 ^ 32) (x % 2 ^ 16) = some h →
      ∃ s', exec (.uint r) s = .next s' ∧
        (∀ u ∈ liveThreads s h, (s'.thread u).uint ≠ none) ∧
        (∀ u, u ∉ liveThreads s h → (s'.thread u).uint = (s.thread u).uint) ∧
        (∀ u ∈ ts, (s'.thread u).pc = (s.thread u).pc + 4) ∧ s'.mem = s.mem ∧ ∀ k, s'.group k = s.group k

/-- R332 to R334: `trap`, `bkpt` and `uint`. -/
def Obligations.SystemTraps : Prop :=
  trapEveryThread ∧ breakpointTrapsOrHalts ∧ userInterruptRaised

/-- What a thread's read of a system register gives (R169, R336): a counter of events that the model shows in part has
advanced by a free number (log 50). -/
def sysValue (s : State) (t : TId) (sr : SysReg) : Option W64 :=
  let y := s.group (groupOf s t)
  let x := s.thread t
  match sr with
  | .fpstat => some (y.fpstat.setWidth 64)
  | .nbv => some (if y.nbv1 then 1 else 0)
  | .perflvl => some (BitVec.ofNat 64 ((s.cluster (t.core / 2)).level % 32 * 2 ^ 8 + y.level % 32))
  | .seqstep => some (BitVec.ofNat 64 ((if y.busy then 2 ^ 32 else 0) + y.stepNo % 2 ^ 32))
  | .trapvec => some y.trapvec
  | .trappc => some x.trappc
  | .trapcause => some x.trapcause
  | .rngstate => some x.rng
  | .framebase => some x.framebase
  | .cpbase => some x.cpbase
  | .trailbase => some x.trailbase
  | .partid => (partOfCore s t.core).map fun p => BitVec.ofNat 64 (p % 32)
  | .pmc n => (partOfCore s t.core).map fun p => (s.pmc p).get n +
      (if n.val = 0 ∨ n.val = 6 ∨ n.val = 7 ∨ n.val = 8 then BitVec.ofNat 64 (Config.freeNat s.tick (n.val + 4000)) else 0)

/-- R335, R336: `srd` gives a group's register or that of the first arriving thread in a uniform register,
and each thread's own in its lane pair. -/
def systemRegisterRead : Prop :=
  ∀ (d : Reg) (sr : SysReg) (s : State) (g : GId) (t : TId) (ts : List TId),
    (∀ y, Portion s g t ts (.srd d false sr) → sysValue s t sr = some y →
      Effect (.srd d false sr) s (seqOn s ts) (onlyG s g ((s.group g).withS d y))) ∧
    (Portion s g t ts (.srd d true sr) → SysReg.isThread sr = true →
      Effect (.srd d true sr) s
        (fun u => if u ∈ ts then ((s.thread u).withPair s.tick d ((sysValue s u sr).getD 0)).onward else s.thread u) s.group)

/-- A thread's system register written (R197, R335, R336): read-only ones keep their values, and reserved bits
read zero. -/
def sysWritten (x : Thread) (sr : SysReg) (y : W64) : Thread :=
  match sr with
  | .trappc => { x with trappc := y }
  | .trapcause => { x with trapcause := y &&& 0xFFFFFFFF0001FFFF }
  | .rngstate => { x with rng := y }
  | _ => x
/-- A group's system register written, FPSTAT with the flags of the cycle (R99); PERFLVL is a statement of its own. -/
def groupSysWritten (s : State) (k : GId) (sr : SysReg) (y : W64) : Group :=
  let g := s.group k
  match sr with
  | .fpstat => { g with fpstat := y.setWidth 5 ||| cycleFlags s k }
  | .nbv => { g with nbv1 := y.getLsbD 0 }
  | .trapvec => { g with trapvec := y &&& 0x01FFFFFFFFFFFFFC }
  | _ => g

/-- R97, R335, R336: `swr` writes a group's register once, or every arriving thread's: from a uniform register
the same value, RNGSTATE XORed with each thread's index, and from lane pairs each thread's own. A write to a
read-only register has no effect and no trap. -/
def systemRegisterWrite : Prop :=
  ∀ (r : Reg) (sr : SysReg) (s : State) (g : GId) (t : TId) (ts : List TId),
    (Portion s g t ts (.swr r true sr) → SysReg.isThread sr = true →
      Effect (.swr r true sr) s
        (fun u => if u ∈ ts then (sysWritten (s.thread u) sr (readPair s u r)).onward else s.thread u) s.group) ∧
    (Portion s g t ts (.swr r false sr) → SysReg.isThread sr = true →
      Effect (.swr r false sr) s
        (fun u => if u ∈ ts then
            (sysWritten (s.thread u) sr
              (if sr = .rngstate then readS s t r ^^^ BitVec.ofNat 64 (s.thread u).tti else readS s t r)).onward
          else s.thread u) s.group) ∧
    (Portion s g t ts (.swr r false sr) → SysReg.isThread sr = false → sr ≠ .perflvl →
      Effect (.swr r false sr) s (seqOn s ts) (onlyG s g (groupSysWritten s g sr (readS s t r))))

/-- R330, R336: `perf` and a write of PERFLVL set the group's requested level, 23 for any greater value, and
change no value of any thread but its pc. -/
def levelRequest : Prop :=
  ∀ (r : Reg) (i : Instr) (s : State) (g : GId) (t : TId) (ts : List TId),
    i = .perf r ∨ i = .swr r false .perflvl → Portion s g t ts i →
    let level := if (readS s t r).toNat ≤ 23 then (readS s t r).toNat else 23
    ∃ s', exec i s = .next s' ∧ (∀ u, s'.thread u = seqOn s ts u) ∧
      (∀ h, s'.group h = onlyG s g { s.group g with level := level } h) ∧
      s' = { s with threads := s'.threads, groups := s'.groups, pmcs := s'.pmcs, clusters := s'.clusters, plan := s'.plan }

/-- R330, R335, R336: `srd`, `swr` and `perf`. The model's choice: some counters advance by free amounts,
log 50. -/
def Obligations.SystemRegisters : Prop :=
  systemRegisterRead ∧ systemRegisterWrite ∧ levelRequest

/-! ## Matrix words (R337 to R352) -/

/-- Whether an `mma` passes the checks of R345: K of bits 22:16, N of 14:8 and M of 3:0 of its shape word, the
formats of its descriptors, and the kept elements of its sparse A. -/
def mmaLegal (fp8 : Bool) (a b : MatOpnd) (shape : W64) (sparse : Option W64) : Prop :=
  let k := shape.toNat / 2 ^ 16 % 2 ^ 7
  let n := shape.toNat / 2 ^ 8 % 2 ^ 7
  let m := shape.toNat % 2 ^ 4
  let most := if fp8 then 16 else 8
  (∀ w0 w1 : W64, a = .desc w0 w1 ∨ b = .desc w0 w1 →
    let f := w1.toNat / 2 ^ 19 % 2 ^ 5
    if fp8 then f = 3 ∨ f = 4 else f = 1 ∨ f = 2) ∧
  (match sparse with
    | none => 1 ≤ k ∧ k ≤ most
    | some w =>
      let kept := if w.toNat / 2 ^ 56 % 4 = 1 then 8 else 4
      (w.toNat / 2 ^ 56 % 4 = 1 ∨ w.toNat / 2 ^ 56 % 4 = 2) ∧ 1 ≤ k ∧ k % 16 = 0 ∧ k ≤ most * 16 / kept) ∧
  1 ≤ m ∧ m ≤ 8 ∧ 1 ≤ n ∧ n ≤ (if b.isLanes then 8 else 64)

/-- The instruction puts an operation at the end of its quarter's queue, and the quarter goes on. -/
def joinsQueue (i : Instr) (s : State) (t : TId) (ts : List TId) (op : MatOp) : Prop :=
  let g := groupOf s t
  let q := homeLane s t / 8
  let y := s.group g
  ∃ s', exec i s = .next s' ∧ (∀ u, s'.thread u = metOn s ts s.thread u) ∧
    (∀ h, s'.group h = onlyG s g { y with mq := Tbl.put y.mq q (Tbl.getD y.mq q [] ++ [op]) } h) ∧
    s' = { s with threads := s'.threads, groups := s'.groups, pmcs := s'.pmcs, clusters := s'.clusters, plan := s'.plan }

/-- An operation as a quarter's queue takes it: the lanes of its live threads, and the start of its stability
window (R346, R348). -/
def queued (s : State) (t : TId) (ts : List TId) (acc : Reg4) (kind : MatKind) : MatOp :=
  let y := s.group (groupOf s t)
  { acc := acc.val, kind := kind, pc := (s.thread t).pc, lanes := ts.map fun u => homeLane s u % 8
    window := Tbl.getD y.fenceAt (homeLane s t / 8) y.placedAt, before := Tbl.getD y.fenceOrder (homeLane s t / 8) [] }

/-- A quarter's queue takes an operation on an accumulator of the group: fewer than 4 are to be performed. -/
def queueTakes (s : State) (t : TId) (acc : Reg4) : Prop :=
  let y := s.group (groupOf s t)
  acc.val < y.accCount ∧ ((Tbl.getD y.mq (homeLane s t / 8) []).filter fun o => !o.performed).length < 4 ∧
    ∀ p ∈ s.groups, p.2.tile = none

/-- R338, R344, R345, R351: the four `mma` words and `acczero` are accepted into the queue of the quarter that
executes them, with the registers they read, and the quarter goes on before they are performed. -/
def matrixWordsQueue : Prop :=
  (∀ (acc : Reg4) (a b : Reg) (sh : Fin 16) (src : MmaSrc) (sp fp8 : Bool) (fmt : Nat) (la : La) (i : Instr) (s : State)
      (t : TId) (ts : List TId),
    (i = .mmaE4m3 acc a b sh src sp la ∧ fp8 = true ∧ fmt = 3) ∨ (i = .mmaE5m2 acc a b sh src sp la ∧ fp8 = true ∧ fmt = 4) ∨
      (i = .mmaBf16 acc a b sh src sp la ∧ fp8 = false ∧ fmt = 2) ∨ (i = .mmaF16 acc a b sh src sp la ∧ fp8 = false ∧ fmt = 1) →
    Meets s .quarter t ts i → queueTakes s t acc → Clean s →
    let opnd (desc : Bool) (r : Reg) : MatOpnd := if desc then .desc (readS s t r) (readS s t (oddOf r)) else .lanes r fmt
    let oa := opnd (src == .dd || src == .dv) a
    let ob := opnd (src == .dd || src == .vd) b
    let shape := readS s t (highReg sh)
    let sparse := if sp then some (readS s t (oddOf (highReg sh))) else none
    mmaLegal fp8 oa ob shape sparse → joinsQueue i s t ts (queued s t ts acc (.mma oa ob shape sparse fp8))) ∧
  ∀ (acc : Reg4) (s : State) (t : TId) (ts : List TId), Meets s .quarter t ts (.acczero acc) → queueTakes s t acc →
    joinsQueue (.acczero acc) s t ts (queued s t ts acc .zero)

/-- No source of the elements that an operation wrote has changed within its stability window (R348). -/
def steady (s : State) (g : GId) (q : Nat) (op : MatOp) : Prop :=
  match op.kind with
  | .zero => True
  | .mma a b shape sparse _ =>
    let k := shape.toNat / 2 ^ 16 % 2 ^ 7
    (∀ r ∈ op.rows, ∀ x ∈ (rowSources s (issuerOf s g) g q a sparse k r).getD [], sourceMoved s g op.window op.before x = false) ∧
    ∀ j ∈ op.cols, ∀ x ∈ (colSources s (issuerOf s g) g q b k j).getD [], sourceMoved s g op.window op.before x = false

/-- The first byte of an accumulator of a quarter. -/
def accBase (s : State) (g : GId) (q acc : Nat) : Nat :=
  accAddr g.core g.bank ((s.group g).accFirst + q * (s.group g).accCount + acc) 0 0

/-- The end of a wait for a quarter's operations, all performed: none is left in its queue; a byte outside the
accumulators of its `mma` operations is as before, and every byte is where their sources were steady (R348, R352). -/
def queueEnds (s s' : State) (g : GId) (q : Nat) (ops : List MatOp) : Prop :=
  let y := s.group g
  (∃ old, ∀ h, s'.group h = onlyG s g { y with mq := Tbl.put y.mq q [], accOld := old } h) ∧
  (∀ a, (∀ op ∈ ops, op.kind ≠ .zero → a < accBase s g q op.acc ∨ accBase s g q op.acc + 2048 ≤ a) →
    readCell s'.mem a = readCell s.mem a) ∧
  ((∀ op ∈ ops, steady s g q op) → s'.mem = s.mem)

/-- Operations that have been performed, on elements of their accumulators. -/
def arePerformed (ops : List MatOp) : Prop := ∀ op ∈ ops, op.performed = true ∧ (∀ r ∈ op.rows, r < 8) ∧ ∀ j ∈ op.cols, j < 64

/-- R349, R350, R352: `mfence` with no lane result outstanding begins a new stability window; `mwait` returns
where every operation of the quarter has been performed, which settles their results, and else waits; `accmov` gives each thread its lane's
element of a column where nothing is pending. -/
def matrixWaitsAndMoves : Prop :=
  (∀ (s : State) (t : TId) (ts : List TId), Meets s .quarter t ts .mfence → (∀ u ∈ ts, ∀ e ∈ (s.thread u).sb, e.ty ≠ .spad) →
    heldStores s t.core = [] → (∀ e ∈ s.narrow, e.2.1.core / 2 ≠ t.core / 2) →
    let y := s.group (groupOf s t)
    Effect .mfence s (metOn s ts s.thread)
      (onlyG s (groupOf s t) { y with fenceAt := Tbl.put y.fenceAt (homeLane s t / 8) s.tick,
                                             fenceOrder := Tbl.put y.fenceOrder (homeLane s t / 8) (knownToAll s ts) })) ∧
  (∀ (s : State) (t : TId) (ts : List TId), Meets s .quarter t ts .mwait →
    let y := s.group (groupOf s t)
    let ops := Tbl.getD y.mq (homeLane s t / 8) []
    (ops = [] → ∃ old, Effect .mwait s (metOn s ts s.thread)
      (onlyG s (groupOf s t) { y with mq := Tbl.put y.mq (homeLane s t / 8) [], accOld := old })) ∧
    (arePerformed ops → Memory.wf s.mem = true → ∃ s', exec .mwait s = .next s' ∧ (∀ u, s'.thread u = metOn s ts s.thread u) ∧
      queueEnds s s' (groupOf s t) (homeLane s t / 8) ops) ∧
    ((∃ op ∈ ops, op.performed = false) →
      Effect .mwait s (fun u => if u ∈ ts then (s.thread u).waits (.matrix false) else s.thread u) s.group)) ∧
  ∀ (acc : Reg4) (d col : Reg) (s : State) (t : TId) (ts : List TId), Meets s .quarter t ts (.accmov acc d col) →
    let y := s.group (groupOf s t)
    let block := y.accFirst + homeLane s t / 8 * y.accCount + acc.val
    let at' (u : TId) : Nat := accAddr (groupOf s t).core (groupOf s t).bank block (homeLane s u % 8) col.val
    acc.val < y.accCount → NoMatrix s → (∀ u ∈ ts, memPoisoned s (at' u) 4 = false) →
    Effect (.accmov acc d col) s
      (metOn s ts fun u => (s.thread u).withV s.tick d (BitVec.ofNat 32 (readLE s.mem (at' u) 4))) s.group

/-- R338 to R352: the matrix words, as their queues accept them and as their threads wait. The model's choice: a
queue's operations stand in the group, log 46; what happens before an `mfence`, log 86. -/
def Obligations.MatrixWords : Prop :=
  matrixWordsQueue ∧ matrixWaitsAndMoves

/-! ## Tile words (R353 to R361) -/

/-- An entry of a context's tensor registers. -/
def tensorOf (s : State) (g : GId) (k : Reg) : Vector W64 4 :=
  Tbl.getD (s.ctx (s.group g).ctx).tid k.val (Vector.replicate 4 0)

/-- R353, R354, R114: `tidget` reads and `tidset` writes one word of an entry of the group's context, but for the
reserved bits of word 3. -/
def tensorEntries : Prop :=
  (∀ (x k : Reg) (w : Reg4), GivesS (.tidget x k w) x fun s t => (tensorOf s (groupOf s t) k).get w) ∧
  ∀ (k : Reg) (w : Reg4) (x : Reg) (s : State) (g : GId) (t : TId) (ts : List TId), Portion s g t ts (.tidset k w x) →
    ∃ s', exec (.tidset k w x) s = .next s' ∧ (∀ u, s'.thread u = seqOn s ts u) ∧ s'.groups = s.groups ∧
      (∀ k' : Reg, ∀ w' : Reg4, (tensorOf s' g k').get w' = if k' = k ∧ w' = w then
          (if w.val = 3 then readS s t x &&& 0x3FFFFFFFFFFFFFFF else readS s t x) else (tensorOf s g k').get w') ∧
      (∀ c, c ≠ (s.group g).ctx → s'.ctx c = s.ctx c) ∧
      s' = { s with threads := s'.threads, pmcs := s'.pmcs, ctxs := s'.ctxs, plan := s'.plan }

/-- R355, R361: `tgemm`, `tquant` and `tcopy` of a group whose sequencer is free read their entries, add the
bytes they will write to the barrier's PEND, set BUSY and go on. -/
def tileWordsIssue : Prop :=
  ∀ (d a b : Reg) (bar : Fin 16) (la : La) (kind : TileKind) (i : Instr) (s : State) (t : TId) (ts : List TId)
    (pa : Nat) (ty : MemTy) (p l n f : Nat),
    (i = .tgemm d a b bar la ∧ kind = .gemm) ∨ (i = .tquant d a bar la ∧ b = a ∧ kind = .quant) ∨
      (∃ rm sat, i = .tcopy d a rm sat bar la ∧ b = a ∧ kind = .copy rm sat) →
    Meets s .group t ts i → ReachesBar s t (readS s t (highReg bar)) pa ty → BarIs s pa p l n f →
    let g := groupOf s t
    let y := s.group g
    let o : TileOp :=
      { kind := kind, dst := tensorOf s g d, srcA := tensorOf s g a, srcB := tensorOf s g b, bar := pa, nbv1 := y.nbv1
        pc := (s.thread t).pc }
    y.busy = false → tileOk o = true → (kind = .gemm → y.width ≠ 16 ∧ y.accCount ≠ 0) →
    (∀ q ∈ y.mq, ∀ op ∈ q.2, op.performed = true) → Stored s g.core ts →
    p + tileTotal o < 2 ^ 32 → p + tileTotal o ≠ 0 →
    SetsBar i s (metOn s ts s.thread) (onlyG s g { y with tile := some o, stepNo := 0, busy := true }) pa (p + tileTotal o) l n f

/-- R353 to R355, R361: `tidget`, `tidset`, `tgemm`, `tquant` and `tcopy`. -/
def Obligations.TileWords : Prop :=
  tensorEntries ∧ tileWordsIssue

/-! ## Copies (R362 to R366) -/

/-- R363, R364: `cpy`, `cpyg` and `cpys` with well-formed registers and a free command number are accepted with
the registers they read, and their portion goes on; they have landed nothing yet. -/
def Obligations.CopyWordsAccepted : Prop :=
  ∀ (d x n : Reg) (bar : Fin 16) (la : La) (kind : CopyKind) (i : Instr) (s : State) (g : GId) (t : TId) (ts : List TId)
    (pa : Nat) (ty : MemTy),
    (i = .cpy d x n bar la ∧ kind = .flat) ∨ (i = .cpyg d x n bar la ∧ kind = .gather) ∨
      (i = .cpys d x n bar la ∧ kind = .scatter) →
    Portion s g t ts i → ReachesBar s t (readS s t (highReg bar)) pa ty → Stored s g.core ts →
    let count := (readS s t n).toNat % 2 ^ 32
    let grain := (readS s t n).toNat / 2 ^ 32 % 2 ^ 8
    let esize := (readS s t n).toNat / 2 ^ 32 % 2 ^ 16
    let idx := readS s t (oddOf n)
    count ≠ 0 → (kind = .flat → grain = 0 ∨ count % grain = 0) →
    (kind ≠ .flat → esize ≠ 0 ∧ esize ≤ 4096 ∧ idx.toNat % 4 = 0) →
    (∃ k < 64, Tbl.find (s.core g.core).copies k = none) → (∀ p ∈ s.groups, p.1.core = g.core → p.2.copyWait = []) →
    ∃ s' k c, exec i s = .next s' ∧ k < 64 ∧ Tbl.find (s.core g.core).copies k = none ∧
      Tbl.find (s'.core g.core).copies k = some c ∧ c.kind = kind ∧ c.dst = readS s t d ∧ c.src = readS s t x ∧
      c.count = readS s t n ∧ (kind ≠ .flat → c.idx = idx) ∧ c.bar = pa ∧ c.group = g ∧ c.slots = ts.map TId.slot ∧
      c.landed = [] ∧ c.bytesLanded = 0 ∧ (∀ u, s'.thread u = seqOn s ts u) ∧ (∀ h, s'.group h = s.group h) ∧ s'.mem = s.mem ∧
      (∀ k', k' ≠ k → Tbl.find (s'.core g.core).copies k' = Tbl.find (s.core g.core).copies k') ∧
      ∀ j, j ∈ s'.absent ↔ j ∈ s.absent ∨ (Tbl.find c.cleared j).isSome

/-! ## Barrier words (R367 to R370) -/

/-- The address of a barrier word. -/
def barVa (base : Reg) (imm : BitVec 10) (s : State) (t : TId) : W64 := readS s t base + BitVec.ofInt 64 (imm.toInt * 8)
/-- A barrier word finds its barrier, which holds the given fields and no poison. -/
def AtBar (i : Instr) (team : Bool) (base : Reg) (imm : BitVec 10) (s : State) (t : TId) (ts : List TId) (pa : Nat)
    (p l n f : Nat) : Prop :=
  Meets s (if team then .team else .group) t ts i ∧ (∃ ty, ReachesBar s t (barVa base imm s t) pa ty) ∧
    memPoisoned s pa 16 = false ∧ BarIs s pa p l n f
/-- The groups of some threads with a change of their tokens. -/
def tokensOn (s : State) (ts : List TId) (f : List Token → List Token) (g : GId) : Group :=
  if g ∈ ts.map (groupOf s) then { s.group g with tokens := f (s.group g).tokens } else s.group g
/-- A token recorded: it replaces that of its address, or else the oldest of four (R369). -/
def recorded (pa : Nat) (parity : Bool) (k : List Token) : List Token := (⟨pa, parity⟩ :: k.filter fun e => e.addr ≠ pa).take 4
/-- The parity a thread's wait looks past: its group's token of the address, or the phase (R369). -/
def parityOf (s : State) (u : TId) (pa f : Nat) : Bool :=
  (((s.group (groupOf s u)).tokens.find? fun e => e.addr = pa).map Token.parity).getD (f % 2 == 1)
/-- Threads that wait at a barrier. -/
def barWaitOn (s : State) (ts : List TId) (pa : Nat) (parity : TId → Bool) (u : TId) : Thread :=
  if u ∈ ts then (s.thread u).waits (.barrier pa (parity u)) else s.thread u

/-- R368, R369, R370: what each barrier word does to the record, the tokens and the threads, in each form. An
arrival that leaves LEFT and PEND 0 completes the phase: PHASE flips and LEFT is INIT again. -/
def Obligations.BarrierWords : Prop :=
  ∀ (team : Bool) (base x : Reg) (q : Reg8) (imm : BitVec 10) (s : State) (t : TId) (ts : List TId) (pa p l n f : Nat),
    let done := metOn s ts s.thread
    (AtBar (.barInit team base x imm) team base imm s t ts pa p l n f →
      let m := (readS s t x).toNat
      1 ≤ m → m ≤ 65535 → Unfenced s ts →
      SetsBar (.barInit team base x imm) s done (tokensOn s ts fun k => k.filter fun e => e.addr ≠ pa) pa 0 m m 0) ∧
    (AtBar (.barExpect team base x imm) team base imm s t ts pa p l n f →
      let m := p + (readS s t x).toNat
      m < 2 ^ 32 → m ≠ 0 ∨ l ≠ 0 → Unfenced s ts → SetsBar (.barExpect team base x imm) s done s.group pa m l n f) ∧
    (AtBar (.barArrive team base imm) team base imm s t ts pa p l n f → Stored s t.core ts → l ≠ 0 → f < 256 →
      let gr := tokensOn s ts (recorded pa (f % 2 == 1))
      (l ≠ 1 ∨ p ≠ 0 ∨ f / 2 % 2 = 1 → SetsBar (.barArrive team base imm) s done gr pa p (l - 1) n f) ∧
      (l = 1 → p = 0 → f / 2 % 2 = 0 → SetsBar (.barArrive team base imm) s done gr pa 0 n n (f ^^^ 1))) ∧
    (AtBar (.barWait team base imm) team base imm s t ts pa p l n f → f / 2 % 2 = 0 →
      ((∀ u ∈ ts, parityOf s u pa f ≠ (f % 2 == 1) ∧ Calm s u) →
        Orders (.barWait team base imm) s (metOn s ts fun u => (s.thread u).refreshed true) s.group) ∧
      ((∀ u ∈ ts, parityOf s u pa f = (f % 2 == 1)) →
        Effect (.barWait team base imm) s (barWaitOn s ts pa fun u => parityOf s u pa f) s.group)) ∧
    (AtBar (.barTest team base q imm) team base imm s t ts pa p l n f → f / 2 % 2 = 0 →
      (∀ u ∈ ts, parityOf s u pa f ≠ (f % 2 == 1) → Calm s u) →
      Orders (.barTest team base q imm) s
        (metOn s ts fun u => (s.thread u).refreshed (parityOf s u pa f != (f % 2 == 1)))
        (fun g => if g ∈ ts.map (groupOf s) then
          (s.group g).withQ q ((((s.group g).tokens.find? fun e => e.addr = pa).map Token.parity).getD (f % 2 == 1) != (f % 2 == 1))
          else s.group g)) ∧
    (AtBar (.barSync team base imm) team base imm s t ts pa p l n f → Stored s t.core ts → l ≠ 0 → f < 256 → f / 2 % 2 = 0 →
      let gr := tokensOn s ts (recorded pa (f % 2 == 1))
      (l ≠ 1 ∨ p ≠ 0 →
        SetsBar (.barSync team base imm) s (barWaitOn s ts pa fun _ => f % 2 == 1) gr pa p (l - 1) n f) ∧
      (l = 1 → p = 0 → (∀ u ∈ ts, Calm s u) →
        SetsBar (.barSync team base imm) s (metOn s ts fun u => (s.thread u).refreshed true) gr pa 0 n n (f ^^^ 1)))

/-! ## Cache ranges (R371) -/

/-- The lines of the bytes from an address. -/
def linesOf (a n : Nat) : List Nat := (List.range ((a + n + 127) / 128 - a / 128)).map fun k => a / 128 + k
/-- Every byte of a line that is dirty in a core's copy is in memory, no copy of the line there is dirty, and
every other byte of memory is as before. -/
def writtenBack (s s' : State) (core line : Nat) : Prop :=
  (∀ e ∈ (s.core core).smL1, e.2.2 = true → e.1 / 128 = line → (∀ e' ∈ (s.core core).smL1, e'.1 = e.1 → e' = e) →
    readCell s'.mem e.1 = e.2.1) ∧
  (∀ a, (∀ e ∈ (s.core core).smL1, e.1 = a → ¬(e.2.2 = true ∧ a / 128 = line)) → readCell s'.mem a = readCell s.mem a) ∧
  ∀ e ∈ (s'.core core).smL1, e.1 / 128 = line → e.2.2 = false
/-- Neither copy of a line is left. -/
def dropped (s' : State) (core line : Nat) : Prop :=
  (∀ e ∈ (s'.core core).smL1, e.1 / 128 ≠ line) ∧ ∀ e ∈ (s'.die (core / 40)).smLlc, e.1 / 128 ≠ line

/-- R371, R143: `pfr` over any range changes no value, and the other range words over one with no SM page nothing; over one
SM line `wbr` writes the dirty bytes back, `invr` also drops both copies, and its discard form drops them and
writes nothing. -/
def Obligations.CacheRanges : Prop :=
  ∀ (base len : Reg) (imm : BitVec 12) (i : Instr) (s : State) (g : GId) (t : TId) (ts : List TId), Portion s g t ts i →
    let a := (readS s t base + BitVec.ofInt 64 imm.toInt).toNat
    let n := (readS s t len).toNat
    (i = .pfr base len imm → Reads i s (seqOn s ts)) ∧
    (i = .wbr base len imm ∨ i = .invr base len imm ∨ i = .invrD base len imm → s.plan.headD .now ≠ .walk →
      (n = 0 ∨ a + n ≤ 2 ^ 57) → (i = .wbr base len imm → Unfenced s ts) →
      (∀ l ∈ linesOf a n, n ≠ 0 → ∃ pa ty, Reaches s t (BitVec.ofNat 64 (l * 128)) .load pa ty ∧ ty ≠ .sm) →
      Effect i s (seqOn s ts) s.group) ∧
    ∀ pa, Memory.wf s.mem = true → n ≠ 0 → a + n ≤ 2 ^ 57 → linesOf a n = [a / 128] → s.plan.headD .now ≠ .walk →
      Reaches s t (BitVec.ofNat 64 (a / 128 * 128)) .load pa .sm → Reaches s t (BitVec.ofNat 64 (a / 128 * 128)) .store pa .sm →
      (i = .wbr base len imm → Unfenced s ts → ∃ s', exec i s = .next s' ∧ (∀ u, s'.thread u = seqOn s ts u) ∧ s'.groups = s.groups ∧
        writtenBack s s' g.core (pa / 128)) ∧
      (i = .invr base len imm → ∃ s', exec i s = .next s' ∧ (∀ u, s'.thread u = seqOn s ts u) ∧ s'.groups = s.groups ∧
        writtenBack s s' g.core (pa / 128) ∧ dropped s' g.core (pa / 128)) ∧
      (i = .invrD base len imm → ∃ s', exec i s = .next s' ∧ (∀ u, s'.thread u = seqOn s ts u) ∧ s'.groups = s.groups ∧
        s'.mem = s.mem ∧ dropped s' g.core (pa / 128))

/-! ## Hypervectors (R372 to R382) -/

/-- The state of the generator of R96 after some steps. -/
def rngAfter : Nat → W64 → W64
  | 0, x => x
  | n + 1, x => rngStep (rngAfter n x)

/-- R376 to R379, R382: binding, permuting, counting and seeding a vector, and moving slices between vectors
and the lanes. -/
def Obligations.HypervectorWords : Prop :=
  (∀ d a b : Reg8, GivesGroup (.hvxor d a b) fun s g t => (s.group g).withH d (readH s t a ^^^ readH s t b)) ∧
  (∀ (d a : Reg8) (n : BitVec 12), GivesGroup (.hvrot d a n) fun s g t =>
    (s.group g).withH d (bitsFrom 4096 fun j => (readH s t a).getLsbD ((j.val + 4096 - n.toNat) % 4096))) ∧
  (∀ (d a : Reg8) (x : Reg), GivesGroup (.hvrotReg d a x) fun s g t =>
    (s.group g).withH d (bitsFrom 4096 fun j => (readH s t a).getLsbD ((j.val + 4096 - (readS s t x).toNat % 4096) % 4096))) ∧
  (∀ (d a b : Reg8) (tt : Byte), GivesGroup (.hvtri d a b tt) fun s g t =>
    (s.group g).withH d (bitsFrom 4096 fun j =>
      tt.getLsbD (4 * ((readH s t a).getLsbD j.val).toNat + 2 * ((readH s t b).getLsbD j.val).toNat
        + ((readH s t d).getLsbD j.val).toNat))) ∧
  (∀ (x : Reg) (a b : Reg8),
    GivesS (.hvpop x a) x (fun s t => BitVec.ofNat 64 (onesOf (readH s t a))) ∧
    GivesS (.hvdist x a b) x (fun s t => BitVec.ofNat 64 (onesOf (readH s t a ^^^ readH s t b)))) ∧
  (∀ (d : Reg8) (x : Reg), GivesGroup (.hvseed d x) fun s g t =>
    (s.group g).withH d (bitsFrom 4096 fun j => (rngAfter (j.val / 64 + 1) (readS s t x)).getLsbD (j.val % 64))) ∧
  (∀ (d : Reg8) (v x : Reg) (s : State) (g : GId) (t : TId) (ts : List TId), Portion s g t ts (.hvmovToH d v x) →
    let m (u : TId) : Nat := ((readS s t x).toNat % 128 + homeLane s u) % 128
    let y := s.group g
    (∀ u ∈ ts, ∀ w ∈ ts, m u = m w → u = w) →
    ∃ h p, Effect (.hvmovToH d v x) s (seqOn s ts) (onlyG s g { y with h := y.h.set d.val h d.isLt, hPoison := p }) ∧
      (y.hPoison = 0 → p = 0) ∧
      (∀ u ∈ ts, ∀ j < 32, h.getLsbD (32 * m u + j) = (readV s u v).getLsbD j) ∧
      ∀ j < 4096, (∀ u ∈ ts, m u ≠ j / 32) → h.getLsbD j = (y.h.get d).getLsbD j) ∧
  ∀ (a : Reg8) (v x : Reg) (s : State) (g : GId) (t : TId) (ts : List TId), Portion s g t ts (.hvmovToV a v x) →
    let m (u : TId) : Nat := ((readS s t x).toNat % 128 + homeLane s u) % 128
    (∀ u ∈ ts, (s.group g).hPoison.getLsbD (64 * a.val + m u / 2) = false) →
    Effect (.hvmovToV a v x) s
      (fun u => if u ∈ ts then
          ((s.thread u).withV s.tick v (bitsFrom 32 fun j => (readH s t a).getLsbD (32 * m u + j.val))).onward
        else s.thread u) s.group

/-- A counter of a set, and a bit of its tie vector, as the core window holds them. -/
def counterOf (s : State) (core n i : Nat) : Int := (readCell s.mem (windowAddr core (0x300000 + n * 4096 + i))).toInt
def tieOf (s : State) (core n i : Nat) : Bool := (readLE s.mem (windowAddr core (0x310000 + n * 512)) 512).testBit i
/-- The limit of a set's counters: 2 ^ (w − 1) − 1 for the width w of the launch that holds it (R374). -/
def limitOf (s : State) (core n : Nat) : Int := 2 ^ (counterWidth s core n - 1) - 1

/-- R375, R380, R381: `hvld` reads 512 bytes and `hvst` stores them as 64 words; `hvbnd` votes on every counter
within its limits, `hvthr` gives the signs with ties from the tie vector, `hvclr` and `hvtie` set a set's state;
a set that is not mapped traps with UNDEF. The model's choice: when a result lands is the plan's, log 5. -/
def Obligations.HypervectorMemoryAndSets : Prop :=
  (∀ (h : Reg8) (base : Reg) (imm : BitVec 12) (la : La) (s : State) (g : GId) (t : TId) (ts : List TId)
      (pa : Nat → Nat) (ty : Nat → MemTy),
    let i : Instr := .hvld h base imm la
    let a := uniformAddr base (imm.toInt * 64) s t
    Portion s g t ts i → a.toNat % 64 = 0 → s.plan.headD .now = .now → (s.thread t).early = [] →
    (∀ k < 64, Reaches s t (a + BitVec.ofNat 64 (8 * k)) .load (pa (k / 8) + 8 * (k % 8)) (ty (k / 8))) →
    (∀ j < 8, (ty j = .wb ∨ ty j = .spad ∨ ty j = .uc) ∧ InPlace s t (ty j) (pa j) 64) →
    (∀ j < 512, (loadByte s t (ty (j / 64)) (pa (j / 64) + j % 64)).2 = false) →
    ReadsTo i s (seqOn s ts) (onlyG s g ((s.group g).withH h
      (bitsFrom 4096 fun k => (loadByte s t (ty (k.val / 512)) (pa (k.val / 512) + k.val / 8 % 64)).1.getLsbD (k.val % 8))))) ∧
  (∀ (h : Reg8) (base : Reg) (imm : BitVec 12) (s : State) (g : GId) (t : TId) (ts : List TId) (pa : Nat → Nat) (ty : Nat → MemTy),
    let i : Instr := .hvst h base imm
    let a := uniformAddr base (imm.toInt * 64) s t
    Portion s g t ts i → a.toNat % 64 = 0 → s.plan.headD .now ≠ .walk →
    (∀ k < 64, Reaches s t (a + BitVec.ofNat 64 (8 * k)) .store (pa (k / 8) + 8 * (k % 8)) (ty (k / 8))) →
    (∀ j < 8, (ty j = .wb ∨ ty j = .hb ∨ ty j = .spad) ∧ Unwatched s (pa j) 64) → Older s → (s.thread t).fence = none →
    (s.thread t).early = [] →
    Buffers i s
      (fun u => if u = t then
          { (s.thread t).onward with
              sb := (s.thread t).sb ++ (List.range 64).map fun k =>
                { bufferedStore s (pa (k / 8) + 8 * (k % 8)) 8 (bitsFrom 64 fun j => (readH s t h).getLsbD (64 * k + j.val))
                    (ty (k / 8)) false .dev with seq := s.fresh + k } }
        else seqOn s ts u) s.narrow) ∧
  ∀ (c : Reg4) (h : Reg8) (w : Fin 16) (i : Instr) (s : State) (g : GId) (t : TId) (ts : List TId), Portion s g t ts i →
    ((s.group g).cmap.get c = none → i = .hvbnd c h w ∨ i = .hvthr h c ∨ i = .hvclr c ∨ i = .hvtie c h → (∀ u ∈ ts, CanTrap s u) →
      Effect i s (trapOn s g ts 0x01 0) s.group) ∧
    ∀ n, (s.group g).cmap.get c = some n → n < 16 → Memory.wf s.mem = true →
      let base := windowAddr g.core (0x300000 + n * 4096)
      let tie := windowAddr g.core (0x310000 + n * 512)
      let clean := memPoisoned s base 4096 = false ∧ memPoisoned s tie 512 = false
      let lim := limitOf s g.core n
      (i = .hvbnd c h w → memPoisoned s base 4096 = false → ∃ s', exec i s = .next s' ∧ (∀ u, s'.thread u = seqOn s ts u) ∧ s'.groups = s.groups ∧
        (∀ k < 4096, readCell s'.mem (base + k) = BitVec.ofInt 8
          (max (-lim) (min lim (counterOf s g.core n k + (if (readH s t h).getLsbD k then (w.val : Int) else -w.val))))) ∧
        ∀ a, a < base ∨ base + 4096 ≤ a → readCell s'.mem a = readCell s.mem a) ∧
      (i = .hvthr h c → clean → Effect i s (seqOn s ts) (onlyG s g ((s.group g).withH h (bitsFrom 4096 fun k =>
        decide (0 < counterOf s g.core n k.val) || (counterOf s g.core n k.val == 0 && tieOf s g.core n k.val))))) ∧
      (i = .hvclr c → ∃ s', exec i s = .next s' ∧ (∀ u, s'.thread u = seqOn s ts u) ∧ s'.groups = s.groups ∧
        (∀ k < 4096, counterOf s' g.core n k = 0 ∧ tieOf s' g.core n k = decide (k % 2 = 1)) ∧
        ∀ a, (a < base ∨ base + 4096 ≤ a) → (a < tie ∨ tie + 512 ≤ a) → readCell s'.mem a = readCell s.mem a) ∧
      (i = .hvtie c h → ∃ s', exec i s = .next s' ∧ (∀ u, s'.thread u = seqOn s ts u) ∧ s'.groups = s.groups ∧
        (∀ k < 4096, tieOf s' g.core n k = (readH s t h).getLsbD k) ∧
        ∀ a, (a < tie ∨ tie + 512 ≤ a) → readCell s'.mem a = readCell s.mem a)

/-! ## The Glasshouse (R383 to R388) -/

/-- The valid entries below a limit and their distances to a vector, each once, nearest first and at one
distance the lowest first (R385, R386). -/
structure Ranked (s : State) (cluster : Nat) (x : HVec) (lim : Nat) (ps : List (Nat × Nat)) : Prop where
  all : ∀ e d, (e, d) ∈ ps ↔ e < lim ∧ ∃ v, Tbl.find (s.cluster cluster).entries e = some v ∧ d = onesOf (v ^^^ x)
  sorted : ps.Pairwise fun a b => a.2 < b.2 ∨ (a.2 = b.2 ∧ a.1 < b.1)
/-- The index and distance of a rank, or those of no entry (R385). -/
def rankWords (ps : List (Nat × Nat)) (k : Nat) : W64 × W64 :=
  match ps[k]? with
  | some p => (BitVec.ofNat 64 p.1, BitVec.ofNat 64 p.2)
  | none => (0xFFFFFFFF, 4097)

/-- R384 to R386: `amw` writes an entry and makes it valid, `amclr` ends a range of entries; `hvnear` and
`hvneark` give the nearest valid entries below the limit, the lowest index first at one distance. The model's
choice: when a result lands is the plan's, log 5. -/
def Obligations.GlasshouseWords : Prop :=
  (∀ (x : Reg) (h : Reg8) (s : State) (g : GId) (t : TId) (ts : List TId), Portion s g t ts (.amw x h) →
    let e := (readS s t x).toNat
    (e < 1024 → ∃ s', exec (.amw x h) s = .next s' ∧ (∀ u, s'.thread u = seqOn s ts u) ∧
      (∀ k, Tbl.find (s'.cluster (g.core / 2)).entries k =
        if k = e then some (readH s t h) else Tbl.find (s.cluster (g.core / 2)).entries k) ∧
      s' = { s with threads := s'.threads, pmcs := s'.pmcs, clusters := s'.clusters, plan := s'.plan }) ∧
    (1024 ≤ e → (∀ u ∈ ts, CanTrap s u) → Effect (.amw x h) s
      (trapOn s g ts 0x01 0) s.group)) ∧
  (∀ (lo n : Reg) (s : State) (g : GId) (t : TId) (ts : List TId), Portion s g t ts (.amclr lo n) →
    ∃ s', exec (.amclr lo n) s = .next s' ∧ (∀ u, s'.thread u = seqOn s ts u) ∧
      (∀ k, Tbl.find (s'.cluster (g.core / 2)).entries k =
        if (readS s t lo).toNat ≤ k ∧ k < (readS s t lo).toNat + (readS s t n).toNat then none
        else Tbl.find (s.cluster (g.core / 2)).entries k) ∧
      s' = { s with threads := s'.threads, pmcs := s'.pmcs, clusters := s'.clusters, plan := s'.plan }) ∧
  ∀ (si sd : Reg) (k1 : Reg4) (h : Reg8) (sl : Reg) (la : La) (s : State) (g : GId) (t : TId) (ts : List TId)
    (ps : List (Nat × Nat)), s.plan.headD .now ≠ .late → (s.cluster (g.core / 2)).entryPoison = [] →
    Ranked s (g.core / 2) (readH s t h) (min (readS s t sl).toNat 1024) ps →
    (Portion s g t ts (.hvnear si sd h sl la) →
      Effect (.hvnear si sd h sl la) s (seqOn s ts)
        (onlyG s g (if si = sd then (s.group g).withS sd (rankWords ps 0).2
          else ((s.group g).withS si (rankWords ps 0).1).withS sd (rankWords ps 0).2))) ∧
    (Portion s g t ts (.hvneark si k1 h sl la) → si.val + 2 * (k1.val + 1) ≤ 64 →
      ∃ y, Effect (.hvneark si k1 h sl la) s (seqOn s ts) (onlyG s g y) ∧
        (∀ k ≤ k1.val, ∀ r : Reg, (r.val = si.val + 2 * k → y.s.get r = (rankWords ps k).1) ∧
          (r.val = si.val + 2 * k + 1 → y.s.get r = (rankWords ps k).2)) ∧
        (∀ r : Reg, r.val < si.val ∨ si.val + 2 * (k1.val + 1) ≤ r.val → y.s.get r = (s.group g).s.get r) ∧
        y = { s.group g with s := y.s, sPoison := y.sPoison })

/-! ## Steps, reset and memory -/

/-- A step counted: the issuing pack is gone, and the free values of the next step are its own. -/
def counted : Result → Result
  | .next s => .next { s with cur := none, curWord := 0, tick := s.tick + 1, idle := false }
  | .fault e => .fault e
  | .refused e => .refused e

/-- Threads that issue the word which the first of them, `t`, fetches: they may issue, nothing stands before the word, and
its bytes lie in memory (R44, R175). -/
structure Fetches (s : State) (ts : List TId) (t : TId) (pa : Nat) : Prop where
  may : ∀ u ∈ ts, mayIssue s u = true
  begun : ∀ u ∈ ts, (s.thread u).restored = false ∧ (s.thread u).firstAcquire = false ∧ (s.thread u).frameDue = false
  fresh : ∀ u ∈ ts, (s.thread u).snap = none ∧ (s.thread u).owed = false
  xlat : ∃ ty, translate s (issuerOf s (groupOf s t)) (s.thread t).pc.toNat .exec = .ok (pa, ty)
  answers : lostStop s (issuerOf s (groupOf s t)) (s.thread t).pc.toNat pa .exec = none
  place : (placeOf pa = .hbm ∨ placeOf pa = .second) ∧ pa % 4 = 0
  sound : memPoisoned s pa 4 = false
/-- The result of a step in which threads of a core execute the word at `pa`; a word that decodes to no instruction is an
illegal one (R222). -/
def runsWord (s : State) (core : Nat) (ts : List TId) (pa : Nat) : Result :=
  let w := readLE s.mem pa 4
  let s : State := { s with cur := some ⟨core, (s.core core).act, ts.map TId.slot⟩, curWord := w }
  counted (match decode w with
    | .ok i => exec i s
    | .error why => exec (.illegalInstruction why) s)

/-- A step runs the event at the head of the agenda, or, for a slot of a core that issues, the pack or portion it chooses:
the instruction that the word at their PC decodes to; a word that decodes to none is an illegal instruction (R46,
R47, R222). A pack that the agenda names runs where a slot would choose it. The model's choice: the agenda says what
moves, log 1; a pack is the model's `cur`, log 9. -/
def Obligations.StepRunsDecoded : Prop :=
  (∀ (s : State) (i : Instr) (rest : List Move), s.agenda = .event i :: rest →
    step s = counted (exec i { s with agenda := rest })) ∧
  (∀ (s : State) (core : Nat) (rest : List Move) (t : TId) (us : List TId) (pa : Nat), s.agenda = .issue core :: rest →
    let s0 := settleCaches { s with agenda := rest } core
    let s1 := passSlot (noteCycle s0 core (t :: us)) core
    (s0.core core).deferred = [] → choosePack s0 core = some (t :: us) → letsPass s0 core (t :: us) = false →
    Fetches s1 (t :: us) t pa → step s = runsWord s1 core (t :: us) pa) ∧
  ∀ (s : State) (c : Cur) (rest : List Move) (t : TId) (us : List TId) (pa : Nat), s.agenda = .replay c :: rest →
    let s0 : State := { s with agenda := rest }
    (c.slots.map fun k => (⟨c.core, c.bank, k⟩ : TId)) = t :: us → choosePack s0 c.core = some (t :: us) →
    Fetches s0 (t :: us) t pa → step s = runsWord s0 c.core (t :: us) pa

/-- What reset leaves: nothing live, no partition enabled, no cluster owned and every one gated, links down; the
registers for which the spec gives a reset value hold it. Every byte of memory reads zero, and its form is
canonical: the model's choice (log 2). No store waits in a buffer. The model's choice: registers without a reset
value, log 3; scratchpad lines, log 4; a cluster's gate, log 95. -/
def Obligations.ResetState : Prop :=
  let s := State.reset
  (∀ t g, (s.thread t).live = false ∧ (s.group g).live = false ∧ (s.group g).level = 23 ∧ (s.group g).tile = none) ∧
  (∀ p, (s.part p).state = 0 ∧ (s.part p).tqen = false ∧ (s.part p).debugger = none ∧ (s.part p).ceiling = 23) ∧
  (∀ n, (s.cluster n).owner = none ∧ (s.cluster n).gated = true ∧ (s.cluster n).entries = [] ∧ (s.cluster n).level = 0) ∧
  (∀ d, (s.die d).cap = 900 ∧ (s.die d).slope = 40 ∧ (s.die d).tsat = 560 ∧ (s.die d).super = 25) ∧
  (∀ k, (s.link k).eyeth = 20 ∧ (s.link k).corrth = 1000 ∧ (s.link k).down = true ∧ (s.link k).degraded = false) ∧
  (∀ m, (s.mailbox m).msix = 0xFFFF ∧ (s.mailbox m).en = false ∧ (s.mailbox m).prod = 0 ∧ (s.mailbox m).done = 0) ∧
  s.health.hevec = 0xFFFF ∧ s.health.hlbase = 0 ∧ s.queues = [] ∧ s.graphs = [] ∧ s.launches = [] ∧ s.outputs = [] ∧
  (∀ a, readCell s.mem a = 0) ∧ Memory.wf s.mem = true ∧ StoresOlder s

/-- Every step from a state whose memory is in its canonical form, addresses rising and no cell at the value of
an unlisted one, leaves it so: equal memories are equal data. The model's choice: the form is the model's own,
log 2. -/
def Obligations.MemoryStaysCanonical : Prop :=
  ∀ s s' : State, Memory.wf s.mem = true → step s = .next s' → Memory.wf s'.mem = true

/-- Every step keeps this: a store that waits in a thread's buffer, in place or in a save area, issued in an earlier
step. The stores of one pack are told apart from older ones by it (R278). The model's choice: steps are the
model's own count, log 1. -/
def Obligations.BufferedStoresAreOlder : Prop :=
  ∀ s s' : State, StoresOlder s → step s = .next s' → StoresOlder s'

/-! ## System faults and unhandled traps (R176, R177, R198, R200 to R202) -/

/-- A partition files a record of a severity below 2: it has room and nothing waits for it. -/
def FilesIn (s : State) (core p : Nat) : Prop :=
  partOfCore s core = some p ∧ (s.part p).tqprod - (s.part p).tqcons < 4088 ∧ (s.part p).waiting = []
/-- The next record of a partition: filed under the handle of its place, counted, and in the queue's memory where
the queue is enabled; its thread waits for the answer at the faulting instruction, its registers unchanged. -/
def Files (i : Instr) (s : State) (t : TId) (p : Nat) (r : Rec) : Prop :=
  let h := (s.part p).tqprod % 4096
  let filed := { r with seq := (s.part p).tqprod % 2 ^ 32, key := s.fresh, graph := graphOfLaunch s (launchOf s t) }
  Memory.wf s.mem = true → ∃ s', exec i s = .next s' ∧
    Tbl.find (s'.part p).opened h = some (filed, .thread t) ∧
    (s'.part p).tqprod = (s.part p).tqprod + 1 ∧
    ((s.part p).tqen = true → ∀ k < 64, readCell s'.mem ((s.part p).tqbase + h * 64 + k) = filed.bytes.getD k 0) ∧
    (s'.thread t).wait = .fault p h ∧ (s'.thread t).pc = (s.thread t).pc ∧ (s'.thread t).v = (s.thread t).v ∧
    (s'.thread t).p = (s.thread t).p ∧ (∀ u, u ≠ t → s'.thread u = s.thread u) ∧ ∀ g, s'.group g = s.group g

/-- R177, R180, R181, R198, R200: a load that its translation ends in a fault of the access files a record of
its kind that names the access and the thread, with severity 0 for a timeout and else 1; one that finds a page
not present or a malformed entry waits for a walk of its page, whose end files the record; a trap with TRAPVEC 0
files UNHANDLED, and one in a handler files DOUBLE, each with the cause. The model's choice: an absent page is
found by a walk, log 24. -/
def Obligations.FaultsAreFiled : Prop :=
  (∀ (d : Reg) (base : Base) (sz : Sz) (acq : Bool) (sc : Sc) (hint : Hint) (imm : Fin 4) (la : La) (s : State) (t : TId)
      (p : Nat) (f : SysFault),
    let i : Instr := .lda d base sz acq sc hint imm la
    let a := laneAddr base (imm.val * sz.bytes) s t
    Alone s t i → a.toNat % sz.bytes = 0 → s.plan.headD .now ≠ .walk → FilesIn s t.core p →
    translate s (issuerOf s (groupOf s t)) a.toNat .load = .error f →
    (f.soft = 0 → f.kind ≠ 0x01 → f.kind ≠ 0x03 → f.kind ≠ 0x0C →
      Files i s t p
        { kind := f.kind, sev := if f.kind = 0x08 then 0 else 1, wher := f.wher, access := f.access, req := 0
          core := t.core + t.bank * 2 ^ 15, slot := t.slot, tti := (s.thread t).tti, va := f.va, ipa := f.ipa, pa := f.pa
          pc := (s.thread t).pc.toNat, tag := (s.launch (launchOf s t)).tag }) ∧
    (f.kind = 0x01 ∨ f.kind = 0x03 →
      (∀ w ∈ s.walks, w.2.page ≠ a.toNat / 4096) → ∃ s', exec i s = .next s' ∧ (s'.thread t).wait = .walk s.fresh true ∧
        (∃ w, Tbl.find s'.walks s.fresh = some w ∧ w.part = p ∧ w.va = a.toNat ∧ w.access = .load ∧ w.ts = [t]) ∧
        (s'.thread t).pc = (s.thread t).pc ∧ (s'.thread t).v = (s.thread t).v ∧ s'.mem = s.mem ∧
        (s'.part p).tqprod = (s.part p).tqprod ∧ ∀ u, u ≠ t → s'.thread u = s.thread u)) ∧
  ∀ (d a b : Reg) (ty : ITy) (la : La) (s : State) (t : TId) (p : Nat), Alone s t (.div d a b ty la) → divisor ty b s t = 0 →
    FilesIn s t.core p → (s.part p).debugger = none →
    let vec := (s.group (groupOf s t)).trapvec
    vec = 0 ∨ (s.thread t).trapcause.getLsbD 16 = true →
    Files (.div d a b ty la) s t p
      { kind := if vec = 0 then 0x0B else 0x0A, sev := 1, req := 0, ucause := 0x09, core := t.core + t.bank * 2 ^ 15
        slot := t.slot, tti := (s.thread t).tti, pc := (s.thread t).pc.toNat, tag := (s.launch (launchOf s t)).tag }

/-! ## Events of waits and clocks -/

/-- The event answers a next state of which something holds. -/
def Then (i : Instr) (s : State) (post : State → Prop) : Prop := ∃ s', exec i s = .next s' ∧ post s'

/-- What an outstanding result brings: a value that was read, or that of the bytes it loads, no store of another thread
standing in them. -/
def Holds (s : State) (t : TId) (o : Out) (y : W64) (p : Bool) : Prop :=
  o.val = .known y p ∨ ∃ pa n ty, o.val = .load pa n ty none ∧ loadValue s t ty pa n = (y, p) ∧ InPlace s t ty pa n ∧
    (s.thread t).early = [] ∧ pa % 128 + n ≤ 128 ∧ Tbl.find s.snoopFilter (pa / 128) = none

/-- R50, R181, R150, R222, R125: a result that returns is written to its register, pair or snapshot and its entry goes; a walk that finds a page
frees the threads that wait for it, and one that does not files one record for them all; an illegal word traps
its pack; a store leaves its buffer for memory. The model's choice: events come when the agenda says, log 1 and
14; walks, log 24. -/
def Obligations.ResultsWalksAndStores : Prop :=
  (∀ (id : Nat) (s : State) (t : TId) (o : Out) (y : W64) (p : Bool), findOut s id = some (t, o) → t ∈ groupThreads s (groupOf s t) →
    (∀ u c d i, (s.thread u).wait ≠ .trap c d i) → Holds s t o y p → o.contested = [] → o.acq = false → o.again = false →
    recordHolds s ((partOfCore s t.core).getD 0) (.outload id) = false →
    let x := s.thread t
    let comes (s' : State) : Prop :=
      (s'.thread t).outs.map Out.id = (x.outs.map Out.id).filter (· ≠ id) ∧ s'.mem = s.mem ∧
        (∀ u, u ≠ t → (s'.thread u).v = (s.thread u).v) ∧
        ∀ g, s'.group g = if o.flags = 0 then s.group g else onlyG s (groupOf s t) (flagged s (groupOf s t) o.flags) g
    (∀ d wide, o.dest = .lane d wide → Then (.loadResultReturn id) s fun s' => comes s' ∧ (s'.thread t).b = x.b ∧
      (s'.thread t).v = (x.withLoad s.tick d wide y p).v ∧ (s'.thread t).vPoison = (x.withLoad s.tick d wide y p).vPoison) ∧
    ∀ k, o.dest = .bound k → Then (.loadResultReturn id) s fun s' => comes s' ∧ (s'.thread t).v = x.v ∧
      (s'.thread t).b = x.b.set k.val { x.b.get k with value := y.setWidth 32 } k.isLt ∧
      (s'.thread t).bPoison.getLsbD k.val = p) ∧
  (∀ (id : Nat) (s : State) (t : TId) (o : Out) (d : Reg) (x : W64), findOut s id = some (t, o) → t ∈ groupThreads s (groupOf s t) →
    (∀ u c d i, (s.thread u).wait ≠ .trap c d i) → o.dest = .uni [d] → o.val = .words [x] → o.contested = [] → o.acq = false → o.flags = 0 →
    (∀ p ∈ s.threads, p.1.core / 2 = t.core / 2 → ∀ e ∈ p.2.outs, (∃ ws, e.val = .words ws) → id ≤ e.id) →
    Then (.glasshouseReply id) s fun s' => (∀ g, s'.group g = onlyG s (groupOf s t) ((s.group (groupOf s t)).withS d x) g) ∧
      (s'.thread t).outs.map Out.id = ((s.thread t).outs.map Out.id).filter (· ≠ id) ∧ s'.mem = s.mem ∧
      ∀ u, (s'.thread u).v = (s.thread u).v) ∧
  (∀ (id : Nat) (s : State) (w : Walk) (t : TId) (ts : List TId), Tbl.find s.walks id = some w → w.ts = t :: ts →
    (∀ u ∈ t :: ts, ∃ load, (s.thread u).wait = .walk id load) → (∀ p ∈ s.walks, p.2.started = true) → s.snoopFilter = [] →
    (∀ r, translate s (issuerOf s (groupOf s t)) w.va w.access = .ok r →
      Then (.pageWalkComplete id) s fun s' => (∀ u ∈ t :: ts, (s'.thread u).wait = .none ∧ (s'.thread u).walked = true ∧
        (s'.thread u).pc = (s.thread u).pc) ∧ s'.walks = Tbl.drop s.walks id ∧ s'.mem = s.mem) ∧
    ∀ f, translate s (issuerOf s (groupOf s t)) w.va w.access = .error f → f.kind = 0x01 → FilesIn s t.core w.part →
      Then (.pageWalkComplete id) s fun s' => (s'.part w.part).tqprod = (s.part w.part).tqprod + 1 ∧
        ∀ u ∈ t :: ts, (s'.thread u).wait = .fault w.part ((s.part w.part).tqprod % 4096)) ∧
  (∀ (t : TId) (s : State), (s.thread t).wait = .stealLanding → Calm s t →
    Then (.stealLandingComplete t) s fun s' => s'.thread t = { s.thread t with wait := .none, since := 0, woken := true, fresh := 0 } ∧ s'.mem = s.mem) ∧
  (∀ (why : Illegal) (s : State) (ts : List TId), packThreads s = ts → ts ≠ [] → ts.Nodup →
    (∀ u ∈ ts, CanTrap s u ∧ (s.thread u).outs = []) →
    Effect (.illegalInstruction why) s
      (fun u => if u ∈ ts then (s.thread u).counted.trapped (s.group (groupOf s u)).trapvec (if why = .undef then 0x01 else 0x02) 0
        else s.thread u) s.group) ∧
  (∀ (t : TId) (e : StoreEnt) (rest : List StoreEnt) (s : State), (s.thread t).sb = e :: rest → e.held = none → e.ty = .wb →
    Tbl.find s.snoopFilter (e.pa / 128) = none → Unwatched s e.pa e.bytes.length → Memory.wf s.mem = true →
    (∀ p ∈ s.threads, ∀ h ∈ p.2.sb, h.held ≠ none → overlaps h.pa h.bytes.length e.pa e.bytes.length = false) →
    Then (.storePublication (.store t)) s fun s' => (∀ k < e.bytes.length, readCell s'.mem (e.pa + k) = e.bytes.getD k 0) ∧
      (∀ a, a < e.pa ∨ e.pa + e.bytes.length ≤ a → readCell s'.mem a = readCell s.mem a) ∧
      (∀ u, s'.thread u = only s t { s.thread t with sb := rest } u) ∧ ∀ g, s'.group g = s.group g) ∧
  ∀ (core line : Nat) (s : State), (∃ e ∈ (s.core core).smL1, e.1 / 128 = line) → Memory.wf s.mem = true → mayEvict s (.l1 core) line = true →
    (∀ p ∈ s.threads, ∀ h ∈ p.2.sb, h.held ≠ none → overlaps h.pa h.bytes.length (line * 128) 128 = false) →
    Tbl.find s.snoopFilter line = none → peerDown s ((partOfCore s core).getD 0) (line * 128) = false →
    peerRefuses s ((partOfCore s core).getD 0) (line * 128) = false →
    Then (.storePublication (.smLine core line)) s fun s' => writtenBack s s' core line ∧
      ∀ e ∈ (s'.core core).smL1, e.1 / 128 ≠ line

/-- R45, R150, R153, R155, R209, R289, R294: an aged path, the end of a yield and of a bound wait, the sweep of
overflow bindings, the gating and restart of a core, and the delivery of a user-level interrupt. The model's
choice: a timer ends when its event comes, log 41. -/
def Obligations.WaitsAndClocks : Prop :=
  (∀ (g : GId) (pc : W64) (s : State),
    (∃ t ∈ liveThreads s g, (s.thread t).pc = pc ∧ isReady s t = true) →
    Then (.pathAged g pc) s fun s' => (∀ t ∈ liveThreads s g, (s.thread t).pc = pc → 256 ≤ (s'.thread t).age) ∧
      (∀ t, (s'.thread t).v = (s.thread t).v ∧ ((s.thread t).wait ≠ .yield → (s'.thread t).pc = (s.thread t).pc)) ∧
      s'.mem = s.mem) ∧
  (∀ (t : TId) (s : State), (s.thread t).wait = .yield → interruptDue (s.thread t) = false →
    Then (.yieldIntervalEnd t) s fun s' => (s'.thread t).wait = .none ∧ (s'.thread t).pc = (s.thread t).pc + 4 ∧
      (s'.thread t).v = (s.thread t).v ∧ s'.mem = s.mem) ∧
  (∀ (t : TId) (m : Byte) (fin : Bool) (s : State), (s.thread t).wait = .bound m fin → isActive s (groupOf s t) = true →
    (s.core t.core).swap = none →
    let x := s.thread t
    let marked : Prop := ∃ k : Reg8, m.getLsbD k.val = true ∧ (x.b.get k).bound = true ∧ (x.b.get k).changed = true
    (marked → (s.core t.core).gated = false → x.directoryError = false → refreshFault s t = none →
      Then (.bwaitWake t) s fun s' => (s'.thread t).wait = .none ∧ (s'.thread t).pc = x.pc + 4 ∧ (s'.thread t).lastto = false ∧
        (s'.thread t).v = x.v) ∧
    (¬marked → fin = true → x.directoryError = false → refreshFault s t = none →
      Then (.bwaitTimeout t) s fun s' => (s'.thread t).wait = .none ∧ (s'.thread t).pc = x.pc + 4 ∧ (s'.thread t).lastto = true ∧
        (s'.thread t).v = x.v)) ∧
  (∀ (core : Nat) (s : State), core < 160 →
    Then (.bindingOverflowSweep core) s fun s' => s'.mem = s.mem ∧ ∀ t, ∀ k : Reg8, (s'.thread t).b.get k =
      let b := (s.thread t).b.get k
      if t.core = core ∧ b.bound = true ∧ b.ovf = true then { b with changed := true } else b) ∧
  (∀ (core : Nat) (s : State), core < 160 → (s.core core).gated = false → (s.core core).swap = none →
    (∀ p ∈ s.groups, p.1.core = core → p.2.live = true → p.2.tile = none ∧ ∀ q ∈ p.2.mq, ∀ op ∈ q.2, op.performed = true) →
    (let idles (x : Thread) : Prop := (x.wait = .yield ∨ (∃ n, x.wait = .parked n) ∨ ∃ m f, x.wait = .bound m f) ∧ x.woken = false
     (∀ t ∈ activeThreads s core, idles (s.thread t)) ∧ ∀ x ∈ awaitedThreads s core, idles x) →
    Then (.clockGate core) s fun s' => (s'.core core).gated = true ∧ s'.threads = s.threads ∧ s'.mem = s.mem) ∧
  (∀ (core : Nat) (s : State), (s.core core).gated = true → (s.core core).restarting = true →
    Then (.coreRestart core) s fun s' => (s'.core core).gated = false ∧ s'.threads = s.threads ∧ s'.mem = s.mem) ∧
  ∀ (t : TId) (s : State), delivers s t = true → CanTrap s t → Calm s t →
    let x := s.thread t
    Then (.uintDelivery t) s fun s' => s'.thread t =
      (({ x with uint := none, since := if x.wait = .none then x.since else 0
                 woken := x.woken || x.wait != .none } : Thread).refreshed true).trapped (s.group (groupOf s t)).trapvec 0x0D 0 ∧
      (∀ u, u ≠ t → s'.thread u = s.thread u) ∧ s'.mem = s.mem

/-! ## Events of the engines -/

/-- A chunk of `m` bytes from `spa` to `dpa` that is first in order and has not been tried: the bytes are WB memory of HBM,
and its barrier at `c.bar` awaits at least them. -/
structure OneChunk (s : State) (core cmd : Nat) (c : CopyCmd) (chunk m sva dva spa dpa p l n f : Nat) : Prop where
  at' : Tbl.find (s.core core).copies cmd = some c
  whole : chunk ∉ c.landed ∧ c.held = [] ∧ c.again = [] ∧ c.cleared = [] ∧ c.indexed = [] ∧ c.kept = []
  runs : engineRuns s core = true
  first : ∀ q ∈ (s.core core).copies, c.seq ≤ q.2.seq
  src : Lies s (issuerOf s c.group) .load sva m spa
  dst : Lies s (issuerOf s c.group) .store dva m dpa
  apart : ∀ a ∈ copySources s (issuerOf s c.group) c, ∀ pa ty, translate s (issuerOf s c.group) a .load = .ok (pa, ty) →
    pa < dpa ∨ dpa + m ≤ pa
  quiet : s.snoopFilter = [] ∧ s.walks = [] ∧ s.absent = [] ∧ memPoisoned s spa m = false
  alone : (∀ u a q, (s.thread u).wait ≠ .barrier a q) ∧ ∀ p ∈ spilledThreads s, ∀ a q, p.2.wait ≠ .barrier a q
  bar : BarIs s c.bar p l n f ∧ c.bar % 16 = 0 ∧ (dpa + m ≤ c.bar ∨ c.bar + 16 ≤ dpa)
  awaited : m ≤ p ∧ (p ≠ m ∨ l ≠ 0)

/-- A chunk of `m` bytes has landed at `dpa`: they were read at `spa` before any was written, PEND fell by them, and no
byte of memory changed beside these and the barrier's. -/
def Landed (s s' : State) (c : CopyCmd) (m spa dpa p l n f : Nat) : Prop :=
  BarIs s' c.bar (p - m) l n f ∧ (∀ j < m, readCell s'.mem (dpa + j) = readCell s.mem (spa + j)) ∧
    ∀ a, (a < dpa ∨ dpa + m ≤ a) → (a < c.bar ∨ c.bar + 16 ≤ a) → readCell s'.mem a = readCell s.mem a

/-- R163, R364: the first command of a core that waited is accepted under a free number, and its portion goes on. R366, R367: a chunk
lands its bytes, which were read before any is written, and its barrier's PEND falls by them; the chunks of `cpyg` and
`cpys` are their elements, at the index that an index word holds. The model's
choice: which free number a command takes, log 28; bytes that the source shares are free, log 47. -/
def Obligations.CopiesLand : Prop :=
  (∀ (g : GId) (c : CopyCmd) (rest : List CopyCmd) (s : State), (s.group g).copyWait = c :: rest → c.group = g →
    c.slots.Nodup → c.total ≠ 0 → Stored s g.core c.threads → (∃ k < 64, Tbl.find (s.core g.core).copies k = none) →
    (∀ p ∈ s.groups, p.1.core = g.core → ∀ d ∈ p.2.copyWait, c.seq ≤ d.seq) →
    Then (.copyCommandAccept g) s fun s' => (s'.group g).copyWait = rest ∧ s'.mem = s.mem ∧
      (∃ k c', k < 64 ∧ Tbl.find (s.core g.core).copies k = none ∧ Tbl.find (s'.core g.core).copies k = some c' ∧
        c' = { c with cleared := c'.cleared, accepted := c'.accepted }) ∧
      ∀ t ∈ c.threads, (s'.thread t).wait = .none ∧ (s'.thread t).pc = (s.thread t).pc + 4) ∧
  (∀ (core cmd : Nat) (c : CopyCmd) (s : State) (m spa dpa p l n f : Nat), Memory.wf s.mem = true → c.kind = .flat →
    c.landed = [] → c.bytesLanded = 0 → m = c.count.toNat % 2 ^ 32 → m ≠ 0 → c.chunk 0 = some (0, m) →
    OneChunk s core cmd c 0 m c.src.toNat c.dst.toNat spa dpa p l n f →
    Then (.copyChunkLand core cmd 0) s fun s' => Tbl.find (s'.core core).copies cmd = none ∧ Landed s s' c m spa dpa p l n f) ∧
  ∀ (core cmd chunk : Nat) (c : CopyCmd) (s : State) (x ipa spa dpa p l n f : Nat), Memory.wf s.mem = true →
    let count := c.count.toNat % 2 ^ 32
    let m := c.count.toNat / 2 ^ 32 % 2 ^ 16
    let i := issuerOf s c.group
    c.kind = .gather ∨ c.kind = .scatter → chunk < count → m ≠ 0 →
    Lies s i .load (c.idx.toNat + 4 * chunk) 4 ipa → readLE s.mem ipa 4 = x → memPoisoned s ipa 4 = false →
    OneChunk s core cmd c chunk m (c.src.toNat + (if c.kind = .gather then x else chunk) * m)
      (c.dst.toNat + (if c.kind = .gather then chunk else x) * m) spa dpa p l n f →
    Then (.copyChunkLand core cmd chunk) s fun s' => Landed s s' c m spa dpa p l n f ∧
      (count * m ≤ c.bytesLanded + m → Tbl.find (s'.core core).copies cmd = none) ∧
      (c.bytesLanded + m < count * m → ∃ c', Tbl.find (s'.core core).copies cmd = some c' ∧ c'.landed = c.landed ++ [chunk] ∧
        c'.bytesLanded = c.bytesLanded + m)

/-- An element of an operand: of the lane of its number, or at the place that its descriptor gives it (R341, R342). -/
def operandElem (s : State) (g : GId) (q : Nat) (o : MatOpnd) (lane r c k : Nat) : XReal :=
  match o with
  | .lanes v f => laneElem s (quarterLane g q lane) v (fmtOfCode f) k
  | .desc w0 w1 => descElem s (issuerOf s g) w0 w1 (fmtOfCode (w1.toNat / 2 ^ 19 % 2 ^ 5)) r c
/-- A position of 4 bits of a row's metadata: two to a byte, the first in its low half (R117, R343). -/
def positionAt (s : State) (g : GId) (w : W64) (r x : Nat) : Nat :=
  match windowByte s (issuerOf s g) w (w.toNat % 2 ^ 20 + r * (w.toNat / 2 ^ 32 % 2 ^ 16) + x / 2) with
  | some a => (readCell s.mem a).toNat / 2 ^ (4 * (x % 2)) % 16
  | none => 0
/-- The elements that a row of A keeps, each with its place along K: every one, or 8 or 4 of each 16 (R117). -/
def keptPlaces (s : State) (g : GId) (sparse : Option W64) (k r : Nat) : List Nat :=
  match sparse with
  | none => List.range k
  | some w =>
    let n := if w.toNat / 2 ^ 56 % 4 = 1 then 8 else 4
    (List.range (k / 16 * n)).map fun x => 16 * (x / n) + positionAt s g w r x
/-- The products of one element: what row r of A keeps, with the elements of column j of B at its places along K. -/
def productPairs (s : State) (g : GId) (q : Nat) (a b : MatOpnd) (sparse : Option W64) (k r j : Nat) : List (XReal × XReal) :=
  (keptPlaces s g sparse k r).zipIdx.map fun e => (operandElem s g q a r r e.2 e.2, operandElem s g q b j e.1 j e.1)
/-- The positions of each group of a row's metadata ascend (R117). -/
def positionsAscend (s : State) (g : GId) (sparse : Option W64) (k r : Nat) : Prop :=
  ∀ w, sparse = some w → w.toNat / 2 ^ 56 % 4 = 1 ∨ w.toNat / 2 ^ 56 % 4 = 2 →
    let n := if w.toNat / 2 ^ 56 % 4 = 1 then 8 else 4
    ∀ x < k / 16 * n, (x + 1) % n ≠ 0 → positionAt s g w r x < positionAt s g w r (x + 1)

/-- R346, R349, R351: the oldest operation of a quarter is performed: an `mma` of lane or descriptor operands, dense or
sparse, computes each element of its live rows and columns from the accumulator and the products, and no other word of
memory changes; an `acczero` makes its 512 elements +0. A waiting `mfence` or `mwait` completes. The model's choice:
undefined elements are free, log 46. -/
def Obligations.MatrixPerforms : Prop :=
  (∀ (g : GId) (q : Nat) (pre post : List MatOp) (op : MatOp) (s : State),
    Tbl.getD (s.group g).mq q [] = pre ++ op :: post → (∀ o ∈ pre, o.performed = true) → op.performed = false →
    (s.group g).live = true → Memory.wf s.mem = true →
    let base := elemAddr g (s.group g) q op.acc 0 0
    (∀ (a b : MatOpnd) (sparse : Option W64) (shape : W64) (fp8 : Bool),
      let k := shapeK shape
      let row (r : Nat) : Prop := r < shapeM shape ∧ (a.isLanes = true → r ∈ op.lanes)
      let col (j : Nat) : Prop := j < shapeN shape ∧ (b.isLanes = true → j ∈ op.lanes)
      op.kind = .mma a b shape sparse fp8 → shapeM shape ≤ 8 → shapeN shape ≤ 64 →
      (a.isLanes = true → sparse = none) → (∀ w, sparse = some w → w.toNat / 2 ^ 56 % 4 = 1 ∨ w.toNat / 2 ^ 56 % 4 = 2) →
      (∀ r, row r → (rowSources s (issuerOf s g) g q a sparse k r).isSome = true ∧ positionsAscend s g sparse k r) →
      (∀ j, col j → (colSources s (issuerOf s g) g q b k j).isSome = true) →
      Then (.mmaPerform g q) s fun s' =>
        (∀ r j, row r → col j →
          readLE s'.mem (base + r * 256 + j * 4) 4 =
            (mmaElement (readLE s.mem (base + r * 256 + j * 4) 4) (productPairs s g q a b sparse k r j)).1 % 2 ^ 32) ∧
        (∀ r < 8, ∀ j < 64, ¬(row r ∧ col j) →
          readLE s'.mem (base + r * 256 + j * 4) 4 = readLE s.mem (base + r * 256 + j * 4) 4) ∧
        (∀ x, x < base ∨ base + 2048 ≤ x → readCell s'.mem x = readCell s.mem x) ∧
        (∃ o, Tbl.getD (s'.group g).mq q [] = pre ++ o :: post ∧ o.performed = true) ∧ ∀ u, (s'.thread u).v = (s.thread u).v) ∧
    (op.kind = .zero →
      Then (.acczeroPerform g q) s fun s' => (∀ x, base ≤ x → x < base + 2048 → readCell s'.mem x = 0) ∧
        (∀ x, x < base ∨ base + 2048 ≤ x → readCell s'.mem x = readCell s.mem x) ∧
        (∃ o, Tbl.getD (s'.group g).mq q [] = pre ++ o :: post ∧ o.performed = true) ∧ ∀ u, (s'.thread u).v = (s.thread u).v)) ∧
  ∀ (g : GId) (q : Nat) (fence : Bool) (s : State),
    let ts := (liveThreads s g).filter fun t => homeLane s t / 8 == q && (s.thread t).wait == .matrix fence
    let ops := Tbl.getD (s.group g).mq q []
    ts ≠ [] → (∀ t ∈ ts, (s.thread t).outs = [] ∧ (s.thread t).sb = [] ∧ groupOf s t = g) →
    (fence = true → heldStores s g.core = [] →
      Then (.mfenceComplete g q) s fun s' => Tbl.find (s'.group g).fenceAt q = some s.tick ∧ s'.mem = s.mem ∧
        ∀ t ∈ ts, (s'.thread t).wait = .none ∧ (s'.thread t).pc = (s.thread t).pc + 4) ∧
    (fence = false → arePerformed ops → Memory.wf s.mem = true → Then (.mwaitComplete g q) s fun s' => queueEnds s s' g q ops ∧
      ∀ t ∈ ts, (s'.thread t).wait = .none ∧ (s'.thread t).pc = (s.thread t).pc + 4)

/-- A step of a tile operation that nothing holds up: every access of it translates, and it reads no poison. -/
structure TileMoves (s : State) (g : GId) (o : TileOp) (src dst : List (Nat × MemTy)) : Prop where
  op : (s.group g).tile = some o ∧ o.held = false
  runs : tilePaused s g = false ∧ engineRuns s g.core = true ∧ tilePlaced s g = true
  sound : gemmPoison s g o (s.group g).stepNo = false
  queued : o.kind = .gemm → (s.group g).stepNo = 0 → gemmQueued (s.group g) = false
  accepted : ∀ t ∈ groupThreads s g, ∀ e ∈ (s.thread t).outs, e.dest ≠ .accept
  reads : reachRanges s (issuerOf s g) .load (tileReads o (s.group g).stepNo) = .ok src
  clean : ∀ p ∈ src, (p.2 = .wb ∨ p.2 = .spad ∨ p.2 = .sm) ∧ memPoisoned s p.1 1 = false
  writes : reachRanges s (issuerOf s g) .store ((tileEffect s g o (s.group g).stepNo).mem.map fun b => (b.1, 1)) = .ok dst
  quiet : s.snoopFilter = [] ∧ s.walks = []
  alone : (∀ u a q, (s.thread u).wait ≠ .barrier a q) ∧ ∀ p ∈ spilledThreads s, ∀ a q, p.2.wait ≠ .barrier a q

/-- The step writes WB bytes of HBM, each once, that no source shares, apart from its barrier and its accumulators. -/
structure TileWrites (s : State) (g : GId) (o : TileOp) (dst : List (Nat × MemTy)) : Prop where
  defined : tileOpen o = false
  once : (dst.map Prod.fst).Nodup
  home : ∀ p ∈ dst, p.2 = .wb ∧ placeOf p.1 = .hbm ∧ (p.1 < o.bar ∨ o.bar + 16 ≤ p.1)
  blocks : o.kind = .gemm → (s.group g).accCount ≠ 0
  apart : ∀ r c, gemmAcc s g r c + 4 ≤ o.bar ∨ o.bar + 16 ≤ gemmAcc s g r c

/-- The bytes that a step writes from a virtual address upward, where they translate. -/
def WritesAt (s s' : State) (g : GId) (va : Nat) (bs : List Byte) : Prop :=
  ∀ j < bs.length, ∀ pa ty, translate s (issuerOf s g) ((va + j) % 2 ^ 64) .store = .ok (pa, ty) →
    readCell s'.mem pa = bs.getD j 0

/-- What the bytes of a step are: rounded elements of a `tcopy` (R359), codes and a scale of a `tquant` (R113, R358), and
the accumulators of a `tgemm`, whose last step of a tile also rounds them into C (R111, R356). -/
def tileResults (s s' : State) (g : GId) (o : TileOp) (k : Nat) : Prop :=
  let i := issuerOf s g
  let v := vecAt o.srcA k
  let xs := denseVec s i o.srcA v.1 v.2.1 v.2.2
  let scale := (quantScale (maxMag (xs.map XReal.abs))).1
  let x := gemmStep o k
  let acc (r c : Nat) : Nat :=
    (promote o.nbv1 (if x.kb = 0 then 0 else readLE s.mem (gemmAcc s g r c) 4) (scaleOf s i o.srcA x.lo (x.i0 + r))
      (scaleOf s i o.srcB x.lo (x.j0 + c))
      (((denseVec s i o.srcA (x.i0 + r) x.lo x.n).zip (denseVec s i o.srcB (x.j0 + c) x.lo x.n)).map some)).1
  (∀ rm sat f, o.kind = .copy rm sat → tElem o.dst = .flt f → f.width % 8 = 0 → ∀ j < xs.length,
    WritesAt s s' g (rowAddr o.dst v.1 + (v.2.1 + j) * (f.width / 8))
      (toBytes (f.width / 8) (roundTo f ⟨TileRm.mode rm, sat, 0, o.nbv1⟩ (xs.getD j .zero)).1)) ∧
  (o.kind = .quant → (∀ j < xs.length, WritesAt s s' g (rowAddr o.dst v.1 + v.2.1 + j)
      [BitVec.ofNat 8 (quantElement (xs.getD j .zero) (ofF32 scale)).1]) ∧
    WritesAt s s' g (scaleAddr o.dst v.2.1 v.1) (toBytes 4 scale)) ∧
  (o.kind = .gemm → tSpn o.srcA = 0 → ∀ r < x.rows, ∀ c < x.cols,
    readLE s'.mem (gemmAcc s g r c) 4 = acc r c % 2 ^ 32 ∧
    ∀ f, tElem o.dst = .flt f → x.kb + 1 = gemmKB o →
      WritesAt s s' g (rowAddr o.dst (x.i0 + r) + (x.j0 + c) * (f.width / 8)) (toBytes (f.width / 8) (roundTo f rnCtl (ofF32 (acc r c))).1))

/-- R361, R205: a step whose accesses all translate and read no poison advances STEP by one; after the last,
BUSY is 0. R356, R358, R359: its bytes and accumulator words are those of the operation, and it changes no other byte of
memory but its barrier's. The model's choice: how far one step goes, log 1; undefined elements are free, log 46. -/
def Obligations.TileStepsAdvance : Prop :=
  ∀ (g : GId) (o : TileOp) (s : State) (src dst : List (Nat × MemTy)), TileMoves s g o src dst →
    let k := (s.group g).stepNo
    let e := tileEffect s g o k
    Then (.tileSequencerStep g) s fun s' => (s'.group g).stepNo = k + 1 ∧ ((s'.group g).busy = true ↔ k + 1 ≠ tileSteps o) ∧
      ((s'.group g).tile = none ↔ k + 1 = tileSteps o) ∧ (s'.group g).s = (s.group g).s ∧
      (∀ u, (s'.thread u).v = (s.thread u).v) ∧
      (Memory.wf s.mem = true → TileWrites s g o dst → tileResults s s' g o k ∧
        ∀ a, (∀ p ∈ dst, p.1 ≠ a) → (∀ c ∈ e.acc, a < c.1 ∨ c.1 + 4 ≤ a) → (a < o.bar ∨ o.bar + 16 ≤ a) →
          readCell s'.mem a = readCell s.mem a)

/-! ## Teams, bins and swaps -/

/-- A thread at its start (R9, R97, R306): its entry and its index in its team, its lane in v0, and the given words in v1
to v3. -/
def startsAt (x : Thread) (pc : W64) (lane tti : Nat) (v1 v2 v3 : W32) : Prop :=
  x.live = true ∧ x.pc = pc ∧ x.tti = tti ∧ x.v.getD 0 0 = BitVec.ofNat 32 lane ∧ x.v.getD 1 0 = v1 ∧ x.v.getD 2 0 = v2 ∧
    x.v.getD 3 0 = v3 ∧ (∀ r, 4 ≤ r → x.v.getD r 0 = 0) ∧ x.stk = [] ∧ x.trl = []
/-- A group at its start: its launch, its team, and the launch's parameter words in s0 to s15 (R9). -/
def groupStarts (s : State) (y : Group) (launch team : Nat) : Prop :=
  y.live = true ∧ y.width = (s.launch launch).kernel.group ∧ y.launch = launch ∧ y.team = team ∧
    ∀ k < 64, y.s.getD k 0 = if k < 16 then (s.launch launch).kernel.params.getD k 0 else 0

/-- R69, R73 to R76, R306: the next team of a launch goes to its placement, its groups and threads as R9 starts them;
entries of a schedule table are written; a bin whose time has ended fires where a seat is found, as a group of its width
with a thread for each record, that starts with the record's entry, parent and argument, or is held back; records leave an overflow queue. The model's choice: which seat a team takes, log 29 and 30; a due
bin, log 38. -/
def Obligations.TeamsAndBins : Prop :=
  (∀ (launch c : Nat) (s s1 : State), teamWaits s (s.launch launch) = true →
    (∀ a ∈ aheadOf s launch, placement s a = none) → placement s launch = some (c, s1) → (s.cluster (c / 2)).gated = false →
    let k := (s.launch launch).kernel
    Then (.placeTeam launch) s fun s' => (s'.launch launch).nextTeam = (s1.launch launch).nextTeam + 1 ∧
      s'.groups = s1.groups ∧ s'.threads = s1.threads ∧ s'.mem = s1.mem ∧
      (k.group = 16 ∨ k.group = 32 ∨ k.group = 64 → ∀ g, s'.group g ≠ s.group g →
        groupStarts s (s'.group g) launch (s.launch launch).nextTeam ∧
        ∀ lane < k.group, startsAt (s'.thread (gidThread g lane)) k.entry lane ((s'.group g).tgi * k.group + lane) 0 0 0)) ∧
  (∀ (core count l : Nat) (x : Schedule) (s : State), (s.core core).tables = [(l, x)] → (∃ e ∈ x.entries, e = none) → count ≠ 0 →
    let table := (s.launch l).tables.getD (((s.launch l).placedCores.idxOf? core).getD (s.launch l).placedCores.length) []
    let done := (x.entries.takeWhile Option.isSome).length
    Then (.scheduleTableWrite core count) s fun s' => (∃ y, (s'.core core).tables = [(l, y)] ∧ y.cursor = x.cursor ∧
        y.entries.length = x.entries.length ∧ ∀ k < x.entries.length,
          y.entries.getD k none = if done ≤ k ∧ k < done + count then table[k]? else x.entries.getD k none) ∧ s'.mem = s.mem) ∧
  (∀ (core k : Nat) (b : Bin) (s : State), Tbl.find (s.core core).bins k = some b → (s.core core).swap = none →
    let fired (seat : Seat) (s' : State) : Prop :=
      let g : GId := ⟨core, (s.core core).act, seat.first / 16⟩
      let w := (s.launch b.launch).kernel.group
      groupStarts s (s'.group g) b.launch b.team ∧
        (∀ lane r, b.recs[lane]? = some r → startsAt (s'.thread (gidThread g lane)) b.entry lane ((s'.group g).tgi * w + lane)
          (BitVec.ofNat 32 r.parent) (r.arg.setWidth 32) ((r.arg >>> 32).setWidth 32)) ∧
        ∀ lane < w, b.recs.length ≤ lane → (s'.thread (gidThread g lane)).live = false
    (b.due = false → binSeat (wakeCore s core) core b = none → Then (.spawnBinTimeout core k) s fun s' =>
      Tbl.find (s'.core core).bins k = some { b with due := true } ∧ s'.mem = s.mem ∧ s'.groups = s.groups) ∧
    (∀ seat, b.due = false → binSeat (wakeCore s core) core b = some seat → Then (.spawnBinTimeout core k) s (fired seat)) ∧
    ∀ seat, b.due = true → binSeat s core b = some seat → Then (.spawnBinFire core k) s (fired seat)) ∧
  ∀ (core launch team k : Nat) (o : Overflow) (entry : W64) (r : SpawnRec) (s : State),
    queueFor s core = some (launch, team, 1) → headBin s core launch team = some (o, entry, r, k) →
    (∃ k < 16, Tbl.find (s.core core).bins k = none) →
    let b := Tbl.getD (s.core core).bins k { entry := entry, launch := launch, team := team, recs := [] }
    b.recs.length + 1 < (s.launch b.launch).kernel.group →
    Then (.overflowQueueMove core) s fun s' => Tbl.find (s'.core core).bins k = some { b with recs := b.recs ++ [r] } ∧
      Tbl.find (s'.launch launch).overflow team = some { o with head := (o.head + 1) % o.cap, count := o.count - 1 } ∧ s'.mem = s.mem

/-- R70, R71, R156 to R159, R210 to R214: what begins a swap and what ends one. The contexts of the core step
aside in one displacement, work that stands for the swap comes in, and a returning displacement is active again;
a bank that is spilled or reloaded is or is no more in its context's save area. The model's choice: the incoming
bank set, the order of displacement, when a bank may leave and its save area: log 31 to 36. -/
def Obligations.SwapsAndBanks : Prop :=
  (∀ (core l : Nat) (s : State), stalled s core = true → coupled s core = false → coupled s (partner core) = false →
    nonResident s core = some (.bins l) → preemptDue s core = false → heldStores s core = [] →
    Then (.progressSwap core) s fun s' => (s'.core core).swap = some (.spawned l) ∧
      (∀ c ∈ activeCtxs s core, (s'.ctx c).displaced = some s.fresh ∧ (s'.ctx c).byProgress = true) ∧ s'.mem = s.mem) ∧
  (∀ (launch core : Nat) (s : State), teamWaits s (s.launch launch) = true →
    (∀ a ∈ aheadOf s launch, placement s a = none ∧ preemptCore s a = none) → placement s launch = none →
    preemptCore s launch = some core →
    isTwoCore (s.launch launch).kernel = false → coupled s core = false → heldStores s core = [] →
    Then (.priorityPreemption launch) s fun s' =>
      (s'.core core).swap = some (.incoming launch (s.launch launch).nextTeam 0 (teamGroups (s.launch launch).kernel)) ∧
      (s'.launch launch).nextTeam = (s.launch launch).nextTeam + 1 ∧
      (∀ c ∈ activeCtxs s core, (s'.ctx c).displaced = some s.fresh) ∧ s'.mem = s.mem) ∧
  (∀ (core n : Nat) (s : State), returnChoice s core = some n → orderCoupled s core n = false → coupled s core = false →
    heldStores s core = [] → Then (.contextReturn core) s fun s' => (s'.core core).swap = some (.returning n) ∧ s'.mem = s.mem) ∧
  (∀ (core n : Nat) (s : State), (s.core core).swap = some (.returning n) → orderCoupled s core n = false →
    recordHolds s ((partOfCore s core).getD 0) (.spill core (s.core core).act 16) = false →
    (∀ c ∈ ofOrder s core n, (s.ctx c).spilledSpad = [] ∧ (s.ctx c).spilledSets = []) →
    Then (.swapComplete core) s fun s' => (s'.core core).swap = none ∧ s'.mem = s.mem ∧
      ∀ c ∈ ofOrder s core n, (s'.ctx c).displaced = none) ∧
  (∀ (core k c : Nat) (s s1 : State), bankOwners s core (s.core core).act k = [c] → wantsBank s core (s.core core).act k = true →
    bankQuiet s core (s.core core).act k = true →
    recordHolds s ((partOfCore s core).getD 0) (.spill core (s.core core).act k) = false →
    spillBank s core (s.core core).act k c = .ok s1 →
    exec (.bankSpill core (s.core core).act k) s = .next s1 ∧ bankSpilled s1 c k = true) ∧
  ∀ (core bank k c : Nat) (s s1 : State), (s.core core).swap = none → bankOwners s core bank k = [] →
    (s.part ((partOfCore s core).getD 0)).state = 1 →
    recordHolds s ((partOfCore s core).getD 0) (.spill core bank k) = false →
    (activeCtxs s core).find? (fun c => (s.ctx c).bank == bank && bankSpilled s c k) = some c →
    reloadBank s core bank k c (Tbl.getD (s.ctx c).spilled k {}) = .ok s1 →
    exec (.bankReload core bank k) s = .next s1 ∧ bankSpilled s1 c k = false

/-! ## Pergola -/

/-- The queue at a number reads a record, whose graph's completion record lies in HBM. -/
def Heads (s : State) (qid : Nat) (q : Queue) (r : Submission) (pa : Nat) : Prop :=
  nextRecord s qid = some (q, r) ∧ Lies s (queueIssuer q) .store r.done.toNat 16 pa ∧ s.snoopFilter = [] ∧
    Unwatched s pa 16 ∧ Memory.wf s.mem = true
/-- A record is consumed and its graph completes with a status, in one 16-byte record (R59). -/
def Completes (s : State) (qid : Nat) (q : Queue) (r : Submission) (pa status : Nat) (s' : State) : Prop :=
  s'.queue? qid = some { q with cons := q.cons + 1 } ∧ readLE s'.mem pa 8 = (if status = 0 then r.value.toNat else 0) ∧
    readLE s'.mem (pa + 8) 8 = status ∧ (∀ a, a < pa ∨ pa + 16 ≤ a → readCell s'.mem a = readCell s.mem a) ∧
    ∃ gid g, s'.graph? gid = some g ∧ g.complete = true ∧ g.status = some status ∧ g.tag = r.tag

/-- R56, R57, R59: a record of an unknown kind and one that is malformed complete with status 2, a fence with 0
once every earlier graph of its queue has completed; a well-formed binary without patches starts a graph of its
nodes. The model's choice: a fence holds later records back, log 20; places of a binary's data, log 75. -/
def Obligations.SubmissionsCompleteOrStart : Prop :=
  ∀ (qid : Nat) (q : Queue) (r : Submission) (pa : Nat) (s : State), Heads s qid q r pa →
    (r.kind ≠ 1 → r.kind ≠ 2 → Then (.submissionInvalidKind qid) s (Completes s qid q r pa 2)) ∧
    (r.kind = 2 → (∀ g ∈ s.graphs, g.2.queue = qid → g.2.complete = true) →
      Then (.submissionFence qid) s (Completes s qid q r pa 0)) ∧
    (r.kind = 1 → r.graph % 256 ≠ 0 ∨ 4096 < r.npatch ∨ r.done.toNat % 16 ≠ 0 →
      Then (.submitGraph qid) s (Completes s qid q r pa 2)) ∧
    ∀ b, r.kind = 1 → checkSubmission s q r = some (.ok b) → b.patches = [] →
      Then (.submitGraph qid) s fun s' => s'.queue? qid = some { q with cons := q.cons + 1 } ∧ s'.mem = s.mem ∧
        ∃ gid g, s'.graph? gid = some g ∧ g.queue = qid ∧ g.tag = r.tag ∧ g.complete = false ∧ g.status = none ∧
          g.nodes.map Node.kind = b.nodes.map Node.kind

/-- A node's phase. -/
def nodePhase (s : State) (gid n : Nat) : Option NodePhase := ((s.graph gid).nodes[n]?).map Node.phase
/-- A node that Pergola may act on, whose word of 8 bytes lies in HBM. -/
def NodeAt (s : State) (gid n : Nat) (g : Graph) (x : Node) (k : Access) (va : W64) (pa : Nat) : Prop :=
  admittedNode s gid n = some (g, x) ∧ Lies s (graphIssuer s g) k va.toNat 8 pa ∧ pa % 8 = 0 ∧ s.snoopFilter = []

/-- R60, R62 to R64, R67: an admitted launch node begins its launch and a launch whose teams have gone completes
its node; a conditional node reads its word and takes the edges of its value, a while node begins an iteration
or leaves, an event node waits for its word, a host signal stores its word and raises its vector; a tile copy
runs and completes; a ready node that nothing earlier blocks is admitted. The model's choice: the plan of a
binary serves every launch, log 74; tile copies round to nearest, log 77. -/
def Obligations.NodesRun : Prop :=
  (∀ (gid n teams : Nat) (g : Graph) (x : Node) (kernel : Kernel) (s : State), admittedNode s gid n = some (g, x) →
    x.kind = .launch kernel teams → Then (.launchNode gid n) s fun s' => nodePhase s' gid n = some .running ∧ s'.mem = s.mem ∧
      ∃ l, s'.launch? s.fresh = some l ∧ l.graph = gid ∧ l.node = n ∧ l.kernel = kernel ∧ l.teams = teams ∧ l.nextTeam = 0 ∧
        l.prio = g.prio ∧ l.complete = false) ∧
  (∀ (id : Nat) (l : Launch) (s : State), s.launch? id = some l → l.nextTeam = l.teams → l.ended = false → l.complete = false →
    launchBusy s id = false → (∃ x, (s.graph l.graph).nodes[l.node]? = some x) →
    Then (.launchComplete id) s fun s' => (s'.launch id).complete = true ∧ nodePhase s' l.graph l.node = some .done ∧ s'.mem = s.mem) ∧
  (∀ (gid n pa : Nat) (va : W64) (g : Graph) (x : Node) (s : State), NodeAt s gid n g x .load va pa → x.kind = .cond va →
    (∀ e ∈ g.edges, e.src = n → e.taken = none) →
    Then (.conditionalNode gid n) s fun s' => nodePhase s' gid n = some .done ∧ s'.mem = s.mem ∧
      ∀ e ∈ (s'.graph gid).edges, e.src = n →
        (e.kind = .ifTrue → e.taken = some (readLE s.mem pa 8 != 0)) ∧ (e.kind = .ifFalse → e.taken = some (readLE s.mem pa 8 == 0))) ∧
  (∀ (gid n pa limit : Nat) (va : W64) (g : Graph) (x : Node) (s : State), NodeAt s gid n g x .load va pa → x.kind = .loop va limit →
    Then (.whileNode gid n) s fun s' => s'.mem = s.mem ∧
      if readLE s.mem pa 8 ≠ 0 ∧ (limit = 0 ∨ x.iters < limit) then
        ((s'.graph gid).nodes[n]?).map Node.iters = some (x.iters + 1)
      else nodePhase s' gid n = some .done) ∧
  (∀ (gid n pa : Nat) (va value : W64) (g : Graph) (x : Node) (s : State), NodeAt s gid n g x .load va pa → x.kind = .event va value →
    value.toNat ≤ readLE s.mem pa 8 →
    Then (.eventWaitNode gid n) s fun s' => nodePhase s' gid n = some .done ∧ s'.mem = s.mem) ∧
  (∀ (gid n pa vector : Nat) (va value : W64) (g : Graph) (x : Node) (s : State), NodeAt s gid n g x .store va pa →
    x.kind = .signal va value vector → Unwatched s pa 8 → Memory.wf s.mem = true →
    Then (.hostSignalNode gid n) s fun s' => nodePhase s' gid n = some .done ∧ readLE s'.mem pa 8 = value.toNat ∧
      (∀ a, a < pa ∨ pa + 8 ≤ a → readCell s'.mem a = readCell s.mem a) ∧
      s'.outputs = s.outputs ++ (if vector = 0xFFFF then [] else [.msix (graphPort s g) vector])) ∧
  (∀ (gid n a b : Nat) (g : Graph) (x : Node) (s : State) (src dst : List (Nat × MemTy)), admittedNode s gid n = some (g, x) →
    x.kind = .tileCopy a b →
    let es := Tbl.getD g.templates a (Vector.replicate 4 0)
    let ed := Tbl.getD g.templates b (Vector.replicate 4 0)
    let i := graphIssuer s g
    let vecs := List.range (tVecs es)
    tileCopyOk ed es .rn false = true → s.snoopFilter = [] →
    reachRanges s i .load (vecs.map fun k => vecRange es (vecAt es k).1 (vecAt es k).2.1 (vecAt es k).2.2) = .ok src →
    (∀ p ∈ src, p.2 ≠ .hb ∧ memPoisoned s p.1 1 = false) →
    reachRanges s i .store ((vecs.flatMap fun k => (copyVec s i ed es ⟨TileRm.mode .rn, false, 0, false⟩ k).1).map fun y => (y.1, 1))
      = .ok dst →
    Then (.tileCopyNode gid n) s fun s' => nodePhase s' gid n = some .running ∧ ⟨gid, n⟩ ∈ s'.nodeCopies) ∧
  (∀ (gid n : Nat) (s : State), ⟨gid, n⟩ ∈ s.nodeCopies → (∃ x, (s.graph gid).nodes[n]? = some x) →
    Then (.tileCopyNodeComplete gid n) s fun s' => nodePhase s' gid n = some .done ∧ ⟨gid, n⟩ ∉ s'.nodeCopies ∧ s'.mem = s.mem) ∧
  (∀ (qid : Nat) (q : Queue) (c : Candidate) (s : State), s.queue? qid = some q → admissible s qid = some c →
    (s.part q.part).state = 1 → dieStopped s q.part q.die = false → (∃ y, (s.graph c.gid).nodes[c.n]? = some y) →
    Then (.regionAdmit qid) s fun s' => s'.mem = s.mem ∧
      if regionsOnDie s q.part q.die + c.x.regions.length ≤ 4096 then nodePhase s' c.gid c.n = some .admitted
      else dieStopped s' q.part q.die = true ∧ s'.graphs = s.graphs) ∧
  ∀ (gid pa : Nat) (g : Graph) (s : State), s.graph? gid = some g → g.complete = false → g.status = none →
    (∀ x ∈ g.nodes, x.phase = .done ∨ x.phase = .skipped) → Lies s (graphIssuer s g) .store g.done.toNat 16 pa → pa % 16 = 0 →
    s.snoopFilter = [] → Unwatched s pa 16 → Memory.wf s.mem = true →
    Then (.graphComplete gid) s fun s' => readLE s'.mem pa 8 = g.value.toNat ∧ readLE s'.mem (pa + 8) 8 = 0 ∧
      (∀ a, a < pa ∨ pa + 16 ≤ a → readCell s'.mem a = readCell s.mem a) ∧
      (s'.graph gid).complete = true ∧ (s'.graph gid).status = some 0

/-! ## Answers to records, and errors (R202 to R204, R207, R399) -/

/-- The poison mark of a lane register's 64-bit word (R207). -/
def marksWord (x : BitVec 64) (r : Reg) : Prop :=
  ∀ k : Reg, x.getLsbD k.val = true ↔ k.val / 2 = r.val / 2

/-- R202 to R204, R207, R399: a replay frees the thread that its record holds; an ended launch ends its graph
with status 4; a record handed to its thread traps it with SYSF; action 3 is ignored; the consumer count moves
forward within the occupancy and no further; a second-tier request without an answer files TIMEOUT; and a soft
error is counted, and marks the word that it strikes where nothing corrects it. The model's choice: the order at
the consumer index, log 51; records of an ended graph, log 52; soft errors, log 53 and 54. -/
def Obligations.AnswersAndErrors : Prop :=
  (∀ (p h : Nat) (r : Rec) (t : TId) (s : State), openRecord s p h = some (r, .thread t) → (s.thread t).wait = .fault p h →
    (r.sev = 0 → Then (.resumeReplay p h) s fun s' => (s'.thread t).wait = .none ∧ (s'.thread t).again = true ∧
      (s'.thread t).pc = (s.thread t).pc ∧ (s'.thread t).v = (s.thread t).v ∧ openRecord s' p h = none ∧ s'.mem = s.mem) ∧
    (r.sev = 1 → r.req = 0 → CanTrap s t → (s.thread t).outs = [] → (∀ q ∈ s.threads, q.2.wait = .fault p h → q.1 = t) →
      Then (.resumeHandToThread p h) s fun s' => openRecord s' p h = none ∧ s'.mem = s.mem ∧
        s'.thread t = (s.thread t).trapped (s.group (groupOf s t)).trapvec (0x0E + r.kind % 256 * 256) (BitVec.ofNat 32 r.seq)) ∧
    (r.sev ≠ 0 → exec (.resumeReplay p h) s = .next s) ∧ (r.sev ≠ 1 → exec (.resumeHandToThread p h) s = .next s)) ∧
  (∀ (p h gid : Nat) (r : Rec) (who : Requester) (g : Graph) (ps : List (Nat × MemTy)) (s : State), openRecord s p h = some (r, who) →
    r.sev = 0 ∨ r.sev = 1 → r.graph = some gid → s.graph? gid = some g → g.complete = false →
    (∀ u, (s.thread u).sb = []) → reachBytes s (graphIssuer s g) .store g.done.toNat 16 = .ok ps →
    Then (.resumeEndLaunch p h) s fun s' => (s'.graph gid).status = some 4 ∧ openRecord s' p h = none ∧
      ∀ l ∈ graphLaunches s gid, (s'.launch l).ended = true) ∧
  (∀ (p h : Nat) (s : State), exec (.resumeActionIgnored p h) s = .next s) ∧
  (∀ (p value : Nat) (s : State),
    let x := s.part p
    let d := (value + 2 ^ 32 - x.tqcons % 2 ^ 32) % 2 ^ 32
    (x.tqprod - x.tqcons < d → exec (.tqconsWrite p value) s = .next s) ∧
    (d ≤ x.tqprod - x.tqcons → x.waiting = [] → (∀ i < d, Tbl.find x.opened ((x.tqcons + i) % 4096) = none) →
      Then (.tqconsWrite p value) s fun s' => (s'.part p).tqcons = x.tqcons + d ∧ (s'.part p).tqprod = x.tqprod ∧
        s'.mem = s.mem ∧ s'.threads = s.threads)) ∧
  (∀ (id pa p : Nat) (t : TId) (o : Out) (s : State), findOut s id = some (t, o) → secondTier o = some pa → FilesIn s t.core p →
    recordHolds s p (.outload id) = false →
    Then (.secondTierTimeout id) s fun s' => s'.threads = s.threads ∧ (s'.part p).tqprod = (s.part p).tqprod + 1 ∧
      ∃ r, Tbl.find (s'.part p).opened ((s.part p).tqprod % 4096) = some (r, .outload id) ∧ r.kind = 0x08 ∧ r.sev = 0 ∧ r.pa = pa ∧
        r.pc = o.pc.toNat ∧ r.slot = t.slot) ∧
  ∀ (place : ErrPlace) (s : State),
    (Then (.softError place true) s fun s' => (s'.die (errDie s place)).sece = (s.die (errDie s place)).sece + 1 ∧
      s' = { s with dies := s'.dies }) ∧
    (∀ t r, place = .laneReg t r → Then (.softError place false) s fun s' =>
      (s'.die (t.core / 40)).seue = (s.die (t.core / 40)).seue + 1 ∧
      (∃ m, marksWord m r ∧ (s'.thread t).vPoison = (s.thread t).vPoison ||| m) ∧ s'.mem = s.mem) ∧
    ∀ byte, place = .hbm byte → Then (.softError place false) s fun s' =>
      memPoisoned s' (byte / 8 * 8) 8 = true ∧ s'.mem = s.mem ∧ s'.threads = s.threads

/-! ## Hosts and peers (R390 to R402) -/

/-- Every binding of a line that the directory watches is marked changed (R135, R298). -/
def marksLine (s s' : State) (line : Nat) : Prop :=
  ∀ u, ∀ k : Reg8, ((s.thread u).b.get k).bound = true → ((s.thread u).b.get k).ovf = false →
    ((s.thread u).b.get k).pa / 128 = line → ((s'.thread u).b.get k).changed = true
/-- What a snoop of a line sends: its bytes, where the package holds it in M. -/
def sendsDirty (s s' : State) (line : Nat) : Prop :=
  s'.outputs = s.outputs ++ (if Tbl.find s.hbLines line = some .m then [.snoopData (line * 128) (readBytes s.mem (line * 128) 128)] else [])

/-- No store waits in a buffer for a line, and the line is not narrow-held: a host load of it finds memory (R125, R131). -/
def Unbuffered (s : State) (line : Nat) : Prop :=
  (∀ p ∈ s.threads, ∀ e ∈ p.2.sb, e.pa / 128 ≠ line ∧ overlaps e.pa e.bytes.length (line * 128) 128 = false) ∧
    ∀ e ∈ s.narrow, e.1 ≠ line

/-- R298, R390, R392 to R395, R400 to R402: snoops of host-backed lines; reads, writes and invalidations of
device memory by a host, beyond HDMSIZE an error; requests of a peer; flits that a link replays; and the replay
of the requests that a peer's port had held. The model's choice: lines of 128 bytes, log 55; what a host
returns, log 56; whose request a peer's is, log 57. -/
def Obligations.HostAndPeers : Prop :=
  (∀ (line : Nat) (stored : List Host.Cell) (s : State), hostLine s line = true → Unbuffered s line →
    (stored.Pairwise (fun a b => a.1 ≠ b.1) → (∀ c ∈ stored, c.1 / 128 = line) → Memory.wf s.mem = true →
      Then (.snpInv line stored) s fun s' => Tbl.find s'.hbLines line = none ∧ sendsDirty s s' line ∧ marksLine s s' line ∧
        (∀ c ∈ stored, readCell s'.mem c.1 = c.2) ∧ ∀ a, (∀ c ∈ stored, c.1 ≠ a) → readCell s'.mem a = readCell s.mem a) ∧
    (Then (.snpData line) s fun s' => (Tbl.find s'.hbLines line = if Tbl.has s.hbLines line then some .s else none) ∧
      sendsDirty s s' line ∧ marksLine s s' line ∧ s'.mem = s.mem) ∧
    exec (.snpCur line) s = .next { s with outputs := s.outputs ++
      (if Tbl.has s.hbLines line then [.snoopData (line * 128) (readBytes s.mem (line * 128) 128)] else []) }) ∧
  (∀ (port pa : Nat) (wants : Meta) (bytes : List Byte) (s : State), s.device.hostPorts.contains port = true →
    let filter (s' : State) : Prop := Tbl.find s'.snoopFilter (pa / 128) =
      if s.hostBias.contains (pa / 4096) then (match wants with
        | .any => some true
        | .shared => some false
        | .invalid => none)
      else Tbl.find s.snoopFilter (pa / 128)
    let fails (i : Instr) : Prop := Then i s fun s' => (s'.link port).hdmerr = (s.link port).hdmerr + 1 ∧
      s'.outputs = s.outputs ++ [.hostError port pa] ∧ s'.mem = s.mem
    (s.device.hdmSize ≤ pa → fails (.hostMemRd port pa wants) ∧ fails (.hostMemInv port pa wants)) ∧
    (s.device.hdmSize < pa + bytes.length → fails (.hostMemWr port pa bytes)) ∧
    (pa < s.device.hdmSize → Unbuffered s (pa / 128) →
      (Tbl.has s.snoopFilter (pa / 128) = true ∨ s.snoopFilter.length < Config.filterSize) →
      (Then (.hostMemRd port pa wants) s fun s' => s'.mem = s.mem ∧ (wants ≠ .invalid → filter s') ∧
        s'.outputs = s.outputs ++ [.hostData port (pa / 128 * 128) (readBytes s.mem (pa / 128 * 128) 128)
            (if s.hostBias.contains (pa / 4096) then wants else .invalid)]
          ++ (if memPoisoned s (pa / 128 * 128) 128 then [.poisoned port (pa / 128 * 128)] else [])) ∧
      Then (.hostMemInv port pa wants) s fun s' => s'.mem = s.mem ∧ filter s' ∧ s'.outputs = s.outputs) ∧
    (pa + bytes.length ≤ s.device.hdmSize → Memory.wf s.mem = true →
      Then (.hostMemWr port pa bytes) s fun s' => (∀ k < bytes.length, readCell s'.mem (pa + k) = bytes.getD k 0) ∧
        ∀ a, a < pa ∨ pa + bytes.length ≤ a → readCell s'.mem a = readCell s.mem a)) ∧
  (∀ (peer pa : Nat) (op : PeerOp) (s : State),
    let p := peerPart s
    let inside : Prop := (s.part p).state = 1 ∧ ∀ i < PeerOp.bytes op, placeOf (pa + i) = .hbm ∧ inRanges s p (pa + i) = true
    (¬inside → exec (.peerInboundRequest peer pa op) s = .next (s.emit (.peerRefused peer pa))) ∧
    (inside → Memory.wf s.mem = true → s.snoopFilter = [] →
      (∀ n, op = .load n → Then (.peerInboundRequest peer pa op) s fun s' => s'.mem = s.mem ∧
        s'.outputs = s.outputs ++ [.peerData peer pa (readBytes s.mem pa n)]) ∧
      (∀ bs, op = .store bs → Then (.peerInboundRequest peer pa op) s fun s' =>
        (∀ k < bs.length, readCell s'.mem (pa + k) = bs.getD k 0) ∧
        ∀ a, a < pa ∨ pa + bs.length ≤ a → readCell s'.mem a = readCell s.mem a) ∧
      ∀ y, op = .atom .add 8 y → Then (.peerInboundRequest peer pa op) s fun s' =>
        readLE s'.mem pa 8 = (readLE s.mem pa 8 + y.toNat) % 2 ^ 64 ∧
        s'.outputs = s.outputs ++ [.peerData peer pa (readBytes s.mem pa 8)])) ∧
  (∀ (port flits : Nat) (s : State), port < 28 →
    Then (.linkLevelReplay port flits) s fun s' => (s'.link port).count = (s.link port).count + flits ∧ s' = { s with links := s'.links }) ∧
  ∀ (port p h n : Nat) (x : Partition) (y : Peer) (r : Rec) (t : TId) (s : State), 16 ≤ port → port < 28 → (s.link port).down = false →
    s.parts = [(p, x)] → x.opened = [(h, r, .thread t)] → x.waiting = [] → r.kind = 0x08 → placeOf r.pa = .peer n →
    Tbl.find x.peers n = some y → y.ports.getLsbD (port - 16) = true → (s.thread t).wait = .fault p h →
    Then (.peerPortRecovery port) s fun s' => (s'.thread t).wait = .none ∧ (s'.thread t).again = true ∧
      (s'.thread t).pc = (s.thread t).pc ∧ (s'.part p).opened = [] ∧ s'.mem = s.mem

/-! ## Preley's calls (R403 to R406) -/

/-- The next call of a mailbox, of a partition in its PARTS. -/
def Asks (s : State) (m code : Nat) (c : Call) : Prop :=
  headCall s m = some c ∧ c.code = code ∧ (s.mailbox m).parts.getLsbD c.part = true ∧ s.snoopFilter = [] ∧
    Unwatched s (callAddr (s.mailbox m)) 64 ∧ Memory.wf s.mem = true
/-- Preley's answer: STATUS in the record, DONE past it, and the results. -/
def Answered (s s' : State) (m status : Nat) (res : List Nat) : Prop :=
  let a := callAddr (s.mailbox m)
  (s'.mailbox m).done = ((s.mailbox m).done + 1) % 2 ^ 32 ∧ readLE s'.mem (a + 4) 4 = status ∧
    ∀ k < res.length, readLE s'.mem (a + 0x30 + 8 * k) 8 = res.getD k 0 % 2 ^ 64
/-- Memory but for a call record is as before. -/
def keepsMem (s s' : State) (m : Nat) : Prop :=
  ∀ a, a < callAddr (s.mailbox m) ∨ callAddr (s.mailbox m) + 64 ≤ a → readCell s'.mem a = readCell s.mem a
/-- The event of a call code. -/
def CallEvent (m code : Nat) (i : Instr) : Prop :=
  (code = 1 ∧ i = .createSubmissionQueue m) ∨ (code = 2 ∧ i = .destroySubmissionQueue m) ∨ (code = 3 ∧ i = .invalidateTranslations m) ∨
  (code = 4 ∧ i = .biasFlip m) ∨ (code = 5 ∧ i = .enablePartition m) ∨ (code = 6 ∧ i = .disablePartition m) ∨
  (code = 7 ∧ i = .peerMap m) ∨ (code = 8 ∧ i = .attachDebugger m) ∨ (code = 9 ∧ i = .userInterruptCall m) ∨
  (code = 10 ∧ i = .debuggerHalt m) ∨ (code = 11 ∧ i = .debuggerResume m) ∨ (code = 12 ∧ i = .debuggerFreeze m) ∨
  (code = 13 ∧ i = .debuggerRead m) ∨ (code = 14 ∧ i = .debuggerWrite m) ∨ (code = 15 ∧ i = .debuggerDetach m)

/-- R55, R182, R209, R396, R400, R404: the calls on queues, translations, bias, peers and user interrupts; a
call of a partition that is not the mailbox's, and one of no known code, are answered 3 and 1. The model's
choice: the status of bad arguments and the die of a queue, log 58; where doorbells lie, log 72; a flip in one step, log 96. -/
def Obligations.PreleyCalls : Prop :=
  ∀ (m : Nat) (c : Call) (s : State),
    (∀ i, headCall s m = some c → s.snoopFilter = [] → Memory.wf s.mem = true →
      (CallEvent m c.code i → (s.mailbox m).parts.getLsbD c.part = false → Then i s fun s' => Answered s s' m 3 [] ∧ keepsMem s s' m) ∧
      (c.code = 0 ∨ 15 < c.code → Then (.mailboxUnknownCall m) s fun s' => Answered s s' m 1 [] ∧ keepsMem s s' m)) ∧
    (Asks s m 1 c → 6 ≤ c.get 1 → c.get 1 ≤ 16 → c.get 0 % (64 * 2 ^ c.get 1) = 0 → c.get 2 % 4096 = 0 → c.get 3 < 4096 →
      (s.part c.part).state = 1 →
      ringInDevice s { part := c.part, ring := BitVec.ofNat 64 (c.get 0), logn := c.get 1, root1 := c.get 2, asn := c.get 3 } = true →
      Then (.createSubmissionQueue m) s fun s' => ∃ q, s'.queue? s.fresh = some q ∧ Answered s s' m 0 [q.doorbell, q.consumer] ∧
        q.part = c.part ∧ q.ring = BitVec.ofNat 64 (c.get 0) ∧ q.logn = c.get 1 ∧ q.root1 = c.get 2 ∧ q.asn = c.get 3 ∧
        q.prod = 0 ∧ q.cons = 0 ∧ q.destroyed = false ∧ keepsMem s s' m) ∧
    (∀ id q, Asks s m 2 c → s.queues.find? (fun q => q.2.part == c.part && q.2.doorbell == c.get 0 && !q.2.destroyed) = some (id, q) →
      (∀ g ∈ s.graphs, g.2.queue = id → g.2.complete = true) →
      Then (.destroySubmissionQueue m) s fun s' => s'.queue? id = some { q with destroyed := true } ∧ Answered s s' m 0 [] ∧
        keepsMem s s' m) ∧
    (Asks s m 3 c → c.get 0 < 4096 ∨ c.get 0 = 0xFFFF → c.get 3 % 2 = 0 → (∀ u, (s.thread u).outs = [] ∧ (s.thread u).sb = []) →
      Then (.invalidateTranslations m) s fun s' => Answered s s' m 0 [] ∧ keepsMem s s' m ∧ ∀ u, ∀ k : Reg8,
        let i := issuerOf s (groupOf s u)
        let b := (s.thread u).b.get k
        let named : Prop := partOfCore s u.core = some c.part ∧ i.part = c.part ∧ (c.get 0 = 0xFFFF ∨ i.asn = c.get 0) ∧
          b.bound = true ∧ givesW s i b.va.toNat b.pa = false
        let meets (n : Nat) : Prop := c.get 2 = 0 ∨ overlaps (b.va.toNat / n * n) n (c.get 1) (c.get 2) = true
        (named → meets 4096 → ((s'.thread u).b.get k).revoked = true) ∧
        (¬named ∨ ¬meets (2 ^ 30) → ((s'.thread u).b.get k).revoked = b.revoked)) ∧
    (Asks s m 4 c → c.get 0 % 4096 = 0 → placeOf (c.get 0) = .hbm → c.get 0 < s.device.hdmSize → c.get 1 ≤ 1 →
      Then (.biasFlip m) s fun s' => Answered s s' m 0 [] ∧ keepsMem s s' m ∧
        ∀ page, page ∈ s'.hostBias ↔ if page = c.get 0 / 4096 then c.get 1 = 1 else page ∈ s.hostBias) ∧
    (Asks s m 7 c → c.get 0 < 512 → c.get 2 < 20 → c.get 3 < 2 ^ 12 →
      (Tbl.find s.device.peerIdentity (c.get 0) = some (BitVec.ofNat 64 (c.get 1)) →
        Then (.peerMap m) s fun s' => Answered s s' m 0 [] ∧ keepsMem s s' m ∧
          Tbl.find (s'.part c.part).peers (c.get 0) = some ⟨BitVec.ofNat 64 (c.get 1), c.get 2, BitVec.ofNat 12 (c.get 3)⟩) ∧
      (Tbl.find s.device.peerIdentity (c.get 0) ≠ some (BitVec.ofNat 64 (c.get 1)) →
        Then (.peerMap m) s fun s' => Answered s s' m 2 [] ∧ keepsMem s s' m ∧ s'.parts = s.parts)) ∧
    ∀ id l h, Asks s m 9 c → launchNumbered s (c.get 0) = some (id, l) → l.part = c.part → c.get 1 < 2 ^ 48 →
      groupNamed s id (c.get 1 / 2 ^ 16 % 2 ^ 32) (c.get 1 % 2 ^ 16) = some h →
      Then (.userInterruptCall m) s fun s' => Answered s s' m 0 [] ∧ keepsMem s s' m ∧
        (∀ u ∈ liveThreads s h, (s'.thread u).uint = some .preley) ∧
        ∀ u, u ∉ liveThreads s h → (s'.thread u).uint = (s.thread u).uint

/-- R168, R171, R185, R202: enabling gives a disabled partition its clusters, zeroed memory and a fresh trap
queue, counters and ceiling; disabling one that nothing runs in takes them all back. The model's choice:
statuses, and what enabling and disabling reset, log 59 to 61. -/
def Obligations.PartitionsComeAndGo : Prop :=
  ∀ (m : Nat) (c : Call) (s : State),
    let x := s.part c.part
    let mine (n : Nat) : Prop := n < 80 ∧ x.clusters.getLsbD n = true
    (Asks s m 5 c → x.state = 0 → (∀ n, mine n → (s.cluster n).owner = none) → s.boot.firmwareOk = true → s.boot.preleyOk = true →
      4 ≤ (grantOf x).length → 10 * (grantOf x).length ≤ x.allot → otherAllot s c.part + x.allot ≤ 3600 →
      Then (.enablePartition m) s fun s' => Answered s s' m 0 [] ∧ (∀ n, mine n → (s'.cluster n).owner = some c.part) ∧
        (∀ n, ¬mine n → s'.cluster n = s.cluster n) ∧ (s'.part c.part).state = 1 ∧ (s'.part c.part).meter = 0 ∧
        (s'.part c.part).ceiling = 23 ∧ (s'.part c.part).tqprod = 0 ∧ (s'.part c.part).tqcons = 0 ∧ (s'.part c.part).opened = [] ∧
        (∀ k, (s'.pmc c.part).get k = 0) ∧
        (∀ a r, r ∈ x.ranges.toList → r.en = true → r.base ≤ a → a ≤ r.limit + 0xFFF → placeOf a = .hbm →
          a < callAddr (s.mailbox m) ∨ callAddr (s.mailbox m) + 64 ≤ a → readCell s'.mem a = 0) ∧
        ∀ a, (∀ r ∈ x.ranges.toList, r.en = true → a < r.base ∨ r.limit + 0xFFF < a) →
          a < callAddr (s.mailbox m) ∨ callAddr (s.mailbox m) + 64 ≤ a → readCell s'.mem a = readCell s.mem a) ∧
    (Asks s m 6 c → x.state = 0 → (∀ n < 80, (s.cluster n).owner ≠ some c.part) → Then (.disablePartition m) s fun s' => Answered s s' m 0 [] ∧ keepsMem s s' m ∧ s'.parts = s.parts) ∧
    (Asks s m 6 c → ((x.state = 1 ∨ (x.state = 0 ∧ ∃ n < 80, (s.cluster n).owner = some c.part)) ∧ partBusy s c.part = false) ∨
        (x.state = 2 ∧ ∀ g ∈ s.graphs, graphPart s g.2 = some c.part → g.2.complete = true) →
      Then (.disablePartition m) s fun s' => Answered s s' m 0 [] ∧ (s'.part c.part).state = 0 ∧ (s'.part c.part).clusters = 0 ∧
        (s'.part c.part).debugger = none ∧ (s'.part c.part).measured = none ∧ (s'.part c.part).peers = [] ∧
        (∀ n < 80, (s.cluster n).owner = some c.part → (s'.cluster n).owner = none ∧ (s'.cluster n).gated = true ∧
          (s'.cluster n).entries = []) ∧
        ∀ u : TId, u.core < 160 → partOfCore s u.core = some c.part → (s'.thread u).live = false)

/-- R217 to R220, R404: a debugger attaches, halts and resumes scopes, freezes engines, reads and writes state,
and detaches. The model's choice: the check of the event area, log 62; dumps, log 63; handles and launch
numbers, log 84. -/
def Obligations.DebuggerCalls : Prop :=
  ∀ (m p : Nat) (c : Call) (d : Debugger) (s : State),
    (∀ sc, Asks s m 8 c → (s.part c.part).debugger = none →
      ((c.get 0 = 0 ∧ sc = .group) ∨ (c.get 0 = 1 ∧ sc = .team) ∨ (c.get 0 = 2 ∧ sc = .launch)) →
      c.get 1 % 4096 = 0 → bufferOk s c.part (c.get 1) 4096 = true → c.get 2 < 2048 ∨ c.get 2 = 0xFFFF →
      Then (.attachDebugger m) s fun s' => Answered s s' m 0 [(Config.debugHandle s.fresh).toNat] ∧ keepsMem s s' m ∧
        (s'.part c.part).debugger = some { handle := (Config.debugHandle s.fresh).toNat, mailbox := m, scope := sc, area := c.get 1, vector := c.get 2 }) ∧
    (attachedPart s m (c.get 0) = some (p, d) →
      (∀ h, Asks s m 10 c → c.get 2 < 2 ^ 48 →
        namedScope s p d (c.get 1) (c.get 2 / 2 ^ 16 % 2 ^ 32) (c.get 2 % 2 ^ 16) = some h →
        Then (.debuggerHalt m) s fun s' => Answered s s' m 0 [] ∧
          (∀ u, (s.thread u).wait ≠ .yield → s'.thread u = s.thread u) ∧
          ∃ e, (s'.part p).debugger = some e ∧ h ∈ e.halted ∧ (∀ k ∈ d.halted, k ∈ e.halted) ∧ e.events = d.events + 1) ∧
      (Asks s m 11 c → Then (.debuggerResume m) s fun s' => Answered s s' m 0 [] ∧ keepsMem s s' m ∧
        (s'.part p).debugger = some { d with halted := [] }) ∧
      (Asks s m 12 c → Then (.debuggerFreeze m) s fun s' => Answered s s' m 0 [] ∧ keepsMem s s' m ∧ s'.threads = s.threads ∧
        (s'.part p).debugger = some { d with frozen := c.get 1 % 2 == 1 }) ∧
      (∀ bs, Asks s m 13 c → d.halted ≠ [] → bufferOk s p (c.get 3) (c.get 4) = true →
        debugRead s p d (c.get 1) (c.get 2) (c.get 4) = some bs →
        c.get 3 + c.get 4 ≤ callAddr (s.mailbox m) ∨ callAddr (s.mailbox m) + 64 ≤ c.get 3 →
        Then (.debuggerRead m) s fun s' => Answered s s' m 0 [min (c.get 4) bs.length] ∧
          ∀ k < min (c.get 4) bs.length, readCell s'.mem (c.get 3 + k) = bs.getD k 0) ∧
      (Asks s m 14 c → d.halted ≠ [] → bufferOk s p (c.get 2) (c.get 3) = true →
        (∀ k < c.get 3, debugMayWrite s p (c.get 1 + k) = true ∧ (spadCore (c.get 1 + k)).isSome = true) →
        c.get 1 + c.get 3 ≤ callAddr (s.mailbox m) ∨ callAddr (s.mailbox m) + 64 ≤ c.get 1 →
        Then (.debuggerWrite m) s fun s' => Answered s s' m 0 [] ∧
          ∀ k < c.get 3, readCell s'.mem (c.get 1 + k) = readCell s.mem (c.get 2 + k) ∧ lineAbsent s' (c.get 1 + k) = false) ∧
      (Asks s m 15 c → Then (.debuggerDetach m) s fun s' => Answered s s' m 0 [] ∧ keepsMem s s' m ∧
        (s'.part p).debugger = none))

/-! ## Power, attestation and links (R185 to R193, R407 to R418) -/

/-- An SPDM answer at a port. -/
def AnswersSpdm (i : Instr) (port : Nat) (body : List Byte → Prop) : Prop :=
  ∀ s : State, s.device.hostPorts.contains port = true → ∃ b, body b ∧ exec i s = .next (s.emit (.spdm port b))

/-- R190 to R193: the boot measures the ROM's identity, the firmware and, where that passes its check, Preley's image,
each before it runs, and stops at one that fails; SPDM answers at a
port in host mode, with the measurement of a partition only where its HOSTPORTS names the port. The model's
choice: digests, signatures and the standard's answers are opaque, log 70. -/
def Obligations.BootAndAttestation : Prop :=
  (∀ (fw pr : Bool) (s : State), s.boot.started = false →
    Then (.powerOnBoot fw pr) s fun s' => s'.boot.started = true ∧ s'.boot.firmwareOk = fw ∧ s'.boot.preleyOk = (fw && pr) ∧
      s'.boot.m1 = Config.shake256 Config.romIdentity ∧ s'.boot.m2 = Config.shake256 Config.firmwareImage ∧
      s'.boot.m3 = (if fw then Config.shake256 Config.preleyImage else []) ∧ s' = { s with boot := s'.boot }) ∧
  ∀ (port slot nonce code : Nat),
    let body (n : Nat) (more b : List Byte) : Prop := b = Config.spdmBody n port ++ more
    AnswersSpdm (.getVersion port) port (body 0 [0x12, 0x13]) ∧ AnswersSpdm (.getCapabilities port) port (body 1 []) ∧
    AnswersSpdm (.negotiateAlgorithms port) port (body 2 (toBytes 4 0x400 ++ toBytes 4 0x20)) ∧
    AnswersSpdm (.getDigests port) port (body 3 (1 :: Config.sha3 Config.certChain)) ∧
    AnswersSpdm (.getCertificate port slot) port (body (16 + slot) (if slot = 0 then Config.certChain else [])) ∧
    AnswersSpdm (.challenge port nonce) port (body 4 (Config.deviceSign (Config.spdmBody 4 port ++ toBytes 32 nonce))) ∧
    (∀ s : State, s.device.hostPorts.contains port = true →
      (∀ p, p < 20 → exec (.getMeasurements port (some (16 + p))) s = .next (s.emit (.spdm port (Config.spdmBody 5 port ++
        (match (s.part p).hostports.getLsbD port, (s.part p).measured with
          | true, some d => BitVec.ofNat 8 (16 + p) :: d
          | _, _ => []))))) ∧
      exec (.getMeasurements port (some 1)) s = .next (s.emit (.spdm port (Config.spdmBody 5 port ++ 1 :: s.boot.m1))) ∧
      exec (.getMeasurements port (some 2)) s = .next (s.emit (.spdm port (Config.spdmBody 5 port ++ 2 :: s.boot.m2))) ∧
      exec (.getMeasurements port (some 3)) s = .next (s.emit (.spdm port (Config.spdmBody 5 port ++ 3 :: s.boot.m3)))) ∧
    ∀ s : State, s.device.hostPorts.contains port = true →
      exec (.spdmUnsupportedRequest port code) s = .next (s.emit (.spdmError port code))

/-- R5, R58, R167, R185 to R187, R400, R407 to R409, R411 to R418: the meters of a sample and a die's
conditions; the failure of the input; a level that settles; filler energy; a link's window, its loss and its
return; the gating and waking of a cluster; writes of STATE and, in a disabled and in another partition, of ALLOT;
a host's write of a descriptor, which is answered with an error and recorded as a violation; a RESUME of action 2; and a doorbell. The model's
choice: health records, clearing windows, filler shares, gating, a write of STATE: log 64
to 69; samples, log 80; a refused write, log 97. -/
def Obligations.PowerAndLinks : Prop :=
  (∀ (r : Readings) (s : State), ∃ s', exec (.telemetrySample r) s = .next s' ∧
    (∀ p mw, r.meters = [(p, mw)] → p < 20 →
      let x := s.part p
      let n := mw + x.fill / 10
      (s'.part p).meter = n ∧ (s'.part p).fill = 0 ∧
      (x.allot * 1000 < n → (s'.part p).ceiling = x.ceiling - 1 ∧ (x.ceiling = 0 → (s'.part p).overrun = true)) ∧
      (n * 100 < x.allot * 1000 * 95 → (s'.part p).ceiling = (if x.ceiling < 23 then x.ceiling + 1 else x.ceiling) ∧
        (s'.part p).overrun = false) ∧
      (x.allot * 1000 * 95 ≤ n * 100 → n ≤ x.allot * 1000 → (s'.part p).ceiling = x.ceiling ∧ (s'.part p).overrun = false)) ∧
    ∀ k d, k < 4 → r.dies[k]? = some d →
      let x := s.die k
      let cap := if x.cap = 0 then 900 else min x.cap 900
      (s'.die k).power = d.power ∧ (s'.die k).tmax = d.tmax ∧
      ((s'.die k).hot = true ↔ cap * 1000 < d.power ∨ x.tsat + x.super * 10 < d.tmax) ∧ (1150 ≤ d.tmax → (s'.die k).trip = true)) ∧
  (∀ (mv : Nat) (s : State), mv < 40000 → Then (.powerFail mv) s fun s' => s'.mem = [] ∧ s'.threads = [] ∧ s'.groups = [] ∧
    s'.parts = [] ∧ s'.clusters = [] ∧ s'.queues = [] ∧ s'.launches = [] ∧ s'.device = s.device) ∧
  (∀ (n l : Nat) (s : State), (s.cluster n).settling = some l → Then (.frequencySettle n) s fun s' =>
    (s'.cluster n).level = l ∧ (s'.cluster n).settling = none ∧ s' = { s with clusters := s'.clusters }) ∧
  (∀ (d a b : Nat) (s : State), d < 4 → b < a → Then (.currentSlopeFill d a b) s fun s' =>
    let e := (a - b) * (a - b) * 900 / (if (s.die d).slope = 0 then 40 else (s.die d).slope)
    (s.die d).fill ≤ (s'.die d).fill ∧ (s'.die d).fill ≤ (s.die d).fill + e ∧
    ((∀ n, n / 20 = d → ∀ p, (s.cluster n).lastMatrix = some p → (s.part p).state ≠ 0) → (s'.die d).fill = (s.die d).fill + e) ∧
    s'.mem = s.mem ∧ s'.threads = s.threads) ∧
  (∀ (r : LinkReading) (s : State), r.port < 28 → Then (.linkHealthWindow [r]) s fun s' =>
    let x := s.link r.port
    let y := s'.link r.port
    y.eye = r.eye ∧ y.wlane = r.wlane ∧ y.corr = x.count ∧ y.count = 0 ∧
    (y.degraded = true ↔ (r.eye < x.eyeth ∧ 2 ≤ x.lowEye) ∨ x.corrth < x.count ∨
      (x.degraded = true ∧ (r.eye < x.eyeth ∨ x.good < 99)))) ∧
  (∀ (port : Nat) (s : State), port < 28 →
    ((s.link port).down = false → Then (.linkDown port) s fun s' => (s'.link port).down = true) ∧
    ((s.link port).down = true → Then (.linkTrained port) s fun s' => (s'.link port).down = false)) ∧
  (∀ (n : Nat) (s : State), n < 80 → (s.cluster n).gated = false → coreHolds s (2 * n) = false → coreHolds s (2 * n + 1) = false →
    flushWaits s (2 * n) = false → flushWaits s (2 * n + 1) = false →
    Then (.clusterGate n) s fun s' => (s'.cluster n).gated = true ∧ (s'.cluster n).entries = (s.cluster n).entries ∧
      (s'.cluster n).owner = (s.cluster n).owner ∧
      ∀ a core off, placeOf a = .window core off → core / 2 = n → readCell s'.mem a = 0) ∧
  (∀ (n : Nat) (ts : List TId) (s : State), (s.cluster n).gated = true → (s.cluster n).owner ≠ none → ts ≠ [] →
    (s.cluster n).heldReqs.map Held.who = ts.map .thread → (∀ t ∈ ts, ∃ load, (s.thread t).wait = .remote n load) →
    Then (.clusterWake n) s fun s' => (s'.cluster n).gated = false ∧ (s'.cluster n).heldReqs = [] ∧
      (∀ t ∈ ts, (s'.thread t).wait = .none ∧ (s'.thread t).pc = (s.thread t).pc) ∧
      s'.agenda = ts.map (fun t => .replay ⟨t.core, t.bank, [t.slot]⟩) ++ s.agenda ∧ s'.mem = s.mem) ∧
  ∀ (v : W64) (s : State),
    (∀ p, p < 20 →
      (Then (.registerWrite .service (0xE000000100000 + p * 0x1000) v) s fun s' =>
        let x := s.part p
        let fits : Prop := bootOk s = true ∧ 4 ≤ (grantOf x).length ∧ 10 * (grantOf x).length ≤ x.allot ∧ otherAllot s p + x.allot ≤ 3600
        let resumes : Prop := x.state = 2 ∧ x.measured ≠ none
        (v.toNat % 4 = 0 ∨ v.toNat % 4 = 2 → (s'.part p).state = v.toNat % 4) ∧
        (v.toNat % 4 = 3 ∨ x.state = 1 ∧ v.toNat % 4 = 1 → (s'.part p).state = x.state) ∧
        (v.toNat % 4 = 1 → x.state ≠ 1 →
          (fits ∧ (resumes ∨ grantFree s x = true) → (s'.part p).state = 1) ∧
          (¬(fits ∧ (resumes ∨ grantFree s x = true)) → (s'.part p).state = x.state))) ∧
      ((s.part p).state = 0 → Then (.registerWrite .service (0xE000000100020 + p * 0x1000) v) s fun s' =>
        (s'.part p).allot = v.toNat % 2 ^ 16 ∧ s' = { s with parts := s'.parts }) ∧
      ((s.part p).state ≠ 0 → Then (.registerWrite .service (0xE000000100020 + p * 0x1000) v) s fun s' =>
        s'.part p = s.part p ∧ s' = { s with parts := s'.parts }) ∧
      (∀ k off, off < 0x1000 →
        let pa := 0xE000000100000 + p * 0x1000 + off
        (enabledParts s = [] → exec (.registerWrite (.host k) pa v) s = .next (s.emit (.hostError k pa))) ∧
        ∀ q, pickOne s 60008 (enabledParts s) = some q → (s.part q).tqprod - (s.part q).tqcons < 4096 →
          Then (.registerWrite (.host k) pa v) s fun s' => (s'.part q).tqprod = (s.part q).tqprod + 1 ∧
            (∃ r who, Tbl.find (s'.part q).opened ((s.part q).tqprod % 4096) = some (r, who) ∧ r.kind = 0x06 ∧ r.sev = 1 ∧ r.pa = pa) ∧
            .hostError k pa ∈ s'.outputs ∧ (s'.part p).state = (s.part p).state ∧ (s'.part p).clusters = (s.part p).clusters ∧
            (s'.part p).s2root = (s.part p).s2root ∧ (s'.part p).allot = (s.part p).allot ∧
            (s'.part p).hostports = (s.part p).hostports ∧ (s'.part p).ranges = (s.part p).ranges) ∧
      ∀ h, v.toNat = h + 2 * 2 ^ 16 → h < 4096 → exec (.registerWrite .service (0xE000000120018 + p * 0x100) v) s =
        exec (.resumeHandToThread p h) s) ∧
    ∀ id q pa, (pa < 0xE000000000000 ∨ 0xE000000180000 ≤ pa) → s.queues.find? (fun q => q.2.doorbell == pa) = some (id, q) →
      q.destroyed = false → (s.part q.part).state ≠ 2 → q.prod.toNat ≤ v.toNat → v.toNat ≤ q.prod.toNat + 2 ^ q.logn →
      v.toNat ≤ q.cons.toNat + 2 ^ q.logn → q.cons.toNat ≤ q.prod.toNat → q.cons.toNat + 2 ^ q.logn < 2 ^ 64 →
      Then (.registerWrite (.host 0) pa v) s fun s' => s'.queue? id = some { q with prod := v } ∧ s'.mem = s.mem

/-! ## Every event runs somewhere -/

/-- Preley answers the next call of a mailbox with status 0. -/
def AnsweredOk (i : Instr) (s : State) (m : Nat) : Prop :=
  Then i s fun t => (t.mailbox m).done = ((s.mailbox m).done + 1) % 2 ^ 32 ∧ readLE t.mem (callAddr (s.mailbox m) + 4) 4 = 0

/-- Completion of events: each of the named events, where it has its work to do, answers a next state in which that
work is done. Power and links (R407 to R418), teams and bins (R69 to R76), engines (R349, R361, R364, R366), answers
and errors (R203, R207, R399), Preley's calls (R404) and SPDM (R192). The model's choice: events come when the agenda
says, log 1. -/
def Obligations.PackageEventsRun : Prop :=
  ∀ s : State,
  -- power, links and registers
    (∀ v : W64, Then (.registerWrite .service 0xE000000160890 v) s fun t => t.health.hevec = v.toNat % 2 ^ 16) ∧
    (∀ n l, (s.cluster n).settling = some l → Then (.frequencySettle n) s fun t => (t.cluster n).level = l) ∧
    (∀ n, n < 80 → (s.cluster n).gated = false → coreHolds s (2 * n) = false → coreHolds s (2 * n + 1) = false →
      flushWaits s (2 * n) = false → flushWaits s (2 * n + 1) = false →
      Then (.clusterGate n) s fun t => (t.cluster n).gated = true) ∧
    (∀ n u, (s.cluster n).gated = true → (s.cluster n).owner ≠ none → (s.cluster n).heldReqs.map Held.who = [.thread u] →
      Then (.clusterWake n) s fun t => (t.cluster n).gated = false) ∧
    (∀ r, Then (.telemetrySample r) s fun t => t.health.input = r.input) ∧
    (∀ mv, mv < 40000 → Then (.powerFail mv) s fun t => t.threads = []) ∧
    (∀ d a b, d < 4 → b < a → Then (.currentSlopeFill d a b) s fun t => (s.die d).fill ≤ (t.die d).fill) ∧
    (∀ r, r.port < 28 → Then (.linkHealthWindow [r]) s fun t => (t.link r.port).eye = r.eye) ∧
    (∀ k, k < 28 → (s.link k).down = false → Then (.linkDown k) s fun t => (t.link k).down = true) ∧
    (∀ k, k < 28 → (s.link k).down = true → Then (.linkTrained k) s fun t => (t.link k).down = false) ∧
  -- teams and bins
    (∀ l c s1, teamWaits s (s.launch l) = true → (∀ a ∈ aheadOf s l, placement s a = none) → placement s l = some (c, s1) →
      (s.cluster (c / 2)).gated = false →
      Then (.placeTeam l) s fun t => (t.launch l).nextTeam = (s1.launch l).nextTeam + 1) ∧
    (∀ core count l x, (s.core core).tables = [(l, x)] → x.entries = [none] → count ≠ 0 →
      Then (.scheduleTableWrite core count) s fun t => ∃ y, (t.core core).tables = [(l, y)] ∧ y.cursor = x.cursor) ∧
    (∀ core k b, Tbl.find (s.core core).bins k = some b → (s.core core).swap = none →
      (b.due = false → binSeat (wakeCore s core) core b = none →
        Then (.spawnBinTimeout core k) s fun t => Tbl.find (t.core core).bins k = some { b with due := true }) ∧
      ∀ seat, b.due = true → binSeat s core b = some seat →
        Then (.spawnBinFire core k) s fun t => (t.group ⟨core, (s.core core).act, seat.first / 16⟩).live = true) ∧
    (∀ core launch team k o entry r, queueFor s core = some (launch, team, 1) →
      headBin s core launch team = some (o, entry, r, k) → (∃ j < 16, Tbl.find (s.core core).bins j = none) →
      (Tbl.getD (s.core core).bins k { entry := entry, launch := launch, team := team, recs := [] }).recs.length + 1
        < (s.launch (Tbl.getD (s.core core).bins k { entry := entry, launch := launch, team := team, recs := [] }).launch).kernel.group →
      Then (.overflowQueueMove core) s fun t =>
        Tbl.find (t.launch launch).overflow team = some { o with head := (o.head + 1) % o.cap, count := o.count - 1 }) ∧
  -- engines
    (∀ g c rest, (s.group g).copyWait = c :: rest → c.group = g → c.slots.Nodup → c.total ≠ 0 → Stored s g.core c.threads →
      (∃ k < 64, Tbl.find (s.core g.core).copies k = none) →
      (∀ p ∈ s.groups, p.1.core = g.core → ∀ d ∈ p.2.copyWait, c.seq ≤ d.seq) →
      Then (.copyCommandAccept g) s fun t => (t.group g).copyWait = rest) ∧
    (∀ core cmd c m spa dpa p l n f, OneChunk s core cmd c 0 m c.src.toNat c.dst.toNat spa dpa p l n f → Memory.wf s.mem = true →
      c.kind = .flat → c.landed = [] → c.bytesLanded = 0 → m = c.count.toNat % 2 ^ 32 → m ≠ 0 → c.chunk 0 = some (0, m) →
      Then (.copyChunkLand core cmd 0) s fun t => Tbl.find (t.core core).copies cmd = none) ∧
    (∀ g q op, (s.group g).live = true → Tbl.getD (s.group g).mq q [] = [op] → op.performed = false →
      (∀ a b fa fb shape fp8, op.kind = .mma (.lanes a fa) (.lanes b fb) shape none fp8 → shapeM shape ≤ 8 → shapeN shape ≤ 8 →
        Then (.mmaPerform g q) s fun t => ∃ o, Tbl.getD (t.group g).mq q [] = [o] ∧ o.performed = true) ∧
      (op.kind = .zero → Then (.acczeroPerform g q) s fun t => ∃ o, Tbl.getD (t.group g).mq q [] = [o] ∧ o.performed = true)) ∧
    (∀ g q u fence, (liveThreads s g).filter (fun t => homeLane s t / 8 == q && (s.thread t).wait == .matrix fence) = [u] →
      (s.thread u).outs = [] → (s.thread u).sb = [] → groupOf s u = g →
      (fence = true → Then (.mfenceComplete g q) s fun t => (t.thread u).wait = .none) ∧
      (fence = false → (∀ op ∈ Tbl.getD (s.group g).mq q [], op.performed = true) → Then (.mwaitComplete g q) s fun t => (t.thread u).wait = .none)) ∧
    (∀ g o src dst, TileMoves s g o src dst →
      Then (.tileSequencerStep g) s fun t => (t.group g).stepNo = (s.group g).stepNo + 1) ∧
  -- answers and errors
    (∀ p h r u, openRecord s p h = some (r, .thread u) → (s.thread u).wait = .fault p h →
      (r.sev = 0 → Then (.resumeReplay p h) s fun t => (t.thread u).wait = .none) ∧
      (r.sev = 1 → r.req = 0 → CanTrap s u → (s.thread u).outs = [] → (∀ q ∈ s.threads, q.2.wait = .fault p h → q.1 = u) →
        Then (.resumeHandToThread p h) s fun t => (t.thread u).pc = (s.group (groupOf s u)).trapvec)) ∧
    (∀ p h r who gid g ps, openRecord s p h = some (r, who) → r.sev = 0 ∨ r.sev = 1 → r.graph = some gid → s.graph? gid = some g →
      g.complete = false → (∀ u, (s.thread u).sb = []) → reachBytes s (graphIssuer s g) .store g.done.toNat 16 = .ok ps →
      Then (.resumeEndLaunch p h) s fun t => (t.graph gid).status = some 4) ∧
    (∀ p h, exec (.resumeActionIgnored p h) s = .next s) ∧
    (∀ p d, d ≤ (s.part p).tqprod - (s.part p).tqcons → d < 2 ^ 32 → (s.part p).opened = [] → (s.part p).waiting = [] →
      Then (.tqconsWrite p (((s.part p).tqcons + d) % 2 ^ 32)) s fun t => (t.part p).tqcons = (s.part p).tqcons + d) ∧
    (∀ id pa p u o, findOut s id = some (u, o) → secondTier o = some pa → FilesIn s u.core p → recordHolds s p (.outload id) = false →
      Then (.secondTierTimeout id) s fun t => (t.part p).tqprod = (s.part p).tqprod + 1) ∧
    (∀ place, Then (.softError place true) s fun t => (t.die (errDie s place)).sece = (s.die (errDie s place)).sece + 1) ∧
  -- Preley's calls
    (∀ m c, Asks s m c.code c →
      (c.code = 1 → 6 ≤ c.get 1 → c.get 1 ≤ 16 → c.get 0 % (64 * 2 ^ c.get 1) = 0 → c.get 2 % 4096 = 0 → c.get 3 < 4096 →
        (s.part c.part).state = 1 →
        ringInDevice s { part := c.part, ring := BitVec.ofNat 64 (c.get 0), logn := c.get 1, root1 := c.get 2, asn := c.get 3 } = true →
        AnsweredOk (.createSubmissionQueue m) s m) ∧
      (∀ q ∈ s.queues, s.queues = [q] → c.code = 2 → q.2.part = c.part → q.2.doorbell = c.get 0 → q.2.destroyed = false → s.graphs = [] →
        AnsweredOk (.destroySubmissionQueue m) s m) ∧
      (c.code = 3 → c.get 0 < 4096 ∨ c.get 0 = 0xFFFF → (∀ u, (s.thread u).outs = [] ∧ (s.thread u).sb = []) →
        AnsweredOk (.invalidateTranslations m) s m) ∧
      (c.code = 4 → c.get 0 % 4096 = 0 → placeOf (c.get 0) = .hbm → c.get 0 < s.device.hdmSize → c.get 1 ≤ 1 → AnsweredOk (.biasFlip m) s m) ∧
      (c.code = 5 → (s.part c.part).state = 0 → grantFree s (s.part c.part) = true → bootOk s = true →
        4 ≤ (grantOf (s.part c.part)).length → 10 * (grantOf (s.part c.part)).length ≤ (s.part c.part).allot →
        otherAllot s c.part + (s.part c.part).allot ≤ 3600 → AnsweredOk (.enablePartition m) s m) ∧
      (c.code = 6 → (s.part c.part).state = 1 → partBusy s c.part = false →
        Then (.disablePartition m) s fun t => (t.part c.part).state = 0) ∧
      (c.code = 7 → c.get 0 < 512 → c.get 2 < 20 → c.get 3 < 2 ^ 12 →
        Tbl.find s.device.peerIdentity (c.get 0) = some (BitVec.ofNat 64 (c.get 1)) → AnsweredOk (.peerMap m) s m) ∧
      (∀ id l, c.code = 9 → launchNumbered s (c.get 0) = some (id, l) → l.part = c.part → c.get 1 < 2 ^ 48 → AnsweredOk (.userInterruptCall m) s m)) ∧
    (∀ m c, headCall s m = some c → s.snoopFilter = [] → Memory.wf s.mem = true → c.code = 0 ∨ 15 < c.code →
      Then (.mailboxUnknownCall m) s fun t => (t.mailbox m).done = ((s.mailbox m).done + 1) % 2 ^ 32) ∧
  -- the debugger's calls
    (∀ m c, Asks s m 8 c → (s.part c.part).debugger = none → c.get 0 ≤ 2 → c.get 1 % 4096 = 0 → bufferOk s c.part (c.get 1) 4096 = true →
      c.get 2 < 2048 ∨ c.get 2 = 0xFFFF → AnsweredOk (.attachDebugger m) s m) ∧
    (∀ m c p d, Asks s m c.code c → attachedPart s m (c.get 0) = some (p, d) →
      (∀ h, c.code = 10 → c.get 2 < 2 ^ 48 → namedScope s p d (c.get 1) (c.get 2 / 2 ^ 16 % 2 ^ 32) (c.get 2 % 2 ^ 16) = some h →
        Then (.debuggerHalt m) s fun t => ∃ e, (t.part p).debugger = some e ∧ h ∈ e.halted) ∧
      (c.code = 11 → AnsweredOk (.debuggerResume m) s m) ∧
      (c.code = 12 → AnsweredOk (.debuggerFreeze m) s m) ∧
      (∀ bs, c.code = 13 → d.halted ≠ [] → bufferOk s p (c.get 3) (c.get 4) = true → debugRead s p d (c.get 1) (c.get 2) (c.get 4) = some bs →
        AnsweredOk (.debuggerRead m) s m) ∧
      (c.code = 14 → d.halted ≠ [] → bufferOk s p (c.get 2) (c.get 3) = true → (∀ k < c.get 3, debugMayWrite s p (c.get 1 + k) = true) →
        AnsweredOk (.debuggerWrite m) s m) ∧
      (c.code = 15 → AnsweredOk (.debuggerDetach m) s m)) ∧
  -- boot and SPDM
    (∀ fw pr, s.boot.started = false → Then (.powerOnBoot fw pr) s fun t => t.boot.started = true) ∧
    ∀ port, s.device.hostPorts.contains port = true →
      (∀ i, (i = .getVersion port ∨ i = .getCapabilities port ∨ i = .negotiateAlgorithms port ∨ i = .getDigests port ∨
          (∃ slot, i = .getCertificate port slot) ∨ (∃ nonce, i = .challenge port nonce) ∨ ∃ index, i = .getMeasurements port index) →
        ∃ b, exec i s = .next (s.emit (.spdm port b))) ∧
      ∀ code, exec (.spdmUnsupportedRequest port code) s = .next (s.emit (.spdmError port code))
end

