-- ==== Sys2Proof/Laws/State.lean ====
section
/-! SUPPORT. Each update of the state leaves every other field and object as it was. -/

namespace Sys2Proof.Machine

/-! ## setThread -/

@[simp] theorem State.setThread_mem (s : State) (t : TId) (x : Thread) : (s.setThread t x).mem = s.mem := rfl
@[simp] theorem State.setThread_poison (s : State) (t : TId) (x : Thread) : (s.setThread t x).poison = s.poison := rfl
@[simp] theorem State.setThread_absent (s : State) (t : TId) (x : Thread) : (s.setThread t x).absent = s.absent := rfl
@[simp] theorem State.setThread_spadStamps (s : State) (t : TId) (x : Thread) : (s.setThread t x).spadStamps = s.spadStamps := rfl
@[simp] theorem State.setThread_order (s : State) (t : TId) (x : Thread) : (s.setThread t x).order = s.order := rfl
@[simp] theorem State.setThread_bars (s : State) (t : TId) (x : Thread) : (s.setThread t x).bars = s.bars := rfl
@[simp] theorem State.setThread_groups (s : State) (t : TId) (x : Thread) : (s.setThread t x).groups = s.groups := rfl
@[simp] theorem State.setThread_ctxs (s : State) (t : TId) (x : Thread) : (s.setThread t x).ctxs = s.ctxs := rfl
@[simp] theorem State.setThread_cores (s : State) (t : TId) (x : Thread) : (s.setThread t x).cores = s.cores := rfl
@[simp] theorem State.setThread_clusters (s : State) (t : TId) (x : Thread) : (s.setThread t x).clusters = s.clusters := rfl
@[simp] theorem State.setThread_dies (s : State) (t : TId) (x : Thread) : (s.setThread t x).dies = s.dies := rfl
@[simp] theorem State.setThread_parts (s : State) (t : TId) (x : Thread) : (s.setThread t x).parts = s.parts := rfl
@[simp] theorem State.setThread_pmcs (s : State) (t : TId) (x : Thread) : (s.setThread t x).pmcs = s.pmcs := rfl
@[simp] theorem State.setThread_queues (s : State) (t : TId) (x : Thread) : (s.setThread t x).queues = s.queues := rfl
@[simp] theorem State.setThread_graphs (s : State) (t : TId) (x : Thread) : (s.setThread t x).graphs = s.graphs := rfl
@[simp] theorem State.setThread_launches (s : State) (t : TId) (x : Thread) : (s.setThread t x).launches = s.launches := rfl
@[simp] theorem State.setThread_nodeCopies (s : State) (t : TId) (x : Thread) : (s.setThread t x).nodeCopies = s.nodeCopies := rfl
@[simp] theorem State.setThread_walks (s : State) (t : TId) (x : Thread) : (s.setThread t x).walks = s.walks := rfl
@[simp] theorem State.setThread_tlb (s : State) (t : TId) (x : Thread) : (s.setThread t x).tlb = s.tlb := rfl
@[simp] theorem State.setThread_walkCache (s : State) (t : TId) (x : Thread) : (s.setThread t x).walkCache = s.walkCache := rfl
@[simp] theorem State.setThread_mailboxes (s : State) (t : TId) (x : Thread) : (s.setThread t x).mailboxes = s.mailboxes := rfl
@[simp] theorem State.setThread_links (s : State) (t : TId) (x : Thread) : (s.setThread t x).links = s.links := rfl
@[simp] theorem State.setThread_hbLines (s : State) (t : TId) (x : Thread) : (s.setThread t x).hbLines = s.hbLines := rfl
@[simp] theorem State.setThread_hostHalf (s : State) (t : TId) (x : Thread) : (s.setThread t x).hostHalf = s.hostHalf := rfl
@[simp] theorem State.setThread_hostBias (s : State) (t : TId) (x : Thread) : (s.setThread t x).hostBias = s.hostBias := rfl
@[simp] theorem State.setThread_snoopFilter (s : State) (t : TId) (x : Thread) : (s.setThread t x).snoopFilter = s.snoopFilter := rfl
@[simp] theorem State.setThread_device (s : State) (t : TId) (x : Thread) : (s.setThread t x).device = s.device := rfl
@[simp] theorem State.setThread_health (s : State) (t : TId) (x : Thread) : (s.setThread t x).health = s.health := rfl
@[simp] theorem State.setThread_boot (s : State) (t : TId) (x : Thread) : (s.setThread t x).boot = s.boot := rfl
@[simp] theorem State.setThread_outputs (s : State) (t : TId) (x : Thread) : (s.setThread t x).outputs = s.outputs := rfl
@[simp] theorem State.setThread_narrow (s : State) (t : TId) (x : Thread) : (s.setThread t x).narrow = s.narrow := rfl
@[simp] theorem State.setThread_lines (s : State) (t : TId) (x : Thread) : (s.setThread t x).lines = s.lines := rfl
@[simp] theorem State.setThread_agenda (s : State) (t : TId) (x : Thread) : (s.setThread t x).agenda = s.agenda := rfl
@[simp] theorem State.setThread_plan (s : State) (t : TId) (x : Thread) : (s.setThread t x).plan = s.plan := rfl
@[simp] theorem State.setThread_cur (s : State) (t : TId) (x : Thread) : (s.setThread t x).cur = s.cur := rfl
@[simp] theorem State.setThread_curWord (s : State) (t : TId) (x : Thread) : (s.setThread t x).curWord = s.curWord := rfl
@[simp] theorem State.setThread_fresh (s : State) (t : TId) (x : Thread) : (s.setThread t x).fresh = s.fresh := rfl
@[simp] theorem State.setThread_tick (s : State) (t : TId) (x : Thread) : (s.setThread t x).tick = s.tick := rfl
@[simp] theorem State.setThread_idle (s : State) (t : TId) (x : Thread) : (s.setThread t x).idle = s.idle := rfl
@[simp] theorem State.setThread_group_at (s : State) (t : TId) (x : Thread) (g' : GId) : (s.setThread t x).group g' = s.group g' := rfl
@[simp] theorem State.setThread_ctx_at (s : State) (t : TId) (x : Thread) (c' : Nat) : (s.setThread t x).ctx c' = s.ctx c' := rfl
@[simp] theorem State.setThread_core_at (s : State) (t : TId) (x : Thread) (c' : Nat) : (s.setThread t x).core c' = s.core c' := rfl
@[simp] theorem State.setThread_cluster_at (s : State) (t : TId) (x : Thread) (n' : Nat) : (s.setThread t x).cluster n' = s.cluster n' := rfl
@[simp] theorem State.setThread_die_at (s : State) (t : TId) (x : Thread) (d' : Nat) : (s.setThread t x).die d' = s.die d' := rfl
@[simp] theorem State.setThread_part_at (s : State) (t : TId) (x : Thread) (p' : Nat) : (s.setThread t x).part p' = s.part p' := rfl
@[simp] theorem State.setThread_launch_at (s : State) (t : TId) (x : Thread) (l' : Nat) : (s.setThread t x).launch l' = s.launch l' := rfl
@[simp] theorem State.setThread_launch_opt_at (s : State) (t : TId) (x : Thread) (l' : Nat) : (s.setThread t x).launch? l' = s.launch? l' := rfl
@[simp] theorem State.setThread_graph_opt_at (s : State) (t : TId) (x : Thread) (g' : Nat) : (s.setThread t x).graph? g' = s.graph? g' := rfl
@[simp] theorem State.setThread_queue_opt_at (s : State) (t : TId) (x : Thread) (q' : Nat) : (s.setThread t x).queue? q' = s.queue? q' := rfl
@[simp] theorem State.setThread_mailbox_at (s : State) (t : TId) (x : Thread) (m' : Nat) : (s.setThread t x).mailbox m' = s.mailbox m' := rfl
@[simp] theorem State.setThread_link_at (s : State) (t : TId) (x : Thread) (k' : Nat) : (s.setThread t x).link k' = s.link k' := rfl

/-! ## modThread -/

@[simp] theorem State.modThread_mem (s : State) (t : TId) (f : Thread → Thread) : (s.modThread t f).mem = s.mem := rfl
@[simp] theorem State.modThread_poison (s : State) (t : TId) (f : Thread → Thread) : (s.modThread t f).poison = s.poison := rfl
@[simp] theorem State.modThread_absent (s : State) (t : TId) (f : Thread → Thread) : (s.modThread t f).absent = s.absent := rfl
@[simp] theorem State.modThread_spadStamps (s : State) (t : TId) (f : Thread → Thread) : (s.modThread t f).spadStamps = s.spadStamps := rfl
@[simp] theorem State.modThread_order (s : State) (t : TId) (f : Thread → Thread) : (s.modThread t f).order = s.order := rfl
@[simp] theorem State.modThread_bars (s : State) (t : TId) (f : Thread → Thread) : (s.modThread t f).bars = s.bars := rfl
@[simp] theorem State.modThread_groups (s : State) (t : TId) (f : Thread → Thread) : (s.modThread t f).groups = s.groups := rfl
@[simp] theorem State.modThread_ctxs (s : State) (t : TId) (f : Thread → Thread) : (s.modThread t f).ctxs = s.ctxs := rfl
@[simp] theorem State.modThread_cores (s : State) (t : TId) (f : Thread → Thread) : (s.modThread t f).cores = s.cores := rfl
@[simp] theorem State.modThread_clusters (s : State) (t : TId) (f : Thread → Thread) : (s.modThread t f).clusters = s.clusters := rfl
@[simp] theorem State.modThread_dies (s : State) (t : TId) (f : Thread → Thread) : (s.modThread t f).dies = s.dies := rfl
@[simp] theorem State.modThread_parts (s : State) (t : TId) (f : Thread → Thread) : (s.modThread t f).parts = s.parts := rfl
@[simp] theorem State.modThread_pmcs (s : State) (t : TId) (f : Thread → Thread) : (s.modThread t f).pmcs = s.pmcs := rfl
@[simp] theorem State.modThread_queues (s : State) (t : TId) (f : Thread → Thread) : (s.modThread t f).queues = s.queues := rfl
@[simp] theorem State.modThread_graphs (s : State) (t : TId) (f : Thread → Thread) : (s.modThread t f).graphs = s.graphs := rfl
@[simp] theorem State.modThread_launches (s : State) (t : TId) (f : Thread → Thread) : (s.modThread t f).launches = s.launches := rfl
@[simp] theorem State.modThread_nodeCopies (s : State) (t : TId) (f : Thread → Thread) : (s.modThread t f).nodeCopies = s.nodeCopies := rfl
@[simp] theorem State.modThread_walks (s : State) (t : TId) (f : Thread → Thread) : (s.modThread t f).walks = s.walks := rfl
@[simp] theorem State.modThread_tlb (s : State) (t : TId) (f : Thread → Thread) : (s.modThread t f).tlb = s.tlb := rfl
@[simp] theorem State.modThread_walkCache (s : State) (t : TId) (f : Thread → Thread) : (s.modThread t f).walkCache = s.walkCache := rfl
@[simp] theorem State.modThread_mailboxes (s : State) (t : TId) (f : Thread → Thread) : (s.modThread t f).mailboxes = s.mailboxes := rfl
@[simp] theorem State.modThread_links (s : State) (t : TId) (f : Thread → Thread) : (s.modThread t f).links = s.links := rfl
@[simp] theorem State.modThread_hbLines (s : State) (t : TId) (f : Thread → Thread) : (s.modThread t f).hbLines = s.hbLines := rfl
@[simp] theorem State.modThread_hostHalf (s : State) (t : TId) (f : Thread → Thread) : (s.modThread t f).hostHalf = s.hostHalf := rfl
@[simp] theorem State.modThread_hostBias (s : State) (t : TId) (f : Thread → Thread) : (s.modThread t f).hostBias = s.hostBias := rfl
@[simp] theorem State.modThread_snoopFilter (s : State) (t : TId) (f : Thread → Thread) : (s.modThread t f).snoopFilter = s.snoopFilter := rfl
@[simp] theorem State.modThread_device (s : State) (t : TId) (f : Thread → Thread) : (s.modThread t f).device = s.device := rfl
@[simp] theorem State.modThread_health (s : State) (t : TId) (f : Thread → Thread) : (s.modThread t f).health = s.health := rfl
@[simp] theorem State.modThread_boot (s : State) (t : TId) (f : Thread → Thread) : (s.modThread t f).boot = s.boot := rfl
@[simp] theorem State.modThread_outputs (s : State) (t : TId) (f : Thread → Thread) : (s.modThread t f).outputs = s.outputs := rfl
@[simp] theorem State.modThread_narrow (s : State) (t : TId) (f : Thread → Thread) : (s.modThread t f).narrow = s.narrow := rfl
@[simp] theorem State.modThread_lines (s : State) (t : TId) (f : Thread → Thread) : (s.modThread t f).lines = s.lines := rfl
@[simp] theorem State.modThread_agenda (s : State) (t : TId) (f : Thread → Thread) : (s.modThread t f).agenda = s.agenda := rfl
@[simp] theorem State.modThread_plan (s : State) (t : TId) (f : Thread → Thread) : (s.modThread t f).plan = s.plan := rfl
@[simp] theorem State.modThread_cur (s : State) (t : TId) (f : Thread → Thread) : (s.modThread t f).cur = s.cur := rfl
@[simp] theorem State.modThread_curWord (s : State) (t : TId) (f : Thread → Thread) : (s.modThread t f).curWord = s.curWord := rfl
@[simp] theorem State.modThread_fresh (s : State) (t : TId) (f : Thread → Thread) : (s.modThread t f).fresh = s.fresh := rfl
@[simp] theorem State.modThread_tick (s : State) (t : TId) (f : Thread → Thread) : (s.modThread t f).tick = s.tick := rfl
@[simp] theorem State.modThread_idle (s : State) (t : TId) (f : Thread → Thread) : (s.modThread t f).idle = s.idle := rfl
@[simp] theorem State.modThread_group_at (s : State) (t : TId) (f : Thread → Thread) (g' : GId) : (s.modThread t f).group g' = s.group g' := rfl
@[simp] theorem State.modThread_ctx_at (s : State) (t : TId) (f : Thread → Thread) (c' : Nat) : (s.modThread t f).ctx c' = s.ctx c' := rfl
@[simp] theorem State.modThread_core_at (s : State) (t : TId) (f : Thread → Thread) (c' : Nat) : (s.modThread t f).core c' = s.core c' := rfl
@[simp] theorem State.modThread_cluster_at (s : State) (t : TId) (f : Thread → Thread) (n' : Nat) : (s.modThread t f).cluster n' = s.cluster n' := rfl
@[simp] theorem State.modThread_die_at (s : State) (t : TId) (f : Thread → Thread) (d' : Nat) : (s.modThread t f).die d' = s.die d' := rfl
@[simp] theorem State.modThread_part_at (s : State) (t : TId) (f : Thread → Thread) (p' : Nat) : (s.modThread t f).part p' = s.part p' := rfl
@[simp] theorem State.modThread_launch_at (s : State) (t : TId) (f : Thread → Thread) (l' : Nat) : (s.modThread t f).launch l' = s.launch l' := rfl
@[simp] theorem State.modThread_launch_opt_at (s : State) (t : TId) (f : Thread → Thread) (l' : Nat) : (s.modThread t f).launch? l' = s.launch? l' := rfl
@[simp] theorem State.modThread_graph_opt_at (s : State) (t : TId) (f : Thread → Thread) (g' : Nat) : (s.modThread t f).graph? g' = s.graph? g' := rfl
@[simp] theorem State.modThread_queue_opt_at (s : State) (t : TId) (f : Thread → Thread) (q' : Nat) : (s.modThread t f).queue? q' = s.queue? q' := rfl
@[simp] theorem State.modThread_mailbox_at (s : State) (t : TId) (f : Thread → Thread) (m' : Nat) : (s.modThread t f).mailbox m' = s.mailbox m' := rfl
@[simp] theorem State.modThread_link_at (s : State) (t : TId) (f : Thread → Thread) (k' : Nat) : (s.modThread t f).link k' = s.link k' := rfl

/-! ## setGroup -/

@[simp] theorem State.setGroup_mem (s : State) (g : GId) (x : Group) : (s.setGroup g x).mem = s.mem := rfl
@[simp] theorem State.setGroup_poison (s : State) (g : GId) (x : Group) : (s.setGroup g x).poison = s.poison := rfl
@[simp] theorem State.setGroup_absent (s : State) (g : GId) (x : Group) : (s.setGroup g x).absent = s.absent := rfl
@[simp] theorem State.setGroup_spadStamps (s : State) (g : GId) (x : Group) : (s.setGroup g x).spadStamps = s.spadStamps := rfl
@[simp] theorem State.setGroup_order (s : State) (g : GId) (x : Group) : (s.setGroup g x).order = s.order := rfl
@[simp] theorem State.setGroup_bars (s : State) (g : GId) (x : Group) : (s.setGroup g x).bars = s.bars := rfl
@[simp] theorem State.setGroup_threads (s : State) (g : GId) (x : Group) : (s.setGroup g x).threads = s.threads := rfl
@[simp] theorem State.setGroup_ctxs (s : State) (g : GId) (x : Group) : (s.setGroup g x).ctxs = s.ctxs := rfl
@[simp] theorem State.setGroup_cores (s : State) (g : GId) (x : Group) : (s.setGroup g x).cores = s.cores := rfl
@[simp] theorem State.setGroup_clusters (s : State) (g : GId) (x : Group) : (s.setGroup g x).clusters = s.clusters := rfl
@[simp] theorem State.setGroup_dies (s : State) (g : GId) (x : Group) : (s.setGroup g x).dies = s.dies := rfl
@[simp] theorem State.setGroup_parts (s : State) (g : GId) (x : Group) : (s.setGroup g x).parts = s.parts := rfl
@[simp] theorem State.setGroup_pmcs (s : State) (g : GId) (x : Group) : (s.setGroup g x).pmcs = s.pmcs := rfl
@[simp] theorem State.setGroup_queues (s : State) (g : GId) (x : Group) : (s.setGroup g x).queues = s.queues := rfl
@[simp] theorem State.setGroup_graphs (s : State) (g : GId) (x : Group) : (s.setGroup g x).graphs = s.graphs := rfl
@[simp] theorem State.setGroup_launches (s : State) (g : GId) (x : Group) : (s.setGroup g x).launches = s.launches := rfl
@[simp] theorem State.setGroup_nodeCopies (s : State) (g : GId) (x : Group) : (s.setGroup g x).nodeCopies = s.nodeCopies := rfl
@[simp] theorem State.setGroup_walks (s : State) (g : GId) (x : Group) : (s.setGroup g x).walks = s.walks := rfl
@[simp] theorem State.setGroup_tlb (s : State) (g : GId) (x : Group) : (s.setGroup g x).tlb = s.tlb := rfl
@[simp] theorem State.setGroup_walkCache (s : State) (g : GId) (x : Group) : (s.setGroup g x).walkCache = s.walkCache := rfl
@[simp] theorem State.setGroup_mailboxes (s : State) (g : GId) (x : Group) : (s.setGroup g x).mailboxes = s.mailboxes := rfl
@[simp] theorem State.setGroup_links (s : State) (g : GId) (x : Group) : (s.setGroup g x).links = s.links := rfl
@[simp] theorem State.setGroup_hbLines (s : State) (g : GId) (x : Group) : (s.setGroup g x).hbLines = s.hbLines := rfl
@[simp] theorem State.setGroup_hostHalf (s : State) (g : GId) (x : Group) : (s.setGroup g x).hostHalf = s.hostHalf := rfl
@[simp] theorem State.setGroup_hostBias (s : State) (g : GId) (x : Group) : (s.setGroup g x).hostBias = s.hostBias := rfl
@[simp] theorem State.setGroup_snoopFilter (s : State) (g : GId) (x : Group) : (s.setGroup g x).snoopFilter = s.snoopFilter := rfl
@[simp] theorem State.setGroup_device (s : State) (g : GId) (x : Group) : (s.setGroup g x).device = s.device := rfl
@[simp] theorem State.setGroup_health (s : State) (g : GId) (x : Group) : (s.setGroup g x).health = s.health := rfl
@[simp] theorem State.setGroup_boot (s : State) (g : GId) (x : Group) : (s.setGroup g x).boot = s.boot := rfl
@[simp] theorem State.setGroup_outputs (s : State) (g : GId) (x : Group) : (s.setGroup g x).outputs = s.outputs := rfl
@[simp] theorem State.setGroup_narrow (s : State) (g : GId) (x : Group) : (s.setGroup g x).narrow = s.narrow := rfl
@[simp] theorem State.setGroup_lines (s : State) (g : GId) (x : Group) : (s.setGroup g x).lines = s.lines := rfl
@[simp] theorem State.setGroup_agenda (s : State) (g : GId) (x : Group) : (s.setGroup g x).agenda = s.agenda := rfl
@[simp] theorem State.setGroup_plan (s : State) (g : GId) (x : Group) : (s.setGroup g x).plan = s.plan := rfl
@[simp] theorem State.setGroup_cur (s : State) (g : GId) (x : Group) : (s.setGroup g x).cur = s.cur := rfl
@[simp] theorem State.setGroup_curWord (s : State) (g : GId) (x : Group) : (s.setGroup g x).curWord = s.curWord := rfl
@[simp] theorem State.setGroup_fresh (s : State) (g : GId) (x : Group) : (s.setGroup g x).fresh = s.fresh := rfl
@[simp] theorem State.setGroup_tick (s : State) (g : GId) (x : Group) : (s.setGroup g x).tick = s.tick := rfl
@[simp] theorem State.setGroup_idle (s : State) (g : GId) (x : Group) : (s.setGroup g x).idle = s.idle := rfl
@[simp] theorem State.setGroup_thread_at (s : State) (g : GId) (x : Group) (t' : TId) : (s.setGroup g x).thread t' = s.thread t' := rfl
@[simp] theorem State.setGroup_ctx_at (s : State) (g : GId) (x : Group) (c' : Nat) : (s.setGroup g x).ctx c' = s.ctx c' := rfl
@[simp] theorem State.setGroup_core_at (s : State) (g : GId) (x : Group) (c' : Nat) : (s.setGroup g x).core c' = s.core c' := rfl
@[simp] theorem State.setGroup_cluster_at (s : State) (g : GId) (x : Group) (n' : Nat) : (s.setGroup g x).cluster n' = s.cluster n' := rfl
@[simp] theorem State.setGroup_die_at (s : State) (g : GId) (x : Group) (d' : Nat) : (s.setGroup g x).die d' = s.die d' := rfl
@[simp] theorem State.setGroup_part_at (s : State) (g : GId) (x : Group) (p' : Nat) : (s.setGroup g x).part p' = s.part p' := rfl
@[simp] theorem State.setGroup_launch_at (s : State) (g : GId) (x : Group) (l' : Nat) : (s.setGroup g x).launch l' = s.launch l' := rfl
@[simp] theorem State.setGroup_launch_opt_at (s : State) (g : GId) (x : Group) (l' : Nat) : (s.setGroup g x).launch? l' = s.launch? l' := rfl
@[simp] theorem State.setGroup_graph_opt_at (s : State) (g : GId) (x : Group) (g' : Nat) : (s.setGroup g x).graph? g' = s.graph? g' := rfl
@[simp] theorem State.setGroup_queue_opt_at (s : State) (g : GId) (x : Group) (q' : Nat) : (s.setGroup g x).queue? q' = s.queue? q' := rfl
@[simp] theorem State.setGroup_mailbox_at (s : State) (g : GId) (x : Group) (m' : Nat) : (s.setGroup g x).mailbox m' = s.mailbox m' := rfl
@[simp] theorem State.setGroup_link_at (s : State) (g : GId) (x : Group) (k' : Nat) : (s.setGroup g x).link k' = s.link k' := rfl

/-! ## modGroup -/

@[simp] theorem State.modGroup_mem (s : State) (g : GId) (f : Group → Group) : (s.modGroup g f).mem = s.mem := rfl
@[simp] theorem State.modGroup_poison (s : State) (g : GId) (f : Group → Group) : (s.modGroup g f).poison = s.poison := rfl
@[simp] theorem State.modGroup_absent (s : State) (g : GId) (f : Group → Group) : (s.modGroup g f).absent = s.absent := rfl
@[simp] theorem State.modGroup_spadStamps (s : State) (g : GId) (f : Group → Group) : (s.modGroup g f).spadStamps = s.spadStamps := rfl
@[simp] theorem State.modGroup_order (s : State) (g : GId) (f : Group → Group) : (s.modGroup g f).order = s.order := rfl
@[simp] theorem State.modGroup_bars (s : State) (g : GId) (f : Group → Group) : (s.modGroup g f).bars = s.bars := rfl
@[simp] theorem State.modGroup_threads (s : State) (g : GId) (f : Group → Group) : (s.modGroup g f).threads = s.threads := rfl
@[simp] theorem State.modGroup_ctxs (s : State) (g : GId) (f : Group → Group) : (s.modGroup g f).ctxs = s.ctxs := rfl
@[simp] theorem State.modGroup_cores (s : State) (g : GId) (f : Group → Group) : (s.modGroup g f).cores = s.cores := rfl
@[simp] theorem State.modGroup_clusters (s : State) (g : GId) (f : Group → Group) : (s.modGroup g f).clusters = s.clusters := rfl
@[simp] theorem State.modGroup_dies (s : State) (g : GId) (f : Group → Group) : (s.modGroup g f).dies = s.dies := rfl
@[simp] theorem State.modGroup_parts (s : State) (g : GId) (f : Group → Group) : (s.modGroup g f).parts = s.parts := rfl
@[simp] theorem State.modGroup_pmcs (s : State) (g : GId) (f : Group → Group) : (s.modGroup g f).pmcs = s.pmcs := rfl
@[simp] theorem State.modGroup_queues (s : State) (g : GId) (f : Group → Group) : (s.modGroup g f).queues = s.queues := rfl
@[simp] theorem State.modGroup_graphs (s : State) (g : GId) (f : Group → Group) : (s.modGroup g f).graphs = s.graphs := rfl
@[simp] theorem State.modGroup_launches (s : State) (g : GId) (f : Group → Group) : (s.modGroup g f).launches = s.launches := rfl
@[simp] theorem State.modGroup_nodeCopies (s : State) (g : GId) (f : Group → Group) : (s.modGroup g f).nodeCopies = s.nodeCopies := rfl
@[simp] theorem State.modGroup_walks (s : State) (g : GId) (f : Group → Group) : (s.modGroup g f).walks = s.walks := rfl
@[simp] theorem State.modGroup_tlb (s : State) (g : GId) (f : Group → Group) : (s.modGroup g f).tlb = s.tlb := rfl
@[simp] theorem State.modGroup_walkCache (s : State) (g : GId) (f : Group → Group) : (s.modGroup g f).walkCache = s.walkCache := rfl
@[simp] theorem State.modGroup_mailboxes (s : State) (g : GId) (f : Group → Group) : (s.modGroup g f).mailboxes = s.mailboxes := rfl
@[simp] theorem State.modGroup_links (s : State) (g : GId) (f : Group → Group) : (s.modGroup g f).links = s.links := rfl
@[simp] theorem State.modGroup_hbLines (s : State) (g : GId) (f : Group → Group) : (s.modGroup g f).hbLines = s.hbLines := rfl
@[simp] theorem State.modGroup_hostHalf (s : State) (g : GId) (f : Group → Group) : (s.modGroup g f).hostHalf = s.hostHalf := rfl
@[simp] theorem State.modGroup_hostBias (s : State) (g : GId) (f : Group → Group) : (s.modGroup g f).hostBias = s.hostBias := rfl
@[simp] theorem State.modGroup_snoopFilter (s : State) (g : GId) (f : Group → Group) : (s.modGroup g f).snoopFilter = s.snoopFilter := rfl
@[simp] theorem State.modGroup_device (s : State) (g : GId) (f : Group → Group) : (s.modGroup g f).device = s.device := rfl
@[simp] theorem State.modGroup_health (s : State) (g : GId) (f : Group → Group) : (s.modGroup g f).health = s.health := rfl
@[simp] theorem State.modGroup_boot (s : State) (g : GId) (f : Group → Group) : (s.modGroup g f).boot = s.boot := rfl
@[simp] theorem State.modGroup_outputs (s : State) (g : GId) (f : Group → Group) : (s.modGroup g f).outputs = s.outputs := rfl
@[simp] theorem State.modGroup_narrow (s : State) (g : GId) (f : Group → Group) : (s.modGroup g f).narrow = s.narrow := rfl
@[simp] theorem State.modGroup_lines (s : State) (g : GId) (f : Group → Group) : (s.modGroup g f).lines = s.lines := rfl
@[simp] theorem State.modGroup_agenda (s : State) (g : GId) (f : Group → Group) : (s.modGroup g f).agenda = s.agenda := rfl
@[simp] theorem State.modGroup_plan (s : State) (g : GId) (f : Group → Group) : (s.modGroup g f).plan = s.plan := rfl
@[simp] theorem State.modGroup_cur (s : State) (g : GId) (f : Group → Group) : (s.modGroup g f).cur = s.cur := rfl
@[simp] theorem State.modGroup_curWord (s : State) (g : GId) (f : Group → Group) : (s.modGroup g f).curWord = s.curWord := rfl
@[simp] theorem State.modGroup_fresh (s : State) (g : GId) (f : Group → Group) : (s.modGroup g f).fresh = s.fresh := rfl
@[simp] theorem State.modGroup_tick (s : State) (g : GId) (f : Group → Group) : (s.modGroup g f).tick = s.tick := rfl
@[simp] theorem State.modGroup_idle (s : State) (g : GId) (f : Group → Group) : (s.modGroup g f).idle = s.idle := rfl
@[simp] theorem State.modGroup_thread_at (s : State) (g : GId) (f : Group → Group) (t' : TId) : (s.modGroup g f).thread t' = s.thread t' := rfl
@[simp] theorem State.modGroup_ctx_at (s : State) (g : GId) (f : Group → Group) (c' : Nat) : (s.modGroup g f).ctx c' = s.ctx c' := rfl
@[simp] theorem State.modGroup_core_at (s : State) (g : GId) (f : Group → Group) (c' : Nat) : (s.modGroup g f).core c' = s.core c' := rfl
@[simp] theorem State.modGroup_cluster_at (s : State) (g : GId) (f : Group → Group) (n' : Nat) : (s.modGroup g f).cluster n' = s.cluster n' := rfl
@[simp] theorem State.modGroup_die_at (s : State) (g : GId) (f : Group → Group) (d' : Nat) : (s.modGroup g f).die d' = s.die d' := rfl
@[simp] theorem State.modGroup_part_at (s : State) (g : GId) (f : Group → Group) (p' : Nat) : (s.modGroup g f).part p' = s.part p' := rfl
@[simp] theorem State.modGroup_launch_at (s : State) (g : GId) (f : Group → Group) (l' : Nat) : (s.modGroup g f).launch l' = s.launch l' := rfl
@[simp] theorem State.modGroup_launch_opt_at (s : State) (g : GId) (f : Group → Group) (l' : Nat) : (s.modGroup g f).launch? l' = s.launch? l' := rfl
@[simp] theorem State.modGroup_graph_opt_at (s : State) (g : GId) (f : Group → Group) (g' : Nat) : (s.modGroup g f).graph? g' = s.graph? g' := rfl
@[simp] theorem State.modGroup_queue_opt_at (s : State) (g : GId) (f : Group → Group) (q' : Nat) : (s.modGroup g f).queue? q' = s.queue? q' := rfl
@[simp] theorem State.modGroup_mailbox_at (s : State) (g : GId) (f : Group → Group) (m' : Nat) : (s.modGroup g f).mailbox m' = s.mailbox m' := rfl
@[simp] theorem State.modGroup_link_at (s : State) (g : GId) (f : Group → Group) (k' : Nat) : (s.modGroup g f).link k' = s.link k' := rfl

/-! ## setCtx -/

@[simp] theorem State.setCtx_mem (s : State) (c : Nat) (x : Ctx) : (s.setCtx c x).mem = s.mem := rfl
@[simp] theorem State.setCtx_poison (s : State) (c : Nat) (x : Ctx) : (s.setCtx c x).poison = s.poison := rfl
@[simp] theorem State.setCtx_absent (s : State) (c : Nat) (x : Ctx) : (s.setCtx c x).absent = s.absent := rfl
@[simp] theorem State.setCtx_spadStamps (s : State) (c : Nat) (x : Ctx) : (s.setCtx c x).spadStamps = s.spadStamps := rfl
@[simp] theorem State.setCtx_order (s : State) (c : Nat) (x : Ctx) : (s.setCtx c x).order = s.order := rfl
@[simp] theorem State.setCtx_bars (s : State) (c : Nat) (x : Ctx) : (s.setCtx c x).bars = s.bars := rfl
@[simp] theorem State.setCtx_threads (s : State) (c : Nat) (x : Ctx) : (s.setCtx c x).threads = s.threads := rfl
@[simp] theorem State.setCtx_groups (s : State) (c : Nat) (x : Ctx) : (s.setCtx c x).groups = s.groups := rfl
@[simp] theorem State.setCtx_cores (s : State) (c : Nat) (x : Ctx) : (s.setCtx c x).cores = s.cores := rfl
@[simp] theorem State.setCtx_clusters (s : State) (c : Nat) (x : Ctx) : (s.setCtx c x).clusters = s.clusters := rfl
@[simp] theorem State.setCtx_dies (s : State) (c : Nat) (x : Ctx) : (s.setCtx c x).dies = s.dies := rfl
@[simp] theorem State.setCtx_parts (s : State) (c : Nat) (x : Ctx) : (s.setCtx c x).parts = s.parts := rfl
@[simp] theorem State.setCtx_pmcs (s : State) (c : Nat) (x : Ctx) : (s.setCtx c x).pmcs = s.pmcs := rfl
@[simp] theorem State.setCtx_queues (s : State) (c : Nat) (x : Ctx) : (s.setCtx c x).queues = s.queues := rfl
@[simp] theorem State.setCtx_graphs (s : State) (c : Nat) (x : Ctx) : (s.setCtx c x).graphs = s.graphs := rfl
@[simp] theorem State.setCtx_launches (s : State) (c : Nat) (x : Ctx) : (s.setCtx c x).launches = s.launches := rfl
@[simp] theorem State.setCtx_nodeCopies (s : State) (c : Nat) (x : Ctx) : (s.setCtx c x).nodeCopies = s.nodeCopies := rfl
@[simp] theorem State.setCtx_walks (s : State) (c : Nat) (x : Ctx) : (s.setCtx c x).walks = s.walks := rfl
@[simp] theorem State.setCtx_tlb (s : State) (c : Nat) (x : Ctx) : (s.setCtx c x).tlb = s.tlb := rfl
@[simp] theorem State.setCtx_walkCache (s : State) (c : Nat) (x : Ctx) : (s.setCtx c x).walkCache = s.walkCache := rfl
@[simp] theorem State.setCtx_mailboxes (s : State) (c : Nat) (x : Ctx) : (s.setCtx c x).mailboxes = s.mailboxes := rfl
@[simp] theorem State.setCtx_links (s : State) (c : Nat) (x : Ctx) : (s.setCtx c x).links = s.links := rfl
@[simp] theorem State.setCtx_hbLines (s : State) (c : Nat) (x : Ctx) : (s.setCtx c x).hbLines = s.hbLines := rfl
@[simp] theorem State.setCtx_hostHalf (s : State) (c : Nat) (x : Ctx) : (s.setCtx c x).hostHalf = s.hostHalf := rfl
@[simp] theorem State.setCtx_hostBias (s : State) (c : Nat) (x : Ctx) : (s.setCtx c x).hostBias = s.hostBias := rfl
@[simp] theorem State.setCtx_snoopFilter (s : State) (c : Nat) (x : Ctx) : (s.setCtx c x).snoopFilter = s.snoopFilter := rfl
@[simp] theorem State.setCtx_device (s : State) (c : Nat) (x : Ctx) : (s.setCtx c x).device = s.device := rfl
@[simp] theorem State.setCtx_health (s : State) (c : Nat) (x : Ctx) : (s.setCtx c x).health = s.health := rfl
@[simp] theorem State.setCtx_boot (s : State) (c : Nat) (x : Ctx) : (s.setCtx c x).boot = s.boot := rfl
@[simp] theorem State.setCtx_outputs (s : State) (c : Nat) (x : Ctx) : (s.setCtx c x).outputs = s.outputs := rfl
@[simp] theorem State.setCtx_narrow (s : State) (c : Nat) (x : Ctx) : (s.setCtx c x).narrow = s.narrow := rfl
@[simp] theorem State.setCtx_lines (s : State) (c : Nat) (x : Ctx) : (s.setCtx c x).lines = s.lines := rfl
@[simp] theorem State.setCtx_agenda (s : State) (c : Nat) (x : Ctx) : (s.setCtx c x).agenda = s.agenda := rfl
@[simp] theorem State.setCtx_plan (s : State) (c : Nat) (x : Ctx) : (s.setCtx c x).plan = s.plan := rfl
@[simp] theorem State.setCtx_cur (s : State) (c : Nat) (x : Ctx) : (s.setCtx c x).cur = s.cur := rfl
@[simp] theorem State.setCtx_curWord (s : State) (c : Nat) (x : Ctx) : (s.setCtx c x).curWord = s.curWord := rfl
@[simp] theorem State.setCtx_fresh (s : State) (c : Nat) (x : Ctx) : (s.setCtx c x).fresh = s.fresh := rfl
@[simp] theorem State.setCtx_tick (s : State) (c : Nat) (x : Ctx) : (s.setCtx c x).tick = s.tick := rfl
@[simp] theorem State.setCtx_idle (s : State) (c : Nat) (x : Ctx) : (s.setCtx c x).idle = s.idle := rfl
@[simp] theorem State.setCtx_thread_at (s : State) (c : Nat) (x : Ctx) (t' : TId) : (s.setCtx c x).thread t' = s.thread t' := rfl
@[simp] theorem State.setCtx_group_at (s : State) (c : Nat) (x : Ctx) (g' : GId) : (s.setCtx c x).group g' = s.group g' := rfl
@[simp] theorem State.setCtx_core_at (s : State) (c : Nat) (x : Ctx) (c' : Nat) : (s.setCtx c x).core c' = s.core c' := rfl
@[simp] theorem State.setCtx_cluster_at (s : State) (c : Nat) (x : Ctx) (n' : Nat) : (s.setCtx c x).cluster n' = s.cluster n' := rfl
@[simp] theorem State.setCtx_die_at (s : State) (c : Nat) (x : Ctx) (d' : Nat) : (s.setCtx c x).die d' = s.die d' := rfl
@[simp] theorem State.setCtx_part_at (s : State) (c : Nat) (x : Ctx) (p' : Nat) : (s.setCtx c x).part p' = s.part p' := rfl
@[simp] theorem State.setCtx_launch_at (s : State) (c : Nat) (x : Ctx) (l' : Nat) : (s.setCtx c x).launch l' = s.launch l' := rfl
@[simp] theorem State.setCtx_launch_opt_at (s : State) (c : Nat) (x : Ctx) (l' : Nat) : (s.setCtx c x).launch? l' = s.launch? l' := rfl
@[simp] theorem State.setCtx_graph_opt_at (s : State) (c : Nat) (x : Ctx) (g' : Nat) : (s.setCtx c x).graph? g' = s.graph? g' := rfl
@[simp] theorem State.setCtx_queue_opt_at (s : State) (c : Nat) (x : Ctx) (q' : Nat) : (s.setCtx c x).queue? q' = s.queue? q' := rfl
@[simp] theorem State.setCtx_mailbox_at (s : State) (c : Nat) (x : Ctx) (m' : Nat) : (s.setCtx c x).mailbox m' = s.mailbox m' := rfl
@[simp] theorem State.setCtx_link_at (s : State) (c : Nat) (x : Ctx) (k' : Nat) : (s.setCtx c x).link k' = s.link k' := rfl

/-! ## modCtx -/

@[simp] theorem State.modCtx_mem (s : State) (c : Nat) (f : Ctx → Ctx) : (s.modCtx c f).mem = s.mem := rfl
@[simp] theorem State.modCtx_poison (s : State) (c : Nat) (f : Ctx → Ctx) : (s.modCtx c f).poison = s.poison := rfl
@[simp] theorem State.modCtx_absent (s : State) (c : Nat) (f : Ctx → Ctx) : (s.modCtx c f).absent = s.absent := rfl
@[simp] theorem State.modCtx_spadStamps (s : State) (c : Nat) (f : Ctx → Ctx) : (s.modCtx c f).spadStamps = s.spadStamps := rfl
@[simp] theorem State.modCtx_order (s : State) (c : Nat) (f : Ctx → Ctx) : (s.modCtx c f).order = s.order := rfl
@[simp] theorem State.modCtx_bars (s : State) (c : Nat) (f : Ctx → Ctx) : (s.modCtx c f).bars = s.bars := rfl
@[simp] theorem State.modCtx_threads (s : State) (c : Nat) (f : Ctx → Ctx) : (s.modCtx c f).threads = s.threads := rfl
@[simp] theorem State.modCtx_groups (s : State) (c : Nat) (f : Ctx → Ctx) : (s.modCtx c f).groups = s.groups := rfl
@[simp] theorem State.modCtx_cores (s : State) (c : Nat) (f : Ctx → Ctx) : (s.modCtx c f).cores = s.cores := rfl
@[simp] theorem State.modCtx_clusters (s : State) (c : Nat) (f : Ctx → Ctx) : (s.modCtx c f).clusters = s.clusters := rfl
@[simp] theorem State.modCtx_dies (s : State) (c : Nat) (f : Ctx → Ctx) : (s.modCtx c f).dies = s.dies := rfl
@[simp] theorem State.modCtx_parts (s : State) (c : Nat) (f : Ctx → Ctx) : (s.modCtx c f).parts = s.parts := rfl
@[simp] theorem State.modCtx_pmcs (s : State) (c : Nat) (f : Ctx → Ctx) : (s.modCtx c f).pmcs = s.pmcs := rfl
@[simp] theorem State.modCtx_queues (s : State) (c : Nat) (f : Ctx → Ctx) : (s.modCtx c f).queues = s.queues := rfl
@[simp] theorem State.modCtx_graphs (s : State) (c : Nat) (f : Ctx → Ctx) : (s.modCtx c f).graphs = s.graphs := rfl
@[simp] theorem State.modCtx_launches (s : State) (c : Nat) (f : Ctx → Ctx) : (s.modCtx c f).launches = s.launches := rfl
@[simp] theorem State.modCtx_nodeCopies (s : State) (c : Nat) (f : Ctx → Ctx) : (s.modCtx c f).nodeCopies = s.nodeCopies := rfl
@[simp] theorem State.modCtx_walks (s : State) (c : Nat) (f : Ctx → Ctx) : (s.modCtx c f).walks = s.walks := rfl
@[simp] theorem State.modCtx_tlb (s : State) (c : Nat) (f : Ctx → Ctx) : (s.modCtx c f).tlb = s.tlb := rfl
@[simp] theorem State.modCtx_walkCache (s : State) (c : Nat) (f : Ctx → Ctx) : (s.modCtx c f).walkCache = s.walkCache := rfl
@[simp] theorem State.modCtx_mailboxes (s : State) (c : Nat) (f : Ctx → Ctx) : (s.modCtx c f).mailboxes = s.mailboxes := rfl
@[simp] theorem State.modCtx_links (s : State) (c : Nat) (f : Ctx → Ctx) : (s.modCtx c f).links = s.links := rfl
@[simp] theorem State.modCtx_hbLines (s : State) (c : Nat) (f : Ctx → Ctx) : (s.modCtx c f).hbLines = s.hbLines := rfl
@[simp] theorem State.modCtx_hostHalf (s : State) (c : Nat) (f : Ctx → Ctx) : (s.modCtx c f).hostHalf = s.hostHalf := rfl
@[simp] theorem State.modCtx_hostBias (s : State) (c : Nat) (f : Ctx → Ctx) : (s.modCtx c f).hostBias = s.hostBias := rfl
@[simp] theorem State.modCtx_snoopFilter (s : State) (c : Nat) (f : Ctx → Ctx) : (s.modCtx c f).snoopFilter = s.snoopFilter := rfl
@[simp] theorem State.modCtx_device (s : State) (c : Nat) (f : Ctx → Ctx) : (s.modCtx c f).device = s.device := rfl
@[simp] theorem State.modCtx_health (s : State) (c : Nat) (f : Ctx → Ctx) : (s.modCtx c f).health = s.health := rfl
@[simp] theorem State.modCtx_boot (s : State) (c : Nat) (f : Ctx → Ctx) : (s.modCtx c f).boot = s.boot := rfl
@[simp] theorem State.modCtx_outputs (s : State) (c : Nat) (f : Ctx → Ctx) : (s.modCtx c f).outputs = s.outputs := rfl
@[simp] theorem State.modCtx_narrow (s : State) (c : Nat) (f : Ctx → Ctx) : (s.modCtx c f).narrow = s.narrow := rfl
@[simp] theorem State.modCtx_lines (s : State) (c : Nat) (f : Ctx → Ctx) : (s.modCtx c f).lines = s.lines := rfl
@[simp] theorem State.modCtx_agenda (s : State) (c : Nat) (f : Ctx → Ctx) : (s.modCtx c f).agenda = s.agenda := rfl
@[simp] theorem State.modCtx_plan (s : State) (c : Nat) (f : Ctx → Ctx) : (s.modCtx c f).plan = s.plan := rfl
@[simp] theorem State.modCtx_cur (s : State) (c : Nat) (f : Ctx → Ctx) : (s.modCtx c f).cur = s.cur := rfl
@[simp] theorem State.modCtx_curWord (s : State) (c : Nat) (f : Ctx → Ctx) : (s.modCtx c f).curWord = s.curWord := rfl
@[simp] theorem State.modCtx_fresh (s : State) (c : Nat) (f : Ctx → Ctx) : (s.modCtx c f).fresh = s.fresh := rfl
@[simp] theorem State.modCtx_tick (s : State) (c : Nat) (f : Ctx → Ctx) : (s.modCtx c f).tick = s.tick := rfl
@[simp] theorem State.modCtx_idle (s : State) (c : Nat) (f : Ctx → Ctx) : (s.modCtx c f).idle = s.idle := rfl
@[simp] theorem State.modCtx_thread_at (s : State) (c : Nat) (f : Ctx → Ctx) (t' : TId) : (s.modCtx c f).thread t' = s.thread t' := rfl
@[simp] theorem State.modCtx_group_at (s : State) (c : Nat) (f : Ctx → Ctx) (g' : GId) : (s.modCtx c f).group g' = s.group g' := rfl
@[simp] theorem State.modCtx_core_at (s : State) (c : Nat) (f : Ctx → Ctx) (c' : Nat) : (s.modCtx c f).core c' = s.core c' := rfl
@[simp] theorem State.modCtx_cluster_at (s : State) (c : Nat) (f : Ctx → Ctx) (n' : Nat) : (s.modCtx c f).cluster n' = s.cluster n' := rfl
@[simp] theorem State.modCtx_die_at (s : State) (c : Nat) (f : Ctx → Ctx) (d' : Nat) : (s.modCtx c f).die d' = s.die d' := rfl
@[simp] theorem State.modCtx_part_at (s : State) (c : Nat) (f : Ctx → Ctx) (p' : Nat) : (s.modCtx c f).part p' = s.part p' := rfl
@[simp] theorem State.modCtx_launch_at (s : State) (c : Nat) (f : Ctx → Ctx) (l' : Nat) : (s.modCtx c f).launch l' = s.launch l' := rfl
@[simp] theorem State.modCtx_launch_opt_at (s : State) (c : Nat) (f : Ctx → Ctx) (l' : Nat) : (s.modCtx c f).launch? l' = s.launch? l' := rfl
@[simp] theorem State.modCtx_graph_opt_at (s : State) (c : Nat) (f : Ctx → Ctx) (g' : Nat) : (s.modCtx c f).graph? g' = s.graph? g' := rfl
@[simp] theorem State.modCtx_queue_opt_at (s : State) (c : Nat) (f : Ctx → Ctx) (q' : Nat) : (s.modCtx c f).queue? q' = s.queue? q' := rfl
@[simp] theorem State.modCtx_mailbox_at (s : State) (c : Nat) (f : Ctx → Ctx) (m' : Nat) : (s.modCtx c f).mailbox m' = s.mailbox m' := rfl
@[simp] theorem State.modCtx_link_at (s : State) (c : Nat) (f : Ctx → Ctx) (k' : Nat) : (s.modCtx c f).link k' = s.link k' := rfl

/-! ## setCore -/

@[simp] theorem State.setCore_mem (s : State) (c : Nat) (x : Core) : (s.setCore c x).mem = s.mem := rfl
@[simp] theorem State.setCore_poison (s : State) (c : Nat) (x : Core) : (s.setCore c x).poison = s.poison := rfl
@[simp] theorem State.setCore_absent (s : State) (c : Nat) (x : Core) : (s.setCore c x).absent = s.absent := rfl
@[simp] theorem State.setCore_spadStamps (s : State) (c : Nat) (x : Core) : (s.setCore c x).spadStamps = s.spadStamps := rfl
@[simp] theorem State.setCore_order (s : State) (c : Nat) (x : Core) : (s.setCore c x).order = s.order := rfl
@[simp] theorem State.setCore_bars (s : State) (c : Nat) (x : Core) : (s.setCore c x).bars = s.bars := rfl
@[simp] theorem State.setCore_threads (s : State) (c : Nat) (x : Core) : (s.setCore c x).threads = s.threads := rfl
@[simp] theorem State.setCore_groups (s : State) (c : Nat) (x : Core) : (s.setCore c x).groups = s.groups := rfl
@[simp] theorem State.setCore_ctxs (s : State) (c : Nat) (x : Core) : (s.setCore c x).ctxs = s.ctxs := rfl
@[simp] theorem State.setCore_clusters (s : State) (c : Nat) (x : Core) : (s.setCore c x).clusters = s.clusters := rfl
@[simp] theorem State.setCore_dies (s : State) (c : Nat) (x : Core) : (s.setCore c x).dies = s.dies := rfl
@[simp] theorem State.setCore_parts (s : State) (c : Nat) (x : Core) : (s.setCore c x).parts = s.parts := rfl
@[simp] theorem State.setCore_pmcs (s : State) (c : Nat) (x : Core) : (s.setCore c x).pmcs = s.pmcs := rfl
@[simp] theorem State.setCore_queues (s : State) (c : Nat) (x : Core) : (s.setCore c x).queues = s.queues := rfl
@[simp] theorem State.setCore_graphs (s : State) (c : Nat) (x : Core) : (s.setCore c x).graphs = s.graphs := rfl
@[simp] theorem State.setCore_launches (s : State) (c : Nat) (x : Core) : (s.setCore c x).launches = s.launches := rfl
@[simp] theorem State.setCore_nodeCopies (s : State) (c : Nat) (x : Core) : (s.setCore c x).nodeCopies = s.nodeCopies := rfl
@[simp] theorem State.setCore_walks (s : State) (c : Nat) (x : Core) : (s.setCore c x).walks = s.walks := rfl
@[simp] theorem State.setCore_tlb (s : State) (c : Nat) (x : Core) : (s.setCore c x).tlb = s.tlb := rfl
@[simp] theorem State.setCore_walkCache (s : State) (c : Nat) (x : Core) : (s.setCore c x).walkCache = s.walkCache := rfl
@[simp] theorem State.setCore_mailboxes (s : State) (c : Nat) (x : Core) : (s.setCore c x).mailboxes = s.mailboxes := rfl
@[simp] theorem State.setCore_links (s : State) (c : Nat) (x : Core) : (s.setCore c x).links = s.links := rfl
@[simp] theorem State.setCore_hbLines (s : State) (c : Nat) (x : Core) : (s.setCore c x).hbLines = s.hbLines := rfl
@[simp] theorem State.setCore_hostHalf (s : State) (c : Nat) (x : Core) : (s.setCore c x).hostHalf = s.hostHalf := rfl
@[simp] theorem State.setCore_hostBias (s : State) (c : Nat) (x : Core) : (s.setCore c x).hostBias = s.hostBias := rfl
@[simp] theorem State.setCore_snoopFilter (s : State) (c : Nat) (x : Core) : (s.setCore c x).snoopFilter = s.snoopFilter := rfl
@[simp] theorem State.setCore_device (s : State) (c : Nat) (x : Core) : (s.setCore c x).device = s.device := rfl
@[simp] theorem State.setCore_health (s : State) (c : Nat) (x : Core) : (s.setCore c x).health = s.health := rfl
@[simp] theorem State.setCore_boot (s : State) (c : Nat) (x : Core) : (s.setCore c x).boot = s.boot := rfl
@[simp] theorem State.setCore_outputs (s : State) (c : Nat) (x : Core) : (s.setCore c x).outputs = s.outputs := rfl
@[simp] theorem State.setCore_narrow (s : State) (c : Nat) (x : Core) : (s.setCore c x).narrow = s.narrow := rfl
@[simp] theorem State.setCore_lines (s : State) (c : Nat) (x : Core) : (s.setCore c x).lines = s.lines := rfl
@[simp] theorem State.setCore_agenda (s : State) (c : Nat) (x : Core) : (s.setCore c x).agenda = s.agenda := rfl
@[simp] theorem State.setCore_plan (s : State) (c : Nat) (x : Core) : (s.setCore c x).plan = s.plan := rfl
@[simp] theorem State.setCore_cur (s : State) (c : Nat) (x : Core) : (s.setCore c x).cur = s.cur := rfl
@[simp] theorem State.setCore_curWord (s : State) (c : Nat) (x : Core) : (s.setCore c x).curWord = s.curWord := rfl
@[simp] theorem State.setCore_fresh (s : State) (c : Nat) (x : Core) : (s.setCore c x).fresh = s.fresh := rfl
@[simp] theorem State.setCore_tick (s : State) (c : Nat) (x : Core) : (s.setCore c x).tick = s.tick := rfl
@[simp] theorem State.setCore_idle (s : State) (c : Nat) (x : Core) : (s.setCore c x).idle = s.idle := rfl
@[simp] theorem State.setCore_thread_at (s : State) (c : Nat) (x : Core) (t' : TId) : (s.setCore c x).thread t' = s.thread t' := rfl
@[simp] theorem State.setCore_group_at (s : State) (c : Nat) (x : Core) (g' : GId) : (s.setCore c x).group g' = s.group g' := rfl
@[simp] theorem State.setCore_ctx_at (s : State) (c : Nat) (x : Core) (c' : Nat) : (s.setCore c x).ctx c' = s.ctx c' := rfl
@[simp] theorem State.setCore_cluster_at (s : State) (c : Nat) (x : Core) (n' : Nat) : (s.setCore c x).cluster n' = s.cluster n' := rfl
@[simp] theorem State.setCore_die_at (s : State) (c : Nat) (x : Core) (d' : Nat) : (s.setCore c x).die d' = s.die d' := rfl
@[simp] theorem State.setCore_part_at (s : State) (c : Nat) (x : Core) (p' : Nat) : (s.setCore c x).part p' = s.part p' := rfl
@[simp] theorem State.setCore_launch_at (s : State) (c : Nat) (x : Core) (l' : Nat) : (s.setCore c x).launch l' = s.launch l' := rfl
@[simp] theorem State.setCore_launch_opt_at (s : State) (c : Nat) (x : Core) (l' : Nat) : (s.setCore c x).launch? l' = s.launch? l' := rfl
@[simp] theorem State.setCore_graph_opt_at (s : State) (c : Nat) (x : Core) (g' : Nat) : (s.setCore c x).graph? g' = s.graph? g' := rfl
@[simp] theorem State.setCore_queue_opt_at (s : State) (c : Nat) (x : Core) (q' : Nat) : (s.setCore c x).queue? q' = s.queue? q' := rfl
@[simp] theorem State.setCore_mailbox_at (s : State) (c : Nat) (x : Core) (m' : Nat) : (s.setCore c x).mailbox m' = s.mailbox m' := rfl
@[simp] theorem State.setCore_link_at (s : State) (c : Nat) (x : Core) (k' : Nat) : (s.setCore c x).link k' = s.link k' := rfl

/-! ## modCore -/

@[simp] theorem State.modCore_mem (s : State) (c : Nat) (f : Core → Core) : (s.modCore c f).mem = s.mem := rfl
@[simp] theorem State.modCore_poison (s : State) (c : Nat) (f : Core → Core) : (s.modCore c f).poison = s.poison := rfl
@[simp] theorem State.modCore_absent (s : State) (c : Nat) (f : Core → Core) : (s.modCore c f).absent = s.absent := rfl
@[simp] theorem State.modCore_spadStamps (s : State) (c : Nat) (f : Core → Core) : (s.modCore c f).spadStamps = s.spadStamps := rfl
@[simp] theorem State.modCore_order (s : State) (c : Nat) (f : Core → Core) : (s.modCore c f).order = s.order := rfl
@[simp] theorem State.modCore_bars (s : State) (c : Nat) (f : Core → Core) : (s.modCore c f).bars = s.bars := rfl
@[simp] theorem State.modCore_threads (s : State) (c : Nat) (f : Core → Core) : (s.modCore c f).threads = s.threads := rfl
@[simp] theorem State.modCore_groups (s : State) (c : Nat) (f : Core → Core) : (s.modCore c f).groups = s.groups := rfl
@[simp] theorem State.modCore_ctxs (s : State) (c : Nat) (f : Core → Core) : (s.modCore c f).ctxs = s.ctxs := rfl
@[simp] theorem State.modCore_clusters (s : State) (c : Nat) (f : Core → Core) : (s.modCore c f).clusters = s.clusters := rfl
@[simp] theorem State.modCore_dies (s : State) (c : Nat) (f : Core → Core) : (s.modCore c f).dies = s.dies := rfl
@[simp] theorem State.modCore_parts (s : State) (c : Nat) (f : Core → Core) : (s.modCore c f).parts = s.parts := rfl
@[simp] theorem State.modCore_pmcs (s : State) (c : Nat) (f : Core → Core) : (s.modCore c f).pmcs = s.pmcs := rfl
@[simp] theorem State.modCore_queues (s : State) (c : Nat) (f : Core → Core) : (s.modCore c f).queues = s.queues := rfl
@[simp] theorem State.modCore_graphs (s : State) (c : Nat) (f : Core → Core) : (s.modCore c f).graphs = s.graphs := rfl
@[simp] theorem State.modCore_launches (s : State) (c : Nat) (f : Core → Core) : (s.modCore c f).launches = s.launches := rfl
@[simp] theorem State.modCore_nodeCopies (s : State) (c : Nat) (f : Core → Core) : (s.modCore c f).nodeCopies = s.nodeCopies := rfl
@[simp] theorem State.modCore_walks (s : State) (c : Nat) (f : Core → Core) : (s.modCore c f).walks = s.walks := rfl
@[simp] theorem State.modCore_tlb (s : State) (c : Nat) (f : Core → Core) : (s.modCore c f).tlb = s.tlb := rfl
@[simp] theorem State.modCore_walkCache (s : State) (c : Nat) (f : Core → Core) : (s.modCore c f).walkCache = s.walkCache := rfl
@[simp] theorem State.modCore_mailboxes (s : State) (c : Nat) (f : Core → Core) : (s.modCore c f).mailboxes = s.mailboxes := rfl
@[simp] theorem State.modCore_links (s : State) (c : Nat) (f : Core → Core) : (s.modCore c f).links = s.links := rfl
@[simp] theorem State.modCore_hbLines (s : State) (c : Nat) (f : Core → Core) : (s.modCore c f).hbLines = s.hbLines := rfl
@[simp] theorem State.modCore_hostHalf (s : State) (c : Nat) (f : Core → Core) : (s.modCore c f).hostHalf = s.hostHalf := rfl
@[simp] theorem State.modCore_hostBias (s : State) (c : Nat) (f : Core → Core) : (s.modCore c f).hostBias = s.hostBias := rfl
@[simp] theorem State.modCore_snoopFilter (s : State) (c : Nat) (f : Core → Core) : (s.modCore c f).snoopFilter = s.snoopFilter := rfl
@[simp] theorem State.modCore_device (s : State) (c : Nat) (f : Core → Core) : (s.modCore c f).device = s.device := rfl
@[simp] theorem State.modCore_health (s : State) (c : Nat) (f : Core → Core) : (s.modCore c f).health = s.health := rfl
@[simp] theorem State.modCore_boot (s : State) (c : Nat) (f : Core → Core) : (s.modCore c f).boot = s.boot := rfl
@[simp] theorem State.modCore_outputs (s : State) (c : Nat) (f : Core → Core) : (s.modCore c f).outputs = s.outputs := rfl
@[simp] theorem State.modCore_narrow (s : State) (c : Nat) (f : Core → Core) : (s.modCore c f).narrow = s.narrow := rfl
@[simp] theorem State.modCore_lines (s : State) (c : Nat) (f : Core → Core) : (s.modCore c f).lines = s.lines := rfl
@[simp] theorem State.modCore_agenda (s : State) (c : Nat) (f : Core → Core) : (s.modCore c f).agenda = s.agenda := rfl
@[simp] theorem State.modCore_plan (s : State) (c : Nat) (f : Core → Core) : (s.modCore c f).plan = s.plan := rfl
@[simp] theorem State.modCore_cur (s : State) (c : Nat) (f : Core → Core) : (s.modCore c f).cur = s.cur := rfl
@[simp] theorem State.modCore_curWord (s : State) (c : Nat) (f : Core → Core) : (s.modCore c f).curWord = s.curWord := rfl
@[simp] theorem State.modCore_fresh (s : State) (c : Nat) (f : Core → Core) : (s.modCore c f).fresh = s.fresh := rfl
@[simp] theorem State.modCore_tick (s : State) (c : Nat) (f : Core → Core) : (s.modCore c f).tick = s.tick := rfl
@[simp] theorem State.modCore_idle (s : State) (c : Nat) (f : Core → Core) : (s.modCore c f).idle = s.idle := rfl
@[simp] theorem State.modCore_thread_at (s : State) (c : Nat) (f : Core → Core) (t' : TId) : (s.modCore c f).thread t' = s.thread t' := rfl
@[simp] theorem State.modCore_group_at (s : State) (c : Nat) (f : Core → Core) (g' : GId) : (s.modCore c f).group g' = s.group g' := rfl
@[simp] theorem State.modCore_ctx_at (s : State) (c : Nat) (f : Core → Core) (c' : Nat) : (s.modCore c f).ctx c' = s.ctx c' := rfl
@[simp] theorem State.modCore_cluster_at (s : State) (c : Nat) (f : Core → Core) (n' : Nat) : (s.modCore c f).cluster n' = s.cluster n' := rfl
@[simp] theorem State.modCore_die_at (s : State) (c : Nat) (f : Core → Core) (d' : Nat) : (s.modCore c f).die d' = s.die d' := rfl
@[simp] theorem State.modCore_part_at (s : State) (c : Nat) (f : Core → Core) (p' : Nat) : (s.modCore c f).part p' = s.part p' := rfl
@[simp] theorem State.modCore_launch_at (s : State) (c : Nat) (f : Core → Core) (l' : Nat) : (s.modCore c f).launch l' = s.launch l' := rfl
@[simp] theorem State.modCore_launch_opt_at (s : State) (c : Nat) (f : Core → Core) (l' : Nat) : (s.modCore c f).launch? l' = s.launch? l' := rfl
@[simp] theorem State.modCore_graph_opt_at (s : State) (c : Nat) (f : Core → Core) (g' : Nat) : (s.modCore c f).graph? g' = s.graph? g' := rfl
@[simp] theorem State.modCore_queue_opt_at (s : State) (c : Nat) (f : Core → Core) (q' : Nat) : (s.modCore c f).queue? q' = s.queue? q' := rfl
@[simp] theorem State.modCore_mailbox_at (s : State) (c : Nat) (f : Core → Core) (m' : Nat) : (s.modCore c f).mailbox m' = s.mailbox m' := rfl
@[simp] theorem State.modCore_link_at (s : State) (c : Nat) (f : Core → Core) (k' : Nat) : (s.modCore c f).link k' = s.link k' := rfl

/-! ## setCluster -/

@[simp] theorem State.setCluster_mem (s : State) (n : Nat) (x : Cluster) : (s.setCluster n x).mem = s.mem := rfl
@[simp] theorem State.setCluster_poison (s : State) (n : Nat) (x : Cluster) : (s.setCluster n x).poison = s.poison := rfl
@[simp] theorem State.setCluster_absent (s : State) (n : Nat) (x : Cluster) : (s.setCluster n x).absent = s.absent := rfl
@[simp] theorem State.setCluster_spadStamps (s : State) (n : Nat) (x : Cluster) : (s.setCluster n x).spadStamps = s.spadStamps := rfl
@[simp] theorem State.setCluster_order (s : State) (n : Nat) (x : Cluster) : (s.setCluster n x).order = s.order := rfl
@[simp] theorem State.setCluster_bars (s : State) (n : Nat) (x : Cluster) : (s.setCluster n x).bars = s.bars := rfl
@[simp] theorem State.setCluster_threads (s : State) (n : Nat) (x : Cluster) : (s.setCluster n x).threads = s.threads := rfl
@[simp] theorem State.setCluster_groups (s : State) (n : Nat) (x : Cluster) : (s.setCluster n x).groups = s.groups := rfl
@[simp] theorem State.setCluster_ctxs (s : State) (n : Nat) (x : Cluster) : (s.setCluster n x).ctxs = s.ctxs := rfl
@[simp] theorem State.setCluster_cores (s : State) (n : Nat) (x : Cluster) : (s.setCluster n x).cores = s.cores := rfl
@[simp] theorem State.setCluster_dies (s : State) (n : Nat) (x : Cluster) : (s.setCluster n x).dies = s.dies := rfl
@[simp] theorem State.setCluster_parts (s : State) (n : Nat) (x : Cluster) : (s.setCluster n x).parts = s.parts := rfl
@[simp] theorem State.setCluster_pmcs (s : State) (n : Nat) (x : Cluster) : (s.setCluster n x).pmcs = s.pmcs := rfl
@[simp] theorem State.setCluster_queues (s : State) (n : Nat) (x : Cluster) : (s.setCluster n x).queues = s.queues := rfl
@[simp] theorem State.setCluster_graphs (s : State) (n : Nat) (x : Cluster) : (s.setCluster n x).graphs = s.graphs := rfl
@[simp] theorem State.setCluster_launches (s : State) (n : Nat) (x : Cluster) : (s.setCluster n x).launches = s.launches := rfl
@[simp] theorem State.setCluster_nodeCopies (s : State) (n : Nat) (x : Cluster) : (s.setCluster n x).nodeCopies = s.nodeCopies := rfl
@[simp] theorem State.setCluster_walks (s : State) (n : Nat) (x : Cluster) : (s.setCluster n x).walks = s.walks := rfl
@[simp] theorem State.setCluster_tlb (s : State) (n : Nat) (x : Cluster) : (s.setCluster n x).tlb = s.tlb := rfl
@[simp] theorem State.setCluster_walkCache (s : State) (n : Nat) (x : Cluster) : (s.setCluster n x).walkCache = s.walkCache := rfl
@[simp] theorem State.setCluster_mailboxes (s : State) (n : Nat) (x : Cluster) : (s.setCluster n x).mailboxes = s.mailboxes := rfl
@[simp] theorem State.setCluster_links (s : State) (n : Nat) (x : Cluster) : (s.setCluster n x).links = s.links := rfl
@[simp] theorem State.setCluster_hbLines (s : State) (n : Nat) (x : Cluster) : (s.setCluster n x).hbLines = s.hbLines := rfl
@[simp] theorem State.setCluster_hostHalf (s : State) (n : Nat) (x : Cluster) : (s.setCluster n x).hostHalf = s.hostHalf := rfl
@[simp] theorem State.setCluster_hostBias (s : State) (n : Nat) (x : Cluster) : (s.setCluster n x).hostBias = s.hostBias := rfl
@[simp] theorem State.setCluster_snoopFilter (s : State) (n : Nat) (x : Cluster) : (s.setCluster n x).snoopFilter = s.snoopFilter := rfl
@[simp] theorem State.setCluster_device (s : State) (n : Nat) (x : Cluster) : (s.setCluster n x).device = s.device := rfl
@[simp] theorem State.setCluster_health (s : State) (n : Nat) (x : Cluster) : (s.setCluster n x).health = s.health := rfl
@[simp] theorem State.setCluster_boot (s : State) (n : Nat) (x : Cluster) : (s.setCluster n x).boot = s.boot := rfl
@[simp] theorem State.setCluster_outputs (s : State) (n : Nat) (x : Cluster) : (s.setCluster n x).outputs = s.outputs := rfl
@[simp] theorem State.setCluster_narrow (s : State) (n : Nat) (x : Cluster) : (s.setCluster n x).narrow = s.narrow := rfl
@[simp] theorem State.setCluster_lines (s : State) (n : Nat) (x : Cluster) : (s.setCluster n x).lines = s.lines := rfl
@[simp] theorem State.setCluster_agenda (s : State) (n : Nat) (x : Cluster) : (s.setCluster n x).agenda = s.agenda := rfl
@[simp] theorem State.setCluster_plan (s : State) (n : Nat) (x : Cluster) : (s.setCluster n x).plan = s.plan := rfl
@[simp] theorem State.setCluster_cur (s : State) (n : Nat) (x : Cluster) : (s.setCluster n x).cur = s.cur := rfl
@[simp] theorem State.setCluster_curWord (s : State) (n : Nat) (x : Cluster) : (s.setCluster n x).curWord = s.curWord := rfl
@[simp] theorem State.setCluster_fresh (s : State) (n : Nat) (x : Cluster) : (s.setCluster n x).fresh = s.fresh := rfl
@[simp] theorem State.setCluster_tick (s : State) (n : Nat) (x : Cluster) : (s.setCluster n x).tick = s.tick := rfl
@[simp] theorem State.setCluster_idle (s : State) (n : Nat) (x : Cluster) : (s.setCluster n x).idle = s.idle := rfl
@[simp] theorem State.setCluster_thread_at (s : State) (n : Nat) (x : Cluster) (t' : TId) : (s.setCluster n x).thread t' = s.thread t' := rfl
@[simp] theorem State.setCluster_group_at (s : State) (n : Nat) (x : Cluster) (g' : GId) : (s.setCluster n x).group g' = s.group g' := rfl
@[simp] theorem State.setCluster_ctx_at (s : State) (n : Nat) (x : Cluster) (c' : Nat) : (s.setCluster n x).ctx c' = s.ctx c' := rfl
@[simp] theorem State.setCluster_core_at (s : State) (n : Nat) (x : Cluster) (c' : Nat) : (s.setCluster n x).core c' = s.core c' := rfl
@[simp] theorem State.setCluster_die_at (s : State) (n : Nat) (x : Cluster) (d' : Nat) : (s.setCluster n x).die d' = s.die d' := rfl
@[simp] theorem State.setCluster_part_at (s : State) (n : Nat) (x : Cluster) (p' : Nat) : (s.setCluster n x).part p' = s.part p' := rfl
@[simp] theorem State.setCluster_launch_at (s : State) (n : Nat) (x : Cluster) (l' : Nat) : (s.setCluster n x).launch l' = s.launch l' := rfl
@[simp] theorem State.setCluster_launch_opt_at (s : State) (n : Nat) (x : Cluster) (l' : Nat) : (s.setCluster n x).launch? l' = s.launch? l' := rfl
@[simp] theorem State.setCluster_graph_opt_at (s : State) (n : Nat) (x : Cluster) (g' : Nat) : (s.setCluster n x).graph? g' = s.graph? g' := rfl
@[simp] theorem State.setCluster_queue_opt_at (s : State) (n : Nat) (x : Cluster) (q' : Nat) : (s.setCluster n x).queue? q' = s.queue? q' := rfl
@[simp] theorem State.setCluster_mailbox_at (s : State) (n : Nat) (x : Cluster) (m' : Nat) : (s.setCluster n x).mailbox m' = s.mailbox m' := rfl
@[simp] theorem State.setCluster_link_at (s : State) (n : Nat) (x : Cluster) (k' : Nat) : (s.setCluster n x).link k' = s.link k' := rfl

/-! ## modCluster -/

@[simp] theorem State.modCluster_mem (s : State) (n : Nat) (f : Cluster → Cluster) : (s.modCluster n f).mem = s.mem := rfl
@[simp] theorem State.modCluster_poison (s : State) (n : Nat) (f : Cluster → Cluster) : (s.modCluster n f).poison = s.poison := rfl
@[simp] theorem State.modCluster_absent (s : State) (n : Nat) (f : Cluster → Cluster) : (s.modCluster n f).absent = s.absent := rfl
@[simp] theorem State.modCluster_spadStamps (s : State) (n : Nat) (f : Cluster → Cluster) : (s.modCluster n f).spadStamps = s.spadStamps := rfl
@[simp] theorem State.modCluster_order (s : State) (n : Nat) (f : Cluster → Cluster) : (s.modCluster n f).order = s.order := rfl
@[simp] theorem State.modCluster_bars (s : State) (n : Nat) (f : Cluster → Cluster) : (s.modCluster n f).bars = s.bars := rfl
@[simp] theorem State.modCluster_threads (s : State) (n : Nat) (f : Cluster → Cluster) : (s.modCluster n f).threads = s.threads := rfl
@[simp] theorem State.modCluster_groups (s : State) (n : Nat) (f : Cluster → Cluster) : (s.modCluster n f).groups = s.groups := rfl
@[simp] theorem State.modCluster_ctxs (s : State) (n : Nat) (f : Cluster → Cluster) : (s.modCluster n f).ctxs = s.ctxs := rfl
@[simp] theorem State.modCluster_cores (s : State) (n : Nat) (f : Cluster → Cluster) : (s.modCluster n f).cores = s.cores := rfl
@[simp] theorem State.modCluster_dies (s : State) (n : Nat) (f : Cluster → Cluster) : (s.modCluster n f).dies = s.dies := rfl
@[simp] theorem State.modCluster_parts (s : State) (n : Nat) (f : Cluster → Cluster) : (s.modCluster n f).parts = s.parts := rfl
@[simp] theorem State.modCluster_pmcs (s : State) (n : Nat) (f : Cluster → Cluster) : (s.modCluster n f).pmcs = s.pmcs := rfl
@[simp] theorem State.modCluster_queues (s : State) (n : Nat) (f : Cluster → Cluster) : (s.modCluster n f).queues = s.queues := rfl
@[simp] theorem State.modCluster_graphs (s : State) (n : Nat) (f : Cluster → Cluster) : (s.modCluster n f).graphs = s.graphs := rfl
@[simp] theorem State.modCluster_launches (s : State) (n : Nat) (f : Cluster → Cluster) : (s.modCluster n f).launches = s.launches := rfl
@[simp] theorem State.modCluster_nodeCopies (s : State) (n : Nat) (f : Cluster → Cluster) : (s.modCluster n f).nodeCopies = s.nodeCopies := rfl
@[simp] theorem State.modCluster_walks (s : State) (n : Nat) (f : Cluster → Cluster) : (s.modCluster n f).walks = s.walks := rfl
@[simp] theorem State.modCluster_tlb (s : State) (n : Nat) (f : Cluster → Cluster) : (s.modCluster n f).tlb = s.tlb := rfl
@[simp] theorem State.modCluster_walkCache (s : State) (n : Nat) (f : Cluster → Cluster) : (s.modCluster n f).walkCache = s.walkCache := rfl
@[simp] theorem State.modCluster_mailboxes (s : State) (n : Nat) (f : Cluster → Cluster) : (s.modCluster n f).mailboxes = s.mailboxes := rfl
@[simp] theorem State.modCluster_links (s : State) (n : Nat) (f : Cluster → Cluster) : (s.modCluster n f).links = s.links := rfl
@[simp] theorem State.modCluster_hbLines (s : State) (n : Nat) (f : Cluster → Cluster) : (s.modCluster n f).hbLines = s.hbLines := rfl
@[simp] theorem State.modCluster_hostHalf (s : State) (n : Nat) (f : Cluster → Cluster) : (s.modCluster n f).hostHalf = s.hostHalf := rfl
@[simp] theorem State.modCluster_hostBias (s : State) (n : Nat) (f : Cluster → Cluster) : (s.modCluster n f).hostBias = s.hostBias := rfl
@[simp] theorem State.modCluster_snoopFilter (s : State) (n : Nat) (f : Cluster → Cluster) : (s.modCluster n f).snoopFilter = s.snoopFilter := rfl
@[simp] theorem State.modCluster_device (s : State) (n : Nat) (f : Cluster → Cluster) : (s.modCluster n f).device = s.device := rfl
@[simp] theorem State.modCluster_health (s : State) (n : Nat) (f : Cluster → Cluster) : (s.modCluster n f).health = s.health := rfl
@[simp] theorem State.modCluster_boot (s : State) (n : Nat) (f : Cluster → Cluster) : (s.modCluster n f).boot = s.boot := rfl
@[simp] theorem State.modCluster_outputs (s : State) (n : Nat) (f : Cluster → Cluster) : (s.modCluster n f).outputs = s.outputs := rfl
@[simp] theorem State.modCluster_narrow (s : State) (n : Nat) (f : Cluster → Cluster) : (s.modCluster n f).narrow = s.narrow := rfl
@[simp] theorem State.modCluster_lines (s : State) (n : Nat) (f : Cluster → Cluster) : (s.modCluster n f).lines = s.lines := rfl
@[simp] theorem State.modCluster_agenda (s : State) (n : Nat) (f : Cluster → Cluster) : (s.modCluster n f).agenda = s.agenda := rfl
@[simp] theorem State.modCluster_plan (s : State) (n : Nat) (f : Cluster → Cluster) : (s.modCluster n f).plan = s.plan := rfl
@[simp] theorem State.modCluster_cur (s : State) (n : Nat) (f : Cluster → Cluster) : (s.modCluster n f).cur = s.cur := rfl
@[simp] theorem State.modCluster_curWord (s : State) (n : Nat) (f : Cluster → Cluster) : (s.modCluster n f).curWord = s.curWord := rfl
@[simp] theorem State.modCluster_fresh (s : State) (n : Nat) (f : Cluster → Cluster) : (s.modCluster n f).fresh = s.fresh := rfl
@[simp] theorem State.modCluster_tick (s : State) (n : Nat) (f : Cluster → Cluster) : (s.modCluster n f).tick = s.tick := rfl
@[simp] theorem State.modCluster_idle (s : State) (n : Nat) (f : Cluster → Cluster) : (s.modCluster n f).idle = s.idle := rfl
@[simp] theorem State.modCluster_thread_at (s : State) (n : Nat) (f : Cluster → Cluster) (t' : TId) : (s.modCluster n f).thread t' = s.thread t' := rfl
@[simp] theorem State.modCluster_group_at (s : State) (n : Nat) (f : Cluster → Cluster) (g' : GId) : (s.modCluster n f).group g' = s.group g' := rfl
@[simp] theorem State.modCluster_ctx_at (s : State) (n : Nat) (f : Cluster → Cluster) (c' : Nat) : (s.modCluster n f).ctx c' = s.ctx c' := rfl
@[simp] theorem State.modCluster_core_at (s : State) (n : Nat) (f : Cluster → Cluster) (c' : Nat) : (s.modCluster n f).core c' = s.core c' := rfl
@[simp] theorem State.modCluster_die_at (s : State) (n : Nat) (f : Cluster → Cluster) (d' : Nat) : (s.modCluster n f).die d' = s.die d' := rfl
@[simp] theorem State.modCluster_part_at (s : State) (n : Nat) (f : Cluster → Cluster) (p' : Nat) : (s.modCluster n f).part p' = s.part p' := rfl
@[simp] theorem State.modCluster_launch_at (s : State) (n : Nat) (f : Cluster → Cluster) (l' : Nat) : (s.modCluster n f).launch l' = s.launch l' := rfl
@[simp] theorem State.modCluster_launch_opt_at (s : State) (n : Nat) (f : Cluster → Cluster) (l' : Nat) : (s.modCluster n f).launch? l' = s.launch? l' := rfl
@[simp] theorem State.modCluster_graph_opt_at (s : State) (n : Nat) (f : Cluster → Cluster) (g' : Nat) : (s.modCluster n f).graph? g' = s.graph? g' := rfl
@[simp] theorem State.modCluster_queue_opt_at (s : State) (n : Nat) (f : Cluster → Cluster) (q' : Nat) : (s.modCluster n f).queue? q' = s.queue? q' := rfl
@[simp] theorem State.modCluster_mailbox_at (s : State) (n : Nat) (f : Cluster → Cluster) (m' : Nat) : (s.modCluster n f).mailbox m' = s.mailbox m' := rfl
@[simp] theorem State.modCluster_link_at (s : State) (n : Nat) (f : Cluster → Cluster) (k' : Nat) : (s.modCluster n f).link k' = s.link k' := rfl

/-! ## setDie -/

@[simp] theorem State.setDie_mem (s : State) (d : Nat) (x : Die) : (s.setDie d x).mem = s.mem := rfl
@[simp] theorem State.setDie_poison (s : State) (d : Nat) (x : Die) : (s.setDie d x).poison = s.poison := rfl
@[simp] theorem State.setDie_absent (s : State) (d : Nat) (x : Die) : (s.setDie d x).absent = s.absent := rfl
@[simp] theorem State.setDie_spadStamps (s : State) (d : Nat) (x : Die) : (s.setDie d x).spadStamps = s.spadStamps := rfl
@[simp] theorem State.setDie_order (s : State) (d : Nat) (x : Die) : (s.setDie d x).order = s.order := rfl
@[simp] theorem State.setDie_bars (s : State) (d : Nat) (x : Die) : (s.setDie d x).bars = s.bars := rfl
@[simp] theorem State.setDie_threads (s : State) (d : Nat) (x : Die) : (s.setDie d x).threads = s.threads := rfl
@[simp] theorem State.setDie_groups (s : State) (d : Nat) (x : Die) : (s.setDie d x).groups = s.groups := rfl
@[simp] theorem State.setDie_ctxs (s : State) (d : Nat) (x : Die) : (s.setDie d x).ctxs = s.ctxs := rfl
@[simp] theorem State.setDie_cores (s : State) (d : Nat) (x : Die) : (s.setDie d x).cores = s.cores := rfl
@[simp] theorem State.setDie_clusters (s : State) (d : Nat) (x : Die) : (s.setDie d x).clusters = s.clusters := rfl
@[simp] theorem State.setDie_parts (s : State) (d : Nat) (x : Die) : (s.setDie d x).parts = s.parts := rfl
@[simp] theorem State.setDie_pmcs (s : State) (d : Nat) (x : Die) : (s.setDie d x).pmcs = s.pmcs := rfl
@[simp] theorem State.setDie_queues (s : State) (d : Nat) (x : Die) : (s.setDie d x).queues = s.queues := rfl
@[simp] theorem State.setDie_graphs (s : State) (d : Nat) (x : Die) : (s.setDie d x).graphs = s.graphs := rfl
@[simp] theorem State.setDie_launches (s : State) (d : Nat) (x : Die) : (s.setDie d x).launches = s.launches := rfl
@[simp] theorem State.setDie_nodeCopies (s : State) (d : Nat) (x : Die) : (s.setDie d x).nodeCopies = s.nodeCopies := rfl
@[simp] theorem State.setDie_walks (s : State) (d : Nat) (x : Die) : (s.setDie d x).walks = s.walks := rfl
@[simp] theorem State.setDie_tlb (s : State) (d : Nat) (x : Die) : (s.setDie d x).tlb = s.tlb := rfl
@[simp] theorem State.setDie_walkCache (s : State) (d : Nat) (x : Die) : (s.setDie d x).walkCache = s.walkCache := rfl
@[simp] theorem State.setDie_mailboxes (s : State) (d : Nat) (x : Die) : (s.setDie d x).mailboxes = s.mailboxes := rfl
@[simp] theorem State.setDie_links (s : State) (d : Nat) (x : Die) : (s.setDie d x).links = s.links := rfl
@[simp] theorem State.setDie_hbLines (s : State) (d : Nat) (x : Die) : (s.setDie d x).hbLines = s.hbLines := rfl
@[simp] theorem State.setDie_hostHalf (s : State) (d : Nat) (x : Die) : (s.setDie d x).hostHalf = s.hostHalf := rfl
@[simp] theorem State.setDie_hostBias (s : State) (d : Nat) (x : Die) : (s.setDie d x).hostBias = s.hostBias := rfl
@[simp] theorem State.setDie_snoopFilter (s : State) (d : Nat) (x : Die) : (s.setDie d x).snoopFilter = s.snoopFilter := rfl
@[simp] theorem State.setDie_device (s : State) (d : Nat) (x : Die) : (s.setDie d x).device = s.device := rfl
@[simp] theorem State.setDie_health (s : State) (d : Nat) (x : Die) : (s.setDie d x).health = s.health := rfl
@[simp] theorem State.setDie_boot (s : State) (d : Nat) (x : Die) : (s.setDie d x).boot = s.boot := rfl
@[simp] theorem State.setDie_outputs (s : State) (d : Nat) (x : Die) : (s.setDie d x).outputs = s.outputs := rfl
@[simp] theorem State.setDie_narrow (s : State) (d : Nat) (x : Die) : (s.setDie d x).narrow = s.narrow := rfl
@[simp] theorem State.setDie_lines (s : State) (d : Nat) (x : Die) : (s.setDie d x).lines = s.lines := rfl
@[simp] theorem State.setDie_agenda (s : State) (d : Nat) (x : Die) : (s.setDie d x).agenda = s.agenda := rfl
@[simp] theorem State.setDie_plan (s : State) (d : Nat) (x : Die) : (s.setDie d x).plan = s.plan := rfl
@[simp] theorem State.setDie_cur (s : State) (d : Nat) (x : Die) : (s.setDie d x).cur = s.cur := rfl
@[simp] theorem State.setDie_curWord (s : State) (d : Nat) (x : Die) : (s.setDie d x).curWord = s.curWord := rfl
@[simp] theorem State.setDie_fresh (s : State) (d : Nat) (x : Die) : (s.setDie d x).fresh = s.fresh := rfl
@[simp] theorem State.setDie_tick (s : State) (d : Nat) (x : Die) : (s.setDie d x).tick = s.tick := rfl
@[simp] theorem State.setDie_idle (s : State) (d : Nat) (x : Die) : (s.setDie d x).idle = s.idle := rfl
@[simp] theorem State.setDie_thread_at (s : State) (d : Nat) (x : Die) (t' : TId) : (s.setDie d x).thread t' = s.thread t' := rfl
@[simp] theorem State.setDie_group_at (s : State) (d : Nat) (x : Die) (g' : GId) : (s.setDie d x).group g' = s.group g' := rfl
@[simp] theorem State.setDie_ctx_at (s : State) (d : Nat) (x : Die) (c' : Nat) : (s.setDie d x).ctx c' = s.ctx c' := rfl
@[simp] theorem State.setDie_core_at (s : State) (d : Nat) (x : Die) (c' : Nat) : (s.setDie d x).core c' = s.core c' := rfl
@[simp] theorem State.setDie_cluster_at (s : State) (d : Nat) (x : Die) (n' : Nat) : (s.setDie d x).cluster n' = s.cluster n' := rfl
@[simp] theorem State.setDie_part_at (s : State) (d : Nat) (x : Die) (p' : Nat) : (s.setDie d x).part p' = s.part p' := rfl
@[simp] theorem State.setDie_launch_at (s : State) (d : Nat) (x : Die) (l' : Nat) : (s.setDie d x).launch l' = s.launch l' := rfl
@[simp] theorem State.setDie_launch_opt_at (s : State) (d : Nat) (x : Die) (l' : Nat) : (s.setDie d x).launch? l' = s.launch? l' := rfl
@[simp] theorem State.setDie_graph_opt_at (s : State) (d : Nat) (x : Die) (g' : Nat) : (s.setDie d x).graph? g' = s.graph? g' := rfl
@[simp] theorem State.setDie_queue_opt_at (s : State) (d : Nat) (x : Die) (q' : Nat) : (s.setDie d x).queue? q' = s.queue? q' := rfl
@[simp] theorem State.setDie_mailbox_at (s : State) (d : Nat) (x : Die) (m' : Nat) : (s.setDie d x).mailbox m' = s.mailbox m' := rfl
@[simp] theorem State.setDie_link_at (s : State) (d : Nat) (x : Die) (k' : Nat) : (s.setDie d x).link k' = s.link k' := rfl

/-! ## modDie -/

@[simp] theorem State.modDie_mem (s : State) (d : Nat) (f : Die → Die) : (s.modDie d f).mem = s.mem := rfl
@[simp] theorem State.modDie_poison (s : State) (d : Nat) (f : Die → Die) : (s.modDie d f).poison = s.poison := rfl
@[simp] theorem State.modDie_absent (s : State) (d : Nat) (f : Die → Die) : (s.modDie d f).absent = s.absent := rfl
@[simp] theorem State.modDie_spadStamps (s : State) (d : Nat) (f : Die → Die) : (s.modDie d f).spadStamps = s.spadStamps := rfl
@[simp] theorem State.modDie_order (s : State) (d : Nat) (f : Die → Die) : (s.modDie d f).order = s.order := rfl
@[simp] theorem State.modDie_bars (s : State) (d : Nat) (f : Die → Die) : (s.modDie d f).bars = s.bars := rfl
@[simp] theorem State.modDie_threads (s : State) (d : Nat) (f : Die → Die) : (s.modDie d f).threads = s.threads := rfl
@[simp] theorem State.modDie_groups (s : State) (d : Nat) (f : Die → Die) : (s.modDie d f).groups = s.groups := rfl
@[simp] theorem State.modDie_ctxs (s : State) (d : Nat) (f : Die → Die) : (s.modDie d f).ctxs = s.ctxs := rfl
@[simp] theorem State.modDie_cores (s : State) (d : Nat) (f : Die → Die) : (s.modDie d f).cores = s.cores := rfl
@[simp] theorem State.modDie_clusters (s : State) (d : Nat) (f : Die → Die) : (s.modDie d f).clusters = s.clusters := rfl
@[simp] theorem State.modDie_parts (s : State) (d : Nat) (f : Die → Die) : (s.modDie d f).parts = s.parts := rfl
@[simp] theorem State.modDie_pmcs (s : State) (d : Nat) (f : Die → Die) : (s.modDie d f).pmcs = s.pmcs := rfl
@[simp] theorem State.modDie_queues (s : State) (d : Nat) (f : Die → Die) : (s.modDie d f).queues = s.queues := rfl
@[simp] theorem State.modDie_graphs (s : State) (d : Nat) (f : Die → Die) : (s.modDie d f).graphs = s.graphs := rfl
@[simp] theorem State.modDie_launches (s : State) (d : Nat) (f : Die → Die) : (s.modDie d f).launches = s.launches := rfl
@[simp] theorem State.modDie_nodeCopies (s : State) (d : Nat) (f : Die → Die) : (s.modDie d f).nodeCopies = s.nodeCopies := rfl
@[simp] theorem State.modDie_walks (s : State) (d : Nat) (f : Die → Die) : (s.modDie d f).walks = s.walks := rfl
@[simp] theorem State.modDie_tlb (s : State) (d : Nat) (f : Die → Die) : (s.modDie d f).tlb = s.tlb := rfl
@[simp] theorem State.modDie_walkCache (s : State) (d : Nat) (f : Die → Die) : (s.modDie d f).walkCache = s.walkCache := rfl
@[simp] theorem State.modDie_mailboxes (s : State) (d : Nat) (f : Die → Die) : (s.modDie d f).mailboxes = s.mailboxes := rfl
@[simp] theorem State.modDie_links (s : State) (d : Nat) (f : Die → Die) : (s.modDie d f).links = s.links := rfl
@[simp] theorem State.modDie_hbLines (s : State) (d : Nat) (f : Die → Die) : (s.modDie d f).hbLines = s.hbLines := rfl
@[simp] theorem State.modDie_hostHalf (s : State) (d : Nat) (f : Die → Die) : (s.modDie d f).hostHalf = s.hostHalf := rfl
@[simp] theorem State.modDie_hostBias (s : State) (d : Nat) (f : Die → Die) : (s.modDie d f).hostBias = s.hostBias := rfl
@[simp] theorem State.modDie_snoopFilter (s : State) (d : Nat) (f : Die → Die) : (s.modDie d f).snoopFilter = s.snoopFilter := rfl
@[simp] theorem State.modDie_device (s : State) (d : Nat) (f : Die → Die) : (s.modDie d f).device = s.device := rfl
@[simp] theorem State.modDie_health (s : State) (d : Nat) (f : Die → Die) : (s.modDie d f).health = s.health := rfl
@[simp] theorem State.modDie_boot (s : State) (d : Nat) (f : Die → Die) : (s.modDie d f).boot = s.boot := rfl
@[simp] theorem State.modDie_outputs (s : State) (d : Nat) (f : Die → Die) : (s.modDie d f).outputs = s.outputs := rfl
@[simp] theorem State.modDie_narrow (s : State) (d : Nat) (f : Die → Die) : (s.modDie d f).narrow = s.narrow := rfl
@[simp] theorem State.modDie_lines (s : State) (d : Nat) (f : Die → Die) : (s.modDie d f).lines = s.lines := rfl
@[simp] theorem State.modDie_agenda (s : State) (d : Nat) (f : Die → Die) : (s.modDie d f).agenda = s.agenda := rfl
@[simp] theorem State.modDie_plan (s : State) (d : Nat) (f : Die → Die) : (s.modDie d f).plan = s.plan := rfl
@[simp] theorem State.modDie_cur (s : State) (d : Nat) (f : Die → Die) : (s.modDie d f).cur = s.cur := rfl
@[simp] theorem State.modDie_curWord (s : State) (d : Nat) (f : Die → Die) : (s.modDie d f).curWord = s.curWord := rfl
@[simp] theorem State.modDie_fresh (s : State) (d : Nat) (f : Die → Die) : (s.modDie d f).fresh = s.fresh := rfl
@[simp] theorem State.modDie_tick (s : State) (d : Nat) (f : Die → Die) : (s.modDie d f).tick = s.tick := rfl
@[simp] theorem State.modDie_idle (s : State) (d : Nat) (f : Die → Die) : (s.modDie d f).idle = s.idle := rfl
@[simp] theorem State.modDie_thread_at (s : State) (d : Nat) (f : Die → Die) (t' : TId) : (s.modDie d f).thread t' = s.thread t' := rfl
@[simp] theorem State.modDie_group_at (s : State) (d : Nat) (f : Die → Die) (g' : GId) : (s.modDie d f).group g' = s.group g' := rfl
@[simp] theorem State.modDie_ctx_at (s : State) (d : Nat) (f : Die → Die) (c' : Nat) : (s.modDie d f).ctx c' = s.ctx c' := rfl
@[simp] theorem State.modDie_core_at (s : State) (d : Nat) (f : Die → Die) (c' : Nat) : (s.modDie d f).core c' = s.core c' := rfl
@[simp] theorem State.modDie_cluster_at (s : State) (d : Nat) (f : Die → Die) (n' : Nat) : (s.modDie d f).cluster n' = s.cluster n' := rfl
@[simp] theorem State.modDie_part_at (s : State) (d : Nat) (f : Die → Die) (p' : Nat) : (s.modDie d f).part p' = s.part p' := rfl
@[simp] theorem State.modDie_launch_at (s : State) (d : Nat) (f : Die → Die) (l' : Nat) : (s.modDie d f).launch l' = s.launch l' := rfl
@[simp] theorem State.modDie_launch_opt_at (s : State) (d : Nat) (f : Die → Die) (l' : Nat) : (s.modDie d f).launch? l' = s.launch? l' := rfl
@[simp] theorem State.modDie_graph_opt_at (s : State) (d : Nat) (f : Die → Die) (g' : Nat) : (s.modDie d f).graph? g' = s.graph? g' := rfl
@[simp] theorem State.modDie_queue_opt_at (s : State) (d : Nat) (f : Die → Die) (q' : Nat) : (s.modDie d f).queue? q' = s.queue? q' := rfl
@[simp] theorem State.modDie_mailbox_at (s : State) (d : Nat) (f : Die → Die) (m' : Nat) : (s.modDie d f).mailbox m' = s.mailbox m' := rfl
@[simp] theorem State.modDie_link_at (s : State) (d : Nat) (f : Die → Die) (k' : Nat) : (s.modDie d f).link k' = s.link k' := rfl

/-! ## setPart -/

@[simp] theorem State.setPart_mem (s : State) (p : Nat) (x : Partition) : (s.setPart p x).mem = s.mem := rfl
@[simp] theorem State.setPart_poison (s : State) (p : Nat) (x : Partition) : (s.setPart p x).poison = s.poison := rfl
@[simp] theorem State.setPart_absent (s : State) (p : Nat) (x : Partition) : (s.setPart p x).absent = s.absent := rfl
@[simp] theorem State.setPart_spadStamps (s : State) (p : Nat) (x : Partition) : (s.setPart p x).spadStamps = s.spadStamps := rfl
@[simp] theorem State.setPart_order (s : State) (p : Nat) (x : Partition) : (s.setPart p x).order = s.order := rfl
@[simp] theorem State.setPart_bars (s : State) (p : Nat) (x : Partition) : (s.setPart p x).bars = s.bars := rfl
@[simp] theorem State.setPart_threads (s : State) (p : Nat) (x : Partition) : (s.setPart p x).threads = s.threads := rfl
@[simp] theorem State.setPart_groups (s : State) (p : Nat) (x : Partition) : (s.setPart p x).groups = s.groups := rfl
@[simp] theorem State.setPart_ctxs (s : State) (p : Nat) (x : Partition) : (s.setPart p x).ctxs = s.ctxs := rfl
@[simp] theorem State.setPart_cores (s : State) (p : Nat) (x : Partition) : (s.setPart p x).cores = s.cores := rfl
@[simp] theorem State.setPart_clusters (s : State) (p : Nat) (x : Partition) : (s.setPart p x).clusters = s.clusters := rfl
@[simp] theorem State.setPart_dies (s : State) (p : Nat) (x : Partition) : (s.setPart p x).dies = s.dies := rfl
@[simp] theorem State.setPart_pmcs (s : State) (p : Nat) (x : Partition) : (s.setPart p x).pmcs = s.pmcs := rfl
@[simp] theorem State.setPart_queues (s : State) (p : Nat) (x : Partition) : (s.setPart p x).queues = s.queues := rfl
@[simp] theorem State.setPart_graphs (s : State) (p : Nat) (x : Partition) : (s.setPart p x).graphs = s.graphs := rfl
@[simp] theorem State.setPart_launches (s : State) (p : Nat) (x : Partition) : (s.setPart p x).launches = s.launches := rfl
@[simp] theorem State.setPart_nodeCopies (s : State) (p : Nat) (x : Partition) : (s.setPart p x).nodeCopies = s.nodeCopies := rfl
@[simp] theorem State.setPart_walks (s : State) (p : Nat) (x : Partition) : (s.setPart p x).walks = s.walks := rfl
@[simp] theorem State.setPart_tlb (s : State) (p : Nat) (x : Partition) : (s.setPart p x).tlb = s.tlb := rfl
@[simp] theorem State.setPart_walkCache (s : State) (p : Nat) (x : Partition) : (s.setPart p x).walkCache = s.walkCache := rfl
@[simp] theorem State.setPart_mailboxes (s : State) (p : Nat) (x : Partition) : (s.setPart p x).mailboxes = s.mailboxes := rfl
@[simp] theorem State.setPart_links (s : State) (p : Nat) (x : Partition) : (s.setPart p x).links = s.links := rfl
@[simp] theorem State.setPart_hbLines (s : State) (p : Nat) (x : Partition) : (s.setPart p x).hbLines = s.hbLines := rfl
@[simp] theorem State.setPart_hostHalf (s : State) (p : Nat) (x : Partition) : (s.setPart p x).hostHalf = s.hostHalf := rfl
@[simp] theorem State.setPart_hostBias (s : State) (p : Nat) (x : Partition) : (s.setPart p x).hostBias = s.hostBias := rfl
@[simp] theorem State.setPart_snoopFilter (s : State) (p : Nat) (x : Partition) : (s.setPart p x).snoopFilter = s.snoopFilter := rfl
@[simp] theorem State.setPart_device (s : State) (p : Nat) (x : Partition) : (s.setPart p x).device = s.device := rfl
@[simp] theorem State.setPart_health (s : State) (p : Nat) (x : Partition) : (s.setPart p x).health = s.health := rfl
@[simp] theorem State.setPart_boot (s : State) (p : Nat) (x : Partition) : (s.setPart p x).boot = s.boot := rfl
@[simp] theorem State.setPart_outputs (s : State) (p : Nat) (x : Partition) : (s.setPart p x).outputs = s.outputs := rfl
@[simp] theorem State.setPart_narrow (s : State) (p : Nat) (x : Partition) : (s.setPart p x).narrow = s.narrow := rfl
@[simp] theorem State.setPart_lines (s : State) (p : Nat) (x : Partition) : (s.setPart p x).lines = s.lines := rfl
@[simp] theorem State.setPart_agenda (s : State) (p : Nat) (x : Partition) : (s.setPart p x).agenda = s.agenda := rfl
@[simp] theorem State.setPart_plan (s : State) (p : Nat) (x : Partition) : (s.setPart p x).plan = s.plan := rfl
@[simp] theorem State.setPart_cur (s : State) (p : Nat) (x : Partition) : (s.setPart p x).cur = s.cur := rfl
@[simp] theorem State.setPart_curWord (s : State) (p : Nat) (x : Partition) : (s.setPart p x).curWord = s.curWord := rfl
@[simp] theorem State.setPart_fresh (s : State) (p : Nat) (x : Partition) : (s.setPart p x).fresh = s.fresh := rfl
@[simp] theorem State.setPart_tick (s : State) (p : Nat) (x : Partition) : (s.setPart p x).tick = s.tick := rfl
@[simp] theorem State.setPart_idle (s : State) (p : Nat) (x : Partition) : (s.setPart p x).idle = s.idle := rfl
@[simp] theorem State.setPart_thread_at (s : State) (p : Nat) (x : Partition) (t' : TId) : (s.setPart p x).thread t' = s.thread t' := rfl
@[simp] theorem State.setPart_group_at (s : State) (p : Nat) (x : Partition) (g' : GId) : (s.setPart p x).group g' = s.group g' := rfl
@[simp] theorem State.setPart_ctx_at (s : State) (p : Nat) (x : Partition) (c' : Nat) : (s.setPart p x).ctx c' = s.ctx c' := rfl
@[simp] theorem State.setPart_core_at (s : State) (p : Nat) (x : Partition) (c' : Nat) : (s.setPart p x).core c' = s.core c' := rfl
@[simp] theorem State.setPart_cluster_at (s : State) (p : Nat) (x : Partition) (n' : Nat) : (s.setPart p x).cluster n' = s.cluster n' := rfl
@[simp] theorem State.setPart_die_at (s : State) (p : Nat) (x : Partition) (d' : Nat) : (s.setPart p x).die d' = s.die d' := rfl
@[simp] theorem State.setPart_launch_at (s : State) (p : Nat) (x : Partition) (l' : Nat) : (s.setPart p x).launch l' = s.launch l' := rfl
@[simp] theorem State.setPart_launch_opt_at (s : State) (p : Nat) (x : Partition) (l' : Nat) : (s.setPart p x).launch? l' = s.launch? l' := rfl
@[simp] theorem State.setPart_graph_opt_at (s : State) (p : Nat) (x : Partition) (g' : Nat) : (s.setPart p x).graph? g' = s.graph? g' := rfl
@[simp] theorem State.setPart_queue_opt_at (s : State) (p : Nat) (x : Partition) (q' : Nat) : (s.setPart p x).queue? q' = s.queue? q' := rfl
@[simp] theorem State.setPart_mailbox_at (s : State) (p : Nat) (x : Partition) (m' : Nat) : (s.setPart p x).mailbox m' = s.mailbox m' := rfl
@[simp] theorem State.setPart_link_at (s : State) (p : Nat) (x : Partition) (k' : Nat) : (s.setPart p x).link k' = s.link k' := rfl

/-! ## modPart -/

@[simp] theorem State.modPart_mem (s : State) (p : Nat) (f : Partition → Partition) : (s.modPart p f).mem = s.mem := rfl
@[simp] theorem State.modPart_poison (s : State) (p : Nat) (f : Partition → Partition) : (s.modPart p f).poison = s.poison := rfl
@[simp] theorem State.modPart_absent (s : State) (p : Nat) (f : Partition → Partition) : (s.modPart p f).absent = s.absent := rfl
@[simp] theorem State.modPart_spadStamps (s : State) (p : Nat) (f : Partition → Partition) : (s.modPart p f).spadStamps = s.spadStamps := rfl
@[simp] theorem State.modPart_order (s : State) (p : Nat) (f : Partition → Partition) : (s.modPart p f).order = s.order := rfl
@[simp] theorem State.modPart_bars (s : State) (p : Nat) (f : Partition → Partition) : (s.modPart p f).bars = s.bars := rfl
@[simp] theorem State.modPart_threads (s : State) (p : Nat) (f : Partition → Partition) : (s.modPart p f).threads = s.threads := rfl
@[simp] theorem State.modPart_groups (s : State) (p : Nat) (f : Partition → Partition) : (s.modPart p f).groups = s.groups := rfl
@[simp] theorem State.modPart_ctxs (s : State) (p : Nat) (f : Partition → Partition) : (s.modPart p f).ctxs = s.ctxs := rfl
@[simp] theorem State.modPart_cores (s : State) (p : Nat) (f : Partition → Partition) : (s.modPart p f).cores = s.cores := rfl
@[simp] theorem State.modPart_clusters (s : State) (p : Nat) (f : Partition → Partition) : (s.modPart p f).clusters = s.clusters := rfl
@[simp] theorem State.modPart_dies (s : State) (p : Nat) (f : Partition → Partition) : (s.modPart p f).dies = s.dies := rfl
@[simp] theorem State.modPart_pmcs (s : State) (p : Nat) (f : Partition → Partition) : (s.modPart p f).pmcs = s.pmcs := rfl
@[simp] theorem State.modPart_queues (s : State) (p : Nat) (f : Partition → Partition) : (s.modPart p f).queues = s.queues := rfl
@[simp] theorem State.modPart_graphs (s : State) (p : Nat) (f : Partition → Partition) : (s.modPart p f).graphs = s.graphs := rfl
@[simp] theorem State.modPart_launches (s : State) (p : Nat) (f : Partition → Partition) : (s.modPart p f).launches = s.launches := rfl
@[simp] theorem State.modPart_nodeCopies (s : State) (p : Nat) (f : Partition → Partition) : (s.modPart p f).nodeCopies = s.nodeCopies := rfl
@[simp] theorem State.modPart_walks (s : State) (p : Nat) (f : Partition → Partition) : (s.modPart p f).walks = s.walks := rfl
@[simp] theorem State.modPart_tlb (s : State) (p : Nat) (f : Partition → Partition) : (s.modPart p f).tlb = s.tlb := rfl
@[simp] theorem State.modPart_walkCache (s : State) (p : Nat) (f : Partition → Partition) : (s.modPart p f).walkCache = s.walkCache := rfl
@[simp] theorem State.modPart_mailboxes (s : State) (p : Nat) (f : Partition → Partition) : (s.modPart p f).mailboxes = s.mailboxes := rfl
@[simp] theorem State.modPart_links (s : State) (p : Nat) (f : Partition → Partition) : (s.modPart p f).links = s.links := rfl
@[simp] theorem State.modPart_hbLines (s : State) (p : Nat) (f : Partition → Partition) : (s.modPart p f).hbLines = s.hbLines := rfl
@[simp] theorem State.modPart_hostHalf (s : State) (p : Nat) (f : Partition → Partition) : (s.modPart p f).hostHalf = s.hostHalf := rfl
@[simp] theorem State.modPart_hostBias (s : State) (p : Nat) (f : Partition → Partition) : (s.modPart p f).hostBias = s.hostBias := rfl
@[simp] theorem State.modPart_snoopFilter (s : State) (p : Nat) (f : Partition → Partition) : (s.modPart p f).snoopFilter = s.snoopFilter := rfl
@[simp] theorem State.modPart_device (s : State) (p : Nat) (f : Partition → Partition) : (s.modPart p f).device = s.device := rfl
@[simp] theorem State.modPart_health (s : State) (p : Nat) (f : Partition → Partition) : (s.modPart p f).health = s.health := rfl
@[simp] theorem State.modPart_boot (s : State) (p : Nat) (f : Partition → Partition) : (s.modPart p f).boot = s.boot := rfl
@[simp] theorem State.modPart_outputs (s : State) (p : Nat) (f : Partition → Partition) : (s.modPart p f).outputs = s.outputs := rfl
@[simp] theorem State.modPart_narrow (s : State) (p : Nat) (f : Partition → Partition) : (s.modPart p f).narrow = s.narrow := rfl
@[simp] theorem State.modPart_lines (s : State) (p : Nat) (f : Partition → Partition) : (s.modPart p f).lines = s.lines := rfl
@[simp] theorem State.modPart_agenda (s : State) (p : Nat) (f : Partition → Partition) : (s.modPart p f).agenda = s.agenda := rfl
@[simp] theorem State.modPart_plan (s : State) (p : Nat) (f : Partition → Partition) : (s.modPart p f).plan = s.plan := rfl
@[simp] theorem State.modPart_cur (s : State) (p : Nat) (f : Partition → Partition) : (s.modPart p f).cur = s.cur := rfl
@[simp] theorem State.modPart_curWord (s : State) (p : Nat) (f : Partition → Partition) : (s.modPart p f).curWord = s.curWord := rfl
@[simp] theorem State.modPart_fresh (s : State) (p : Nat) (f : Partition → Partition) : (s.modPart p f).fresh = s.fresh := rfl
@[simp] theorem State.modPart_tick (s : State) (p : Nat) (f : Partition → Partition) : (s.modPart p f).tick = s.tick := rfl
@[simp] theorem State.modPart_idle (s : State) (p : Nat) (f : Partition → Partition) : (s.modPart p f).idle = s.idle := rfl
@[simp] theorem State.modPart_thread_at (s : State) (p : Nat) (f : Partition → Partition) (t' : TId) : (s.modPart p f).thread t' = s.thread t' := rfl
@[simp] theorem State.modPart_group_at (s : State) (p : Nat) (f : Partition → Partition) (g' : GId) : (s.modPart p f).group g' = s.group g' := rfl
@[simp] theorem State.modPart_ctx_at (s : State) (p : Nat) (f : Partition → Partition) (c' : Nat) : (s.modPart p f).ctx c' = s.ctx c' := rfl
@[simp] theorem State.modPart_core_at (s : State) (p : Nat) (f : Partition → Partition) (c' : Nat) : (s.modPart p f).core c' = s.core c' := rfl
@[simp] theorem State.modPart_cluster_at (s : State) (p : Nat) (f : Partition → Partition) (n' : Nat) : (s.modPart p f).cluster n' = s.cluster n' := rfl
@[simp] theorem State.modPart_die_at (s : State) (p : Nat) (f : Partition → Partition) (d' : Nat) : (s.modPart p f).die d' = s.die d' := rfl
@[simp] theorem State.modPart_launch_at (s : State) (p : Nat) (f : Partition → Partition) (l' : Nat) : (s.modPart p f).launch l' = s.launch l' := rfl
@[simp] theorem State.modPart_launch_opt_at (s : State) (p : Nat) (f : Partition → Partition) (l' : Nat) : (s.modPart p f).launch? l' = s.launch? l' := rfl
@[simp] theorem State.modPart_graph_opt_at (s : State) (p : Nat) (f : Partition → Partition) (g' : Nat) : (s.modPart p f).graph? g' = s.graph? g' := rfl
@[simp] theorem State.modPart_queue_opt_at (s : State) (p : Nat) (f : Partition → Partition) (q' : Nat) : (s.modPart p f).queue? q' = s.queue? q' := rfl
@[simp] theorem State.modPart_mailbox_at (s : State) (p : Nat) (f : Partition → Partition) (m' : Nat) : (s.modPart p f).mailbox m' = s.mailbox m' := rfl
@[simp] theorem State.modPart_link_at (s : State) (p : Nat) (f : Partition → Partition) (k' : Nat) : (s.modPart p f).link k' = s.link k' := rfl

/-! ## setLaunch -/

@[simp] theorem State.setLaunch_mem (s : State) (l : Nat) (x : Launch) : (s.setLaunch l x).mem = s.mem := rfl
@[simp] theorem State.setLaunch_poison (s : State) (l : Nat) (x : Launch) : (s.setLaunch l x).poison = s.poison := rfl
@[simp] theorem State.setLaunch_absent (s : State) (l : Nat) (x : Launch) : (s.setLaunch l x).absent = s.absent := rfl
@[simp] theorem State.setLaunch_spadStamps (s : State) (l : Nat) (x : Launch) : (s.setLaunch l x).spadStamps = s.spadStamps := rfl
@[simp] theorem State.setLaunch_order (s : State) (l : Nat) (x : Launch) : (s.setLaunch l x).order = s.order := rfl
@[simp] theorem State.setLaunch_bars (s : State) (l : Nat) (x : Launch) : (s.setLaunch l x).bars = s.bars := rfl
@[simp] theorem State.setLaunch_threads (s : State) (l : Nat) (x : Launch) : (s.setLaunch l x).threads = s.threads := rfl
@[simp] theorem State.setLaunch_groups (s : State) (l : Nat) (x : Launch) : (s.setLaunch l x).groups = s.groups := rfl
@[simp] theorem State.setLaunch_ctxs (s : State) (l : Nat) (x : Launch) : (s.setLaunch l x).ctxs = s.ctxs := rfl
@[simp] theorem State.setLaunch_cores (s : State) (l : Nat) (x : Launch) : (s.setLaunch l x).cores = s.cores := rfl
@[simp] theorem State.setLaunch_clusters (s : State) (l : Nat) (x : Launch) : (s.setLaunch l x).clusters = s.clusters := rfl
@[simp] theorem State.setLaunch_dies (s : State) (l : Nat) (x : Launch) : (s.setLaunch l x).dies = s.dies := rfl
@[simp] theorem State.setLaunch_parts (s : State) (l : Nat) (x : Launch) : (s.setLaunch l x).parts = s.parts := rfl
@[simp] theorem State.setLaunch_pmcs (s : State) (l : Nat) (x : Launch) : (s.setLaunch l x).pmcs = s.pmcs := rfl
@[simp] theorem State.setLaunch_queues (s : State) (l : Nat) (x : Launch) : (s.setLaunch l x).queues = s.queues := rfl
@[simp] theorem State.setLaunch_graphs (s : State) (l : Nat) (x : Launch) : (s.setLaunch l x).graphs = s.graphs := rfl
@[simp] theorem State.setLaunch_nodeCopies (s : State) (l : Nat) (x : Launch) : (s.setLaunch l x).nodeCopies = s.nodeCopies := rfl
@[simp] theorem State.setLaunch_walks (s : State) (l : Nat) (x : Launch) : (s.setLaunch l x).walks = s.walks := rfl
@[simp] theorem State.setLaunch_tlb (s : State) (l : Nat) (x : Launch) : (s.setLaunch l x).tlb = s.tlb := rfl
@[simp] theorem State.setLaunch_walkCache (s : State) (l : Nat) (x : Launch) : (s.setLaunch l x).walkCache = s.walkCache := rfl
@[simp] theorem State.setLaunch_mailboxes (s : State) (l : Nat) (x : Launch) : (s.setLaunch l x).mailboxes = s.mailboxes := rfl
@[simp] theorem State.setLaunch_links (s : State) (l : Nat) (x : Launch) : (s.setLaunch l x).links = s.links := rfl
@[simp] theorem State.setLaunch_hbLines (s : State) (l : Nat) (x : Launch) : (s.setLaunch l x).hbLines = s.hbLines := rfl
@[simp] theorem State.setLaunch_hostHalf (s : State) (l : Nat) (x : Launch) : (s.setLaunch l x).hostHalf = s.hostHalf := rfl
@[simp] theorem State.setLaunch_hostBias (s : State) (l : Nat) (x : Launch) : (s.setLaunch l x).hostBias = s.hostBias := rfl
@[simp] theorem State.setLaunch_snoopFilter (s : State) (l : Nat) (x : Launch) : (s.setLaunch l x).snoopFilter = s.snoopFilter := rfl
@[simp] theorem State.setLaunch_device (s : State) (l : Nat) (x : Launch) : (s.setLaunch l x).device = s.device := rfl
@[simp] theorem State.setLaunch_health (s : State) (l : Nat) (x : Launch) : (s.setLaunch l x).health = s.health := rfl
@[simp] theorem State.setLaunch_boot (s : State) (l : Nat) (x : Launch) : (s.setLaunch l x).boot = s.boot := rfl
@[simp] theorem State.setLaunch_outputs (s : State) (l : Nat) (x : Launch) : (s.setLaunch l x).outputs = s.outputs := rfl
@[simp] theorem State.setLaunch_narrow (s : State) (l : Nat) (x : Launch) : (s.setLaunch l x).narrow = s.narrow := rfl
@[simp] theorem State.setLaunch_lines (s : State) (l : Nat) (x : Launch) : (s.setLaunch l x).lines = s.lines := rfl
@[simp] theorem State.setLaunch_agenda (s : State) (l : Nat) (x : Launch) : (s.setLaunch l x).agenda = s.agenda := rfl
@[simp] theorem State.setLaunch_plan (s : State) (l : Nat) (x : Launch) : (s.setLaunch l x).plan = s.plan := rfl
@[simp] theorem State.setLaunch_cur (s : State) (l : Nat) (x : Launch) : (s.setLaunch l x).cur = s.cur := rfl
@[simp] theorem State.setLaunch_curWord (s : State) (l : Nat) (x : Launch) : (s.setLaunch l x).curWord = s.curWord := rfl
@[simp] theorem State.setLaunch_fresh (s : State) (l : Nat) (x : Launch) : (s.setLaunch l x).fresh = s.fresh := rfl
@[simp] theorem State.setLaunch_tick (s : State) (l : Nat) (x : Launch) : (s.setLaunch l x).tick = s.tick := rfl
@[simp] theorem State.setLaunch_idle (s : State) (l : Nat) (x : Launch) : (s.setLaunch l x).idle = s.idle := rfl
@[simp] theorem State.setLaunch_thread_at (s : State) (l : Nat) (x : Launch) (t' : TId) : (s.setLaunch l x).thread t' = s.thread t' := rfl
@[simp] theorem State.setLaunch_group_at (s : State) (l : Nat) (x : Launch) (g' : GId) : (s.setLaunch l x).group g' = s.group g' := rfl
@[simp] theorem State.setLaunch_ctx_at (s : State) (l : Nat) (x : Launch) (c' : Nat) : (s.setLaunch l x).ctx c' = s.ctx c' := rfl
@[simp] theorem State.setLaunch_core_at (s : State) (l : Nat) (x : Launch) (c' : Nat) : (s.setLaunch l x).core c' = s.core c' := rfl
@[simp] theorem State.setLaunch_cluster_at (s : State) (l : Nat) (x : Launch) (n' : Nat) : (s.setLaunch l x).cluster n' = s.cluster n' := rfl
@[simp] theorem State.setLaunch_die_at (s : State) (l : Nat) (x : Launch) (d' : Nat) : (s.setLaunch l x).die d' = s.die d' := rfl
@[simp] theorem State.setLaunch_part_at (s : State) (l : Nat) (x : Launch) (p' : Nat) : (s.setLaunch l x).part p' = s.part p' := rfl
@[simp] theorem State.setLaunch_graph_opt_at (s : State) (l : Nat) (x : Launch) (g' : Nat) : (s.setLaunch l x).graph? g' = s.graph? g' := rfl
@[simp] theorem State.setLaunch_queue_opt_at (s : State) (l : Nat) (x : Launch) (q' : Nat) : (s.setLaunch l x).queue? q' = s.queue? q' := rfl
@[simp] theorem State.setLaunch_mailbox_at (s : State) (l : Nat) (x : Launch) (m' : Nat) : (s.setLaunch l x).mailbox m' = s.mailbox m' := rfl
@[simp] theorem State.setLaunch_link_at (s : State) (l : Nat) (x : Launch) (k' : Nat) : (s.setLaunch l x).link k' = s.link k' := rfl

/-! ## modLaunch -/

@[simp] theorem State.modLaunch_mem (s : State) (l : Nat) (f : Launch → Launch) : (s.modLaunch l f).mem = s.mem := rfl
@[simp] theorem State.modLaunch_poison (s : State) (l : Nat) (f : Launch → Launch) : (s.modLaunch l f).poison = s.poison := rfl
@[simp] theorem State.modLaunch_absent (s : State) (l : Nat) (f : Launch → Launch) : (s.modLaunch l f).absent = s.absent := rfl
@[simp] theorem State.modLaunch_spadStamps (s : State) (l : Nat) (f : Launch → Launch) : (s.modLaunch l f).spadStamps = s.spadStamps := rfl
@[simp] theorem State.modLaunch_order (s : State) (l : Nat) (f : Launch → Launch) : (s.modLaunch l f).order = s.order := rfl
@[simp] theorem State.modLaunch_bars (s : State) (l : Nat) (f : Launch → Launch) : (s.modLaunch l f).bars = s.bars := rfl
@[simp] theorem State.modLaunch_threads (s : State) (l : Nat) (f : Launch → Launch) : (s.modLaunch l f).threads = s.threads := rfl
@[simp] theorem State.modLaunch_groups (s : State) (l : Nat) (f : Launch → Launch) : (s.modLaunch l f).groups = s.groups := rfl
@[simp] theorem State.modLaunch_ctxs (s : State) (l : Nat) (f : Launch → Launch) : (s.modLaunch l f).ctxs = s.ctxs := rfl
@[simp] theorem State.modLaunch_cores (s : State) (l : Nat) (f : Launch → Launch) : (s.modLaunch l f).cores = s.cores := rfl
@[simp] theorem State.modLaunch_clusters (s : State) (l : Nat) (f : Launch → Launch) : (s.modLaunch l f).clusters = s.clusters := rfl
@[simp] theorem State.modLaunch_dies (s : State) (l : Nat) (f : Launch → Launch) : (s.modLaunch l f).dies = s.dies := rfl
@[simp] theorem State.modLaunch_parts (s : State) (l : Nat) (f : Launch → Launch) : (s.modLaunch l f).parts = s.parts := rfl
@[simp] theorem State.modLaunch_pmcs (s : State) (l : Nat) (f : Launch → Launch) : (s.modLaunch l f).pmcs = s.pmcs := rfl
@[simp] theorem State.modLaunch_queues (s : State) (l : Nat) (f : Launch → Launch) : (s.modLaunch l f).queues = s.queues := rfl
@[simp] theorem State.modLaunch_graphs (s : State) (l : Nat) (f : Launch → Launch) : (s.modLaunch l f).graphs = s.graphs := rfl
@[simp] theorem State.modLaunch_nodeCopies (s : State) (l : Nat) (f : Launch → Launch) : (s.modLaunch l f).nodeCopies = s.nodeCopies := rfl
@[simp] theorem State.modLaunch_walks (s : State) (l : Nat) (f : Launch → Launch) : (s.modLaunch l f).walks = s.walks := rfl
@[simp] theorem State.modLaunch_tlb (s : State) (l : Nat) (f : Launch → Launch) : (s.modLaunch l f).tlb = s.tlb := rfl
@[simp] theorem State.modLaunch_walkCache (s : State) (l : Nat) (f : Launch → Launch) : (s.modLaunch l f).walkCache = s.walkCache := rfl
@[simp] theorem State.modLaunch_mailboxes (s : State) (l : Nat) (f : Launch → Launch) : (s.modLaunch l f).mailboxes = s.mailboxes := rfl
@[simp] theorem State.modLaunch_links (s : State) (l : Nat) (f : Launch → Launch) : (s.modLaunch l f).links = s.links := rfl
@[simp] theorem State.modLaunch_hbLines (s : State) (l : Nat) (f : Launch → Launch) : (s.modLaunch l f).hbLines = s.hbLines := rfl
@[simp] theorem State.modLaunch_hostHalf (s : State) (l : Nat) (f : Launch → Launch) : (s.modLaunch l f).hostHalf = s.hostHalf := rfl
@[simp] theorem State.modLaunch_hostBias (s : State) (l : Nat) (f : Launch → Launch) : (s.modLaunch l f).hostBias = s.hostBias := rfl
@[simp] theorem State.modLaunch_snoopFilter (s : State) (l : Nat) (f : Launch → Launch) : (s.modLaunch l f).snoopFilter = s.snoopFilter := rfl
@[simp] theorem State.modLaunch_device (s : State) (l : Nat) (f : Launch → Launch) : (s.modLaunch l f).device = s.device := rfl
@[simp] theorem State.modLaunch_health (s : State) (l : Nat) (f : Launch → Launch) : (s.modLaunch l f).health = s.health := rfl
@[simp] theorem State.modLaunch_boot (s : State) (l : Nat) (f : Launch → Launch) : (s.modLaunch l f).boot = s.boot := rfl
@[simp] theorem State.modLaunch_outputs (s : State) (l : Nat) (f : Launch → Launch) : (s.modLaunch l f).outputs = s.outputs := rfl
@[simp] theorem State.modLaunch_narrow (s : State) (l : Nat) (f : Launch → Launch) : (s.modLaunch l f).narrow = s.narrow := rfl
@[simp] theorem State.modLaunch_lines (s : State) (l : Nat) (f : Launch → Launch) : (s.modLaunch l f).lines = s.lines := rfl
@[simp] theorem State.modLaunch_agenda (s : State) (l : Nat) (f : Launch → Launch) : (s.modLaunch l f).agenda = s.agenda := rfl
@[simp] theorem State.modLaunch_plan (s : State) (l : Nat) (f : Launch → Launch) : (s.modLaunch l f).plan = s.plan := rfl
@[simp] theorem State.modLaunch_cur (s : State) (l : Nat) (f : Launch → Launch) : (s.modLaunch l f).cur = s.cur := rfl
@[simp] theorem State.modLaunch_curWord (s : State) (l : Nat) (f : Launch → Launch) : (s.modLaunch l f).curWord = s.curWord := rfl
@[simp] theorem State.modLaunch_fresh (s : State) (l : Nat) (f : Launch → Launch) : (s.modLaunch l f).fresh = s.fresh := rfl
@[simp] theorem State.modLaunch_tick (s : State) (l : Nat) (f : Launch → Launch) : (s.modLaunch l f).tick = s.tick := rfl
@[simp] theorem State.modLaunch_idle (s : State) (l : Nat) (f : Launch → Launch) : (s.modLaunch l f).idle = s.idle := rfl
@[simp] theorem State.modLaunch_thread_at (s : State) (l : Nat) (f : Launch → Launch) (t' : TId) : (s.modLaunch l f).thread t' = s.thread t' := rfl
@[simp] theorem State.modLaunch_group_at (s : State) (l : Nat) (f : Launch → Launch) (g' : GId) : (s.modLaunch l f).group g' = s.group g' := rfl
@[simp] theorem State.modLaunch_ctx_at (s : State) (l : Nat) (f : Launch → Launch) (c' : Nat) : (s.modLaunch l f).ctx c' = s.ctx c' := rfl
@[simp] theorem State.modLaunch_core_at (s : State) (l : Nat) (f : Launch → Launch) (c' : Nat) : (s.modLaunch l f).core c' = s.core c' := rfl
@[simp] theorem State.modLaunch_cluster_at (s : State) (l : Nat) (f : Launch → Launch) (n' : Nat) : (s.modLaunch l f).cluster n' = s.cluster n' := rfl
@[simp] theorem State.modLaunch_die_at (s : State) (l : Nat) (f : Launch → Launch) (d' : Nat) : (s.modLaunch l f).die d' = s.die d' := rfl
@[simp] theorem State.modLaunch_part_at (s : State) (l : Nat) (f : Launch → Launch) (p' : Nat) : (s.modLaunch l f).part p' = s.part p' := rfl
@[simp] theorem State.modLaunch_graph_opt_at (s : State) (l : Nat) (f : Launch → Launch) (g' : Nat) : (s.modLaunch l f).graph? g' = s.graph? g' := rfl
@[simp] theorem State.modLaunch_queue_opt_at (s : State) (l : Nat) (f : Launch → Launch) (q' : Nat) : (s.modLaunch l f).queue? q' = s.queue? q' := rfl
@[simp] theorem State.modLaunch_mailbox_at (s : State) (l : Nat) (f : Launch → Launch) (m' : Nat) : (s.modLaunch l f).mailbox m' = s.mailbox m' := rfl
@[simp] theorem State.modLaunch_link_at (s : State) (l : Nat) (f : Launch → Launch) (k' : Nat) : (s.modLaunch l f).link k' = s.link k' := rfl

/-! ## setGraph -/

@[simp] theorem State.setGraph_mem (s : State) (g : Nat) (x : Graph) : (s.setGraph g x).mem = s.mem := rfl
@[simp] theorem State.setGraph_poison (s : State) (g : Nat) (x : Graph) : (s.setGraph g x).poison = s.poison := rfl
@[simp] theorem State.setGraph_absent (s : State) (g : Nat) (x : Graph) : (s.setGraph g x).absent = s.absent := rfl
@[simp] theorem State.setGraph_spadStamps (s : State) (g : Nat) (x : Graph) : (s.setGraph g x).spadStamps = s.spadStamps := rfl
@[simp] theorem State.setGraph_order (s : State) (g : Nat) (x : Graph) : (s.setGraph g x).order = s.order := rfl
@[simp] theorem State.setGraph_bars (s : State) (g : Nat) (x : Graph) : (s.setGraph g x).bars = s.bars := rfl
@[simp] theorem State.setGraph_threads (s : State) (g : Nat) (x : Graph) : (s.setGraph g x).threads = s.threads := rfl
@[simp] theorem State.setGraph_groups (s : State) (g : Nat) (x : Graph) : (s.setGraph g x).groups = s.groups := rfl
@[simp] theorem State.setGraph_ctxs (s : State) (g : Nat) (x : Graph) : (s.setGraph g x).ctxs = s.ctxs := rfl
@[simp] theorem State.setGraph_cores (s : State) (g : Nat) (x : Graph) : (s.setGraph g x).cores = s.cores := rfl
@[simp] theorem State.setGraph_clusters (s : State) (g : Nat) (x : Graph) : (s.setGraph g x).clusters = s.clusters := rfl
@[simp] theorem State.setGraph_dies (s : State) (g : Nat) (x : Graph) : (s.setGraph g x).dies = s.dies := rfl
@[simp] theorem State.setGraph_parts (s : State) (g : Nat) (x : Graph) : (s.setGraph g x).parts = s.parts := rfl
@[simp] theorem State.setGraph_pmcs (s : State) (g : Nat) (x : Graph) : (s.setGraph g x).pmcs = s.pmcs := rfl
@[simp] theorem State.setGraph_queues (s : State) (g : Nat) (x : Graph) : (s.setGraph g x).queues = s.queues := rfl
@[simp] theorem State.setGraph_launches (s : State) (g : Nat) (x : Graph) : (s.setGraph g x).launches = s.launches := rfl
@[simp] theorem State.setGraph_nodeCopies (s : State) (g : Nat) (x : Graph) : (s.setGraph g x).nodeCopies = s.nodeCopies := rfl
@[simp] theorem State.setGraph_walks (s : State) (g : Nat) (x : Graph) : (s.setGraph g x).walks = s.walks := rfl
@[simp] theorem State.setGraph_tlb (s : State) (g : Nat) (x : Graph) : (s.setGraph g x).tlb = s.tlb := rfl
@[simp] theorem State.setGraph_walkCache (s : State) (g : Nat) (x : Graph) : (s.setGraph g x).walkCache = s.walkCache := rfl
@[simp] theorem State.setGraph_mailboxes (s : State) (g : Nat) (x : Graph) : (s.setGraph g x).mailboxes = s.mailboxes := rfl
@[simp] theorem State.setGraph_links (s : State) (g : Nat) (x : Graph) : (s.setGraph g x).links = s.links := rfl
@[simp] theorem State.setGraph_hbLines (s : State) (g : Nat) (x : Graph) : (s.setGraph g x).hbLines = s.hbLines := rfl
@[simp] theorem State.setGraph_hostHalf (s : State) (g : Nat) (x : Graph) : (s.setGraph g x).hostHalf = s.hostHalf := rfl
@[simp] theorem State.setGraph_hostBias (s : State) (g : Nat) (x : Graph) : (s.setGraph g x).hostBias = s.hostBias := rfl
@[simp] theorem State.setGraph_snoopFilter (s : State) (g : Nat) (x : Graph) : (s.setGraph g x).snoopFilter = s.snoopFilter := rfl
@[simp] theorem State.setGraph_device (s : State) (g : Nat) (x : Graph) : (s.setGraph g x).device = s.device := rfl
@[simp] theorem State.setGraph_health (s : State) (g : Nat) (x : Graph) : (s.setGraph g x).health = s.health := rfl
@[simp] theorem State.setGraph_boot (s : State) (g : Nat) (x : Graph) : (s.setGraph g x).boot = s.boot := rfl
@[simp] theorem State.setGraph_outputs (s : State) (g : Nat) (x : Graph) : (s.setGraph g x).outputs = s.outputs := rfl
@[simp] theorem State.setGraph_narrow (s : State) (g : Nat) (x : Graph) : (s.setGraph g x).narrow = s.narrow := rfl
@[simp] theorem State.setGraph_lines (s : State) (g : Nat) (x : Graph) : (s.setGraph g x).lines = s.lines := rfl
@[simp] theorem State.setGraph_agenda (s : State) (g : Nat) (x : Graph) : (s.setGraph g x).agenda = s.agenda := rfl
@[simp] theorem State.setGraph_plan (s : State) (g : Nat) (x : Graph) : (s.setGraph g x).plan = s.plan := rfl
@[simp] theorem State.setGraph_cur (s : State) (g : Nat) (x : Graph) : (s.setGraph g x).cur = s.cur := rfl
@[simp] theorem State.setGraph_curWord (s : State) (g : Nat) (x : Graph) : (s.setGraph g x).curWord = s.curWord := rfl
@[simp] theorem State.setGraph_fresh (s : State) (g : Nat) (x : Graph) : (s.setGraph g x).fresh = s.fresh := rfl
@[simp] theorem State.setGraph_tick (s : State) (g : Nat) (x : Graph) : (s.setGraph g x).tick = s.tick := rfl
@[simp] theorem State.setGraph_idle (s : State) (g : Nat) (x : Graph) : (s.setGraph g x).idle = s.idle := rfl
@[simp] theorem State.setGraph_thread_at (s : State) (g : Nat) (x : Graph) (t' : TId) : (s.setGraph g x).thread t' = s.thread t' := rfl
@[simp] theorem State.setGraph_group_at (s : State) (g : Nat) (x : Graph) (g' : GId) : (s.setGraph g x).group g' = s.group g' := rfl
@[simp] theorem State.setGraph_ctx_at (s : State) (g : Nat) (x : Graph) (c' : Nat) : (s.setGraph g x).ctx c' = s.ctx c' := rfl
@[simp] theorem State.setGraph_core_at (s : State) (g : Nat) (x : Graph) (c' : Nat) : (s.setGraph g x).core c' = s.core c' := rfl
@[simp] theorem State.setGraph_cluster_at (s : State) (g : Nat) (x : Graph) (n' : Nat) : (s.setGraph g x).cluster n' = s.cluster n' := rfl
@[simp] theorem State.setGraph_die_at (s : State) (g : Nat) (x : Graph) (d' : Nat) : (s.setGraph g x).die d' = s.die d' := rfl
@[simp] theorem State.setGraph_part_at (s : State) (g : Nat) (x : Graph) (p' : Nat) : (s.setGraph g x).part p' = s.part p' := rfl
@[simp] theorem State.setGraph_launch_at (s : State) (g : Nat) (x : Graph) (l' : Nat) : (s.setGraph g x).launch l' = s.launch l' := rfl
@[simp] theorem State.setGraph_launch_opt_at (s : State) (g : Nat) (x : Graph) (l' : Nat) : (s.setGraph g x).launch? l' = s.launch? l' := rfl
@[simp] theorem State.setGraph_queue_opt_at (s : State) (g : Nat) (x : Graph) (q' : Nat) : (s.setGraph g x).queue? q' = s.queue? q' := rfl
@[simp] theorem State.setGraph_mailbox_at (s : State) (g : Nat) (x : Graph) (m' : Nat) : (s.setGraph g x).mailbox m' = s.mailbox m' := rfl
@[simp] theorem State.setGraph_link_at (s : State) (g : Nat) (x : Graph) (k' : Nat) : (s.setGraph g x).link k' = s.link k' := rfl

/-! ## setQueue -/

@[simp] theorem State.setQueue_mem (s : State) (q : Nat) (x : Queue) : (s.setQueue q x).mem = s.mem := rfl
@[simp] theorem State.setQueue_poison (s : State) (q : Nat) (x : Queue) : (s.setQueue q x).poison = s.poison := rfl
@[simp] theorem State.setQueue_absent (s : State) (q : Nat) (x : Queue) : (s.setQueue q x).absent = s.absent := rfl
@[simp] theorem State.setQueue_spadStamps (s : State) (q : Nat) (x : Queue) : (s.setQueue q x).spadStamps = s.spadStamps := rfl
@[simp] theorem State.setQueue_order (s : State) (q : Nat) (x : Queue) : (s.setQueue q x).order = s.order := rfl
@[simp] theorem State.setQueue_bars (s : State) (q : Nat) (x : Queue) : (s.setQueue q x).bars = s.bars := rfl
@[simp] theorem State.setQueue_threads (s : State) (q : Nat) (x : Queue) : (s.setQueue q x).threads = s.threads := rfl
@[simp] theorem State.setQueue_groups (s : State) (q : Nat) (x : Queue) : (s.setQueue q x).groups = s.groups := rfl
@[simp] theorem State.setQueue_ctxs (s : State) (q : Nat) (x : Queue) : (s.setQueue q x).ctxs = s.ctxs := rfl
@[simp] theorem State.setQueue_cores (s : State) (q : Nat) (x : Queue) : (s.setQueue q x).cores = s.cores := rfl
@[simp] theorem State.setQueue_clusters (s : State) (q : Nat) (x : Queue) : (s.setQueue q x).clusters = s.clusters := rfl
@[simp] theorem State.setQueue_dies (s : State) (q : Nat) (x : Queue) : (s.setQueue q x).dies = s.dies := rfl
@[simp] theorem State.setQueue_parts (s : State) (q : Nat) (x : Queue) : (s.setQueue q x).parts = s.parts := rfl
@[simp] theorem State.setQueue_pmcs (s : State) (q : Nat) (x : Queue) : (s.setQueue q x).pmcs = s.pmcs := rfl
@[simp] theorem State.setQueue_graphs (s : State) (q : Nat) (x : Queue) : (s.setQueue q x).graphs = s.graphs := rfl
@[simp] theorem State.setQueue_launches (s : State) (q : Nat) (x : Queue) : (s.setQueue q x).launches = s.launches := rfl
@[simp] theorem State.setQueue_nodeCopies (s : State) (q : Nat) (x : Queue) : (s.setQueue q x).nodeCopies = s.nodeCopies := rfl
@[simp] theorem State.setQueue_walks (s : State) (q : Nat) (x : Queue) : (s.setQueue q x).walks = s.walks := rfl
@[simp] theorem State.setQueue_tlb (s : State) (q : Nat) (x : Queue) : (s.setQueue q x).tlb = s.tlb := rfl
@[simp] theorem State.setQueue_walkCache (s : State) (q : Nat) (x : Queue) : (s.setQueue q x).walkCache = s.walkCache := rfl
@[simp] theorem State.setQueue_mailboxes (s : State) (q : Nat) (x : Queue) : (s.setQueue q x).mailboxes = s.mailboxes := rfl
@[simp] theorem State.setQueue_links (s : State) (q : Nat) (x : Queue) : (s.setQueue q x).links = s.links := rfl
@[simp] theorem State.setQueue_hbLines (s : State) (q : Nat) (x : Queue) : (s.setQueue q x).hbLines = s.hbLines := rfl
@[simp] theorem State.setQueue_hostHalf (s : State) (q : Nat) (x : Queue) : (s.setQueue q x).hostHalf = s.hostHalf := rfl
@[simp] theorem State.setQueue_hostBias (s : State) (q : Nat) (x : Queue) : (s.setQueue q x).hostBias = s.hostBias := rfl
@[simp] theorem State.setQueue_snoopFilter (s : State) (q : Nat) (x : Queue) : (s.setQueue q x).snoopFilter = s.snoopFilter := rfl
@[simp] theorem State.setQueue_device (s : State) (q : Nat) (x : Queue) : (s.setQueue q x).device = s.device := rfl
@[simp] theorem State.setQueue_health (s : State) (q : Nat) (x : Queue) : (s.setQueue q x).health = s.health := rfl
@[simp] theorem State.setQueue_boot (s : State) (q : Nat) (x : Queue) : (s.setQueue q x).boot = s.boot := rfl
@[simp] theorem State.setQueue_outputs (s : State) (q : Nat) (x : Queue) : (s.setQueue q x).outputs = s.outputs := rfl
@[simp] theorem State.setQueue_narrow (s : State) (q : Nat) (x : Queue) : (s.setQueue q x).narrow = s.narrow := rfl
@[simp] theorem State.setQueue_lines (s : State) (q : Nat) (x : Queue) : (s.setQueue q x).lines = s.lines := rfl
@[simp] theorem State.setQueue_agenda (s : State) (q : Nat) (x : Queue) : (s.setQueue q x).agenda = s.agenda := rfl
@[simp] theorem State.setQueue_plan (s : State) (q : Nat) (x : Queue) : (s.setQueue q x).plan = s.plan := rfl
@[simp] theorem State.setQueue_cur (s : State) (q : Nat) (x : Queue) : (s.setQueue q x).cur = s.cur := rfl
@[simp] theorem State.setQueue_curWord (s : State) (q : Nat) (x : Queue) : (s.setQueue q x).curWord = s.curWord := rfl
@[simp] theorem State.setQueue_fresh (s : State) (q : Nat) (x : Queue) : (s.setQueue q x).fresh = s.fresh := rfl
@[simp] theorem State.setQueue_tick (s : State) (q : Nat) (x : Queue) : (s.setQueue q x).tick = s.tick := rfl
@[simp] theorem State.setQueue_idle (s : State) (q : Nat) (x : Queue) : (s.setQueue q x).idle = s.idle := rfl
@[simp] theorem State.setQueue_thread_at (s : State) (q : Nat) (x : Queue) (t' : TId) : (s.setQueue q x).thread t' = s.thread t' := rfl
@[simp] theorem State.setQueue_group_at (s : State) (q : Nat) (x : Queue) (g' : GId) : (s.setQueue q x).group g' = s.group g' := rfl
@[simp] theorem State.setQueue_ctx_at (s : State) (q : Nat) (x : Queue) (c' : Nat) : (s.setQueue q x).ctx c' = s.ctx c' := rfl
@[simp] theorem State.setQueue_core_at (s : State) (q : Nat) (x : Queue) (c' : Nat) : (s.setQueue q x).core c' = s.core c' := rfl
@[simp] theorem State.setQueue_cluster_at (s : State) (q : Nat) (x : Queue) (n' : Nat) : (s.setQueue q x).cluster n' = s.cluster n' := rfl
@[simp] theorem State.setQueue_die_at (s : State) (q : Nat) (x : Queue) (d' : Nat) : (s.setQueue q x).die d' = s.die d' := rfl
@[simp] theorem State.setQueue_part_at (s : State) (q : Nat) (x : Queue) (p' : Nat) : (s.setQueue q x).part p' = s.part p' := rfl
@[simp] theorem State.setQueue_launch_at (s : State) (q : Nat) (x : Queue) (l' : Nat) : (s.setQueue q x).launch l' = s.launch l' := rfl
@[simp] theorem State.setQueue_launch_opt_at (s : State) (q : Nat) (x : Queue) (l' : Nat) : (s.setQueue q x).launch? l' = s.launch? l' := rfl
@[simp] theorem State.setQueue_graph_opt_at (s : State) (q : Nat) (x : Queue) (g' : Nat) : (s.setQueue q x).graph? g' = s.graph? g' := rfl
@[simp] theorem State.setQueue_mailbox_at (s : State) (q : Nat) (x : Queue) (m' : Nat) : (s.setQueue q x).mailbox m' = s.mailbox m' := rfl
@[simp] theorem State.setQueue_link_at (s : State) (q : Nat) (x : Queue) (k' : Nat) : (s.setQueue q x).link k' = s.link k' := rfl

/-! ## setMailbox -/

@[simp] theorem State.setMailbox_mem (s : State) (m : Nat) (x : Mailbox) : (s.setMailbox m x).mem = s.mem := rfl
@[simp] theorem State.setMailbox_poison (s : State) (m : Nat) (x : Mailbox) : (s.setMailbox m x).poison = s.poison := rfl
@[simp] theorem State.setMailbox_absent (s : State) (m : Nat) (x : Mailbox) : (s.setMailbox m x).absent = s.absent := rfl
@[simp] theorem State.setMailbox_spadStamps (s : State) (m : Nat) (x : Mailbox) : (s.setMailbox m x).spadStamps = s.spadStamps := rfl
@[simp] theorem State.setMailbox_order (s : State) (m : Nat) (x : Mailbox) : (s.setMailbox m x).order = s.order := rfl
@[simp] theorem State.setMailbox_bars (s : State) (m : Nat) (x : Mailbox) : (s.setMailbox m x).bars = s.bars := rfl
@[simp] theorem State.setMailbox_threads (s : State) (m : Nat) (x : Mailbox) : (s.setMailbox m x).threads = s.threads := rfl
@[simp] theorem State.setMailbox_groups (s : State) (m : Nat) (x : Mailbox) : (s.setMailbox m x).groups = s.groups := rfl
@[simp] theorem State.setMailbox_ctxs (s : State) (m : Nat) (x : Mailbox) : (s.setMailbox m x).ctxs = s.ctxs := rfl
@[simp] theorem State.setMailbox_cores (s : State) (m : Nat) (x : Mailbox) : (s.setMailbox m x).cores = s.cores := rfl
@[simp] theorem State.setMailbox_clusters (s : State) (m : Nat) (x : Mailbox) : (s.setMailbox m x).clusters = s.clusters := rfl
@[simp] theorem State.setMailbox_dies (s : State) (m : Nat) (x : Mailbox) : (s.setMailbox m x).dies = s.dies := rfl
@[simp] theorem State.setMailbox_parts (s : State) (m : Nat) (x : Mailbox) : (s.setMailbox m x).parts = s.parts := rfl
@[simp] theorem State.setMailbox_pmcs (s : State) (m : Nat) (x : Mailbox) : (s.setMailbox m x).pmcs = s.pmcs := rfl
@[simp] theorem State.setMailbox_queues (s : State) (m : Nat) (x : Mailbox) : (s.setMailbox m x).queues = s.queues := rfl
@[simp] theorem State.setMailbox_graphs (s : State) (m : Nat) (x : Mailbox) : (s.setMailbox m x).graphs = s.graphs := rfl
@[simp] theorem State.setMailbox_launches (s : State) (m : Nat) (x : Mailbox) : (s.setMailbox m x).launches = s.launches := rfl
@[simp] theorem State.setMailbox_nodeCopies (s : State) (m : Nat) (x : Mailbox) : (s.setMailbox m x).nodeCopies = s.nodeCopies := rfl
@[simp] theorem State.setMailbox_walks (s : State) (m : Nat) (x : Mailbox) : (s.setMailbox m x).walks = s.walks := rfl
@[simp] theorem State.setMailbox_tlb (s : State) (m : Nat) (x : Mailbox) : (s.setMailbox m x).tlb = s.tlb := rfl
@[simp] theorem State.setMailbox_walkCache (s : State) (m : Nat) (x : Mailbox) : (s.setMailbox m x).walkCache = s.walkCache := rfl
@[simp] theorem State.setMailbox_links (s : State) (m : Nat) (x : Mailbox) : (s.setMailbox m x).links = s.links := rfl
@[simp] theorem State.setMailbox_hbLines (s : State) (m : Nat) (x : Mailbox) : (s.setMailbox m x).hbLines = s.hbLines := rfl
@[simp] theorem State.setMailbox_hostHalf (s : State) (m : Nat) (x : Mailbox) : (s.setMailbox m x).hostHalf = s.hostHalf := rfl
@[simp] theorem State.setMailbox_hostBias (s : State) (m : Nat) (x : Mailbox) : (s.setMailbox m x).hostBias = s.hostBias := rfl
@[simp] theorem State.setMailbox_snoopFilter (s : State) (m : Nat) (x : Mailbox) : (s.setMailbox m x).snoopFilter = s.snoopFilter := rfl
@[simp] theorem State.setMailbox_device (s : State) (m : Nat) (x : Mailbox) : (s.setMailbox m x).device = s.device := rfl
@[simp] theorem State.setMailbox_health (s : State) (m : Nat) (x : Mailbox) : (s.setMailbox m x).health = s.health := rfl
@[simp] theorem State.setMailbox_boot (s : State) (m : Nat) (x : Mailbox) : (s.setMailbox m x).boot = s.boot := rfl
@[simp] theorem State.setMailbox_outputs (s : State) (m : Nat) (x : Mailbox) : (s.setMailbox m x).outputs = s.outputs := rfl
@[simp] theorem State.setMailbox_narrow (s : State) (m : Nat) (x : Mailbox) : (s.setMailbox m x).narrow = s.narrow := rfl
@[simp] theorem State.setMailbox_lines (s : State) (m : Nat) (x : Mailbox) : (s.setMailbox m x).lines = s.lines := rfl
@[simp] theorem State.setMailbox_agenda (s : State) (m : Nat) (x : Mailbox) : (s.setMailbox m x).agenda = s.agenda := rfl
@[simp] theorem State.setMailbox_plan (s : State) (m : Nat) (x : Mailbox) : (s.setMailbox m x).plan = s.plan := rfl
@[simp] theorem State.setMailbox_cur (s : State) (m : Nat) (x : Mailbox) : (s.setMailbox m x).cur = s.cur := rfl
@[simp] theorem State.setMailbox_curWord (s : State) (m : Nat) (x : Mailbox) : (s.setMailbox m x).curWord = s.curWord := rfl
@[simp] theorem State.setMailbox_fresh (s : State) (m : Nat) (x : Mailbox) : (s.setMailbox m x).fresh = s.fresh := rfl
@[simp] theorem State.setMailbox_tick (s : State) (m : Nat) (x : Mailbox) : (s.setMailbox m x).tick = s.tick := rfl
@[simp] theorem State.setMailbox_idle (s : State) (m : Nat) (x : Mailbox) : (s.setMailbox m x).idle = s.idle := rfl
@[simp] theorem State.setMailbox_thread_at (s : State) (m : Nat) (x : Mailbox) (t' : TId) : (s.setMailbox m x).thread t' = s.thread t' := rfl
@[simp] theorem State.setMailbox_group_at (s : State) (m : Nat) (x : Mailbox) (g' : GId) : (s.setMailbox m x).group g' = s.group g' := rfl
@[simp] theorem State.setMailbox_ctx_at (s : State) (m : Nat) (x : Mailbox) (c' : Nat) : (s.setMailbox m x).ctx c' = s.ctx c' := rfl
@[simp] theorem State.setMailbox_core_at (s : State) (m : Nat) (x : Mailbox) (c' : Nat) : (s.setMailbox m x).core c' = s.core c' := rfl
@[simp] theorem State.setMailbox_cluster_at (s : State) (m : Nat) (x : Mailbox) (n' : Nat) : (s.setMailbox m x).cluster n' = s.cluster n' := rfl
@[simp] theorem State.setMailbox_die_at (s : State) (m : Nat) (x : Mailbox) (d' : Nat) : (s.setMailbox m x).die d' = s.die d' := rfl
@[simp] theorem State.setMailbox_part_at (s : State) (m : Nat) (x : Mailbox) (p' : Nat) : (s.setMailbox m x).part p' = s.part p' := rfl
@[simp] theorem State.setMailbox_launch_at (s : State) (m : Nat) (x : Mailbox) (l' : Nat) : (s.setMailbox m x).launch l' = s.launch l' := rfl
@[simp] theorem State.setMailbox_launch_opt_at (s : State) (m : Nat) (x : Mailbox) (l' : Nat) : (s.setMailbox m x).launch? l' = s.launch? l' := rfl
@[simp] theorem State.setMailbox_graph_opt_at (s : State) (m : Nat) (x : Mailbox) (g' : Nat) : (s.setMailbox m x).graph? g' = s.graph? g' := rfl
@[simp] theorem State.setMailbox_queue_opt_at (s : State) (m : Nat) (x : Mailbox) (q' : Nat) : (s.setMailbox m x).queue? q' = s.queue? q' := rfl
@[simp] theorem State.setMailbox_link_at (s : State) (m : Nat) (x : Mailbox) (k' : Nat) : (s.setMailbox m x).link k' = s.link k' := rfl

/-! ## setLink -/

@[simp] theorem State.setLink_mem (s : State) (k : Nat) (x : Link) : (s.setLink k x).mem = s.mem := rfl
@[simp] theorem State.setLink_poison (s : State) (k : Nat) (x : Link) : (s.setLink k x).poison = s.poison := rfl
@[simp] theorem State.setLink_absent (s : State) (k : Nat) (x : Link) : (s.setLink k x).absent = s.absent := rfl
@[simp] theorem State.setLink_spadStamps (s : State) (k : Nat) (x : Link) : (s.setLink k x).spadStamps = s.spadStamps := rfl
@[simp] theorem State.setLink_order (s : State) (k : Nat) (x : Link) : (s.setLink k x).order = s.order := rfl
@[simp] theorem State.setLink_bars (s : State) (k : Nat) (x : Link) : (s.setLink k x).bars = s.bars := rfl
@[simp] theorem State.setLink_threads (s : State) (k : Nat) (x : Link) : (s.setLink k x).threads = s.threads := rfl
@[simp] theorem State.setLink_groups (s : State) (k : Nat) (x : Link) : (s.setLink k x).groups = s.groups := rfl
@[simp] theorem State.setLink_ctxs (s : State) (k : Nat) (x : Link) : (s.setLink k x).ctxs = s.ctxs := rfl
@[simp] theorem State.setLink_cores (s : State) (k : Nat) (x : Link) : (s.setLink k x).cores = s.cores := rfl
@[simp] theorem State.setLink_clusters (s : State) (k : Nat) (x : Link) : (s.setLink k x).clusters = s.clusters := rfl
@[simp] theorem State.setLink_dies (s : State) (k : Nat) (x : Link) : (s.setLink k x).dies = s.dies := rfl
@[simp] theorem State.setLink_parts (s : State) (k : Nat) (x : Link) : (s.setLink k x).parts = s.parts := rfl
@[simp] theorem State.setLink_pmcs (s : State) (k : Nat) (x : Link) : (s.setLink k x).pmcs = s.pmcs := rfl
@[simp] theorem State.setLink_queues (s : State) (k : Nat) (x : Link) : (s.setLink k x).queues = s.queues := rfl
@[simp] theorem State.setLink_graphs (s : State) (k : Nat) (x : Link) : (s.setLink k x).graphs = s.graphs := rfl
@[simp] theorem State.setLink_launches (s : State) (k : Nat) (x : Link) : (s.setLink k x).launches = s.launches := rfl
@[simp] theorem State.setLink_nodeCopies (s : State) (k : Nat) (x : Link) : (s.setLink k x).nodeCopies = s.nodeCopies := rfl
@[simp] theorem State.setLink_walks (s : State) (k : Nat) (x : Link) : (s.setLink k x).walks = s.walks := rfl
@[simp] theorem State.setLink_tlb (s : State) (k : Nat) (x : Link) : (s.setLink k x).tlb = s.tlb := rfl
@[simp] theorem State.setLink_walkCache (s : State) (k : Nat) (x : Link) : (s.setLink k x).walkCache = s.walkCache := rfl
@[simp] theorem State.setLink_mailboxes (s : State) (k : Nat) (x : Link) : (s.setLink k x).mailboxes = s.mailboxes := rfl
@[simp] theorem State.setLink_hbLines (s : State) (k : Nat) (x : Link) : (s.setLink k x).hbLines = s.hbLines := rfl
@[simp] theorem State.setLink_hostHalf (s : State) (k : Nat) (x : Link) : (s.setLink k x).hostHalf = s.hostHalf := rfl
@[simp] theorem State.setLink_hostBias (s : State) (k : Nat) (x : Link) : (s.setLink k x).hostBias = s.hostBias := rfl
@[simp] theorem State.setLink_snoopFilter (s : State) (k : Nat) (x : Link) : (s.setLink k x).snoopFilter = s.snoopFilter := rfl
@[simp] theorem State.setLink_device (s : State) (k : Nat) (x : Link) : (s.setLink k x).device = s.device := rfl
@[simp] theorem State.setLink_health (s : State) (k : Nat) (x : Link) : (s.setLink k x).health = s.health := rfl
@[simp] theorem State.setLink_boot (s : State) (k : Nat) (x : Link) : (s.setLink k x).boot = s.boot := rfl
@[simp] theorem State.setLink_outputs (s : State) (k : Nat) (x : Link) : (s.setLink k x).outputs = s.outputs := rfl
@[simp] theorem State.setLink_narrow (s : State) (k : Nat) (x : Link) : (s.setLink k x).narrow = s.narrow := rfl
@[simp] theorem State.setLink_lines (s : State) (k : Nat) (x : Link) : (s.setLink k x).lines = s.lines := rfl
@[simp] theorem State.setLink_agenda (s : State) (k : Nat) (x : Link) : (s.setLink k x).agenda = s.agenda := rfl
@[simp] theorem State.setLink_plan (s : State) (k : Nat) (x : Link) : (s.setLink k x).plan = s.plan := rfl
@[simp] theorem State.setLink_cur (s : State) (k : Nat) (x : Link) : (s.setLink k x).cur = s.cur := rfl
@[simp] theorem State.setLink_curWord (s : State) (k : Nat) (x : Link) : (s.setLink k x).curWord = s.curWord := rfl
@[simp] theorem State.setLink_fresh (s : State) (k : Nat) (x : Link) : (s.setLink k x).fresh = s.fresh := rfl
@[simp] theorem State.setLink_tick (s : State) (k : Nat) (x : Link) : (s.setLink k x).tick = s.tick := rfl
@[simp] theorem State.setLink_idle (s : State) (k : Nat) (x : Link) : (s.setLink k x).idle = s.idle := rfl
@[simp] theorem State.setLink_thread_at (s : State) (k : Nat) (x : Link) (t' : TId) : (s.setLink k x).thread t' = s.thread t' := rfl
@[simp] theorem State.setLink_group_at (s : State) (k : Nat) (x : Link) (g' : GId) : (s.setLink k x).group g' = s.group g' := rfl
@[simp] theorem State.setLink_ctx_at (s : State) (k : Nat) (x : Link) (c' : Nat) : (s.setLink k x).ctx c' = s.ctx c' := rfl
@[simp] theorem State.setLink_core_at (s : State) (k : Nat) (x : Link) (c' : Nat) : (s.setLink k x).core c' = s.core c' := rfl
@[simp] theorem State.setLink_cluster_at (s : State) (k : Nat) (x : Link) (n' : Nat) : (s.setLink k x).cluster n' = s.cluster n' := rfl
@[simp] theorem State.setLink_die_at (s : State) (k : Nat) (x : Link) (d' : Nat) : (s.setLink k x).die d' = s.die d' := rfl
@[simp] theorem State.setLink_part_at (s : State) (k : Nat) (x : Link) (p' : Nat) : (s.setLink k x).part p' = s.part p' := rfl
@[simp] theorem State.setLink_launch_at (s : State) (k : Nat) (x : Link) (l' : Nat) : (s.setLink k x).launch l' = s.launch l' := rfl
@[simp] theorem State.setLink_launch_opt_at (s : State) (k : Nat) (x : Link) (l' : Nat) : (s.setLink k x).launch? l' = s.launch? l' := rfl
@[simp] theorem State.setLink_graph_opt_at (s : State) (k : Nat) (x : Link) (g' : Nat) : (s.setLink k x).graph? g' = s.graph? g' := rfl
@[simp] theorem State.setLink_queue_opt_at (s : State) (k : Nat) (x : Link) (q' : Nat) : (s.setLink k x).queue? q' = s.queue? q' := rfl
@[simp] theorem State.setLink_mailbox_at (s : State) (k : Nat) (x : Link) (m' : Nat) : (s.setLink k x).mailbox m' = s.mailbox m' := rfl

/-! ## setMem -/

@[simp] theorem State.setMem_poison (s : State) (m : List Host.Cell) : (s.setMem m).poison = s.poison := rfl
@[simp] theorem State.setMem_absent (s : State) (m : List Host.Cell) : (s.setMem m).absent = s.absent := rfl
@[simp] theorem State.setMem_spadStamps (s : State) (m : List Host.Cell) : (s.setMem m).spadStamps = s.spadStamps := rfl
@[simp] theorem State.setMem_order (s : State) (m : List Host.Cell) : (s.setMem m).order = s.order := rfl
@[simp] theorem State.setMem_bars (s : State) (m : List Host.Cell) : (s.setMem m).bars = s.bars := rfl
@[simp] theorem State.setMem_threads (s : State) (m : List Host.Cell) : (s.setMem m).threads = s.threads := rfl
@[simp] theorem State.setMem_groups (s : State) (m : List Host.Cell) : (s.setMem m).groups = s.groups := rfl
@[simp] theorem State.setMem_ctxs (s : State) (m : List Host.Cell) : (s.setMem m).ctxs = s.ctxs := rfl
@[simp] theorem State.setMem_cores (s : State) (m : List Host.Cell) : (s.setMem m).cores = s.cores := rfl
@[simp] theorem State.setMem_clusters (s : State) (m : List Host.Cell) : (s.setMem m).clusters = s.clusters := rfl
@[simp] theorem State.setMem_dies (s : State) (m : List Host.Cell) : (s.setMem m).dies = s.dies := rfl
@[simp] theorem State.setMem_parts (s : State) (m : List Host.Cell) : (s.setMem m).parts = s.parts := rfl
@[simp] theorem State.setMem_pmcs (s : State) (m : List Host.Cell) : (s.setMem m).pmcs = s.pmcs := rfl
@[simp] theorem State.setMem_queues (s : State) (m : List Host.Cell) : (s.setMem m).queues = s.queues := rfl
@[simp] theorem State.setMem_graphs (s : State) (m : List Host.Cell) : (s.setMem m).graphs = s.graphs := rfl
@[simp] theorem State.setMem_launches (s : State) (m : List Host.Cell) : (s.setMem m).launches = s.launches := rfl
@[simp] theorem State.setMem_nodeCopies (s : State) (m : List Host.Cell) : (s.setMem m).nodeCopies = s.nodeCopies := rfl
@[simp] theorem State.setMem_walks (s : State) (m : List Host.Cell) : (s.setMem m).walks = s.walks := rfl
@[simp] theorem State.setMem_tlb (s : State) (m : List Host.Cell) : (s.setMem m).tlb = s.tlb := rfl
@[simp] theorem State.setMem_walkCache (s : State) (m : List Host.Cell) : (s.setMem m).walkCache = s.walkCache := rfl
@[simp] theorem State.setMem_mailboxes (s : State) (m : List Host.Cell) : (s.setMem m).mailboxes = s.mailboxes := rfl
@[simp] theorem State.setMem_links (s : State) (m : List Host.Cell) : (s.setMem m).links = s.links := rfl
@[simp] theorem State.setMem_hbLines (s : State) (m : List Host.Cell) : (s.setMem m).hbLines = s.hbLines := rfl
@[simp] theorem State.setMem_hostHalf (s : State) (m : List Host.Cell) : (s.setMem m).hostHalf = s.hostHalf := rfl
@[simp] theorem State.setMem_hostBias (s : State) (m : List Host.Cell) : (s.setMem m).hostBias = s.hostBias := rfl
@[simp] theorem State.setMem_snoopFilter (s : State) (m : List Host.Cell) : (s.setMem m).snoopFilter = s.snoopFilter := rfl
@[simp] theorem State.setMem_device (s : State) (m : List Host.Cell) : (s.setMem m).device = s.device := rfl
@[simp] theorem State.setMem_health (s : State) (m : List Host.Cell) : (s.setMem m).health = s.health := rfl
@[simp] theorem State.setMem_boot (s : State) (m : List Host.Cell) : (s.setMem m).boot = s.boot := rfl
@[simp] theorem State.setMem_outputs (s : State) (m : List Host.Cell) : (s.setMem m).outputs = s.outputs := rfl
@[simp] theorem State.setMem_narrow (s : State) (m : List Host.Cell) : (s.setMem m).narrow = s.narrow := rfl
@[simp] theorem State.setMem_lines (s : State) (m : List Host.Cell) : (s.setMem m).lines = s.lines := rfl
@[simp] theorem State.setMem_agenda (s : State) (m : List Host.Cell) : (s.setMem m).agenda = s.agenda := rfl
@[simp] theorem State.setMem_plan (s : State) (m : List Host.Cell) : (s.setMem m).plan = s.plan := rfl
@[simp] theorem State.setMem_cur (s : State) (m : List Host.Cell) : (s.setMem m).cur = s.cur := rfl
@[simp] theorem State.setMem_curWord (s : State) (m : List Host.Cell) : (s.setMem m).curWord = s.curWord := rfl
@[simp] theorem State.setMem_fresh (s : State) (m : List Host.Cell) : (s.setMem m).fresh = s.fresh := rfl
@[simp] theorem State.setMem_tick (s : State) (m : List Host.Cell) : (s.setMem m).tick = s.tick := rfl
@[simp] theorem State.setMem_idle (s : State) (m : List Host.Cell) : (s.setMem m).idle = s.idle := rfl
@[simp] theorem State.setMem_thread_at (s : State) (m : List Host.Cell) (t' : TId) : (s.setMem m).thread t' = s.thread t' := rfl
@[simp] theorem State.setMem_group_at (s : State) (m : List Host.Cell) (g' : GId) : (s.setMem m).group g' = s.group g' := rfl
@[simp] theorem State.setMem_ctx_at (s : State) (m : List Host.Cell) (c' : Nat) : (s.setMem m).ctx c' = s.ctx c' := rfl
@[simp] theorem State.setMem_core_at (s : State) (m : List Host.Cell) (c' : Nat) : (s.setMem m).core c' = s.core c' := rfl
@[simp] theorem State.setMem_cluster_at (s : State) (m : List Host.Cell) (n' : Nat) : (s.setMem m).cluster n' = s.cluster n' := rfl
@[simp] theorem State.setMem_die_at (s : State) (m : List Host.Cell) (d' : Nat) : (s.setMem m).die d' = s.die d' := rfl
@[simp] theorem State.setMem_part_at (s : State) (m : List Host.Cell) (p' : Nat) : (s.setMem m).part p' = s.part p' := rfl
@[simp] theorem State.setMem_launch_at (s : State) (m : List Host.Cell) (l' : Nat) : (s.setMem m).launch l' = s.launch l' := rfl
@[simp] theorem State.setMem_launch_opt_at (s : State) (m : List Host.Cell) (l' : Nat) : (s.setMem m).launch? l' = s.launch? l' := rfl
@[simp] theorem State.setMem_graph_opt_at (s : State) (m : List Host.Cell) (g' : Nat) : (s.setMem m).graph? g' = s.graph? g' := rfl
@[simp] theorem State.setMem_queue_opt_at (s : State) (m : List Host.Cell) (q' : Nat) : (s.setMem m).queue? q' = s.queue? q' := rfl
@[simp] theorem State.setMem_mailbox_at (s : State) (m : List Host.Cell) (m' : Nat) : (s.setMem m).mailbox m' = s.mailbox m' := rfl
@[simp] theorem State.setMem_link_at (s : State) (m : List Host.Cell) (k' : Nat) : (s.setMem m).link k' = s.link k' := rfl

/-! ## emit -/

@[simp] theorem State.emit_mem (s : State) (o : Output) : (s.emit o).mem = s.mem := rfl
@[simp] theorem State.emit_poison (s : State) (o : Output) : (s.emit o).poison = s.poison := rfl
@[simp] theorem State.emit_absent (s : State) (o : Output) : (s.emit o).absent = s.absent := rfl
@[simp] theorem State.emit_spadStamps (s : State) (o : Output) : (s.emit o).spadStamps = s.spadStamps := rfl
@[simp] theorem State.emit_order (s : State) (o : Output) : (s.emit o).order = s.order := rfl
@[simp] theorem State.emit_bars (s : State) (o : Output) : (s.emit o).bars = s.bars := rfl
@[simp] theorem State.emit_threads (s : State) (o : Output) : (s.emit o).threads = s.threads := rfl
@[simp] theorem State.emit_groups (s : State) (o : Output) : (s.emit o).groups = s.groups := rfl
@[simp] theorem State.emit_ctxs (s : State) (o : Output) : (s.emit o).ctxs = s.ctxs := rfl
@[simp] theorem State.emit_cores (s : State) (o : Output) : (s.emit o).cores = s.cores := rfl
@[simp] theorem State.emit_clusters (s : State) (o : Output) : (s.emit o).clusters = s.clusters := rfl
@[simp] theorem State.emit_dies (s : State) (o : Output) : (s.emit o).dies = s.dies := rfl
@[simp] theorem State.emit_parts (s : State) (o : Output) : (s.emit o).parts = s.parts := rfl
@[simp] theorem State.emit_pmcs (s : State) (o : Output) : (s.emit o).pmcs = s.pmcs := rfl
@[simp] theorem State.emit_queues (s : State) (o : Output) : (s.emit o).queues = s.queues := rfl
@[simp] theorem State.emit_graphs (s : State) (o : Output) : (s.emit o).graphs = s.graphs := rfl
@[simp] theorem State.emit_launches (s : State) (o : Output) : (s.emit o).launches = s.launches := rfl
@[simp] theorem State.emit_nodeCopies (s : State) (o : Output) : (s.emit o).nodeCopies = s.nodeCopies := rfl
@[simp] theorem State.emit_walks (s : State) (o : Output) : (s.emit o).walks = s.walks := rfl
@[simp] theorem State.emit_tlb (s : State) (o : Output) : (s.emit o).tlb = s.tlb := rfl
@[simp] theorem State.emit_walkCache (s : State) (o : Output) : (s.emit o).walkCache = s.walkCache := rfl
@[simp] theorem State.emit_mailboxes (s : State) (o : Output) : (s.emit o).mailboxes = s.mailboxes := rfl
@[simp] theorem State.emit_links (s : State) (o : Output) : (s.emit o).links = s.links := rfl
@[simp] theorem State.emit_hbLines (s : State) (o : Output) : (s.emit o).hbLines = s.hbLines := rfl
@[simp] theorem State.emit_hostHalf (s : State) (o : Output) : (s.emit o).hostHalf = s.hostHalf := rfl
@[simp] theorem State.emit_hostBias (s : State) (o : Output) : (s.emit o).hostBias = s.hostBias := rfl
@[simp] theorem State.emit_snoopFilter (s : State) (o : Output) : (s.emit o).snoopFilter = s.snoopFilter := rfl
@[simp] theorem State.emit_device (s : State) (o : Output) : (s.emit o).device = s.device := rfl
@[simp] theorem State.emit_health (s : State) (o : Output) : (s.emit o).health = s.health := rfl
@[simp] theorem State.emit_boot (s : State) (o : Output) : (s.emit o).boot = s.boot := rfl
@[simp] theorem State.emit_narrow (s : State) (o : Output) : (s.emit o).narrow = s.narrow := rfl
@[simp] theorem State.emit_lines (s : State) (o : Output) : (s.emit o).lines = s.lines := rfl
@[simp] theorem State.emit_agenda (s : State) (o : Output) : (s.emit o).agenda = s.agenda := rfl
@[simp] theorem State.emit_plan (s : State) (o : Output) : (s.emit o).plan = s.plan := rfl
@[simp] theorem State.emit_cur (s : State) (o : Output) : (s.emit o).cur = s.cur := rfl
@[simp] theorem State.emit_curWord (s : State) (o : Output) : (s.emit o).curWord = s.curWord := rfl
@[simp] theorem State.emit_fresh (s : State) (o : Output) : (s.emit o).fresh = s.fresh := rfl
@[simp] theorem State.emit_tick (s : State) (o : Output) : (s.emit o).tick = s.tick := rfl
@[simp] theorem State.emit_idle (s : State) (o : Output) : (s.emit o).idle = s.idle := rfl
@[simp] theorem State.emit_thread_at (s : State) (o : Output) (t' : TId) : (s.emit o).thread t' = s.thread t' := rfl
@[simp] theorem State.emit_group_at (s : State) (o : Output) (g' : GId) : (s.emit o).group g' = s.group g' := rfl
@[simp] theorem State.emit_ctx_at (s : State) (o : Output) (c' : Nat) : (s.emit o).ctx c' = s.ctx c' := rfl
@[simp] theorem State.emit_core_at (s : State) (o : Output) (c' : Nat) : (s.emit o).core c' = s.core c' := rfl
@[simp] theorem State.emit_cluster_at (s : State) (o : Output) (n' : Nat) : (s.emit o).cluster n' = s.cluster n' := rfl
@[simp] theorem State.emit_die_at (s : State) (o : Output) (d' : Nat) : (s.emit o).die d' = s.die d' := rfl
@[simp] theorem State.emit_part_at (s : State) (o : Output) (p' : Nat) : (s.emit o).part p' = s.part p' := rfl
@[simp] theorem State.emit_launch_at (s : State) (o : Output) (l' : Nat) : (s.emit o).launch l' = s.launch l' := rfl
@[simp] theorem State.emit_launch_opt_at (s : State) (o : Output) (l' : Nat) : (s.emit o).launch? l' = s.launch? l' := rfl
@[simp] theorem State.emit_graph_opt_at (s : State) (o : Output) (g' : Nat) : (s.emit o).graph? g' = s.graph? g' := rfl
@[simp] theorem State.emit_queue_opt_at (s : State) (o : Output) (q' : Nat) : (s.emit o).queue? q' = s.queue? q' := rfl
@[simp] theorem State.emit_mailbox_at (s : State) (o : Output) (m' : Nat) : (s.emit o).mailbox m' = s.mailbox m' := rfl
@[simp] theorem State.emit_link_at (s : State) (o : Output) (k' : Nat) : (s.emit o).link k' = s.link k' := rfl

/-! ## setCur -/

@[simp] theorem State.setCur_mem (s : State) (c : Option Cur) : (s.setCur c).mem = s.mem := rfl
@[simp] theorem State.setCur_poison (s : State) (c : Option Cur) : (s.setCur c).poison = s.poison := rfl
@[simp] theorem State.setCur_absent (s : State) (c : Option Cur) : (s.setCur c).absent = s.absent := rfl
@[simp] theorem State.setCur_spadStamps (s : State) (c : Option Cur) : (s.setCur c).spadStamps = s.spadStamps := rfl
@[simp] theorem State.setCur_order (s : State) (c : Option Cur) : (s.setCur c).order = s.order := rfl
@[simp] theorem State.setCur_bars (s : State) (c : Option Cur) : (s.setCur c).bars = s.bars := rfl
@[simp] theorem State.setCur_threads (s : State) (c : Option Cur) : (s.setCur c).threads = s.threads := rfl
@[simp] theorem State.setCur_groups (s : State) (c : Option Cur) : (s.setCur c).groups = s.groups := rfl
@[simp] theorem State.setCur_ctxs (s : State) (c : Option Cur) : (s.setCur c).ctxs = s.ctxs := rfl
@[simp] theorem State.setCur_cores (s : State) (c : Option Cur) : (s.setCur c).cores = s.cores := rfl
@[simp] theorem State.setCur_clusters (s : State) (c : Option Cur) : (s.setCur c).clusters = s.clusters := rfl
@[simp] theorem State.setCur_dies (s : State) (c : Option Cur) : (s.setCur c).dies = s.dies := rfl
@[simp] theorem State.setCur_parts (s : State) (c : Option Cur) : (s.setCur c).parts = s.parts := rfl
@[simp] theorem State.setCur_pmcs (s : State) (c : Option Cur) : (s.setCur c).pmcs = s.pmcs := rfl
@[simp] theorem State.setCur_queues (s : State) (c : Option Cur) : (s.setCur c).queues = s.queues := rfl
@[simp] theorem State.setCur_graphs (s : State) (c : Option Cur) : (s.setCur c).graphs = s.graphs := rfl
@[simp] theorem State.setCur_launches (s : State) (c : Option Cur) : (s.setCur c).launches = s.launches := rfl
@[simp] theorem State.setCur_nodeCopies (s : State) (c : Option Cur) : (s.setCur c).nodeCopies = s.nodeCopies := rfl
@[simp] theorem State.setCur_walks (s : State) (c : Option Cur) : (s.setCur c).walks = s.walks := rfl
@[simp] theorem State.setCur_tlb (s : State) (c : Option Cur) : (s.setCur c).tlb = s.tlb := rfl
@[simp] theorem State.setCur_walkCache (s : State) (c : Option Cur) : (s.setCur c).walkCache = s.walkCache := rfl
@[simp] theorem State.setCur_mailboxes (s : State) (c : Option Cur) : (s.setCur c).mailboxes = s.mailboxes := rfl
@[simp] theorem State.setCur_links (s : State) (c : Option Cur) : (s.setCur c).links = s.links := rfl
@[simp] theorem State.setCur_hbLines (s : State) (c : Option Cur) : (s.setCur c).hbLines = s.hbLines := rfl
@[simp] theorem State.setCur_hostHalf (s : State) (c : Option Cur) : (s.setCur c).hostHalf = s.hostHalf := rfl
@[simp] theorem State.setCur_hostBias (s : State) (c : Option Cur) : (s.setCur c).hostBias = s.hostBias := rfl
@[simp] theorem State.setCur_snoopFilter (s : State) (c : Option Cur) : (s.setCur c).snoopFilter = s.snoopFilter := rfl
@[simp] theorem State.setCur_device (s : State) (c : Option Cur) : (s.setCur c).device = s.device := rfl
@[simp] theorem State.setCur_health (s : State) (c : Option Cur) : (s.setCur c).health = s.health := rfl
@[simp] theorem State.setCur_boot (s : State) (c : Option Cur) : (s.setCur c).boot = s.boot := rfl
@[simp] theorem State.setCur_outputs (s : State) (c : Option Cur) : (s.setCur c).outputs = s.outputs := rfl
@[simp] theorem State.setCur_narrow (s : State) (c : Option Cur) : (s.setCur c).narrow = s.narrow := rfl
@[simp] theorem State.setCur_lines (s : State) (c : Option Cur) : (s.setCur c).lines = s.lines := rfl
@[simp] theorem State.setCur_agenda (s : State) (c : Option Cur) : (s.setCur c).agenda = s.agenda := rfl
@[simp] theorem State.setCur_plan (s : State) (c : Option Cur) : (s.setCur c).plan = s.plan := rfl
@[simp] theorem State.setCur_curWord (s : State) (c : Option Cur) : (s.setCur c).curWord = s.curWord := rfl
@[simp] theorem State.setCur_fresh (s : State) (c : Option Cur) : (s.setCur c).fresh = s.fresh := rfl
@[simp] theorem State.setCur_tick (s : State) (c : Option Cur) : (s.setCur c).tick = s.tick := rfl
@[simp] theorem State.setCur_idle (s : State) (c : Option Cur) : (s.setCur c).idle = s.idle := rfl
@[simp] theorem State.setCur_thread_at (s : State) (c : Option Cur) (t' : TId) : (s.setCur c).thread t' = s.thread t' := rfl
@[simp] theorem State.setCur_group_at (s : State) (c : Option Cur) (g' : GId) : (s.setCur c).group g' = s.group g' := rfl
@[simp] theorem State.setCur_ctx_at (s : State) (c : Option Cur) (c' : Nat) : (s.setCur c).ctx c' = s.ctx c' := rfl
@[simp] theorem State.setCur_core_at (s : State) (c : Option Cur) (c' : Nat) : (s.setCur c).core c' = s.core c' := rfl
@[simp] theorem State.setCur_cluster_at (s : State) (c : Option Cur) (n' : Nat) : (s.setCur c).cluster n' = s.cluster n' := rfl
@[simp] theorem State.setCur_die_at (s : State) (c : Option Cur) (d' : Nat) : (s.setCur c).die d' = s.die d' := rfl
@[simp] theorem State.setCur_part_at (s : State) (c : Option Cur) (p' : Nat) : (s.setCur c).part p' = s.part p' := rfl
@[simp] theorem State.setCur_launch_at (s : State) (c : Option Cur) (l' : Nat) : (s.setCur c).launch l' = s.launch l' := rfl
@[simp] theorem State.setCur_launch_opt_at (s : State) (c : Option Cur) (l' : Nat) : (s.setCur c).launch? l' = s.launch? l' := rfl
@[simp] theorem State.setCur_graph_opt_at (s : State) (c : Option Cur) (g' : Nat) : (s.setCur c).graph? g' = s.graph? g' := rfl
@[simp] theorem State.setCur_queue_opt_at (s : State) (c : Option Cur) (q' : Nat) : (s.setCur c).queue? q' = s.queue? q' := rfl
@[simp] theorem State.setCur_mailbox_at (s : State) (c : Option Cur) (m' : Nat) : (s.setCur c).mailbox m' = s.mailbox m' := rfl
@[simp] theorem State.setCur_link_at (s : State) (c : Option Cur) (k' : Nat) : (s.setCur c).link k' = s.link k' := rfl

/-! ## setPmcs -/

@[simp] theorem State.setPmcs_mem (s : State) (m : Tbl Nat (Vector W64 16)) : (s.setPmcs m).mem = s.mem := rfl
@[simp] theorem State.setPmcs_poison (s : State) (m : Tbl Nat (Vector W64 16)) : (s.setPmcs m).poison = s.poison := rfl
@[simp] theorem State.setPmcs_absent (s : State) (m : Tbl Nat (Vector W64 16)) : (s.setPmcs m).absent = s.absent := rfl
@[simp] theorem State.setPmcs_spadStamps (s : State) (m : Tbl Nat (Vector W64 16)) : (s.setPmcs m).spadStamps = s.spadStamps := rfl
@[simp] theorem State.setPmcs_order (s : State) (m : Tbl Nat (Vector W64 16)) : (s.setPmcs m).order = s.order := rfl
@[simp] theorem State.setPmcs_bars (s : State) (m : Tbl Nat (Vector W64 16)) : (s.setPmcs m).bars = s.bars := rfl
@[simp] theorem State.setPmcs_threads (s : State) (m : Tbl Nat (Vector W64 16)) : (s.setPmcs m).threads = s.threads := rfl
@[simp] theorem State.setPmcs_groups (s : State) (m : Tbl Nat (Vector W64 16)) : (s.setPmcs m).groups = s.groups := rfl
@[simp] theorem State.setPmcs_ctxs (s : State) (m : Tbl Nat (Vector W64 16)) : (s.setPmcs m).ctxs = s.ctxs := rfl
@[simp] theorem State.setPmcs_cores (s : State) (m : Tbl Nat (Vector W64 16)) : (s.setPmcs m).cores = s.cores := rfl
@[simp] theorem State.setPmcs_clusters (s : State) (m : Tbl Nat (Vector W64 16)) : (s.setPmcs m).clusters = s.clusters := rfl
@[simp] theorem State.setPmcs_dies (s : State) (m : Tbl Nat (Vector W64 16)) : (s.setPmcs m).dies = s.dies := rfl
@[simp] theorem State.setPmcs_parts (s : State) (m : Tbl Nat (Vector W64 16)) : (s.setPmcs m).parts = s.parts := rfl
@[simp] theorem State.setPmcs_queues (s : State) (m : Tbl Nat (Vector W64 16)) : (s.setPmcs m).queues = s.queues := rfl
@[simp] theorem State.setPmcs_graphs (s : State) (m : Tbl Nat (Vector W64 16)) : (s.setPmcs m).graphs = s.graphs := rfl
@[simp] theorem State.setPmcs_launches (s : State) (m : Tbl Nat (Vector W64 16)) : (s.setPmcs m).launches = s.launches := rfl
@[simp] theorem State.setPmcs_nodeCopies (s : State) (m : Tbl Nat (Vector W64 16)) : (s.setPmcs m).nodeCopies = s.nodeCopies := rfl
@[simp] theorem State.setPmcs_walks (s : State) (m : Tbl Nat (Vector W64 16)) : (s.setPmcs m).walks = s.walks := rfl
@[simp] theorem State.setPmcs_tlb (s : State) (m : Tbl Nat (Vector W64 16)) : (s.setPmcs m).tlb = s.tlb := rfl
@[simp] theorem State.setPmcs_walkCache (s : State) (m : Tbl Nat (Vector W64 16)) : (s.setPmcs m).walkCache = s.walkCache := rfl
@[simp] theorem State.setPmcs_mailboxes (s : State) (m : Tbl Nat (Vector W64 16)) : (s.setPmcs m).mailboxes = s.mailboxes := rfl
@[simp] theorem State.setPmcs_links (s : State) (m : Tbl Nat (Vector W64 16)) : (s.setPmcs m).links = s.links := rfl
@[simp] theorem State.setPmcs_hbLines (s : State) (m : Tbl Nat (Vector W64 16)) : (s.setPmcs m).hbLines = s.hbLines := rfl
@[simp] theorem State.setPmcs_hostHalf (s : State) (m : Tbl Nat (Vector W64 16)) : (s.setPmcs m).hostHalf = s.hostHalf := rfl
@[simp] theorem State.setPmcs_hostBias (s : State) (m : Tbl Nat (Vector W64 16)) : (s.setPmcs m).hostBias = s.hostBias := rfl
@[simp] theorem State.setPmcs_snoopFilter (s : State) (m : Tbl Nat (Vector W64 16)) : (s.setPmcs m).snoopFilter = s.snoopFilter := rfl
@[simp] theorem State.setPmcs_device (s : State) (m : Tbl Nat (Vector W64 16)) : (s.setPmcs m).device = s.device := rfl
@[simp] theorem State.setPmcs_health (s : State) (m : Tbl Nat (Vector W64 16)) : (s.setPmcs m).health = s.health := rfl
@[simp] theorem State.setPmcs_boot (s : State) (m : Tbl Nat (Vector W64 16)) : (s.setPmcs m).boot = s.boot := rfl
@[simp] theorem State.setPmcs_outputs (s : State) (m : Tbl Nat (Vector W64 16)) : (s.setPmcs m).outputs = s.outputs := rfl
@[simp] theorem State.setPmcs_narrow (s : State) (m : Tbl Nat (Vector W64 16)) : (s.setPmcs m).narrow = s.narrow := rfl
@[simp] theorem State.setPmcs_lines (s : State) (m : Tbl Nat (Vector W64 16)) : (s.setPmcs m).lines = s.lines := rfl
@[simp] theorem State.setPmcs_agenda (s : State) (m : Tbl Nat (Vector W64 16)) : (s.setPmcs m).agenda = s.agenda := rfl
@[simp] theorem State.setPmcs_plan (s : State) (m : Tbl Nat (Vector W64 16)) : (s.setPmcs m).plan = s.plan := rfl
@[simp] theorem State.setPmcs_cur (s : State) (m : Tbl Nat (Vector W64 16)) : (s.setPmcs m).cur = s.cur := rfl
@[simp] theorem State.setPmcs_curWord (s : State) (m : Tbl Nat (Vector W64 16)) : (s.setPmcs m).curWord = s.curWord := rfl
@[simp] theorem State.setPmcs_fresh (s : State) (m : Tbl Nat (Vector W64 16)) : (s.setPmcs m).fresh = s.fresh := rfl
@[simp] theorem State.setPmcs_tick (s : State) (m : Tbl Nat (Vector W64 16)) : (s.setPmcs m).tick = s.tick := rfl
@[simp] theorem State.setPmcs_idle (s : State) (m : Tbl Nat (Vector W64 16)) : (s.setPmcs m).idle = s.idle := rfl
@[simp] theorem State.setPmcs_thread_at (s : State) (m : Tbl Nat (Vector W64 16)) (t' : TId) : (s.setPmcs m).thread t' = s.thread t' := rfl
@[simp] theorem State.setPmcs_group_at (s : State) (m : Tbl Nat (Vector W64 16)) (g' : GId) : (s.setPmcs m).group g' = s.group g' := rfl
@[simp] theorem State.setPmcs_ctx_at (s : State) (m : Tbl Nat (Vector W64 16)) (c' : Nat) : (s.setPmcs m).ctx c' = s.ctx c' := rfl
@[simp] theorem State.setPmcs_core_at (s : State) (m : Tbl Nat (Vector W64 16)) (c' : Nat) : (s.setPmcs m).core c' = s.core c' := rfl
@[simp] theorem State.setPmcs_cluster_at (s : State) (m : Tbl Nat (Vector W64 16)) (n' : Nat) : (s.setPmcs m).cluster n' = s.cluster n' := rfl
@[simp] theorem State.setPmcs_die_at (s : State) (m : Tbl Nat (Vector W64 16)) (d' : Nat) : (s.setPmcs m).die d' = s.die d' := rfl
@[simp] theorem State.setPmcs_part_at (s : State) (m : Tbl Nat (Vector W64 16)) (p' : Nat) : (s.setPmcs m).part p' = s.part p' := rfl
@[simp] theorem State.setPmcs_launch_at (s : State) (m : Tbl Nat (Vector W64 16)) (l' : Nat) : (s.setPmcs m).launch l' = s.launch l' := rfl
@[simp] theorem State.setPmcs_launch_opt_at (s : State) (m : Tbl Nat (Vector W64 16)) (l' : Nat) : (s.setPmcs m).launch? l' = s.launch? l' := rfl
@[simp] theorem State.setPmcs_graph_opt_at (s : State) (m : Tbl Nat (Vector W64 16)) (g' : Nat) : (s.setPmcs m).graph? g' = s.graph? g' := rfl
@[simp] theorem State.setPmcs_queue_opt_at (s : State) (m : Tbl Nat (Vector W64 16)) (q' : Nat) : (s.setPmcs m).queue? q' = s.queue? q' := rfl
@[simp] theorem State.setPmcs_mailbox_at (s : State) (m : Tbl Nat (Vector W64 16)) (m' : Nat) : (s.setPmcs m).mailbox m' = s.mailbox m' := rfl
@[simp] theorem State.setPmcs_link_at (s : State) (m : Tbl Nat (Vector W64 16)) (k' : Nat) : (s.setPmcs m).link k' = s.link k' := rfl

end Sys2Proof.Machine
end

