-- ==== Sys2Proof/Laws/Table.lean ====
section
/-! SUPPORT. Tables: what a key reads after it, or another, is put or dropped. -/

namespace Sys2Proof.Machine

variable {κ α : Type} [DecidableEq κ]

@[simp] theorem Tbl.find_nil (x : κ) : Tbl.find ([] : Tbl κ α) x = none := rfl

@[simp] theorem Tbl.find_put_self (m : Tbl κ α) (x : κ) (a : α) : Tbl.find (Tbl.put m x a) x = some a := by
  induction m with
  | nil => simp [Tbl.put, Tbl.find]
  | cons p m ih => obtain ⟨k, b⟩ := p; by_cases h : k = x <;> simp [Tbl.put, Tbl.find, h, ih]

theorem Tbl.find_put_ne (m : Tbl κ α) {x y : κ} (a : α) (h : y ≠ x) : Tbl.find (Tbl.put m x a) y = Tbl.find m y := by
  induction m with
  | nil => simp [Tbl.put, Tbl.find, h.symm]
  | cons p m ih =>
    obtain ⟨k, b⟩ := p
    by_cases hk : k = x
    · subst hk; simp [Tbl.put, Tbl.find, h.symm]
    · rw [Tbl.put, if_neg hk]; simp only [Tbl.find, ih]

@[simp] theorem Tbl.getD_put_self (m : Tbl κ α) (x : κ) (a d : α) : Tbl.getD (Tbl.put m x a) x d = a := by
  simp [Tbl.getD]

theorem Tbl.getD_put_ne (m : Tbl κ α) {x y : κ} (a d : α) (h : y ≠ x) : Tbl.getD (Tbl.put m x a) y d = Tbl.getD m y d := by
  simp [Tbl.getD, Tbl.find_put_ne m a h]

/-- What a key reads after a key is put. -/
theorem Tbl.getD_put (m : Tbl κ α) (x y : κ) (a d : α) :
    Tbl.getD (Tbl.put m x a) y d = if y = x then a else Tbl.getD m y d := by
  split
  · next h => subst h; simp
  · next h => exact Tbl.getD_put_ne m a d h

theorem Tbl.find_put (m : Tbl κ α) (x y : κ) (a : α) :
    Tbl.find (Tbl.put m x a) y = if y = x then some a else Tbl.find m y := by
  split
  · next h => subst h; simp
  · next h => exact Tbl.find_put_ne m a h

end Sys2Proof.Machine
end

