-- ==== Sys2Proof/Laws/Objects.lean ====
section
/-! SUPPORT. Objects of the state: an object that is replaced reads as its replacement, and every other one of
its kind as before. -/

namespace Sys2Proof.Machine

theorem State.setThread_thread (s : State) (t t' : TId) (x : Thread) :
    (s.setThread t x).thread t' = if t' = t then x else s.thread t' := by
  simp [State.setThread, State.thread, Tbl.getD_put]
@[simp] theorem State.setThread_thread_self (s : State) (t : TId) (x : Thread) : (s.setThread t x).thread t = x := by
  simp [State.setThread_thread]
theorem State.setThread_thread_ne (s : State) {t t' : TId} (x : Thread) (h : t' ≠ t) :
    (s.setThread t x).thread t' = s.thread t' := by
  simp [State.setThread_thread, h]
theorem State.modThread_thread (s : State) (t t' : TId) (f : Thread → Thread) :
    (s.modThread t f).thread t' = if t' = t then f (s.thread t) else s.thread t' :=
  s.setThread_thread t t' _
@[simp] theorem State.modThread_thread_self (s : State) (t : TId) (f : Thread → Thread) :
    (s.modThread t f).thread t = f (s.thread t) := s.setThread_thread_self t _
theorem State.modThread_thread_ne (s : State) {t t' : TId} (f : Thread → Thread) (h : t' ≠ t) :
    (s.modThread t f).thread t' = s.thread t' := s.setThread_thread_ne _ h

theorem State.setGroup_group (s : State) (g g' : GId) (x : Group) :
    (s.setGroup g x).group g' = if g' = g then x else s.group g' := by
  simp [State.setGroup, State.group, Tbl.getD_put]
@[simp] theorem State.setGroup_group_self (s : State) (g : GId) (x : Group) : (s.setGroup g x).group g = x := by
  simp [State.setGroup_group]
theorem State.setGroup_group_ne (s : State) {g g' : GId} (x : Group) (h : g' ≠ g) :
    (s.setGroup g x).group g' = s.group g' := by
  simp [State.setGroup_group, h]
theorem State.modGroup_group (s : State) (g g' : GId) (f : Group → Group) :
    (s.modGroup g f).group g' = if g' = g then f (s.group g) else s.group g' :=
  s.setGroup_group g g' _
@[simp] theorem State.modGroup_group_self (s : State) (g : GId) (f : Group → Group) :
    (s.modGroup g f).group g = f (s.group g) := s.setGroup_group_self g _
theorem State.modGroup_group_ne (s : State) {g g' : GId} (f : Group → Group) (h : g' ≠ g) :
    (s.modGroup g f).group g' = s.group g' := s.setGroup_group_ne _ h

theorem State.setCtx_ctx (s : State) (c c' : Nat) (x : Ctx) :
    (s.setCtx c x).ctx c' = if c' = c then x else s.ctx c' := by
  simp [State.setCtx, State.ctx, Tbl.getD_put]
@[simp] theorem State.setCtx_ctx_self (s : State) (c : Nat) (x : Ctx) : (s.setCtx c x).ctx c = x := by
  simp [State.setCtx_ctx]
theorem State.setCtx_ctx_ne (s : State) {c c' : Nat} (x : Ctx) (h : c' ≠ c) :
    (s.setCtx c x).ctx c' = s.ctx c' := by
  simp [State.setCtx_ctx, h]
theorem State.modCtx_ctx (s : State) (c c' : Nat) (f : Ctx → Ctx) :
    (s.modCtx c f).ctx c' = if c' = c then f (s.ctx c) else s.ctx c' :=
  s.setCtx_ctx c c' _
@[simp] theorem State.modCtx_ctx_self (s : State) (c : Nat) (f : Ctx → Ctx) :
    (s.modCtx c f).ctx c = f (s.ctx c) := s.setCtx_ctx_self c _
theorem State.modCtx_ctx_ne (s : State) {c c' : Nat} (f : Ctx → Ctx) (h : c' ≠ c) :
    (s.modCtx c f).ctx c' = s.ctx c' := s.setCtx_ctx_ne _ h

theorem State.setCore_core (s : State) (c c' : Nat) (x : Core) :
    (s.setCore c x).core c' = if c' = c then x else s.core c' := by
  simp [State.setCore, State.core, Tbl.getD_put]
@[simp] theorem State.setCore_core_self (s : State) (c : Nat) (x : Core) : (s.setCore c x).core c = x := by
  simp [State.setCore_core]
theorem State.setCore_core_ne (s : State) {c c' : Nat} (x : Core) (h : c' ≠ c) :
    (s.setCore c x).core c' = s.core c' := by
  simp [State.setCore_core, h]
theorem State.modCore_core (s : State) (c c' : Nat) (f : Core → Core) :
    (s.modCore c f).core c' = if c' = c then f (s.core c) else s.core c' :=
  s.setCore_core c c' _
@[simp] theorem State.modCore_core_self (s : State) (c : Nat) (f : Core → Core) :
    (s.modCore c f).core c = f (s.core c) := s.setCore_core_self c _
theorem State.modCore_core_ne (s : State) {c c' : Nat} (f : Core → Core) (h : c' ≠ c) :
    (s.modCore c f).core c' = s.core c' := s.setCore_core_ne _ h

theorem State.setCluster_cluster (s : State) (n n' : Nat) (x : Cluster) :
    (s.setCluster n x).cluster n' = if n' = n then x else s.cluster n' := by
  simp [State.setCluster, State.cluster, Tbl.getD_put]
@[simp] theorem State.setCluster_cluster_self (s : State) (n : Nat) (x : Cluster) : (s.setCluster n x).cluster n = x := by
  simp [State.setCluster_cluster]
theorem State.setCluster_cluster_ne (s : State) {n n' : Nat} (x : Cluster) (h : n' ≠ n) :
    (s.setCluster n x).cluster n' = s.cluster n' := by
  simp [State.setCluster_cluster, h]
theorem State.modCluster_cluster (s : State) (n n' : Nat) (f : Cluster → Cluster) :
    (s.modCluster n f).cluster n' = if n' = n then f (s.cluster n) else s.cluster n' :=
  s.setCluster_cluster n n' _
@[simp] theorem State.modCluster_cluster_self (s : State) (n : Nat) (f : Cluster → Cluster) :
    (s.modCluster n f).cluster n = f (s.cluster n) := s.setCluster_cluster_self n _
theorem State.modCluster_cluster_ne (s : State) {n n' : Nat} (f : Cluster → Cluster) (h : n' ≠ n) :
    (s.modCluster n f).cluster n' = s.cluster n' := s.setCluster_cluster_ne _ h

theorem State.setDie_die (s : State) (d d' : Nat) (x : Die) :
    (s.setDie d x).die d' = if d' = d then x else s.die d' := by
  simp [State.setDie, State.die, Tbl.getD_put]
@[simp] theorem State.setDie_die_self (s : State) (d : Nat) (x : Die) : (s.setDie d x).die d = x := by
  simp [State.setDie_die]
theorem State.setDie_die_ne (s : State) {d d' : Nat} (x : Die) (h : d' ≠ d) :
    (s.setDie d x).die d' = s.die d' := by
  simp [State.setDie_die, h]
theorem State.modDie_die (s : State) (d d' : Nat) (f : Die → Die) :
    (s.modDie d f).die d' = if d' = d then f (s.die d) else s.die d' :=
  s.setDie_die d d' _
@[simp] theorem State.modDie_die_self (s : State) (d : Nat) (f : Die → Die) :
    (s.modDie d f).die d = f (s.die d) := s.setDie_die_self d _
theorem State.modDie_die_ne (s : State) {d d' : Nat} (f : Die → Die) (h : d' ≠ d) :
    (s.modDie d f).die d' = s.die d' := s.setDie_die_ne _ h

theorem State.setPart_part (s : State) (p p' : Nat) (x : Partition) :
    (s.setPart p x).part p' = if p' = p then x else s.part p' := by
  simp [State.setPart, State.part, Tbl.getD_put]
@[simp] theorem State.setPart_part_self (s : State) (p : Nat) (x : Partition) : (s.setPart p x).part p = x := by
  simp [State.setPart_part]
theorem State.setPart_part_ne (s : State) {p p' : Nat} (x : Partition) (h : p' ≠ p) :
    (s.setPart p x).part p' = s.part p' := by
  simp [State.setPart_part, h]
theorem State.modPart_part (s : State) (p p' : Nat) (f : Partition → Partition) :
    (s.modPart p f).part p' = if p' = p then f (s.part p) else s.part p' :=
  s.setPart_part p p' _
@[simp] theorem State.modPart_part_self (s : State) (p : Nat) (f : Partition → Partition) :
    (s.modPart p f).part p = f (s.part p) := s.setPart_part_self p _
theorem State.modPart_part_ne (s : State) {p p' : Nat} (f : Partition → Partition) (h : p' ≠ p) :
    (s.modPart p f).part p' = s.part p' := s.setPart_part_ne _ h

theorem State.setLaunch_launch (s : State) (l l' : Nat) (x : Launch) :
    (s.setLaunch l x).launch l' = if l' = l then x else s.launch l' := by
  simp [State.setLaunch, State.launch, Tbl.getD_put]
@[simp] theorem State.setLaunch_launch_self (s : State) (l : Nat) (x : Launch) : (s.setLaunch l x).launch l = x := by
  simp [State.setLaunch_launch]
theorem State.setLaunch_launch_ne (s : State) {l l' : Nat} (x : Launch) (h : l' ≠ l) :
    (s.setLaunch l x).launch l' = s.launch l' := by
  simp [State.setLaunch_launch, h]
theorem State.modLaunch_launch (s : State) (l l' : Nat) (f : Launch → Launch) :
    (s.modLaunch l f).launch l' = if l' = l then f (s.launch l) else s.launch l' :=
  s.setLaunch_launch l l' _
@[simp] theorem State.modLaunch_launch_self (s : State) (l : Nat) (f : Launch → Launch) :
    (s.modLaunch l f).launch l = f (s.launch l) := s.setLaunch_launch_self l _
theorem State.modLaunch_launch_ne (s : State) {l l' : Nat} (f : Launch → Launch) (h : l' ≠ l) :
    (s.modLaunch l f).launch l' = s.launch l' := s.setLaunch_launch_ne _ h

theorem State.setMailbox_mailbox (s : State) (m m' : Nat) (x : Mailbox) :
    (s.setMailbox m x).mailbox m' = if m' = m then x else s.mailbox m' := by
  simp [State.setMailbox, State.mailbox, Tbl.getD_put]
@[simp] theorem State.setMailbox_mailbox_self (s : State) (m : Nat) (x : Mailbox) : (s.setMailbox m x).mailbox m = x := by
  simp [State.setMailbox_mailbox]
theorem State.setMailbox_mailbox_ne (s : State) {m m' : Nat} (x : Mailbox) (h : m' ≠ m) :
    (s.setMailbox m x).mailbox m' = s.mailbox m' := by
  simp [State.setMailbox_mailbox, h]

theorem State.setLink_link (s : State) (k k' : Nat) (x : Link) :
    (s.setLink k x).link k' = if k' = k then x else s.link k' := by
  simp [State.setLink, State.link, Tbl.getD_put]
@[simp] theorem State.setLink_link_self (s : State) (k : Nat) (x : Link) : (s.setLink k x).link k = x := by
  simp [State.setLink_link]
theorem State.setLink_link_ne (s : State) {k k' : Nat} (x : Link) (h : k' ≠ k) :
    (s.setLink k x).link k' = s.link k' := by
  simp [State.setLink_link, h]

end Sys2Proof.Machine
end

