-- ==== Sys2Proof/Laws/Exec.lean ====
section
/-! SUPPORT. What the issue of a word does around its effect, for one thread and for a portion. -/

namespace Sys2Proof.Machine

/-! ## Registers of a thread with no outstanding result -/

@[simp] theorem pickWord_nil {α : Type} (tick place : Nat) (old : α) : pickWord tick place old [] = old := rfl

theorem readV_plain {s : State} {t : TId} (hs : (s.thread t).snap = none) (ho : (s.thread t).outs = []) (r : Reg) :
    readV s t r = (s.thread t).v.get r := by
  simp [readV, hs, ho]

theorem readS_plain {s : State} {t : TId} (hs : (s.thread t).snap = none) (ho : (s.thread t).outs = []) (r : Reg) :
    readS s t r = (s.group (groupOf s t)).s.get r := by
  simp [readS, hs, ho, pickWide]

theorem readB_plain {s : State} {t : TId} (ho : (s.thread t).outs = []) (k : Reg8) :
    readB s t k = ((s.thread t).b.get k).value := by
  simp [readB, ho]

theorem readH_plain {s : State} {t : TId} (hs : (s.thread t).snap = none) (ho : (s.thread t).outs = []) (k : Reg8) :
    readH s t k = (s.group (groupOf s t)).h.get k := by
  simp [readH, hs, ho]

/-! ## The group of a thread -/

theorem groupOf_congr {s s' : State} (h : s'.groups = s.groups) (t : TId) : groupOf s' t = groupOf s t := by
  simp [groupOf, State.group, h]

@[simp] theorem groupOf_modThread (s : State) (u : TId) (f : Thread → Thread) (t : TId) :
    groupOf (s.modThread u f) t = groupOf s t := rfl

@[simp] theorem contest_nil (f : Out → Bool) (r : Nat) : contest f r [] = [] := rfl

/-! ## The state in which a word acts -/

/-- A thread whose word has issued. -/
def Thread.noted (x : Thread) : Thread := { x with since := countIssue x, woken := false }

/-- States that differ in the counters of R189 alone. -/
def Counted (s s' : State) : Prop := ∃ m, s' = s.setPmcs m

theorem Counted.refl (s : State) : Counted s s := ⟨s.pmcs, rfl⟩
theorem counted_core (s : State) (c n k : Nat) : Counted s (countCore s c n k) := by
  unfold countCore; split
  · exact ⟨_, rfl⟩
  · exact Counted.refl s
theorem counted_pack (s : State) (ts : List TId) : Counted s (countPack s ts) := by
  unfold countPack; split
  · exact Counted.refl s
  · split
    · exact Counted.refl s
    · exact counted_core ..

/-- The state that a word of one thread acts on, its counters aside. -/
def State.noted (s : State) (t : TId) : State := s.setThread t (s.thread t).noted

theorem packThreads_one {s : State} {t : TId} (h : s.cur = some ⟨t.core, t.bank, [t.slot]⟩) : packThreads s = [t] := by
  simp [packThreads, h, sortLanes, insertLane]

theorem satisfyReads_none {s : State} {t : TId} (h : (s.thread t).outs = []) (i : Srcs) : satisfyReads s t i = s := by
  simp [satisfyReads, h]

/-- A thread with no outstanding result has nothing to satisfy before a word. -/
theorem satisfyBefore_none {s : State} {t : TId} (h : (s.thread t).outs = []) (i : Instr) (src : Srcs) :
    satisfyBefore s t i src = s := by
  unfold satisfyBefore
  rw [satisfyReads_none h]
  simp only
  split
  · simp [satisfyAcquires, satisfyIf, h]
  · rfl
/-- It has passed none. -/
theorem readsPassed_none {x : Thread} (h : x.outs = []) (src : Srcs) : readsPassed x src = false := by simp [readsPassed, h]
theorem touchedPassed_none {x : Thread} (h : x.outs = []) (y : Thread) : touchedPassed x y = false := by simp [touchedPassed, h]

theorem heldUniform_none {s : State} {t : TId} {i : Instr} (h : ∀ u ∈ groupThreads s (groupOf s t), (s.thread u).outs = []) :
    heldUniform s t i = false := by
  have : heldOut s t i = none := by
    unfold heldOut
    simp only
    split
    · rfl
    · rw [List.findSome?_eq_none_iff]
      intro u hu
      simp [h u hu]
  simp [heldUniform, this]

/-- The registers that a thread's word reads are among those that it names. -/
theorem srcsAt_sound {s : State} {t : TId} {i : Instr} (hl : laneBad s t (srcsOf i) = false)
    (hg : groupBad s t (srcsOf i) = false) :
    laneBad s t (srcsAt (s.thread t) i) = false ∧ groupBad s t (srcsAt (s.thread t) i) = false := by
  cases i
  case stBound k _ _ =>
    simp only [srcsAt]
    split
    · exact ⟨hl, hg⟩
    · exact ⟨rfl, rfl⟩
  case badd k d _ _ _ =>
    have h : laneBad s t { v := [d], b := [k] } = false := hl
    cases hb : ((s.thread t).b.get k).bound <;> simp only [srcsAt, hb, if_true, if_false, Bool.false_eq_true]
    · exact ⟨h, rfl⟩
    · simp only [laneBad, List.any_cons, List.any_nil, Bool.or_false, Bool.or_eq_false_iff] at h ⊢
      exact ⟨h.1, rfl⟩
  all_goals exact ⟨hl, hg⟩

/-- Spending a plan entry for walks changes the plan alone. -/
theorem spendWalk_next (b : Bool) (s : State) : ∃ pl, spendWalk b (.next s) = .next { s with plan := pl } := by
  cases b
  · exact ⟨s.plan, rfl⟩
  · exact ⟨s.plan.tail, rfl⟩

/-- A word of one thread that meets no obstacle: its effect is taken in the state with the issue counted. -/
theorem laneExec_alone {i : Instr} {f : TId → State → Except Stop State} {s : State} {t : TId} (h : Alone s t i) :
    ∃ m, ∀ s₁, f t ((s.setPmcs m).noted t) = .ok s₁ →
      ∃ m' pl, laneExec i f s = .next { s₁.setPmcs m' with plan := pl } := by
  obtain ⟨hc, _, hr⟩ := h
  obtain ⟨m, hm⟩ := counted_pack s [t]
  refine ⟨m, fun s₁ h₁ => ?_⟩
  have e1 : laneExec i f s = spendWalk (packEntry s) (laneAll i f [t] [] (countPack s [t])) := by simp [laneExec, packThreads_one hc]
  obtain ⟨m', hm'⟩ := counted_core s₁ t.core 1 1
  obtain ⟨pl, hp⟩ := spendWalk_next (packEntry s) (s₁.setPmcs m')
  refine ⟨m', pl, ?_⟩
  have ho : ((s.setPmcs m).thread t).outs = [] := hr.own
  have hn : noteIssue (s.setPmcs m) t = (s.setPmcs m).noted t := by
    simp [noteIssue, State.noted, Thread.noted, State.modThread, hr.own]
  have hs : satisfyBefore (s.setPmcs m) t i (srcsAt ((s.setPmcs m).thread t) i) = s.setPmcs m := satisfyBefore_none ho _ _
  have hq : readsPassed ((s.setPmcs m).thread t) (srcsAt ((s.setPmcs m).thread t) i) = false := readsPassed_none ho _
  have hd (y : Thread) : touchedPassed ((s.setPmcs m).thread t) y = false := touchedPassed_none ho y
  have hu : heldUniform (s.setPmcs m) t i = false := heldUniform_none (s := s.setPmcs m) hr.others
  obtain ⟨hl, hg⟩ := srcsAt_sound (s := s.setPmcs m) hr.lane hr.group
  rw [e1, hm]
  simp only [laneAll, laneOne, hs, hq, hd, hu, hl, hg, hn, h₁, hm', Bool.and_false, Bool.or_false, if_false, Bool.false_eq_true]
  exact hp

/-- A word of one thread that stops: what the stop does to that thread is the whole step. -/
theorem laneExec_stops {i : Instr} {f : TId → State → Except Stop State} {s : State} {t : TId} (h : Alone s t i) :
    ∃ m, ∀ st, f t ((s.setPmcs m).noted t) = .error st →
      laneExec i f s = spendWalk (packEntry s)
        (applyStop (match st with
          | .fault _ => keepAccess (s.setPmcs m) t
          | _ => s.setPmcs m) t st) := by
  obtain ⟨hc, _, hr⟩ := h
  obtain ⟨m, hm⟩ := counted_pack s [t]
  refine ⟨m, fun st h₁ => ?_⟩
  have e1 : laneExec i f s = spendWalk (packEntry s) (laneAll i f [t] [] (countPack s [t])) := by simp [laneExec, packThreads_one hc]
  have ho : ((s.setPmcs m).thread t).outs = [] := hr.own
  have hn : noteIssue (s.setPmcs m) t = (s.setPmcs m).noted t := by
    simp [noteIssue, State.noted, Thread.noted, State.modThread, hr.own]
  have hs : satisfyBefore (s.setPmcs m) t i (srcsAt ((s.setPmcs m).thread t) i) = s.setPmcs m := satisfyBefore_none ho _ _
  have hq : readsPassed ((s.setPmcs m).thread t) (srcsAt ((s.setPmcs m).thread t) i) = false := readsPassed_none ho _
  have hd (y : Thread) : touchedPassed ((s.setPmcs m).thread t) y = false := touchedPassed_none ho y
  have hu : heldUniform (s.setPmcs m) t i = false := heldUniform_none (s := s.setPmcs m) hr.others
  obtain ⟨hl, hg⟩ := srcsAt_sound (s := s.setPmcs m) hr.lane hr.group
  rw [e1, hm]
  cases st <;>
    simp only [laneAll, laneOne, hs, hq, hu, hl, hg, hn, h₁, Bool.and_false, Bool.or_false, if_false, Bool.false_eq_true, applyStop,
      sortFaults, fileFaults, insertFault, List.foldl_cons, List.foldl_nil, List.nil_append] <;> rfl

/-! ## A plain-uniform word -/

theorem satisfyAllBefore_none {s : State} {ts : List TId} {i : Instr} {src : Srcs} (h : ∀ u ∈ ts, (s.thread u).outs = []) :
    ts.foldl (fun s u => satisfyBefore s u i src) s = s := by
  induction ts with
  | nil => rfl
  | cons u us ih =>
    rw [List.foldl_cons, satisfyBefore_none (h u (by simp))]
    exact ih fun v hv => h v (by simp [hv])

/-- A plain-uniform word of a portion that meets no obstacle: its effect is taken once, in the state with every
thread's issue counted, and what it stops for is applied to the whole portion. -/
theorem groupExec_portion {i : Instr} {f : GId → TId → List TId → State → Except Stop State} {s : State} {g : GId} {t : TId}
    {ts : List TId} (h : Portion s g t ts i) :
    (∀ s₁, f g t ts (ts.foldl noteIssue s) = .ok s₁ →
      ∃ m pl, groupExec i f s = .next { s₁.setPmcs m with plan := pl }) ∧
    ∀ st, f g t ts (ts.foldl noteIssue s) = .error st →
      groupExec i f s = spendWalk (packEntry s) (applyPortion s g ts st) := by
  obtain ⟨hp, hf, _, hm⟩ := h
  obtain ⟨us, rfl⟩ : ∃ us, ts = t :: us := by
    cases ts with
    | nil => simp at hf
    | cons a us => simp at hf; exact ⟨us, by rw [hf]⟩
  have hg : groupOf s t = g := (hm t (by simp)).1
  have hs : (t :: us).foldl (fun s u => satisfyBefore s u i (srcsOf i)) s = s :=
    satisfyAllBefore_none fun u hu => (hm u hu).2.2.own
  have hq : (t :: us).any (fun u => readsPassed (s.thread u) (srcsOf i)) = false := by
    rw [List.any_eq_false]; intro u h'
    simp [readsPassed_none (hm u h').2.2.own]
  have hd (y : TId → Thread) : (t :: us).any (fun u => touchedPassed (s.thread u) (y u)) = false := by
    rw [List.any_eq_false]; intro u h'
    simp [touchedPassed_none (hm u h').2.2.own]
  have hu : (t :: us).any (fun u => heldUniform s u i) = false := by
    rw [List.any_eq_false]; intro u h'
    simp [heldUniform_none (i := i) (hm u h').2.2.others]
  have hl : (t :: us).any (fun u => laneBad s u (srcsOf i)) = false := by
    rw [List.any_eq_false]; intro u h'
    simp [(hm u h').2.2.lane]
  have hb : groupBad s t (srcsOf i) = false := (hm t (by simp)).2.2.group
  have hh : (if (s.thread t).snap.isNone then (t :: us).filter fun u => heldUniform s u i else []) = [] := by
    have : (t :: us).filter (fun u => heldUniform s u i) = [] := by
      rw [List.filter_eq_nil_iff]; rw [List.any_eq_false] at hu; exact hu
    split
    · exact this
    · rfl
  have e : groupExec i f s = spendWalk (packEntry s) (match f g t (t :: us) ((t :: us).foldl noteIssue s) with
      | .ok s' => .next (countCore s' g.core 2 1)
      | .error st => applyPortion s g (t :: us) st) := by
    have hk : (t :: us).filter (fun u => !([] : List TId).contains u) = t :: us := by simp
    simp only [groupExec, hp, portionRun, hh, List.foldl_nil, hk, portionGo, hq, hd, hs, hg, hb, hl, Bool.and_false, Bool.or_false, if_false,
      Bool.false_eq_true]
    try rfl
  refine ⟨fun s₁ h₁ => ?_, fun st h₁ => by rw [e, h₁]⟩
  obtain ⟨m, hm'⟩ := counted_core s₁ g.core 2 1
  obtain ⟨pl, hpl⟩ := spendWalk_next (packEntry s) (s₁.setPmcs m)
  exact ⟨m, pl, by rw [e, h₁]; simp only [hm', hpl]⟩

/-! ## Traps (R198) -/

/-- All that taking a trap can do: the handler is entered, or UNHANDLED or DOUBLE is filed. -/
theorem takeTrap_cases (s : State) (t : TId) (cause detail : Nat) (info : W32) :
    ((s.group (groupOf s t)).trapvec ≠ 0 ∧ isHandling (s.thread t) = false ∧
      takeTrap s t cause detail info = s.setThread t
        { s.thread t with trappc := (s.thread t).pc, trapcause := causeWord cause detail info
                          pc := (s.group (groupOf s t)).trapvec, wait := .none, walked := false, again := false, snap := none
                          owed := false, portion := none, beyond := false }) ∨
    ((s.group (groupOf s t)).trapvec = 0 ∧ takeTrap s t cause detail info = unhandled s t kUNHANDLED cause) ∨
    ((s.group (groupOf s t)).trapvec ≠ 0 ∧ isHandling (s.thread t) = true ∧
      takeTrap s t cause detail info = unhandled s t kDOUBLE cause) := by
  unfold takeTrap
  by_cases hv : (s.group (groupOf s t)).trapvec = 0
  · exact .inr (.inl ⟨hv, by simp [hv]⟩)
  · cases hh : isHandling (s.thread t)
    · exact .inl ⟨hv, rfl, by rw [if_neg hv, hh]; rfl⟩
    · exact .inr (.inr ⟨hv, rfl, by rw [if_neg hv, hh]; rfl⟩)

/-- The return from a handler changes its thread alone. -/
@[simp] theorem trapReturn_thread (s : State) (t u : TId) (target : W64) :
    (trapReturn s t target).thread u = if u = t then
      { s.thread t with trapcause := clearActive (s.thread t).trapcause, pc := target, walked := false, again := false, snap := none
                        owed := false, portion := none, beyond := false }
      else s.thread u := by
  simp [trapReturn, State.modThread_thread]

/-- A fatal or replayable record that finds room is filed under the handle of its place (R202). -/
theorem fileRec_room {s : State} {p : Nat} {r : Rec} {who : Requester} (hs : r.sev < 2)
    (hr : (s.part p).occupancy < 4088) (hw : (s.part p).waiting = []) :
    fileRec s p r who =
      (enqueueRec s.takeFresh.2 p { r with key := s.fresh, graph := r.graph.or (who.graph s) } who,
        some ((s.part p).tqprod % 4096)) := by
  have h2 : r.sev ≠ 2 := by omega
  have hp : s.takeFresh.2.part p = s.part p := rfl
  unfold fileRec
  simp only [hp]
  by_cases h0 : r.sev = 0
  · simp [h0, hr, hw]
  · simp [h0, h2, show (s.part p).occupancy < 4096 by omega]

end Sys2Proof.Machine
end

