-- ==== Sys2Proof/Laws/Mem.lean ====
section
/-! SUPPORT. Memory: a read after a write, and the canonical form that every operation on cells keeps. -/

namespace Sys2Proof.Machine

/-! ## The canonical form -/

/-- Every cell of a memory lies above an address. -/
def Above (lo : Nat) (m : List Host.Cell) : Prop := ∀ p ∈ m, lo < p.1

theorem wfFrom_none_of_some {lo : Nat} {m : List Host.Cell} (h : wfFrom (some lo) m = true) : wfFrom none m = true := by
  cases m with
  | nil => rfl
  | cons p m => obtain ⟨k, x⟩ := p; simp_all [wfFrom]

theorem wfFrom_cons {k : Nat} {x : Byte} {m : List Host.Cell} (h : wfFrom none ((k, x) :: m) = true) :
    x ≠ unlisted ∧ wfFrom (some k) m = true := by simpa [wfFrom] using h

/-- A bound may be lowered. -/
theorem wfFrom_lower {lo lo' : Nat} {m : List Host.Cell} (h : wfFrom (some lo) m = true) (hl : lo' ≤ lo) :
    wfFrom (some lo') m = true := by
  cases m with
  | nil => rfl
  | cons p m =>
    obtain ⟨k, x⟩ := p
    simp only [wfFrom, Bool.and_eq_true, decide_eq_true_eq] at h ⊢
    exact ⟨⟨by omega, h.1.2⟩, h.2⟩

theorem wfFrom_above {lo : Nat} {m : List Host.Cell} (h : wfFrom (some lo) m = true) : Above lo m := by
  induction m generalizing lo with
  | nil => intro p hp; cases hp
  | cons q m ih =>
    obtain ⟨k, x⟩ := q
    simp only [wfFrom, Bool.and_eq_true, decide_eq_true_eq] at h
    intro p hp
    rcases List.mem_cons.1 hp with rfl | hp
    · exact h.1.1
    · exact Nat.lt_trans h.1.1 (ih h.2 p hp)

theorem wfFrom_some {lo : Nat} {m : List Host.Cell} (h : wfFrom none m = true) (ha : Above lo m) :
    wfFrom (some lo) m = true := by
  cases m with
  | nil => rfl
  | cons p m =>
    obtain ⟨k, x⟩ := p
    have := ha (k, x) (by simp)
    simp_all [wfFrom]

/-- Below or at an address that a canonical memory lies above, it reads as unlisted. -/
theorem readCell_above {lo a : Nat} {m : List Host.Cell} (h : Above lo m) (ha : a ≤ lo) : readCell m a = unlisted := by
  cases m with
  | nil => rfl
  | cons p m =>
    obtain ⟨k, x⟩ := p
    have : lo < k := h (k, x) (by simp)
    simp [readCell, show a < k by omega]

/-! ## One byte -/

theorem wfFrom_consCell {lo : Option Nat} {a : Nat} {x : Byte} {m : List Host.Cell} (hlo : ∀ l ∈ lo, l < a)
    (h : wfFrom (some a) m = true) : wfFrom lo (consCell a x m) = true := by
  unfold consCell
  split
  · cases lo with
    | none => exact wfFrom_none_of_some h
    | some l => exact wfFrom_lower h (Nat.le_of_lt (hlo l rfl))
  · next hx => cases lo with
    | none => simp [wfFrom, hx, h]
    | some l => simp [wfFrom, hx, h, hlo l rfl]

theorem wfFrom_writeCell {lo : Option Nat} {m : List Host.Cell} (a : Nat) (x : Byte) (hlo : ∀ l ∈ lo, l < a)
    (h : wfFrom lo m = true) : wfFrom lo (writeCell m a x) = true := by
  induction m generalizing lo with
  | nil => exact wfFrom_consCell hlo rfl
  | cons p m ih =>
    obtain ⟨k, y⟩ := p
    simp only [wfFrom, Bool.and_eq_true] at h
    simp only [writeCell]
    split
    · next hk => exact wfFrom_consCell hlo (by simp [wfFrom, hk, h.1.2, h.2])
    · split
      · next hk => exact wfFrom_consCell hlo (by rw [hk]; exact h.2)
      · simp only [wfFrom, Bool.and_eq_true]
        exact ⟨h.1, ih (by intro l hl; cases hl; omega) h.2⟩

/-- A write of a byte keeps the canonical form. -/
theorem wf_writeCell {m : List Host.Cell} (a : Nat) (x : Byte) (h : Memory.wf m = true) :
    Memory.wf (writeCell m a x) = true := wfFrom_writeCell a x (by simp) h

theorem readCell_consCell {a b : Nat} {x : Byte} {m : List Host.Cell} (h : Above a m) :
    readCell (consCell a x m) b = if b = a then x else if b < a then unlisted else readCell m b := by
  unfold consCell
  split
  · next hx =>
    by_cases hb : b ≤ a
    · rw [readCell_above h hb]; simp [hx]; try omega
    · simp [show b ≠ a by omega, show ¬ b < a by omega]
  · simp only [readCell]; split <;> simp_all <;> omega

/-- A read after a write: the byte written at its address, and every other byte as before. -/
theorem readCell_writeCell {m : List Host.Cell} (a b : Nat) (x : Byte) (h : Memory.wf m = true) :
    readCell (writeCell m a x) b = if b = a then x else readCell m b := by
  suffices ∀ lo, wfFrom lo m = true → readCell (writeCell m a x) b = if b = a then x else readCell m b from this none h
  clear h
  intro lo h
  induction m generalizing lo with
  | nil =>
    rw [writeCell, readCell_consCell (by intro p hp; cases hp)]
    simp [readCell]
  | cons p m ih =>
    obtain ⟨k, y⟩ := p
    simp only [wfFrom, Bool.and_eq_true] at h
    have hab := wfFrom_above h.2
    simp only [writeCell]
    split
    · next hk =>
      rw [readCell_consCell (by
        intro p hp; rcases List.mem_cons.1 hp with rfl | hp
        · exact hk
        · exact Nat.lt_trans hk (hab p hp))]
      by_cases e : b = a
      · simp [e]
      · by_cases l : b < a
        · simp [e, l, readCell, show b < k by omega]
        · simp [e, l]
    · split
      · next hk =>
        subst hk
        rw [readCell_consCell hab]
        by_cases e : b = a
        · simp [e]
        · by_cases l : b < a <;> simp [e, l, readCell]
      · simp only [readCell]
        by_cases l : b < k
        · simp [l, show b ≠ a by omega]
        · by_cases e : b = k
          · simp [e, show k ≠ a by omega]
          · simp only [l, e, if_false]; exact ih _ h.2

/-! ## Many bytes -/

/-- A write of bytes keeps the canonical form. -/
theorem wf_writeBytes {m : List Host.Cell} (a : Nat) (bs : List Byte) (h : Memory.wf m = true) :
    Memory.wf (writeBytes m a bs) = true := by
  induction bs generalizing m a with
  | nil => exact h
  | cons x xs ih => exact ih _ (wf_writeCell a x h)

theorem wf_writeLE {m : List Host.Cell} (a n x : Nat) (h : Memory.wf m = true) : Memory.wf (writeLE m a n x) = true :=
  wf_writeBytes a _ h

/-- A read after a write of bytes: those written within their range, and every other byte as before. -/
theorem readCell_writeBytes {m : List Host.Cell} (a b : Nat) (bs : List Byte) (h : Memory.wf m = true) :
    readCell (writeBytes m a bs) b = if a ≤ b ∧ b < a + bs.length then bs.getD (b - a) 0 else readCell m b := by
  induction bs generalizing m a with
  | nil => simp [writeBytes] <;> omega
  | cons x xs ih =>
    rw [writeBytes, ih _ (wf_writeCell a x h), readCell_writeCell a b x h]
    by_cases e : b = a
    · subst e; simp [show ¬ b + 1 ≤ b by omega]
    · by_cases l : a + 1 ≤ b ∧ b < a + 1 + xs.length
      · have : a ≤ b ∧ b < a + (x :: xs).length := by simp; omega
        rw [if_pos l, if_pos this, show b - a = (b - (a + 1)) + 1 by omega]
        rfl
      · have : ¬ (a ≤ b ∧ b < a + (x :: xs).length) := by simp; omega
        rw [if_neg l, if_neg this, if_neg e]

/-- Bytes outside a write read as before. -/
theorem readCell_writeBytes_ne {m : List Host.Cell} {a b : Nat} (bs : List Byte) (h : Memory.wf m = true)
    (hb : b < a ∨ a + bs.length ≤ b) : readCell (writeBytes m a bs) b = readCell m b := by
  rw [readCell_writeBytes a b bs h, if_neg (by omega)]

@[simp] theorem toBytes_length (n x : Nat) : (toBytes n x).length = n := by
  induction n generalizing x with
  | zero => rfl
  | succ n ih => simp [toBytes, ih]

@[simp] theorem readBytes_length (m : List Host.Cell) (a n : Nat) : (readBytes m a n).length = n := by
  induction n generalizing a with
  | zero => rfl
  | succ n ih => simp [readBytes, ih]

/-- The bytes of a number give it back, modulo its width. -/
theorem ofBytes_toBytes (n x : Nat) : ofBytes (toBytes n x) = x % 256 ^ n := by
  induction n generalizing x with
  | zero => simp [toBytes, ofBytes, Nat.mod_one]
  | succ n ih =>
    simp only [toBytes, ofBytes, ih, BitVec.toNat_ofNat]
    rw [show (256 : Nat) ^ (n + 1) = 256 * 256 ^ n by rw [Nat.pow_succ, Nat.mul_comm], Nat.mod_mul]

theorem ofBytes_lt (bs : List Byte) : ofBytes bs < 256 ^ bs.length := by
  induction bs with
  | nil => simp [ofBytes]
  | cons x xs ih =>
    have := x.isLt
    simp only [ofBytes, List.length_cons, Nat.pow_succ]
    omega

/-- A write of bytes, read back. -/
theorem readBytes_writeBytes {m : List Host.Cell} (a : Nat) (bs : List Byte) (h : Memory.wf m = true) :
    readBytes (writeBytes m a bs) a bs.length = bs := by
  induction bs generalizing m a with
  | nil => rfl
  | cons x xs ih =>
    simp only [writeBytes, List.length_cons, readBytes, ih _ (wf_writeCell a x h)]
    rw [readCell_writeBytes_ne xs (wf_writeCell a x h) (Or.inl (by omega)), readCell_writeCell a a x h]
    simp

/-- A number written and read back, modulo its width. -/
theorem readLE_writeLE {m : List Host.Cell} (a n x : Nat) (h : Memory.wf m = true) :
    readLE (writeLE m a n x) a n = x % 256 ^ n := by
  have := readBytes_writeBytes a (toBytes n x) h
  rw [toBytes_length] at this
  rw [readLE, writeLE, this, ofBytes_toBytes]

/-- Memory with cells cleared: what a grant, a release and a placement do (R171, R9). -/
theorem wf_filter {m : List Host.Cell} (f : Host.Cell → Bool) (h : Memory.wf m = true) : Memory.wf (m.filter f) = true := by
  suffices ∀ lo, wfFrom lo m = true → wfFrom lo (m.filter f) = true from this none h
  clear h
  intro lo h
  induction m generalizing lo with
  | nil => exact h
  | cons p m ih =>
    obtain ⟨k, x⟩ := p
    simp only [wfFrom, Bool.and_eq_true] at h
    rw [List.filter_cons]
    split
    · simp only [wfFrom, Bool.and_eq_true]; exact ⟨h.1, ih _ h.2⟩
    · have := ih _ h.2
      cases lo with
      | none => exact wfFrom_none_of_some this
      | some l => exact wfFrom_lower this (Nat.le_of_lt (by simpa using h.1.1))

/-- The memory of the machine after reset is canonical. -/
theorem wf_reset : Memory.wf State.reset.mem = true := rfl

end Sys2Proof.Machine
end

