-- ==== Sys2Proof/Laws/Order.lean ====
section
/-! SUPPORT. What the operations of happens-before can do: they change `State.order` and nothing else. -/

namespace Sys2Proof.Machine

/-- A state that differs in what happens before what, at most. -/
def Reordered (s s' : State) : Prop := ∃ o, s' = s.setOrder o

theorem Reordered.refl (s : State) : Reordered s s := ⟨s.order, rfl⟩
theorem Reordered.set (s : State) (o : Order) : Reordered s (s.setOrder o) := ⟨o, rfl⟩
theorem Reordered.trans {s s' s'' : State} (h : Reordered s s') (h' : Reordered s' s'') : Reordered s s'' := by
  obtain ⟨o, rfl⟩ := h
  obtain ⟨p, rfl⟩ := h'
  exact ⟨p, rfl⟩
theorem Reordered.foldl {α : Type} {f : State → α → State} (h : ∀ s a, Reordered s (f s a)) (xs : List α) (s : State) :
    Reordered s (xs.foldl f s) := by
  induction xs generalizing s with
  | nil => exact .refl s
  | cons a xs ih => exact (h s a).trans (ih _)

/-- What the fields are that a reordered state shares. -/
theorem Reordered.frame {s s' : State} (h : Reordered s s') : s' = { s with order := s'.order } := by
  obtain ⟨o, rfl⟩ := h
  rfl
theorem Reordered.thread {s s' : State} (h : Reordered s s') (t : TId) : s'.thread t = s.thread t := by
  obtain ⟨o, rfl⟩ := h
  rfl
theorem Reordered.group {s s' : State} (h : Reordered s s') (g : GId) : s'.group g = s.group g := by
  obtain ⟨o, rfl⟩ := h
  rfl
theorem Reordered.mem {s s' : State} (h : Reordered s s') : s'.mem = s.mem := by
  obtain ⟨o, rfl⟩ := h
  rfl
theorem Reordered.actorOf {s s' : State} (h : Reordered s s') (t : TId) : actorOf s' t = actorOf s t := by
  obtain ⟨o, rfl⟩ := h
  rfl

theorem carry_reordered (s : State) (p : Carrier) (c : Clock) : Reordered s (carry s p c) := by
  unfold carry
  split
  · exact .refl s
  · exact .set s _
theorem carryMore_reordered (s : State) (p : Carrier) (c : Clock) : Reordered s (carryMore s p c) := by
  unfold carryMore
  split
  · exact .refl s
  · exact carry_reordered s p _
theorem learn_reordered (s : State) (t : TId) (c : Clock) : Reordered s (learn s t c) := by
  unfold learn
  split
  · exact .refl s
  · exact .set s _
theorem noteLoad_reordered (s : State) (t : TId) (c : Clock) : Reordered s (noteLoad s t c) := by
  simp only [noteLoad]
  repeat' split
  all_goals first | exact .refl s | exact .set s _
theorem noteFence_reordered (s : State) (t : TId) (c : Clock) : Reordered s (noteFence s t c) := .set s _
theorem carryStore_reordered (s : State) (t : TId) (rel keep : Bool) (ps : List Carrier) :
    Reordered s (carryStore s t rel keep ps) := by
  unfold carryStore
  refine Reordered.trans ?_ (Reordered.foldl (fun s p => ?_) ps _)
  · split
    · exact .set s _
    · exact .refl s
  · cases keep
    · exact carry_reordered s p _
    · exact carryMore_reordered s p _
theorem publishOrder_reordered (s : State) (e : StoreEnt) : Reordered s (publishOrder s e) := by
  unfold publishOrder
  split
  · exact .refl s
  · exact (Reordered.foldl (fun s p => carry_reordered s p _) _ s).trans (carry_reordered _ _ _)
theorem dropActor_reordered (s : State) (a : Actor) : Reordered s (dropActor s a) := by
  simp only [dropActor]
  split
  · exact .set s _
  · exact .refl s

/-- A thread knows afterwards what it learnt, joined to what it knew. -/
theorem beforeOf_learn (s : State) (t : TId) {c : Clock} (h : c ≠ []) :
    beforeOf (learn s t c) (actorOf s t) = Clock.join (beforeOf s (actorOf s t)) c := by
  have e : c.isEmpty = false := by simpa [List.isEmpty_iff] using h
  simp [learn, e, beforeOf, State.setOrder]
/-- No other thread learns anything. -/
theorem beforeOf_learn_ne (s : State) (t : TId) (c : Clock) {a : Actor} (h : a ≠ actorOf s t) :
    beforeOf (learn s t c) a = beforeOf s a := by
  unfold learn
  split
  · rfl
  · simp [beforeOf, State.setOrder, Tbl.getD_put, h]

end Sys2Proof.Machine
end

