-- ==== Sys2Proof/Tests/Slice0.lean ====
section
/-! SUPPORT. Tests on fixed values that the spec gives or that follow from its tables: words laid out field by
field from R223 to R232, ill-formed terms for each check of R222 and R223, and single steps. -/

namespace Sys2Proof.Machine

set_option Elab.async false

/-- Whether the decoder turns a word away with a cause. -/
def isRefused (w : Nat) (why : Illegal) : Bool :=
  match decode w with
  | .ok _ => false
  | .error e => e == why

/-! ## Words of every family (R226 to R232): SET, MAJ and the fields named -/

/-- D 4, A 6, B 8, MIN 001, TY 11. -/
theorem test_decode_int_sub : decodeTableWord 32 0x04418838 = some (.sub (.v 4) (.v 6) (.v 8) .n64) := by decide +kernel
/-- MIN 110, count 31. -/
theorem test_decode_shift_sar_count : decodeTableWord 32 0x08519FC0 = some (.sarCount (.v 5) (.v 6) 31 .i32) := by decide +kernel
/-- MIN 1, TY 10, LA 9. -/
theorem test_decode_div_rem : decodeTableWord 32 0x0C2106C9 = some (.rem 2 4 6 .i64 9) := by decide +kernel
/-- C 6, TY 10. -/
theorem test_decode_mad : decodeTableWord 32 0x1020C51A = some (.mad 2 3 5 6 .n64) := by decide +kernel
/-- IMM all ones. -/
theorem test_decode_addi_negative : decodeTableWord 32 0x1810BFFF = some (.addi 1 2 (-1)) := by decide +kernel
/-- H 0, IMM -262144. -/
theorem test_decode_movi : decodeTableWord 32 0x1C140000 = some (.movi 1 0x40000) := by decide +kernel
/-- MIN 100, TY 01, CA 1. -/
theorem test_decode_uni_brev : decodeTableWord 32 0x2030A201 = some (.brev (.v 3) (.b 2) .n32) := by decide +kernel
/-- POS 7, LEN-1 4, SGN 1. -/
theorem test_decode_bfx_signed : decodeTableWord 32 0x24308E44 = some (.bfx 3 2 7 4 true) := by decide +kernel
/-- P 5, W 1. -/
theorem test_decode_sel_pair : decodeTableWord 32 0x282106B0 = some (.sel (.v 2) (.v 4) (.v 6) 5 true) := by decide +kernel
/-- MIN 11, RM 10, TY 01. -/
theorem test_decode_fmac_fnms : decodeTableWord 32 0x381083E4 = some (.fmacFnms 1 2 3 .ru .bf16x2) := by decide +kernel
/-- MIN 101, LA 4. -/
theorem test_decode_fspec_fsin : decodeTableWord 32 0x4410A804 = some (.fsin 1 2 4) := by decide +kernel
/-- MIN 011, D 9, A 8, B 1, OP 001, TY 10. -/
theorem test_decode_xlane_scan : decodeTableWord 32 0x49924026 = some (.scan .min .f32 true 9 8) := by decide +kernel
/-- SZ 11, IMM 2, LA 5. -/
theorem test_decode_ldx : decodeTableWord 32 0x4C21C9E5 = some (.ldx 2 7 9 .b64 2 5) := by decide +kernel
/-- BS 1, SZ 10, ORD 1, SC 01, HINT 10. -/
theorem test_decode_lda : decodeTableWord 32 0x5031F5B1 = some (.lda 3 (.s 7) .b32 true .team .el 3 1) := by decide +kernel
/-- SZ 01, IMM 1. -/
theorem test_decode_stx : decodeTableWord 32 0x5431C950 = some (.stx 3 7 9 .b16 1) := by decide +kernel
/-- ORD 1, SC 11, HINT 01. -/
theorem test_decode_sta : decodeTableWord 32 0x5831C760 = some (.sta 3 (.v 7) .b8 true .sys .ef 2) := by decide +kernel
/-- OP 110, W 1, ORD 11, SC 10, S 1. -/
theorem test_decode_atom_max : decodeTableWord 32 0x5C41FBD2 = some (.atom 4 (.s 7) (.max true) true .ar .dev 2) := by decide +kernel
/-- MIN 001, SZ 10, IMM all ones. -/
theorem test_decode_mem_stt : decodeTableWord 32 0x60863AFF = some (.stt 3 (.v 7) .b32 (-1)) := by decide +kernel
/-- MIN 011, ORD 01, SC 01. -/
theorem test_decode_bind_badd : decodeTableWord 32 0x65D19403 = some (.badd 5 6 .acq .team 3) := by decide +kernel
/-- MIN 1, P 3, OFF -2. -/
theorem test_decode_branch_brc : decodeTableWord 32 0x6ADFFFFE = some (.brc 3 (-2)) := by decide +kernel
/-- MIN 010, D 6, OFF -65536. -/
theorem test_decode_ctrl_call : decodeTableWord 32 0x6D0D0000 = some (.call 6 0x10000) := by decide +kernel
/-- MIN 000, D 1, C 2, M 3. -/
theorem test_decode_search_try : decodeTableWord 32 0x70021060 = some (.try_ 1 2 3) := by decide +kernel
/-- I 0, MIN 110, TY 01, B 3. -/
theorem test_decode_galu_shr : decodeTableWord 32 0x8410990C = some (.gShr 1 2 3 .n32) := by decide +kernel
/-- I 1, MIN 100, TY 10. -/
theorem test_decode_galu_immediate : decodeTableWord 32 0x8410B2FF = some (.gMaxI 1 2 0xFF .i64) := by decide +kernel
/-- IMM -8192. -/
theorem test_decode_gaddi : decodeTableWord 32 0x8810A000 = some (.gaddi 1 2 0x2000) := by decide +kernel
/-- MIN 1, TY 11. -/
theorem test_decode_gun_clz : decodeTableWord 32 0x8C10B800 = some (.gClz 1 2 .n64) := by decide +kernel
/-- TT 0x96. -/
theorem test_decode_gtri : decodeTableWord 32 0x90108396 = some (.gTri 1 2 3 0x96) := by decide +kernel
/-- COND 100, TY 10. -/
theorem test_decode_gcmp : decodeTableWord 32 0x95062480 = some (.gCmp 2 3 4 .gt .i64) := by decide +kernel
/-- Q 7. -/
theorem test_decode_gsel : decodeTableWord 32 0x981083E0 = some (.gSel 1 2 3 7) := by decide +kernel
/-- H 1. -/
theorem test_decode_gmov_mvh : decodeTableWord 32 0x9C18BEEF = some (.gMvh 1 0xBEEF) := by decide +kernel
/-- SZ 11, ORD 1, SC 10, IMM -1. -/
theorem test_decode_gld : decodeTableWord 32 0xA010BDF6 = some (.gld 1 2 .b64 true .dev (-1) 6) := by decide +kernel
/-- IMM -256. -/
theorem test_decode_gst : decodeTableWord 32 0xA4109B00 = some (.gst 1 2 .b16 true .team 0x100) := by decide +kernel
/-- MIN 1, C 5, OFF -1. -/
theorem test_decode_gbr_loop : decodeTableWord 32 0xAA2FFFFF = some (.loop 5 (-1)) := by decide +kernel
/-- ACC 1, SH 3, SRC 10, SP 1, FMT 1. -/
theorem test_decode_mma8 : decodeTableWord 32 0xAD0843B7 = some (.mmaE5m2 1 2 4 3 .dd true 7) := by decide +kernel
/-- SRC 01, FMT 0. -/
theorem test_decode_mma16 : decodeTableWord 32 0xB3102040 = some (.mmaBf16 3 4 2 0 .vd false 0) := by decide +kernel
/-- MIN 11. -/
theorem test_decode_mctl_accmov : decodeTableWord 32 0xB7852400 = some (.accmov 2 5 9) := by decide +kernel
/-- BAR 4. -/
theorem test_decode_tgemm : decodeTableWord 32 0xB8108345 = some (.tgemm 1 2 3 4 5) := by decide +kernel
/-- MIN 1, RM 011, SAT 1. -/
theorem test_decode_tile_tcopy : decodeTableWord 32 0xBC10AE45 = some (.tcopy 1 2 .rd true 4 5) := by decide +kernel
/-- MIN 1, T 2, S 3, W 1. -/
theorem test_decode_tid_tidset : decodeTableWord 32 0xC2106800 = some (.tidset 2 1 3) := by decide +kernel
/-- BAR 15. -/
theorem test_decode_cpy : decodeTableWord 32 0xC41083F0 = some (.cpy 1 2 3 15 0) := by decide +kernel
/-- N 4. -/
theorem test_decode_cpyg : decodeTableWord 32 0xC8108411 = some (.cpyg 1 2 4 1 1) := by decide +kernel
/-- N 4. -/
theorem test_decode_cpys : decodeTableWord 32 0xCC108412 = some (.cpys 1 2 4 1 2) := by decide +kernel
/-- MIN 100, TM 1, qd 3. -/
theorem test_decode_bar_test : decodeTableWord 32 0xD2450FFF = some (.barTest true 5 3 (-1)) := by decide +kernel
/-- MIN 10. -/
theorem test_decode_cr_invr_d : decodeTableWord 32 0xD6146800 = some (.invrD 5 6 0x800) := by decide +kernel
/-- MIN 0011, RS 0. -/
theorem test_decode_hv_hvrot : decodeTableWord 32 0xD8CA0FFF = some (.hvrot 1 2 4095) := by decide +kernel
/-- MIN 0100, TT 12:5. -/
theorem test_decode_hv_hvtri : decodeTableWord 32 0xD90A7D00 = some (.hvtri 1 2 3 0xE8) := by decide +kernel
/-- MIN 0, IMM -1. -/
theorem test_decode_hvm_hvld : decodeTableWord 32 0xDC85FFF3 = some (.hvld 2 5 (-1) 3) := by decide +kernel
/-- MIN 1. -/
theorem test_decode_am_amclr : decodeTableWord 32 0xE228C000 = some (.amclr 5 6) := by decide +kernel
/-- MIN 1, K-1 3. -/
theorem test_decode_hvn_hvneark : decodeTableWord 32 0xE6560891 = some (.hvneark 10 3 2 9 1) := by decide +kernel
/-- MIN 100, V 1, SR 0x012. -/
theorem test_decode_sys_srd : decodeTableWord 32 0xEA0D0012 = some (.srd 6 true .rngstate) := by decide +kernel

/-! ## Words that R222 and R223 turn away -/

/-- The all-zero word. -/
theorem test_refused_major_zero : isRefused 0x00000000 .undef = true := by decide +kernel
/-- The all-ones word. -/
theorem test_refused_all_ones : isRefused 0xFFFFFFFF .undef = true := by decide +kernel
/-- INT MIN 111. -/
theorem test_refused_int_minor : isRefused 0x040000E0 .undef = true := by decide +kernel
/-- `nop` with a reserved bit. -/
theorem test_refused_ctrl_reserved : isRefused 0x6F800001 .rsvd = true := by decide +kernel
/-- `add.i64` with D 3. -/
theorem test_refused_odd_pair : isRefused 0x04310610 .rsvd = true := by decide +kernel
/-- `add.i64` with CB 1. -/
theorem test_refused_class_pair : isRefused 0x04210611 .undef = true := by decide +kernel

/-! ## Ill-formed terms (R222, R223) -/

theorem test_illformed_odd_pair : Instr.wellFormed (.add (.v 3) (.v 4) (.v 6) .i64) = false := by decide +kernel
theorem test_illformed_bound_wide : Instr.wellFormed (.add (.v 2) (.b 1) (.v 6) .i64) = false := by decide +kernel
theorem test_illformed_shift_odd : Instr.wellFormed (.shl (.v 2) (.v 5) (.v 1) .n64) = false := by decide +kernel
theorem test_illformed_shift_count_odd : Instr.wellFormed (.shlCount (.v 3) (.v 4) 1 .n64) = false := by decide +kernel
theorem test_illformed_div_odd : Instr.wellFormed (.div 2 4 7 .i64 0) = false := by decide +kernel
theorem test_illformed_mad_odd : Instr.wellFormed (.mad 2 3 5 7 .i64) = false := by decide +kernel
theorem test_illformed_abs_unsigned : Instr.wellFormed (.abs (.v 1) (.v 2) .n32) = false := by decide +kernel
theorem test_illformed_mov_odd : Instr.wellFormed (.mov (.v 3) (.v 2) .i64) = false := by decide +kernel
theorem test_illformed_popc_odd : Instr.wellFormed (.popc (.v 1) (.v 3) .i64) = false := by decide +kernel
theorem test_illformed_rand_odd : Instr.wellFormed (.rand (.v 1) .n64) = false := by decide +kernel
theorem test_illformed_sel_odd : Instr.wellFormed (.sel (.v 2) (.v 4) (.v 7) 0 true) = false := by decide +kernel
theorem test_illformed_cmp_odd : Instr.wellFormed (.cmp 1 (.v 2) (.v 3) .eq .i64) = false := by decide +kernel
theorem test_illformed_fcvt_same : Instr.wellFormed (.fcvt 1 2 .f32 .f32 .rn false) = false := by decide +kernel
theorem test_illformed_fcvt_integers : Instr.wellFormed (.fcvt 1 2 .i32 .n8 .rn false) = false := by decide +kernel
theorem test_illformed_fcvt_rs_integer : Instr.wellFormed (.fcvt 1 2 .i32 .f32 .rs false) = false := by decide +kernel
theorem test_illformed_fcvt_sat_integer : Instr.wellFormed (.fcvt 1 2 .i32 .f32 .rn true) = false := by decide +kernel
theorem test_illformed_fcvt_wide_odd : Instr.wellFormed (.fcvt 1 2 .i64 .f32 .rn false) = false := by decide +kernel
theorem test_illformed_red_float_and : Instr.wellFormed (.red .and .f32 1 2) = false := by decide +kernel
theorem test_illformed_match_odd : Instr.wellFormed (.matchLanes 1 3 true) = false := by decide +kernel
theorem test_illformed_ld_odd : Instr.wellFormed (.ldx 3 7 9 .b64 0 0) = false := by decide +kernel
theorem test_illformed_st_odd : Instr.wellFormed (.sta 3 (.v 7) .b64 false .grp .normal 0) = false := by decide +kernel
theorem test_illformed_stt_odd : Instr.wellFormed (.stt 3 (.v 7) .b64 0) = false := by decide +kernel
theorem test_illformed_atom_odd : Instr.wellFormed (.atom 3 (.v 7) .add true .rlx .grp 0) = false := by decide +kernel
theorem test_illformed_cas_odd : Instr.wellFormed (.cas 3 (.v 7) false .rlx .grp 0) = false := by decide +kernel
theorem test_illformed_cas_quad : Instr.wellFormed (.cas 6 (.v 7) true .rlx .grp 0) = false := by decide +kernel
theorem test_illformed_jmpi_odd : Instr.wellFormed (.jmpi 3) = false := by decide +kernel
theorem test_illformed_call_odd : Instr.wellFormed (.call 3 0) = false := by decide +kernel
theorem test_illformed_ret_odd : Instr.wellFormed (.ret 3) = false := by decide +kernel
theorem test_illformed_spawn_odd : Instr.wellFormed (.spawn 3 0) = false := by decide +kernel
theorem test_illformed_mma_sparse_15 : Instr.wellFormed (.mmaBf16 0 0 0 15 .vv true 0) = false := by decide +kernel
theorem test_illformed_mma_descriptor_63 : Instr.wellFormed (.mmaBf16 0 63 0 0 .dv false 0) = false := by decide +kernel
theorem test_illformed_cpyg_odd : Instr.wellFormed (.cpyg 1 2 3 0 0) = false := by decide +kernel
theorem test_illformed_hvbnd_0 : Instr.wellFormed (.hvbnd 0 0 0) = false := by decide +kernel
theorem test_illformed_hvneark_range : Instr.wellFormed (.hvneark 60 3 0 0 0) = false := by decide +kernel
theorem test_illformed_srd_group_lane : Instr.wellFormed (.srd 2 true .fpstat) = false := by decide +kernel
theorem test_illformed_srd_odd : Instr.wellFormed (.srd 3 true .trappc) = false := by decide +kernel
theorem test_illformed_swr_odd : Instr.wellFormed (.swr 3 true .trappc) = false := by decide +kernel
theorem test_illformed_event : Instr.wellFormed (.telemetrySample ⟨0, [], [], [], [], []⟩) = false := by decide +kernel
theorem test_wellformed_add : Instr.wellFormed (.add (.v 2) (.v 4) (.v 6) .i64) = true := by decide +kernel

/-! ## Single steps of the first thread after reset -/

/-- The thread and the group that `withFetchWord` places. -/
def tid0 : TId := ⟨0, 0, 0⟩
def gid0 : GId := ⟨0, 0, 0⟩

/-- What a test reads of the state after one step in which that thread runs a word. -/
def after {α : Type} (w : Nat) (f : Thread → Thread) (g : Group → Group) (read : State → α) (dflt : α) : α :=
  match step (((State.reset.withFetchWord 32 w).modThread tid0 f).modGroup gid0 g) with
  | .next s => read s
  | _ => dflt

/-- A lane register after one step from given v1 and v2. -/
def laneAfter (w : Nat) (x y : W32) (d : Reg) : W32 :=
  after w (fun t => { t with v := (t.v.set! 1 x).set! 2 y }) id (fun s => (s.thread tid0).v.get d) 0xDEADDEAD

/-- `add.i32 v3, v1, v2` wraps modulo 2^32 (R248). -/
theorem test_add_wraps : laneAfter 0x04304200 0xFFFFFFFF 2 3 = 1 := by decide +kernel
/-- `sub.i32 v1, v1, v2`: the source is the destination (R248). -/
theorem test_sub_in_place : laneAfter 0x04104220 5 7 1 = 0xFFFFFFFE := by decide +kernel
/-- `mulhi.i32 v3, v1, v2` of -1 and 2 is -1, the signed high half (R248). -/
theorem test_mulhi_signed : laneAfter 0x04304260 0xFFFFFFFF 2 3 = 0xFFFFFFFF := by decide +kernel
/-- `mulhi.n32` of the same operands is 1, the unsigned high half (R248). -/
theorem test_mulhi_unsigned : laneAfter 0x04304268 0xFFFFFFFF 2 3 = 1 := by decide +kernel
/-- `sar.i32` by 31 of the most negative word is -1 (R249). -/
theorem test_sar_fills : laneAfter 0x08305FC0 0x80000000 0 3 = 0xFFFFFFFF := by decide +kernel
/-- `movi v1, -1` sign-extends (R252). -/
theorem test_movi_extends : laneAfter 0x1C17FFFF 0 0 1 = 0xFFFFFFFF := by decide +kernel
/-- `mvh v1, 0x1234` keeps bits 15:0 (R252). -/
theorem test_mvh_keeps_low : laneAfter 0x1C181234 0xABCD5678 0 1 = 0x12345678 := by decide +kernel
/-- `cmp.lt.i32 p1, v1, v2` of 0xFFFF_FFFF and 0 is true, and `.n32` of the same is false (R258). -/
theorem test_cmp_signed : after 0x2C821200 (fun t => { t with v := t.v.set! 1 0xFFFFFFFF }) id
    (fun s => (s.thread tid0).p.getLsbD 1) false = true := by decide +kernel
theorem test_cmp_unsigned : after 0x2C821240 (fun t => { t with v := t.v.set! 1 0xFFFFFFFF }) id
    (fun s => (s.thread tid0).p.getLsbD 1) true = false := by decide +kernel
/-- R97's example: `fcvt.e4m3.f32.rs v2, v1` of 1.0625 with RNGSTATE 1 gives 0x38 and leaves 0x4082_2041. -/
theorem test_fcvt_rs_value : after 0x40204608 (fun t => { t with v := t.v.set! 1 0x3F880000, rng := 1 }) id
    (fun s => (s.thread tid0).v.get 2) 0 = 0x38 := by decide +kernel
theorem test_fcvt_rs_state : after 0x40204608 (fun t => { t with v := t.v.set! 1 0x3F880000, rng := 1 }) id
    (fun s => (s.thread tid0).rng) 0 = 0x40822041 := by decide +kernel
/-- `div.i32` by zero traps with cause DIVZ at the handler (R250, R198). -/
theorem test_div_zero_traps : after 0x0C304200 id (fun g => { g with trapvec := 0x300000 })
    (fun s => ((s.thread tid0).pc, (s.thread tid0).trappc, (s.thread tid0).trapcause.toNat % 256)) (0, 0, 0)
    = (0x300000, 0x200000, 0x09) := by decide +kernel
/-- The all-zero word traps with UNDEF (R222). -/
theorem test_zero_word_traps : after 0 id (fun g => { g with trapvec := 0x300000 })
    (fun s => ((s.thread tid0).pc, (s.thread tid0).trapcause.toNat % 256)) (0, 0) = (0x300000, 0x01) := by decide +kernel
/-- `hvseed h0, s1` with seed 1: word 0 is 0x4082_2041 (R379). -/
theorem test_hvseed_word0 : after 0xDAC00080 id (fun g => { g with s := g.s.set! 1 1 })
    (fun s => ((s.group gid0).h.get 0).toNat % 2 ^ 64) 0 = 0x40822041 := by decide +kernel
/-- `loop s1, -1` with a count of 0 wraps to 2^64 - 1 and branches (R327). -/
theorem test_loop_wraps : after 0xAA0FFFFF id (fun g => { g with s := g.s.set! 1 0 })
    (fun s => ((s.group gid0).s.get 1, (s.thread tid0).pc)) (0, 0) = (0xFFFFFFFFFFFFFFFF, 0x1FFFFC) := by decide +kernel
/-- `loop s1, -1` with a count of 1 falls through (R327). -/
theorem test_loop_ends : after 0xAA0FFFFF id (fun g => { g with s := g.s.set! 1 1 })
    (fun s => ((s.group gid0).s.get 1, (s.thread tid0).pc)) (7, 0) = (0, 0x200004) := by decide +kernel
/-- `exit` ends the thread (R303). -/
theorem test_exit_ends : after 0x6E000000 id id (fun s => (s.thread tid0).live) true = false := by decide +kernel

end Sys2Proof.Machine
end

