-- ==== Sys2Proof/Tests/Witness.lean ====
section
/-! SUPPORT. Witnesses: for every statement with hypotheses, small states and operands that meet them. -/

namespace Sys2Proof.Machine

set_option Elab.async false

/-! ## States -/

def t0 : TId := ⟨0, 0, 0⟩
def t1 : TId := ⟨0, 0, 1⟩
def g0 : GId := ⟨0, 0, 0⟩

/-- A thread that is ready at 0x200000. -/
def thread0 : Thread := { live := true, pc := 0x200000 }
/-- Its group: s1 to s4 hold addresses of WB, SM, HB and UC memory, s5 one of its scratchpad, s6 an odd address. -/
def group0 : Group :=
  { live := true, trapvec := 0x300000
    s := (((((((Vector.replicate 64 0).set! 1 0x3000).set! 2 0x40003000).set! 3 0x80003000).set! 4 0xC0100100).set! 5
      0x01F0000000000100).set! 6 0x3001).set! 7 1 }
/-- Partition 0 with the four memory types mapped from 0, 1, 2 and 3 GiB. -/
def part0 : Partition :=
  { fetchPart with
    ranges := ((fetchPart.ranges.set! 1 { en := true, base := 0x40000000, limit := 0x7FFFF000 }).set! 2
      { en := true, base := 0x1000000000000, limit := 0x100003FFFF000 }) }
/-- A state of partition 0 in which threads of the first group of core 0 issue. -/
def stateOf (ts : List Thread) (g : Group) : State :=
  { State.reset with
    mem := writeLE (writeLE (writeLE (fetchTables []) 0x102008 8 0x4000005F) 0x102010 8 0x100000000009F) 0x102018 8 0xF0000000000DF
    parts := [(0, part0)]
    clusters := [(0, { owner := some 0, gated := false }), (1, { owner := some 0 }), (2, { owner := some 0 }), (3, { owner := some 0 })]
    launches := [(0, { graph := 0, node := 0, part := 0, kernel := { entry := 0x200000, group := 16, frame := 64 } })]
    ctxs := [(0, {})]
    cores := [(0, { allocs := [⟨0, 0, 0, 0x1000⟩] })]
    groups := [(g0, g)]
    threads := ts.zipIdx.map fun p => ((⟨0, 0, p.2⟩ : TId), { p.1 with tti := p.2 })
    cur := some ⟨0, 0, List.range ts.length⟩ }
/-- One thread issues. -/
def base : State := stateOf [thread0] group0
/-- Its next long-latency result lands later. -/
def late : State := { base with plan := [.late] }
/-- Two threads issue as one portion. -/
def duo : State := stateOf [thread0, thread0] group0

/-! ## What they meet -/

/-- Nothing of a thread or its group is outstanding or poisoned. -/
abbrev Sound (s : State) (t : TId) : Prop :=
  (s.thread t).snap = none ∧ (s.thread t).outs = [] ∧ (∀ u ∈ groupThreads s (groupOf s t), (s.thread u).outs = []) ∧
  ((s.thread t).vPoison = 0 ∧ (s.thread t).pPoison = 0 ∧ (s.thread t).bPoison = 0) ∧
  (s.group (groupOf s t)).sPoison = 0 ∧ (s.group (groupOf s t)).qPoison = 0 ∧ (s.group (groupOf s t)).hPoison = 0

theorem ready_of_sound {s : State} {t : TId} (h : Sound s t) (i : Instr) : Ready s t i := by
  obtain ⟨a, b, c, ⟨d, e, f⟩, x, y, z⟩ := h
  refine ⟨a, b, c, ?_, ?_⟩
  · simp [laneBad, vBad, bBad, b, d, e, f]
  · simp [groupBad, sBad, hBad, pickWord, pickIndex, b, x, y, z]

theorem alone_of {s : State} {t : TId} (hc : s.cur = some ⟨t.core, t.bank, [t.slot]⟩) (hw : (s.thread t).wait = .none)
    (h : Sound s t) (i : Instr) : Alone s t i := ⟨hc, hw, ready_of_sound h i⟩

/-- A portion that issues, whatever the word. -/
abbrev Stands (s : State) (g : GId) (t : TId) (ts : List TId) : Prop :=
  packThreads s = ts ∧ ts.head? = some t ∧ ts.Nodup ∧ ∀ u ∈ ts, groupOf s u = g ∧ (s.thread u).wait = .none ∧ Sound s u

theorem portion_of {s : State} {g : GId} {t : TId} {ts : List TId} (h : Stands s g t ts) (i : Instr) : Portion s g t ts i :=
  ⟨h.1, h.2.1, h.2.2.1, fun u hu => ⟨(h.2.2.2 u hu).1, (h.2.2.2 u hu).2.1, ready_of_sound (h.2.2.2 u hu).2.2 i⟩⟩

theorem ok_of {ε α : Type} [DecidableEq α] {x : Except ε α} {l : α}
    (h : (match x with | .ok a => decide (a = l) | .error _ => false) = true) : x = .ok l := by
  cases x with
  | error e => simp at h
  | ok a => simpa using h

/-- What the threads that a state lists satisfy, and a thread that it does not list, holds of every thread. -/
theorem each_thread {s : State} (P : TId → Thread → Prop) (h0 : ∀ u, P u {}) (h : ∀ p ∈ s.threads, P p.1 p.2) (u : TId) :
    P u (s.thread u) := by
  have key : ∀ l : Tbl TId Thread, (∀ p ∈ l, P p.1 p.2) → P u (Tbl.getD l u {}) := by
    intro l
    induction l with
    | nil => exact fun _ => h0 u
    | cons p l ih =>
      intro h
      by_cases e : p.1 = u
      · simpa [Tbl.getD, Tbl.find, e] using h p (by simp)
      · simpa [Tbl.getD, Tbl.find, e] using ih fun q hq => h q (by simp [hq])
  exact key s.threads h

theorem free_bound (k : Reg8) : (({} : Thread).b.get k).bound = false := by decide +revert

theorem unwatched_of {s : State} {pa n : Nat}
    (h : ∀ p ∈ s.threads, ∀ k : Reg8, (p.2.b.get k).bound = true → overlaps pa n ((p.2.b.get k).pa / 4 * 4) 4 = false) :
    Unwatched s pa n :=
  each_thread (fun _ x => ∀ k : Reg8, (x.b.get k).bound = true → overlaps pa n ((x.b.get k).pa / 4 * 4) 4 = false)
    (fun _ k hk => absurd hk (by rw [free_bound]; decide)) h

theorem base_alone (i : Instr) : Alone base t0 i := alone_of (by decide +kernel) (by decide +kernel) (by decide +kernel) i
theorem late_alone (i : Instr) : Alone late t0 i := alone_of (by decide +kernel) (by decide +kernel) (by decide +kernel) i
theorem base_portion (i : Instr) : Portion base g0 t0 [t0] i := portion_of (by decide +kernel) i
theorem duo_portion (i : Instr) : Portion duo g0 t0 [t0, t1] i := portion_of (by decide +kernel) i

/-! ## Encodings -/

theorem witness_DecodeOfEncode : (Instr.fma 12 9 9 12).WellFormed := by decide +kernel
theorem witness_EncodeOfDecode : 0x34C24930 < 2 ^ 32 ∧ decode 0x34C24930 = .ok (.fma 12 9 9 12) :=
  ⟨by decide, ok_of (by decide +kernel)⟩

/-! ## Lane words: one thread that issues, for every word -/

/-- A thread with v1 = 7 and v2 = 3, b1 bound to the word at 0x3000, b2 marked at 0x3004 and b0 unbound. -/
def bound1 : Bound := { value := 5, bound := true, pa := 0x3000, va := 0x3000 }
def bound2 : Bound := { value := 9, bound := true, changed := true, pa := 0x3004, va := 0x3004 }
def threadB : Thread :=
  { thread0 with v := ((thread0.v.set! 1 7).set! 2 3).set! 4 0x3000, b := (thread0.b.set! 1 bound1).set! 2 bound2 }
/-- The bound thread issues. -/
def tied : State := stateOf [threadB] group0
/-- The same with nothing marked. -/
def quiet : State := stateOf [{ threadB with b := thread0.b.set! 1 bound1 }] group0
theorem tied_alone (i : Instr) : Alone tied t0 i := alone_of (by decide +kernel) (by decide +kernel) (by decide +kernel) i
theorem quiet_alone (i : Instr) : Alone quiet t0 i := alone_of (by decide +kernel) (by decide +kernel) (by decide +kernel) i

theorem takes_v (s : State) (t : TId) (r : Reg) : Takes s t (.v r) := trivial
theorem tied_takes : Takes tied t0 (.b 1) := by unfold Takes Older; decide +kernel
theorem tied_takes_free : Takes tied t0 (.b 0) := by unfold Takes Older; decide +kernel

/-- Every lane word on lane registers, on an unbound and on a bound snapshot. -/
theorem witness_ArithmeticAndShifts (i : Instr) (r : Reg) :
    Alone tied t0 i ∧ Takes tied t0 (.v r) ∧ Takes tied t0 (.b 0) ∧ Takes tied t0 (.b 1) :=
  ⟨tied_alone i, takes_v _ _ r, tied_takes_free, tied_takes⟩
theorem witness_LaneWords (i : Instr) (r : Reg) : Alone base t0 i ∧ Takes base t0 (.v r) := ⟨base_alone i, takes_v _ _ r⟩
theorem witness_OneOperandAndSelect (i : Instr) : Alone tied t0 i ∧ Takes tied t0 (.b 1) := ⟨tied_alone i, tied_takes⟩
theorem witness_FloatArithmetic (i : Instr) : Alone base t0 i := base_alone i
theorem witness_FloatCompareClassConvert (i : Instr) : Alone base t0 i := base_alone i
theorem witness_Divisions (i : Instr) :
    (Alone tied t0 i ∧ divisor .i32 2 tied t0 ≠ 0 ∧ tied.plan.headD .now ≠ .late) ∧
    (Alone { tied with plan := [.late] } t0 i ∧ divisor .n64 2 tied t0 ≠ 0) :=
  ⟨⟨tied_alone i, by decide +kernel⟩, alone_of (by decide +kernel) (by decide +kernel) (by decide +kernel) i, by decide +kernel⟩
theorem witness_SpecialFunctions (i : Instr) :
    Alone base t0 i ∧ base.plan.headD .now ≠ .late ∧ Alone late t0 i ∧ late.plan.headD .now = .late :=
  ⟨base_alone i, by decide +kernel, late_alone i, by decide +kernel⟩

/-! ## Collectives -/

/-- A group of a width gathers: its first thread waits and its second arrives. -/
def meeting (w : Nat) (dom : Domain) : State :=
  { stateOf [{ thread0 with wait := .collective dom }, thread0] { group0 with width := w } with cur := some ⟨0, 0, [1]⟩ }

/-- A group of which some threads arrive and the others wait, whatever the word. -/
abbrev Gathers (s : State) (g : GId) : Prop :=
  (s.group g).live = true ∧ ((s.group g).width = 16 ∨ (s.group g).width = 32 ∨ (s.group g).width = 64) ∧ packThreads s ≠ [] ∧
  (∀ u ∈ packThreads s, u ∈ liveThreads s g) ∧
  (∀ u ∈ liveThreads s g, u ∈ packThreads s ∨ (s.thread u).wait = .collective .group) ∧
  (∀ u ∈ liveThreads s g, ∀ v ∈ liveThreads s g, (s.thread u).pc = (s.thread v).pc) ∧
  ∀ u ∈ liveThreads s g, groupOf s u = g ∧ Sound s u

theorem gathered_of {s : State} {g : GId} (h : Gathers s g) (i : Instr) : Gathered s g i := by
  obtain ⟨a, b, c, d, e, f, k⟩ := h
  exact ⟨a, b, c, d, e, f, fun u hu => ⟨(k u hu).1, ready_of_sound (k u hu).2 i⟩⟩

theorem duo_gathered (i : Instr) : Gathered duo g0 i := gathered_of (by decide +kernel) i
theorem meeting_gathered (i : Instr) : Gathered (meeting 64 .group) g0 i := gathered_of (by decide +kernel) i

theorem witness_ShuffleMovesLanes (i : Instr) : Gathered duo g0 i ∧ Gathered (meeting 64 .group) g0 i :=
  ⟨duo_gathered i, meeting_gathered i⟩
theorem witness_VotesAndMatches (i : Instr) :
    Gathered duo g0 i ∧ maskFits duo g0 1 ∧ Gathered (meeting 64 .group) g0 i ∧ maskFits (meeting 64 .group) g0 2 :=
  ⟨duo_gathered i, by unfold maskFits; decide +kernel, meeting_gathered i, by unfold maskFits; decide +kernel⟩
theorem witness_FoldsAcrossLanes (i : Instr) : Gathered duo g0 i ∧ Gathered (meeting 64 .group) g0 i :=
  ⟨duo_gathered i, meeting_gathered i⟩

/-! ## Memory -/

theorem calm_of {s : State} {t : TId} (h : (∀ p ∈ s.threads, ∀ e ∈ p.2.sb, e.held = none) ∧ s.narrow = [] ∧
    (s.thread t).directoryError = false ∧ ∀ k : Reg8, (((s.thread t).b.get k).bound && ((s.thread t).b.get k).changed) = false) : Calm s t :=
  ⟨h.1, h.2.1, h.2.2.1, h.2.2.2⟩
/-- No thread has a store in its buffer, and no tile operation runs. -/
abbrev Empty (s : State) : Prop := (∀ p ∈ s.threads, p.2.sb = []) ∧ s.narrow = [] ∧ ∀ p ∈ s.groups, p.2.tile = none
theorem inPlace_of {s : State} (h : Empty s) (t : TId) (ty : MemTy) (pa n : Nat) : InPlace s t ty pa n :=
  ⟨fun p hp e he => by simp [h.1 p hp] at he, fun _ => h.2.2⟩
theorem older_of {s : State} (h : Empty s) : Older s := fun p hp e he => by simp [h.1 p hp] at he
theorem releases_of {s : State} {t : TId} (h : Empty s) (hb : (s.thread t).sb = [] ∧ heldStores s t.core = []) (sc : Sc) : Releases s t sc :=
  ⟨hb.2, by simp [h.2.1], by simp [Unmarked, hb.1], by simp [hb.1]⟩
theorem base_calm : Calm base t0 := calm_of (by decide +kernel)
theorem base_empty : Empty base := by decide +kernel
theorem quiet_empty : Empty quiet := by decide +kernel
theorem quiet_calm : Calm quiet t0 := calm_of (by decide +kernel)

/-- What `Reaches` asks beside the translation. -/
abbrev Passes (s : State) (t : TId) (va : W64) (k : Access) (pa : Nat) (ty : MemTy) : Prop :=
  peerDown s (issuerOf s (groupOf s t)).part pa = false ∧ peerRefuses s (issuerOf s (groupOf s t)).part pa = false ∧
  lostStop s (issuerOf s (groupOf s t)) va.toNat pa k = none ∧ (s.thread t).struck ≠ some (pa / 128) ∧ gatedTarget s t.core pa = none ∧
  deviceStop s (issuerOf s (groupOf s t)) pa va.toNat k = none ∧ parksAt s t pa ty = false ∧ stackOwner s t va.toNat = none ∧ Tbl.find s.snoopFilter (pa / 128) = none
theorem reaches_of {s : State} {t : TId} {va : W64} {k : Access} {pa : Nat} {ty : MemTy}
    (x : translate s (issuerOf s (groupOf s t)) va.toNat k = .ok (pa, ty)) (h : Passes s t va k pa ty) : Reaches s t va k pa ty :=
  ⟨x, h.1, h.2.1, h.2.2.1, h.2.2.2.1, h.2.2.2.2.1, h.2.2.2.2.2.1, h.2.2.2.2.2.2.1, h.2.2.2.2.2.2.2.1, h.2.2.2.2.2.2.2.2⟩

theorem base_wb (k : Access) : Reaches base t0 0x3000 k 0x3000 .wb := by
  cases k <;> exact reaches_of (by rfl) (by decide +kernel)
theorem base_sm : Reaches base t0 0x40003000 .load 0x40003000 .sm ∧ Reaches base t0 0x40003000 .store 0x40003000 .sm :=
  ⟨reaches_of (by rfl) (by decide +kernel), reaches_of (by rfl) (by decide +kernel)⟩
theorem base_hb : Reaches base t0 0x80003000 .load 0x1000000003000 .hb ∧ Reaches base t0 0x80003000 .store 0x1000000003000 .hb :=
  ⟨reaches_of (by rfl) (by decide +kernel), reaches_of (by rfl) (by decide +kernel)⟩
theorem base_uc : Reaches base t0 0xC0100100 .load (spadAddr 0 0x100) .uc := reaches_of (by rfl) (by decide +kernel)
theorem base_spad (k : Access) : Reaches base t0 0x01F0000000000100 k (spadAddr 0 0x100) .spad := by
  cases k <;> exact reaches_of (by rfl) (by decide +kernel)

theorem unbound_unwatched {s : State} (h : ∀ p ∈ s.threads, ∀ k : Reg8, (p.2.b.get k).bound = false) (pa n : Nat) : Unwatched s pa n :=
  unwatched_of fun p hp k hk => by simp [h p hp k] at hk
theorem base_unwatched (pa n : Nat) : Unwatched base pa n := unbound_unwatched (by decide +kernel) pa n
theorem late_wb : Reaches late t0 0x3000 .load 0x3000 .wb := reaches_of (by rfl) (by decide +kernel)
theorem late_calm : Calm late t0 := calm_of (by decide +kernel)
theorem late_empty : Empty late := by decide +kernel

/-- s1 to s5 give one address of each type, for every word and both ways to land. -/
theorem witness_LoadsReadMemory (i : Instr) :
    (Alone base t0 i ∧ (base.thread t0).early = [] ∧ (laneAddr (.s 1) 0 base t0).toNat % 8 = 0 ∧
      Reaches base t0 (laneAddr (.s 1) 0 base t0) .load 0x3000 .wb ∧ InPlace base t0 .wb 0x3000 8 ∧
      Reaches base t0 (laneAddr (.s 4) 0 base t0) .load (spadAddr 0 0x100) .uc ∧ InPlace base t0 .uc (spadAddr 0 0x100) 8 ∧
      Reaches base t0 (laneAddr (.s 5) 0 base t0) .load (spadAddr 0 0x100) .spad ∧ Calm base t0 ∧ base.plan.headD .now = .now) ∧
    Alone late t0 i ∧ (late.thread t0).early = [] ∧ Reaches late t0 (laneAddr (.s 1) 0 late t0) .load 0x3000 .wb ∧
    InPlace late t0 .wb 0x3000 8 ∧ Calm late t0 ∧ late.plan.headD .now = .late :=
  ⟨⟨base_alone i, by decide +kernel, by decide +kernel, base_wb .load, inPlace_of base_empty .., base_uc, inPlace_of base_empty ..,
      base_spad .load, base_calm, by decide +kernel⟩,
    late_alone i, by decide +kernel, late_wb, inPlace_of late_empty .., late_calm, by decide +kernel⟩
theorem unmarked_of {s : State} {t : TId} (h : (s.thread t).sb = []) : Unmarked s t := by simp [Unmarked, h]
theorem base_unmarked : Unmarked base t0 := unmarked_of (by decide +kernel)
theorem witness_StoresEnterMemory (i : Instr) (sc : Sc) :
    Alone base t0 i ∧ Reaches base t0 0x3000 .store 0x3000 .wb ∧ Reaches base t0 0x80003000 .store 0x1000000003000 .hb ∧
    Reaches base t0 0x01F0000000000100 .store (spadAddr 0 0x100) .spad ∧ Reaches base t0 0x40003000 .store 0x40003000 .sm ∧
    base.plan.headD .now ≠ .walk ∧ Releases base t0 sc ∧ Unwatched base 0x3000 8 ∧ Older base ∧ (base.thread t0).fence = none ∧
    (base.thread t0).sb = [] :=
  ⟨base_alone i, base_wb .store, base_hb.2, base_spad .store, base_sm.2, by decide +kernel, releases_of base_empty (by decide +kernel) sc,
    base_unwatched _ _, older_of base_empty, by decide +kernel⟩
theorem witness_StoresEnterMemory_own (i : Instr) :
    Alone quiet t0 i ∧ (laneAddr (.s 1) 0 quiet t0).toNat % 4 = 0 ∧ Reaches quiet t0 (laneAddr (.s 1) 0 quiet t0) .store 0x3000 .wb ∧
    Older quiet ∧ quiet.plan.headD .now ≠ .walk ∧ ((quiet.thread t0).b.get 1).bound = true ∧ ((quiet.thread t0).b.get 1).ovf = false ∧
    ((quiet.thread t0).b.get 1).pa / 4 = 0x3000 / 4 :=
  ⟨quiet_alone i, by decide +kernel, reaches_of (by rfl) (by decide +kernel), older_of quiet_empty, by decide +kernel⟩
theorem witness_AtomicsReadModifyWrite (i : Instr) :
    Alone base t0 i ∧ Reaches base t0 (laneAddr (.s 1) 0 base t0) .rmw 0x3000 .wb ∧
    Reaches base t0 (laneAddr (.s 5) 0 base t0) .rmw (spadAddr 0 0x100) .spad ∧ base.plan.headD .now = .now ∧
    ((base.thread t0).sb = [] ∧ (base.thread t0).fence = none) ∧ Calm base t0 ∧ Unwatched base 0x3000 8 ∧ memPoisoned base 0x3000 8 = false ∧ Memory.wf base.mem = true :=
  ⟨base_alone i, base_wb .rmw, base_spad .rmw, by decide +kernel, by decide +kernel, base_calm, base_unwatched _ _, by decide +kernel,
    by decide +kernel⟩

/-- The thread has a frame at 0x3000 and one choice point. -/
def choice0 : Choice :=
  { saved := [], mask := 0, rpc := 3, dreg := 7, tmark := 0, stolen := false, owner := 0, nxt := 1, fin := 4, pw := 0 }
def framed : State := stateOf [{ thread0 with framebase := 0x3000, stk := [choice0] }] group0
theorem framed_empty : Empty framed := by decide +kernel
theorem framed_alone (i : Instr) : Alone framed t0 i := alone_of (by decide +kernel) (by decide +kernel) (by decide +kernel) i

theorem witness_FencesAndTrailedStores (i : Instr) :
    (Alone base t0 i ∧ Calm base t0 ∧ (base.thread t0).sb = [] ∧ Unmarked base t0) ∧ (framed.thread t0).early = [] ∧
    InPlace framed t0 .wb 0x3000 4 ∧ Older framed ∧ (framed.thread t0).fence = none ∧
    Alone framed t0 i ∧ (trailedAddr (.s 1) 0 4 framed t0).toNat % 4 = 0 ∧ (framed.thread t0).framebase.toNat ≤ 0x3000 ∧
    Reaches framed t0 (trailedAddr (.s 1) 0 4 framed t0) .store 0x3000 .wb ∧
    translate framed (issuerOf framed (groupOf framed t0)) 0x3000 .load = .ok (0x3000, .wb) ∧
    (framed.thread t0).trl.length < 2048 ∧ Unwatched framed 0x3000 4 ∧ (framed.launch (launchOf framed t0)).kernel.frame = 64 :=
  ⟨⟨base_alone i, base_calm, by decide +kernel, base_unmarked⟩, by decide +kernel, inPlace_of framed_empty .., older_of framed_empty, by decide +kernel,
    framed_alone i, by decide +kernel, by decide +kernel,
    reaches_of (by rfl) (by decide +kernel), by rfl, by decide +kernel, unwatched_of (by decide +kernel), by decide +kernel⟩

theorem base_can : CanTrap base t0 := by unfold CanTrap; decide +kernel
theorem witness_InstructionTraps :
    (∀ i, Alone base t0 i) ∧ CanTrap base t0 ∧ divisor .i32 0 base t0 = 0 ∧ divisor .n64 2 base t0 = 0 ∧
    misalignedLane (.lda 0 (.s 6) .b32 false .dev .normal 0 0) base t0 ∧
    Reaches base t0 (laneAddr (.s 5) 0 base t0) .load (spadAddr 0 0x100) .spad ∧
    Reaches base t0 (laneAddr (.s 2) 0 base t0) .load 0x40003000 .sm ∧ base.plan.headD .now ≠ .walk :=
  ⟨base_alone, base_can, by decide +kernel, by decide +kernel, by unfold misalignedLane; decide +kernel, base_spad .load, base_sm.1,
    by decide +kernel⟩

/-! ## Bound registers -/

theorem witness_RefreshAndWait :
    (∀ i, Alone tied t0 i) ∧ (∀ p ∈ tied.threads, p.2.sb = []) ∧ (tied.thread t0).directoryError = false ∧
    refreshFault tied t0 = none ∧ tied.snoopFilter = [] ∧ (tied.thread t0).early = [] ∧ awaits (tied.thread t0) 2 = true ∧
    (∀ k, awaits (tied.thread t0) k = true →
      boundTy ((tied.thread t0).b.get k).pa = .wb ∧ memPoisoned tied ((tied.thread t0).b.get k).pa 4 = false) ∧
    (∀ i, Alone quiet t0 i) ∧ Calm quiet t0 ∧ readS quiet t0 0 = 0 ∧ readS quiet t0 1 ≠ 0 ∧
    ((quiet.thread t0).b.get 1).bound = true ∧ ((quiet.thread t0).b.get 1).changed = false :=
  ⟨tied_alone, by decide +kernel, by decide +kernel, by decide +kernel, by decide +kernel, by decide +kernel, by decide +kernel, by decide +kernel,
    quiet_alone, quiet_calm, by decide +kernel⟩
theorem witness_BoundWords (i : Instr) (sc : Sc) :
    Alone quiet t0 i ∧ quiet.plan.headD .now = .now ∧ ((quiet.thread t0).b.get 0).bound = false ∧
    boundFault quiet t0 ((quiet.thread t0).b.get 1) .rmw = none ∧ boundFault quiet t0 ((quiet.thread t0).b.get 1) .store = none ∧
    memPoisoned quiet 0x3000 4 = false ∧ Calm quiet t0 ∧ (quiet.thread t0).sb = [] ∧ (quiet.thread t0).fence = none ∧
    stackOwner quiet t0 0x3000 = none ∧ Releases quiet t0 sc ∧ Older quiet ∧
    Alone base t0 i ∧ Reaches base t0 (laneAddr (.s 1) 0 base t0) .load 0x3000 .wb ∧ InPlace base t0 .wb 0x3000 4 ∧
    (loadValue base t0 .wb 0x3000 4).2 = false ∧ (base.thread t0).early = [] ∧
    ∀ u, ∀ j : Reg8, ¬(u = t0 ∧ j = 1) → ((quiet.thread u).b.get j).bound = true → ((quiet.thread u).b.get j).pa / 4 ≠ 0x3000 / 4 :=
  ⟨quiet_alone i, by decide +kernel, by decide +kernel, by decide +kernel, by decide +kernel, by decide +kernel, quiet_calm, by decide +kernel,
    by decide +kernel, by decide +kernel, releases_of quiet_empty (by decide +kernel) sc, older_of quiet_empty, base_alone i, base_wb .load,
    inPlace_of base_empty .., by decide +kernel, by decide +kernel,
    each_thread (fun u x => ∀ j : Reg8, ¬(u = t0 ∧ j = 1) → (x.b.get j).bound = true → (x.b.get j).pa / 4 ≠ 0x3000 / 4)
      (fun _ j _ hj => absurd hj (by rw [free_bound]; decide)) (by decide +kernel)⟩

/-! ## Control and search -/

/-- A thread in its handler, which may return to 0x200100; v4 to v7 hold 0x200102 and 0x200104. -/
def handling : State :=
  stateOf [{ thread0 with trappc := 0x200100, trapcause := 0x10003, v := ((thread0.v.set! 2 0x200100).set! 4 0x200102).set! 6 0x200104 }] group0
/-- No trap is being handled, and a `land` stands at 0x200104. -/
def landing : State :=
  let s := stateOf [{ thread0 with v := ((thread0.v.set! 2 0x200100).set! 4 0x200102).set! 6 0x200104 }] group0
  { s with mem := writeLE s.mem 0x200104 4 (encode .land) }
theorem witness_BranchesAndJumps :
    (∀ i, Alone handling t0 i) ∧ (readPair handling t0 2).toNat % 4 = 0 ∧ readPair handling t0 2 = (handling.thread t0).trappc ∧
    readPair handling t0 6 = (handling.thread t0).trappc + 4 ∧ (handling.thread t0).trapcause.getLsbD 16 = true ∧
    (∀ i, Alone landing t0 i) ∧ CanTrap landing t0 ∧ (readPair landing t0 4).toNat % 4 ≠ 0 ∧
    translate landing (issuerOf landing (groupOf landing t0)) (readPair landing t0 6).toNat .exec = .ok (0x200104, .wb) ∧
    placeOf 0x200104 = .hbm ∧ readLE landing.mem 0x200104 4 = encode .land ∧
    translate landing (issuerOf landing (groupOf landing t0)) (readPair landing t0 2).toNat .exec = .ok (0x200100, .wb) ∧
    readLE landing.mem 0x200100 4 ≠ encode .land :=
  ⟨alone_of (by decide +kernel) (by decide +kernel) (by decide +kernel), by decide +kernel, by decide +kernel, by decide +kernel,
    by decide +kernel, alone_of (by decide +kernel) (by decide +kernel) (by decide +kernel), by unfold CanTrap; decide +kernel,
    by decide +kernel, by rfl, by decide +kernel, by decide +kernel, by rfl, by decide +kernel⟩

/-- A bin of the entry at the next word. -/
def bin0 : Bin := { entry := 0x200004, launch := 0, team := 0, recs := [] }
def binned : State := { base with cores := [(0, { bins := [(2, bin0)] })] }
theorem witness_ExitAndSpawn (i : Instr) :
    Alone base t0 i ∧ Alone binned t0 i ∧ Calm binned t0 ∧ Tbl.find (binned.core t0.core).bins 2 = some bin0 ∧
    (∀ e ∈ (binned.thread t0).sb, isNarrow e.sc) ∧ binFor binned t0.core 0 0 (targetOf binned t0 1) = some 2 ∧ bin0.recs.length + 1 < (binned.launch bin0.launch).kernel.group :=
  ⟨base_alone i, alone_of (by decide +kernel) (by decide +kernel) (by decide +kernel) i, calm_of (by decide +kernel), by decide +kernel⟩

theorem searches_of {s : State} {t : TId} (h : ∀ i, Alone s t i) (e : (s.thread t).trellisError = false) (i : Instr) : Searches s t i :=
  ⟨h i, e⟩
/-- The last alternative of a thread's only choice point is left. -/
def last : State := stateOf [{ thread0 with stk := [{ choice0 with nxt := 3 }] }] group0
theorem witness_FailResumesChoice (i : Instr) :
    (Searches base t0 i ∧ (base.thread t0).stk = [] ∧ (base.thread t0).trl = []) ∧
    (Searches framed t0 i ∧ choice0.spoiled = false ∧ (framed.thread t0).stk = choice0 :: [] ∧
      choice0.nxt < choice0.fin ∧ choice0.pw = 0 ∧ (framed.thread t0).trl.length = choice0.tmark) ∧
    Searches last t0 i ∧ (last.thread t0).stk = { choice0 with nxt := 3 } :: [] :=
  ⟨⟨searches_of base_alone (by decide +kernel) i, by decide +kernel⟩, ⟨searches_of framed_alone (by decide +kernel) i, by decide +kernel⟩,
    searches_of (alone_of (by decide +kernel) (by decide +kernel) (by decide +kernel)) (by decide +kernel) i, by decide +kernel⟩

/-- s0 = 0, s7 = 1, s8 = 2 alternatives; s0 masks nothing. A thread whose stack is full. -/
def full : State := stateOf [{ thread0 with stk := List.replicate 128 choice0 }] { group0 with s := group0.s.set! 8 2 }
def near : State := stateOf [{ thread0 with stk := List.replicate 127 choice0 }] { group0 with s := group0.s.set! 8 2 }
theorem full_alone (i : Instr) : Alone full t0 i := alone_of (by decide +kernel) (by decide +kernel) (by decide +kernel) i
theorem near_alone (i : Instr) : Alone near t0 i := alone_of (by decide +kernel) (by decide +kernel) (by decide +kernel) i
theorem witness_ChoicePoints (i : Instr) :
    (Searches near t0 i ∧ (near.launch (launchOf near t0)).kernel.frame ≠ 0 ∧ onesOf (readS near t0 0) ≤ 16 ∧
      (readS near t0 0).toNat % 2 ^ 24 = 0 ∧ (readS near t0 7).toNat % 2 ^ 24 = 1 ∧ 2 ≤ (readS near t0 8).toNat % 2 ^ 24 ∧
      (near.thread t0).stk.length < 128) ∧
    (Searches full t0 i ∧ (full.thread t0).stk.length = 128 ∧ CanTrap full t0) ∧
    Searches base t0 i ∧ (laneAddr (.s 1) 0 base t0).toNat % 8 = 0 ∧ Reaches base t0 (laneAddr (.s 1) 0 base t0) .store 0x3000 .wb ∧
    base.plan.headD .now ≠ .walk ∧ Unwatched base 0x3000 8 ∧ Releases base t0 .team ∧ Older base ∧ (base.thread t0).fence = none :=
  ⟨⟨searches_of near_alone (by decide +kernel) i, by decide +kernel⟩,
    ⟨searches_of full_alone (by decide +kernel) i, by decide +kernel, by unfold CanTrap; decide +kernel⟩,
    searches_of base_alone (by decide +kernel) i, by decide +kernel, base_wb .store, by decide +kernel, base_unwatched _ _,
    releases_of base_empty (by decide +kernel) _, older_of base_empty, by decide +kernel⟩

/-- The second thread has alternatives 1 to 3 left at its oldest choice point; their frames are at 0x3000 and 0x4000. -/
def stealing : State :=
  { stateOf [{ thread0 with framebase := 0x3000 }, { thread0 with framebase := 0x4000, stk := [choice0] }] group0 with
    cur := some ⟨0, 0, [0]⟩
    order := { before := [(.thread 0 0 0, [(.thread 0 0 1, 0)])] }
    launches := [(0, { graph := 0, node := 0, part := 0, kernel := { entry := 0x200000, group := 16, frame := 8 } })] }
theorem stealing_alone (i : Instr) : Alone stealing t0 i := alone_of (by decide +kernel) (by decide +kernel) (by decide +kernel) i
theorem witness_StealSharesAlternatives (i : Instr) :
    (Searches framed t0 i ∧ (framed.launch (launchOf framed t0)).kernel.frame ≠ 0 ∧ Memory.wf framed.mem = true ∧ (framed.thread t0).stk ≠ []) ∧
    (Searches stealing t0 i ∧ (stealing.thread t0).stk = [] ∧ mayGive stealing t0 t1 ∧ (∀ v, mayGive stealing t0 v → v = t1) ∧
      (teamThreads stealing 0 0).Nodup ∧ (stealing.thread t1).stk.getLast? = some choice0 ∧ choice0.pw = 0 ∧ choice0.mask = 0 ∧
      choice0.spoiled = false ∧ (beforeOf stealing (actorOf stealing t0)).holds (actorOf stealing t1) choice0.madeAt = true ∧ ((stealing.thread t0).sb = [] ∧ (stealing.thread t1).sb = [] ∧ heldStores stealing 0 = []) ∧
      (∀ c ∈ stealing.ctxs, c.2.spilled = []) ∧
      framePlaces stealing t0 0x4000 .load 8 = .ok ((List.range 8).map (0x4000 + ·)) ∧
      framePlaces stealing t0 0x3000 .store 8 = .ok ((List.range 8).map (0x3000 + ·))) := by
  have team : teamThreads stealing 0 0 = [t0, t1] := by decide +kernel
  refine ⟨⟨searches_of framed_alone (by decide +kernel) i, by decide +kernel⟩, searches_of stealing_alone (by decide +kernel) i,
    by decide +kernel, ⟨by decide +kernel, by decide +kernel, by decide +kernel, choice0, by decide +kernel, by decide +kernel⟩, ?_,
    by decide +kernel, by decide +kernel, by decide +kernel, by decide +kernel, by decide +kernel, by decide +kernel, by decide +kernel,
    by decide +kernel, ok_of (by decide +kernel), ok_of (by decide +kernel)⟩
  intro v hv
  have hm : v ∈ teamThreads stealing 0 0 := hv.1
  rw [team] at hm
  simp only [List.mem_cons, List.not_mem_nil, or_false] at hm
  exact hm.resolve_left hv.2.1

/-! ## Words of a group -/

theorem duo_calm : Calm duo t0 ∧ Calm duo t1 := ⟨calm_of (by decide +kernel), calm_of (by decide +kernel)⟩
theorem duo_empty : Empty duo := by decide +kernel
theorem duo_unwatched (pa n : Nat) : Unwatched duo pa n := unbound_unwatched (by decide +kernel) pa n
theorem duo_wb (k : Access) : Reaches duo t0 0x3000 k 0x3000 .wb := by cases k <;> exact reaches_of (by rfl) (by decide +kernel)
theorem duo_can : ∀ u ∈ [t0, t1], CanTrap duo u := by unfold CanTrap; decide +kernel

theorem witness_ScalarArithmeticAndWords (i : Instr) : Portion duo g0 t0 [t0, t1] i := duo_portion i
/-- The portion's uniform load lands later. -/
def duoLate : State := { duo with plan := [.late] }
theorem witness_UniformMemory (i : Instr) :
    (Portion duo g0 t0 [t0, t1] i ∧ (uniformAddr 1 0 duo t0).toNat % 8 = 0 ∧ Reaches duo t0 (uniformAddr 1 0 duo t0) .load 0x3000 .wb ∧
      InPlace duo t0 .wb 0x3000 8 ∧ (∀ u ∈ [t0, t1], Calm duo u) ∧ duo.plan.headD .now = .now ∧ (duo.thread t0).early = []) ∧
    (Portion duoLate g0 t0 [t0, t1] i ∧ Reaches duoLate t0 (uniformAddr 1 0 duoLate t0) .load 0x3000 .wb ∧
      InPlace duoLate t0 .wb 0x3000 8 ∧ duoLate.plan.headD .now = .late) ∧
    Reaches duo t0 (uniformAddr 1 0 duo t0) .store 0x3000 .wb ∧ duo.plan.headD .now ≠ .walk ∧ Unwatched duo 0x3000 8 ∧
    Older duo ∧ (duo.thread t0).fence = none ∧ ∀ u ∈ [t0, t1], Releases duo u .dev ∧ (duo.thread u).sb = [] := by
  refine ⟨⟨duo_portion i, by decide +kernel, duo_wb .load, inPlace_of duo_empty .., ?_, by decide +kernel⟩,
    ⟨portion_of (by decide +kernel) i, reaches_of (by rfl) (by decide +kernel), inPlace_of (by decide +kernel) .., by decide +kernel⟩,
    duo_wb .store, by decide +kernel, duo_unwatched _ _, older_of duo_empty, by decide +kernel, ?_⟩
  · simp [duo_calm.1, duo_calm.2]
  · intro u hu
    exact ⟨releases_of duo_empty (by revert u; decide +kernel) _, by revert u; decide +kernel⟩

/-- A schedule table with its cursor at an entry, and one with its cursor past the end. -/
def tabled (n : Nat) : State := { duo with cores := [(0, { tables := [(0, { entries := [some 7], cursor := n })] })] }
theorem witness_UniformControl (i : Instr) :
    Portion duo g0 t0 [t0, t1] i ∧ Portion (tabled 0) g0 t0 [t0, t1] i ∧
    (Tbl.getD ((tabled 0).core 0).tables 0 { entries := [] }).entries[0]? = some (some 7) ∧ Portion (tabled 1) g0 t0 [t0, t1] i :=
  ⟨duo_portion i, portion_of (by decide +kernel) i, by decide +kernel, portion_of (by decide +kernel) i⟩

/-- Partition 0 with a debugger that halts a scope. -/
def debugger0 (c : HaltScope) : Debugger := { handle := 1, mailbox := 0, scope := c, area := 0x5000, vector := 3 }
def watched (c : HaltScope) : State := { duo with parts := [(0, { part0 with debugger := some (debugger0 c) })] }
/-- s7 names group 0 of team 0. -/
theorem witness_SystemTraps (i : Instr) :
    Portion duo g0 t0 [t0, t1] i ∧ (∀ u ∈ [t0, t1], CanTrap duo u) ∧ partOfCore duo 0 = some 0 ∧ (duo.part 0).debugger = none ∧
    (∀ c : HaltScope, Portion (watched c) g0 t0 [t0, t1] i ∧ partOfCore (watched c) 0 = some 0 ∧
      ((watched c).part 0).debugger = some (debugger0 c)) ∧
    (readS duo t0 0).toNat / 2 ^ 48 = 0 ∧ (readS duo t0 5).toNat / 2 ^ 48 ≠ 0 ∧ heldStores duo 0 = [] ∧
    (∀ u ∈ [t0, t1], (duo.thread u).sb = []) ∧ groupNamed duo 0 0 0 = some g0 :=
  ⟨duo_portion i, duo_can, by decide +kernel, by decide +kernel,
    fun c => by cases c <;> exact ⟨portion_of (by decide +kernel) i, by decide +kernel, by decide +kernel⟩, by decide +kernel⟩
theorem witness_SystemRegisters (i : Instr) :
    Portion duo g0 t0 [t0, t1] i ∧ sysValue duo t0 .fpstat = some 0 ∧ sysValue duo t0 .partid = some 0 ∧ sysValue duo t0 (.pmc 1) = some 0 ∧
    SysReg.isThread .rngstate = true ∧ SysReg.isThread .fpstat = false :=
  ⟨duo_portion i, by decide +kernel⟩

/-! ## Domains -/

/-- The threads of a domain that meet, whatever the word. -/
abbrev Joins (s : State) (dom : Domain) (t : TId) (ts : List TId) : Prop :=
  ts.head? = some t ∧ ts.Nodup ∧ packThreads s ≠ [] ∧ (∀ u ∈ packThreads s, u ∈ ts) ∧
  (∀ u ∈ ts, u ∈ packThreads s ∨ (s.thread u).wait = .collective dom) ∧ (∀ u ∈ ts, (s.thread u).pc = (s.thread t).pc) ∧
  (∀ u ∈ ts, domainThreads s dom u = ts ∧ domainSpilled s dom u = false) ∧
  (∀ u ∈ ts, ∀ d ∈ [Domain.quarter, .group, .team], d.rank ≤ dom.rank → ∀ v ∈ domainThreads s d u, v ∈ ts) ∧
  (∀ u ∈ ts, u ∈ liveThreads s (groupOf s u) ∧ (s.group (groupOf s u)).live = true) ∧
  (dom ≠ .team → ∀ u ∈ ts, groupOf s u = groupOf s t) ∧ ∀ u ∈ ts, Sound s u
theorem meets_of {s : State} {dom : Domain} {t : TId} {ts : List TId} (h : Joins s dom t ts) (i : Instr) : Meets s dom t ts i := by
  obtain ⟨a, b, c, d, e, f, k, l, m, n, o⟩ := h
  exact ⟨a, b, c, d, e, f, k, fun u hu x hx => l u hu x (by cases x <;> simp) hx, m, n, fun u hu => ready_of_sound (o u hu) i⟩
theorem duo_meets (dom : Domain) (i : Instr) : Meets duo dom t0 [t0, t1] i := by
  cases dom <;> exact meets_of (by decide +kernel) i
theorem meeting_meets (dom : Domain) (i : Instr) : Meets (meeting 16 dom) dom t0 [t0, t1] i := by
  cases dom <;> exact meets_of (by decide +kernel) i

/-- Two accumulators; s48 to s51 hold shapes of 1 by 1 by 1, dense, and of 16 kept 4 in 16. -/
def shaped : State :=
  stateOf [thread0, thread0]
    { group0 with accFirst := 4, accCount := 2
                  s := ((group0.s.set! 48 0x00010101).set! 50 0x00100101).set! 51 0x0200000000000000 }
theorem shaped_meets (i : Instr) : Meets shaped .quarter t0 [t0, t1] i := meets_of (by decide +kernel) i
theorem clean_of {s : State} (h : s.poison = [] ∧ ∀ p ∈ s.threads, p.2.vPoison = 0) : Clean s := by
  exact ⟨h.1, each_thread (fun _ x => x.vPoison = 0) (fun _ => rfl) h.2⟩
/-- Operations on accumulator 0: one to be performed, and a multiply of FP16 lanes. -/
def pendingOp : MatOp := { acc := 0, kind := .zero }
def lanesOp : MatOp := { acc := 0, kind := .mma (.lanes 1 1) (.lanes 2 1) 0x00010101 none false, lanes := [0, 1] }
/-- The multiply has been performed on the element of its row and its column. -/
def doneOp : MatOp := { lanesOp with performed := true, rows := [0], cols := [0] }
def queuedUp (op : MatOp) : State := stateOf [thread0, thread0] { group0 with accFirst := 4, accCount := 2, mq := [(0, [op])] }
theorem witness_MatrixWords (i : Instr) :
    (Meets shaped .quarter t0 [t0, t1] i ∧ queueTakes shaped t0 1 ∧ Clean shaped ∧
      mmaLegal false (.lanes 1 2) (.lanes 2 2) (readS shaped t0 48) none ∧
      mmaLegal true (.lanes 1 3) (.desc 0 (3 * 2 ^ 19)) (readS shaped t0 50) (some (readS shaped t0 51))) ∧
    (Meets duo .quarter t0 [t0, t1] i ∧ (∀ u ∈ [t0, t1], ∀ e ∈ (duo.thread u).sb, e.ty ≠ .spad) ∧ heldStores duo 0 = [] ∧ duo.narrow = [] ∧
      Tbl.getD (duo.group g0).mq 0 [] = []) ∧
    (Meets (queuedUp pendingOp) .quarter t0 [t0, t1] i ∧ pendingOp ∈ Tbl.getD ((queuedUp pendingOp).group g0).mq 0 [] ∧
      pendingOp.performed = false) ∧
    (Meets (queuedUp doneOp) .quarter t0 [t0, t1] i ∧ Tbl.getD ((queuedUp doneOp).group g0).mq 0 [] = [doneOp] ∧ arePerformed [doneOp] ∧
      Memory.wf (queuedUp doneOp).mem = true ∧ ∀ op ∈ [doneOp], steady (queuedUp doneOp) g0 0 op) ∧
    NoMatrix shaped ∧ ∀ u ∈ [t0, t1], memPoisoned shaped (accAddr 0 0 4 (homeLane shaped u % 8) 63) 4 = false := by
  refine ⟨⟨shaped_meets i, by unfold queueTakes; decide +kernel, clean_of (by decide +kernel), ⟨by simp, by decide +kernel⟩, ⟨?_, by decide +kernel⟩⟩,
    ⟨duo_meets _ i, by decide +kernel⟩, ⟨meets_of (by decide +kernel) i, by decide +kernel⟩,
    ⟨meets_of (by decide +kernel) i, by decide +kernel, by unfold arePerformed; decide +kernel, by decide +kernel, ?steady⟩,
    by unfold NoMatrix; decide +kernel, by decide +kernel⟩
  case steady =>
    intro op h
    simp only [List.mem_cons, List.not_mem_nil, or_false] at h
    subst h
    unfold steady doneOp lanesOp
    decide +kernel
  intro w0 w1 h
  simp at h
  obtain ⟨-, rfl⟩ := h
  decide +kernel

/-! ## Barriers, tiles and copies -/

theorem reachesBar_of {s : State} {t : TId} {va : W64} {pa : Nat} {ty : MemTy} (x : Reaches s t va .rmw pa ty)
    (h : (va.toNat % 16 = 0 ∧ pa % 16 = 0) ∧ (ty = .wb ∨ ty = .spad) ∧ s.plan.headD .now ≠ .walk ∧
      (∀ p ∈ s.threads, (match p.2.wait with
        | .barrier a _ => a != pa
        | _ => true) = true) ∧ spilledThreads s = [])
    (w : Unwatched s pa 16) : ReachesBar s t va pa ty := by
  refine ⟨h.1, x, h.2.1, h.2.2.1, fun u a q e => ?_, by simp [h.2.2.2.2], w⟩
  have key := each_thread (fun _ x => (match x.wait with
        | .barrier a _ => a != pa
        | _ => true) = true) (fun _ => rfl) h.2.2.2.1 u
  simpa [e] using key

/-- A barrier at 0x3000 with given fields, and a group whose s48 names it. -/
def barred (w p l n f : Nat) (k : List Token) : State :=
  let s := stateOf [thread0, thread0] { group0 with width := w, accFirst := 4, accCount := 2, tokens := k, s := group0.s.set! 48 0x3000 }
  { s with mem := writeLE (writeLE (writeLE (writeLE s.mem 0x3000 4 p) 0x3004 2 l) 0x3006 2 n) 0x3008 1 f }
theorem barred_meets (dom : Domain) (i : Instr) : Meets (barred 16 0 1 2 0 []) dom t0 [t0, t1] i := by
  cases dom <;> exact meets_of (by decide +kernel) i
theorem barred_at : ∃ ty, ReachesBar (barred 16 0 1 2 0 []) t0 (barVa 1 0 (barred 16 0 1 2 0 []) t0) 0x3000 ty :=
  ⟨.wb, reachesBar_of (reaches_of (by rfl) (by decide +kernel)) (by decide +kernel) (unbound_unwatched (by decide +kernel) _ _)⟩
theorem barred_is : BarIs (barred 16 0 1 2 0 []) 0x3000 0 1 2 0 :=
  ⟨by decide +kernel, by decide +kernel, by decide +kernel, by decide +kernel, by decide +kernel⟩
/-- One arrival is left and no byte is expected; in the second state bytes are expected; in the third the group
holds a token of the phase that has ended. -/
theorem witness_BarrierWords (team : Bool) (i : Instr) :
    (AtBar i team 1 0 (barred 16 0 1 2 0 []) t0 [t0, t1] 0x3000 0 1 2 0 ∧ Stored (barred 16 0 1 2 0 []) 0 [t0, t1] ∧
      (∀ u ∈ [t0, t1], parityOf (barred 16 0 1 2 0 []) u 0x3000 0 = (0 % 2 == 1)) ∧ (∀ u ∈ [t0, t1], Calm (barred 16 0 1 2 0 []) u) ∧
      Memory.wf (barred 16 0 1 2 0 []).mem = true ∧ (readS (barred 16 0 1 2 0 []) t0 7).toNat = 1 ∧ Unfenced (barred 16 0 1 2 0 []) [t0, t1]) ∧
    (AtBar i team 1 0 (barred 16 5 1 2 1 []) t0 [t0, t1] 0x3000 5 1 2 1 ∧ Stored (barred 16 5 1 2 1 []) 0 [t0, t1]) ∧
    AtBar i team 1 0 (barred 16 0 2 2 1 [⟨0x3000, false⟩]) t0 [t0, t1] 0x3000 0 2 2 1 ∧
    ∀ u ∈ [t0, t1], parityOf (barred 16 0 2 2 1 [⟨0x3000, false⟩]) u 0x3000 1 ≠ (1 % 2 == 1) ∧
      Calm (barred 16 0 2 2 1 [⟨0x3000, false⟩]) u := by
  have meet (p l f : Nat) (k : List Token) (h : Joins (barred 16 p l 2 f k) (if team then .team else .group) t0 [t0, t1]) :
      Meets (barred 16 p l 2 f k) (if team then .team else .group) t0 [t0, t1] i := meets_of h i
  refine ⟨⟨⟨meet _ _ _ _ (by clear meet; cases team <;> decide +kernel), barred_at, by decide +kernel, barred_is⟩, by unfold Stored; decide +kernel,
      by decide +kernel, ?_, by decide +kernel, by decide +kernel, by unfold Unfenced; decide +kernel⟩,
    ⟨⟨meet _ _ _ _ (by clear meet; cases team <;> decide +kernel), ⟨.wb, reachesBar_of (reaches_of (by rfl) (by decide +kernel)) (by decide +kernel)
      (unbound_unwatched (by decide +kernel) _ _)⟩, by decide +kernel, ⟨by decide +kernel, by decide +kernel, by decide +kernel, by decide +kernel, by decide +kernel⟩⟩,
      by unfold Stored; decide +kernel⟩,
    ⟨meet _ _ _ _ (by clear meet; cases team <;> decide +kernel), ⟨.wb, reachesBar_of (reaches_of (by rfl) (by decide +kernel)) (by decide +kernel)
      (unbound_unwatched (by decide +kernel) _ _)⟩, by decide +kernel,
      ⟨by decide +kernel, by decide +kernel, by decide +kernel, by decide +kernel, by decide +kernel⟩⟩, ?_⟩
  · intro u hu
    exact calm_of (by revert u; decide +kernel)
  · intro u hu
    exact ⟨by revert u; decide +kernel, calm_of (by revert u; decide +kernel)⟩

/-- Entries of a two-dimensional tensor: its format code, base and extents, and a scale layout. -/
def entry0 (fmt base e0 e1 slay : Nat) : Vector W64 4 :=
  #v[BitVec.ofNat 64 (2 ^ 62 + fmt * 2 ^ 57 + base), BitVec.ofNat 64 (e0 - 1 + (e1 - 1) * 2 ^ 16), 0x40, BitVec.ofNat 64 (slay * 2 ^ 60 + 1)]
/-- t1 to t5: FP32 of 5 by 3; BF16 of 4 by 3 and 4 by 5; E4M3 with scales, and FP16, of 4 by 3. -/
def tiled : State :=
  { barred 32 0 1 2 0 [] with
    ctxs := [(0, { tid := [(1, entry0 0 0x20000 5 3 0), (2, entry0 2 0x21000 4 3 0), (3, entry0 2 0x22000 4 5 0), (4, entry0 3 0x23000 4 3 1),
      (5, entry0 1 0x24000 4 3 0)] })] }
/-- The operation that a tile word of `tiled` issues. -/
def tileOp0 (kind : TileKind) (d a b : Reg) : TileOp :=
  { kind := kind, dst := tensorOf tiled g0 d, srcA := tensorOf tiled g0 a, srcB := tensorOf tiled g0 b, bar := 0x3000, nbv1 := false, pc := 0x200000 }
theorem witness_TileWords (i : Instr) :
    Meets tiled .group t0 [t0, t1] i ∧ Portion tiled g0 t0 [t0, t1] i ∧ ReachesBar tiled t0 (readS tiled t0 (highReg 0)) 0x3000 .wb ∧
    BarIs tiled 0x3000 0 1 2 0 ∧ (tiled.group g0).busy = false ∧ tileOk (tileOp0 .gemm 1 2 3) = true ∧ tileOk (tileOp0 .quant 4 2 2) = true ∧
    tileOk (tileOp0 (.copy .rn false) 5 2 2) = true ∧ (tiled.group g0).width ≠ 16 ∧ (tiled.group g0).accCount ≠ 0 ∧
    Stored tiled 0 [t0, t1] ∧ 0 < tileTotal (tileOp0 .gemm 1 2 3) ∧ tileTotal (tileOp0 .gemm 1 2 3) < 2 ^ 32 ∧
    0 < tileTotal (tileOp0 .quant 4 2 2) ∧ 0 < tileTotal (tileOp0 (.copy .rn false) 5 2 2) ∧ Memory.wf tiled.mem = true :=
  ⟨meets_of (by decide +kernel) i, portion_of (by decide +kernel) i,
    reachesBar_of (reaches_of (by rfl) (by decide +kernel)) (by decide +kernel) (unbound_unwatched (by decide +kernel) _ _),
    ⟨by decide +kernel, by decide +kernel, by decide +kernel, by decide +kernel, by decide +kernel⟩, by decide +kernel, by decide +kernel,
    by decide +kernel, by decide +kernel, by decide +kernel, by decide +kernel, by unfold Stored; decide +kernel, by decide +kernel⟩

/-- s8 asks for 8 bytes in grains of 4, and s10 with s11 for 2 elements of 4 bytes by an index list. -/
def copying : State :=
  let s := barred 16 0 1 2 0 []
  { s with groups := [(g0, { s.group g0 with s := (((s.group g0).s.set! 8 0x400000008).set! 10 0x400000002).set! 11 0x5000 })] }
theorem witness_CopyWordsAccepted (i : Instr) :
    Portion copying g0 t0 [t0, t1] i ∧ ReachesBar copying t0 (readS copying t0 (highReg 0)) 0x3000 .wb ∧ Stored copying 0 [t0, t1] ∧
    (readS copying t0 8).toNat % 2 ^ 32 = 8 ∧ (readS copying t0 8).toNat / 2 ^ 32 % 2 ^ 8 = 4 ∧ (readS copying t0 10).toNat % 2 ^ 32 = 2 ∧
    (readS copying t0 10).toNat / 2 ^ 32 % 2 ^ 16 = 4 ∧ (readS copying t0 (oddOf 10)).toNat % 4 = 0 ∧
    Tbl.find (copying.core 0).copies 0 = none ∧ ∀ p ∈ copying.groups, p.2.copyWait = [] :=
  ⟨portion_of (by decide +kernel) i, reachesBar_of (reaches_of (by rfl) (by decide +kernel)) (by decide +kernel)
    (unbound_unwatched (by decide +kernel) _ _), by unfold Stored; decide +kernel, by decide +kernel⟩

/-! ## Cache ranges, hypervectors and the Glasshouse -/

/-- A dirty and a clean byte of the SM line at 0x40003000 in the core's copy, and one in the die's; s8 = 16 bytes. -/
def cached : State :=
  { stateOf [thread0, thread0] { group0 with s := group0.s.set! 8 16 } with
    cores := [(0, { smL1 := [(0x40003001, 0xAB, true), (0x40003004, 0x12, false)] })]
    dies := [(0, { smLlc := [(0x40003008, 0x77)] })] }
theorem witness_CacheRanges (i : Instr) :
    Portion cached g0 t0 [t0, t1] i ∧ cached.plan.headD .now ≠ .walk ∧
    (readS cached t0 8).toNat = 16 ∧ linesOf 0x40003000 16 = [0x40003000 / 128] ∧ linesOf 0x3000 16 = [0x3000 / 128] ∧
    Reaches cached t0 0x40003000 .load 0x40003000 .sm ∧ Reaches cached t0 0x40003000 .store 0x40003000 .sm ∧
    Reaches cached t0 0x3000 .load 0x3000 .wb ∧ Memory.wf cached.mem = true ∧ Unfenced cached [t0, t1] :=
  ⟨portion_of (by decide +kernel) i, by decide +kernel, by decide +kernel, by decide +kernel, by decide +kernel,
    reaches_of (by rfl) (by decide +kernel), reaches_of (by rfl) (by decide +kernel), reaches_of (by rfl) (by decide +kernel), by decide +kernel,
    by unfold Unfenced; decide +kernel⟩

theorem witness_HypervectorWords (i : Instr) :
    Portion duo g0 t0 [t0, t1] i ∧ (∀ u ∈ [t0, t1], ∀ w ∈ [t0, t1],
      ((readS duo t0 0).toNat % 128 + homeLane duo u) % 128 = ((readS duo t0 0).toNat % 128 + homeLane duo w) % 128 → u = w) ∧
    (duo.group g0).hPoison = 0 ∧ (∀ u ∈ [t0, t1], (duo.group g0).hPoison.getLsbD (64 * 3 + ((readS duo t0 0).toNat % 128 + homeLane duo u) % 128 / 2) = false) :=
  ⟨duo_portion i, by decide +kernel, by decide +kernel⟩
/-- c0 is set 3 of the core's pool. -/
def counting : State := stateOf [thread0, thread0] { group0 with cmap := #v[some 3, none, none, none] }
theorem witness_HypervectorMemoryAndSets (i : Instr) :
    Portion duo g0 t0 [t0, t1] i ∧ ((uniformAddr 1 0 duo t0).toNat % 64 = 0 ∧ (duo.thread t0).early = []) ∧ duo.plan.headD .now = .now ∧
    (∀ j < 64, Reaches duo t0 (uniformAddr 1 0 duo t0 + BitVec.ofNat 64 (8 * j)) .load (0x3000 + 64 * (j / 8) + 8 * (j % 8)) .wb ∧
      Reaches duo t0 (uniformAddr 1 0 duo t0 + BitVec.ofNat 64 (8 * j)) .store (0x3000 + 64 * (j / 8) + 8 * (j % 8)) .wb) ∧
    (∀ j < 8, InPlace duo t0 .wb (0x3000 + 64 * j) 64 ∧ Unwatched duo (0x3000 + 64 * j) 64) ∧ Older duo ∧ (duo.thread t0).fence = none ∧
    (∀ j < 512, (loadByte duo t0 .wb (0x3000 + 64 * (j / 64) + j % 64)).2 = false) ∧
    Portion counting g0 t0 [t0, t1] i ∧ (counting.group g0).cmap.get 0 = some 3 ∧ (counting.group g0).cmap.get 1 = none ∧
    (∀ u ∈ [t0, t1], CanTrap counting u) ∧ Memory.wf counting.mem = true ∧
    memPoisoned counting (windowAddr 0 0x303000) 4096 = false ∧ memPoisoned counting (windowAddr 0 0x310600) 512 = false := by
  refine ⟨duo_portion i, by decide +kernel, by decide +kernel, ?_, fun j _ => ⟨inPlace_of duo_empty .., duo_unwatched _ _⟩,
    older_of duo_empty, by decide +kernel, by decide +kernel, portion_of (by decide +kernel) i, by decide +kernel, by decide +kernel,
    by unfold CanTrap; decide +kernel, by decide +kernel, by decide +kernel, by decide +kernel⟩
  intro j hj
  have x : ∀ j < 64, translate duo (issuerOf duo (groupOf duo t0)) (uniformAddr 1 0 duo t0 + BitVec.ofNat 64 (8 * j)).toNat .load =
      .ok (0x3000 + 64 * (j / 8) + 8 * (j % 8), .wb) ∧
      translate duo (issuerOf duo (groupOf duo t0)) (uniformAddr 1 0 duo t0 + BitVec.ofNat 64 (8 * j)).toNat .store =
      .ok (0x3000 + 64 * (j / 8) + 8 * (j % 8), .wb) := by
    intro j hj
    exact ⟨ok_of (by revert j; decide +kernel), ok_of (by revert j; decide +kernel)⟩
  exact ⟨reaches_of (x j hj).1 (by revert j; decide +kernel), reaches_of (x j hj).2 (by revert j; decide +kernel)⟩

/-- Entries 2 and 5 of the cluster are valid: the zero vector at distance 0 from h0, and one at distance 1. -/
def remembering : State :=
  { stateOf [thread0, thread0] { group0 with s := ((group0.s.set! 8 1024).set! 9 1023) } with
    clusters := [(0, { owner := some 0, gated := false, entries := [(5, 1), (2, 0)] })] }
theorem witness_GlasshouseWords (i : Instr) :
    Portion remembering g0 t0 [t0, t1] i ∧ (readS remembering t0 9).toNat < 1024 ∧ 1024 ≤ (readS remembering t0 8).toNat ∧
    (∀ u ∈ [t0, t1], CanTrap remembering u) ∧ remembering.plan.headD .now ≠ .late ∧ (remembering.cluster 0).entryPoison = [] ∧
    Ranked remembering 0 (readH remembering t0 0) (min (readS remembering t0 8).toNat 1024) [(2, 0), (5, 1)] ∧
    (60 : Reg).val + 2 * ((1 : Reg4).val + 1) ≤ 64 := by
  refine ⟨portion_of (by decide +kernel) i, by decide +kernel, by decide +kernel, by unfold CanTrap; decide +kernel, by decide +kernel,
    by decide +kernel, ⟨?_, by decide +kernel⟩, by decide +kernel⟩
  intro e d
  have h : min (readS remembering t0 8).toNat 1024 = 1024 := by decide +kernel
  have hh : readH remembering t0 0 = 0 := by decide +kernel
  have hc : (remembering.cluster 0).entries = [(5, 1), (2, 0)] := by decide +kernel
  have n0 : onesOf (0 : HVec) = 0 := by decide +kernel
  have n1 : onesOf (1 : HVec) = 1 := by decide +kernel
  rw [h, hh, hc]
  simp only [List.mem_cons, Prod.mk.injEq, List.not_mem_nil, or_false, Tbl.find]
  constructor
  · rintro (⟨rfl, rfl⟩ | ⟨rfl, rfl⟩)
    · exact ⟨by omega, 0, by simp, by simpa using n0.symm⟩
    · exact ⟨by omega, 1, by simp, by simpa using n1.symm⟩
  · rintro ⟨-, v, hv, hd⟩
    by_cases h5 : 5 = e
    · simp only [h5, if_true, Option.some.injEq] at hv
      exact .inr ⟨h5.symm, by rw [hd, ← hv]; simpa using n1⟩
    · by_cases h2 : 2 = e
      · simp only [h5, h2, if_true, if_false, Option.some.injEq] at hv
        exact .inl ⟨h2.symm, by rw [hd, ← hv]; simpa using n0⟩
      · simp [h5, h2] at hv

end Sys2Proof.Machine
end

