-- ==== Sys2Proof/Tests/WitnessSteps.lean ====
section
/-! SUPPORT. Witnesses of the statements about steps, records and events. -/

namespace Sys2Proof.Machine

set_option Elab.async false

/-! ## Steps -/

theorem err_of {ε α : Type} [DecidableEq ε] {x : Except ε α} {l : ε}
    (h : (match x with | .ok _ => false | .error e => decide (e = l)) = true) : x = .error l := by
  cases x with
  | error e => simpa using h
  | ok a => simp at h

/-- The word `land` at 0x200000, and a word that stands for nothing, for the thread that moves next. -/
def moving (w : Nat) : State :=
  { base with mem := writeLE base.mem 0x200000 4 w, cur := none, agenda := [.replay ⟨0, 0, [0]⟩] }
/-- The state of it after its move has been taken from the agenda, and the one in which slot 0 of the core has chosen. -/
def taken0 (w : Nat) : State := { moving w with agenda := [] }
def chosen (w : Nat) : State := passSlot (noteCycle (settleCaches (taken0 w) 0) 0 [t0]) 0

/-- What `Fetches` asks beside the translation. -/
abbrev Begins (s : State) (ts : List TId) (t : TId) (pa : Nat) : Prop :=
  (∀ u ∈ ts, mayIssue s u = true) ∧ (∀ u ∈ ts, (s.thread u).restored = false ∧ (s.thread u).firstAcquire = false ∧ (s.thread u).frameDue = false) ∧
  (∀ u ∈ ts, (s.thread u).snap = none ∧ (s.thread u).owed = false) ∧
  lostStop s (issuerOf s (groupOf s t)) (s.thread t).pc.toNat pa .exec = none ∧
  ((placeOf pa = .hbm ∨ placeOf pa = .second) ∧ pa % 4 = 0) ∧ memPoisoned s pa 4 = false
theorem fetches_of {s : State} {ts : List TId} {t : TId} {pa : Nat} {ty : MemTy}
    (x : translate s (issuerOf s (groupOf s t)) (s.thread t).pc.toNat .exec = .ok (pa, ty)) (h : Begins s ts t pa) : Fetches s ts t pa :=
  ⟨h.1, h.2.1, h.2.2.1, ⟨ty, x⟩, h.2.2.2.1, h.2.2.2.2.1, h.2.2.2.2.2⟩

/-- An event; a slot that chooses the thread; and the same pack as the agenda names it. -/
theorem witness_StepRunsDecoded :
    (∀ i, ({ base with agenda := [.event i] } : State).agenda = .event i :: []) ∧
    (((settleCaches (taken0 (encode .land)) 0).core 0).deferred = [] ∧ choosePack (settleCaches (taken0 (encode .land)) 0) 0 = some [t0] ∧
      letsPass (settleCaches (taken0 (encode .land)) 0) 0 [t0] = false ∧ Fetches (chosen (encode .land)) [t0] t0 0x200000) ∧
    (moving (encode .land)).agenda = .replay ⟨0, 0, [0]⟩ :: [] ∧
    (choosePack (taken0 (encode .land)) 0 = some [t0] ∧ Fetches (taken0 (encode .land)) [t0] t0 0x200000) ∧
    decode (readLE (moving (encode .land)).mem 0x200000 4) = .ok .land ∧ decode (readLE (moving 0xFFFFFFFF).mem 0x200000 4) = .error .undef :=
  ⟨fun _ => rfl, ⟨by decide +kernel, by decide +kernel, by decide +kernel, fetches_of (by rfl) (by decide +kernel)⟩, rfl,
    ⟨by decide +kernel, fetches_of (by rfl) (by decide +kernel)⟩, ok_of (by decide +kernel), err_of (by decide +kernel)⟩
theorem witness_BufferedStoresAreOlder :
    StoresOlder (moving (encode .land)) ∧ ∃ s', step (moving (encode .land)) = .next s' :=
  ⟨by unfold StoresOlder Older; decide +kernel, _, rfl⟩
theorem witness_MemoryStaysCanonical :
    Memory.wf (moving (encode .land)).mem = true ∧ ∃ s', step (moving (encode .land)) = .next s' :=
  ⟨by decide +kernel, _, rfl⟩

/-! ## Records -/

theorem base_files : FilesIn base 0 0 := ⟨by decide +kernel, by decide +kernel, by decide +kernel⟩
/-- s9 lies beyond every table, s10 is no address, and the trap queue is enabled at 0x600000. -/
def astray : State :=
  let s := stateOf [thread0] { group0 with s := (group0.s.set! 9 0x100000000).set! 10 0x0200000000000000 }
  { s with parts := [(0, { part0 with tqen := true, tqbase := 0x600000 })] }
theorem astray_alone (i : Instr) : Alone astray t0 i := alone_of (by decide +kernel) (by decide +kernel) (by decide +kernel) i
/-- No handler; and a thread that is in its handler. -/
def vectorless : State := stateOf [thread0] { group0 with trapvec := 0 }
theorem vectorless_alone (i : Instr) : Alone vectorless t0 i := alone_of (by decide +kernel) (by decide +kernel) (by decide +kernel) i
theorem handling_alone (i : Instr) : Alone handling t0 i := alone_of (by decide +kernel) (by decide +kernel) (by decide +kernel) i
theorem witness_FaultsAreFiled (i : Instr) :
    (Alone astray t0 i ∧ FilesIn astray 0 0 ∧ Memory.wf astray.mem = true ∧ astray.walks = [] ∧
      (laneAddr (.s 9) 0 astray t0).toNat = 0x100000000 ∧ (laneAddr (.s 10) 0 astray t0).toNat % 4 = 0 ∧
      (∃ f, translate astray (issuerOf astray (groupOf astray t0)) (laneAddr (.s 9) 0 astray t0).toNat .load = .error f ∧ f.kind = 0x01) ∧
      ∃ f, translate astray (issuerOf astray (groupOf astray t0)) (laneAddr (.s 10) 0 astray t0).toNat .load = .error f ∧
        f.soft = 0 ∧ f.kind ≠ 0x01 ∧ f.kind ≠ 0x03 ∧ f.kind ≠ 0x0C) ∧
    (Alone vectorless t0 i ∧ divisor .i32 0 vectorless t0 = 0 ∧ FilesIn vectorless 0 0 ∧ (vectorless.part 0).debugger = none ∧
      (vectorless.group g0).trapvec = 0) ∧
    Alone handling t0 i ∧ divisor .i32 0 handling t0 = 0 ∧ FilesIn handling 0 0 ∧ (handling.thread t0).trapcause.getLsbD 16 = true :=
  ⟨⟨astray_alone i, ⟨by decide +kernel, by decide +kernel, by decide +kernel⟩, by decide +kernel, rfl, by decide +kernel, by decide +kernel,
      ⟨_, rfl, by decide +kernel⟩, ⟨_, rfl, by decide +kernel⟩⟩,
    ⟨vectorless_alone i, by decide +kernel, ⟨by decide +kernel, by decide +kernel, by decide +kernel⟩, by decide +kernel⟩,
    handling_alone i, by decide +kernel, ⟨by decide +kernel, by decide +kernel, by decide +kernel⟩, by decide +kernel⟩

/-! ## Results, walks and stores -/

def outOf (d : OutDest) (v : OutVal) : Out := { id := 3, dest := d, left := 2, val := v }
/-- An outstanding result of thread 0. -/
def owing (d : OutDest) (v : OutVal) : State := stateOf [{ thread0 with outs := [outOf d v] }] group0
/-- A walk of a page for thread 0, under way. -/
def walk0 (page : Nat) : Walk := { part := 0, asn := 0, page := page, va := page * 4096, access := .load, ts := [t0] }
/-- A walk of the page at 0x3000, and one of a page that no table maps. -/
def walking (page : Nat) : State :=
  { stateOf [{ thread0 with wait := .walk 4 true }] group0 with walks := [(4, walk0 page)] }
def landingSteal : State := stateOf [{ thread0 with wait := .stealLanding }] group0
def store0 : StoreEnt := { pa := 0x3000, bytes := [1, 2], ty := .wb, sc := .dev, rel := false }
def storing : State := stateOf [{ thread0 with sb := [store0] }] group0
theorem no_trap_wait {s : State} (h : ∀ p ∈ s.threads, ∀ c d i, p.2.wait ≠ .trap c d i) (u : TId) :
    ∀ (c d : Nat) (i : W32), (s.thread u).wait ≠ .trap c d i :=
  each_thread (fun _ x => ∀ (c d : Nat) (i : W32), x.wait ≠ .trap c d i) (fun _ _ _ _ => by simp) h u
theorem owing_quiet (d : OutDest) (v : OutVal) (u : TId) (c e : Nat) (i : W32) : ((owing d v).thread u).wait ≠ .trap c e i :=
  no_trap_wait (by simp [owing, stateOf, thread0]) u c e i
/-- What the return of a result of thread 0 asks beside its value. -/
abbrev Owed (s : State) (o : Out) : Prop :=
  findOut s 3 = some (t0, o) ∧ t0 ∈ groupThreads s (groupOf s t0) ∧ o.contested = [] ∧ o.acq = false ∧ o.again = false ∧
  recordHolds s ((partOfCore s 0).getD 0) (.outload 3) = false
/-- Results of thread 0 for a register, a pair and a snapshot: a value that has been read, and one of the word at 0x3000. -/
theorem witness_ResultsReturn :
    (∀ d ∈ [OutDest.lane 2 false, .lane 2 true, .bound 1], ∀ v ∈ [OutVal.known 9 false, .load 0x3000 4 .wb none],
      Owed (owing d v) (outOf d v)) ∧
    (∀ d, Holds (owing d (.known 9 false)) t0 (outOf d (.known 9 false)) 9 false) ∧
    Holds (owing (.lane 2 false) (.load 0x3000 4 .wb none)) t0 (outOf (.lane 2 false) (.load 0x3000 4 .wb none)) 0 false ∧
    (Owed (owing (.uni [2]) (.words [9])) (outOf (.uni [2]) (.words [9])) ∧
      ∀ p ∈ (owing (.uni [2]) (.words [9])).threads, p.1.core / 2 = 0 → ∀ e ∈ p.2.outs, (∃ ws, e.val = .words ws) → 3 ≤ e.id) :=
  ⟨by decide +kernel, fun _ => .inl rfl,
    .inr ⟨0x3000, 4, .wb, rfl, by decide +kernel, inPlace_of (by decide +kernel) .., by decide +kernel, by decide +kernel, by decide +kernel⟩,
    by decide +kernel, by simp [owing, stateOf, thread0, outOf]⟩
theorem witness_ResultsWalksAndStores :
    (Tbl.find (walking 3).walks 4 = some (walk0 3) ∧ (walk0 3).ts = [t0] ∧ ((walking 3).thread t0).wait = .walk 4 true ∧
      (∀ p ∈ (walking 3).walks, p.2.started = true) ∧ (walking 3).snoopFilter = [] ∧
      translate (walking 3) (issuerOf (walking 3) g0) 0x3000 .load = .ok (0x3000, .wb)) ∧
    ((∃ f, translate (walking 0x100000) (issuerOf (walking 0x100000) g0) 0x100000000 .load = .error f ∧ f.kind = 0x01) ∧
      FilesIn (walking 0x100000) 0 0) ∧
    ((landingSteal.thread t0).wait = .stealLanding ∧ Calm landingSteal t0) ∧
    (packThreads duo = [t0, t1] ∧ ∀ u ∈ [t0, t1], CanTrap duo u ∧ (duo.thread u).outs = []) ∧
    ((storing.thread t0).sb = store0 :: [] ∧ store0.held = none ∧ store0.ty = .wb ∧ Tbl.find storing.snoopFilter (store0.pa / 128) = none ∧
      Unwatched storing store0.pa store0.bytes.length ∧ Memory.wf storing.mem = true) ∧
    mayEvict cached (.l1 0) (0x40003000 / 128) = true ∧ (∃ e ∈ (cached.core 0).smL1, e.1 / 128 = 0x40003000 / 128) ∧
    Tbl.find cached.snoopFilter (0x40003000 / 128) = none ∧ peerDown cached ((partOfCore cached 0).getD 0) 0x40003000 = false ∧
    peerRefuses cached ((partOfCore cached 0).getD 0) 0x40003000 = false :=
  ⟨⟨by decide +kernel, by rfl, by decide +kernel, by decide +kernel, by decide +kernel, by rfl⟩,
    ⟨⟨_, rfl, by decide +kernel⟩, by decide +kernel, by decide +kernel, by decide +kernel⟩,
    ⟨by decide +kernel, calm_of (by decide +kernel)⟩, ⟨by decide +kernel, by unfold CanTrap; decide +kernel⟩,
    ⟨by decide +kernel, by decide +kernel, by decide +kernel, by decide +kernel, unbound_unwatched (by decide +kernel) _ _, by decide +kernel⟩,
    by decide +kernel⟩

/-! ## Waits and clocks -/

def yielding : State := stateOf [{ thread0 with wait := .yield }] group0
/-- A thread that waits for the binding at b1, marked or not. -/
def awaiting (marked : Bool) : State :=
  stateOf [{ thread0 with wait := .bound 2 true, b := thread0.b.set! 1 { bound1 with changed := marked } }] group0
def gatedCore : State := { yielding with cores := [(0, { gated := true, restarting := true })] }
def interrupted : State := stateOf [{ thread0 with uint := some .program }] group0
def swept : State := stateOf [{ thread0 with b := thread0.b.set! 1 { bound1 with ovf := true } }] group0
theorem witness_WaitsAndClocks :
    (∃ t ∈ liveThreads base g0, (base.thread t).pc = 0x200000 ∧ isReady base t = true) ∧ ((yielding.thread t0).wait = .yield ∧ interruptDue (yielding.thread t0) = false) ∧
    (∀ b : Bool, ((awaiting b).thread t0).wait = .bound 2 true ∧ isActive (awaiting b) (groupOf (awaiting b) t0) = true ∧
      ((awaiting b).core 0).swap = none ∧ ((awaiting b).core 0).gated = false ∧ ((awaiting b).thread t0).directoryError = false ∧
      refreshFault (awaiting b) t0 = none ∧ (((awaiting b).thread t0).b.get 1).changed = b) ∧
    ((swept.thread t0).b.get 1).ovf = true ∧
    ((yielding.core 0).gated = false ∧ (yielding.core 0).swap = none ∧ activeThreads yielding 0 = [t0] ∧
      ((yielding.thread t0).woken = false ∧ awaitedThreads yielding 0 = []) ∧ ∀ p ∈ yielding.groups, p.2.tile = none ∧ p.2.mq = []) ∧
    ((gatedCore.core 0).gated = true ∧ (gatedCore.core 0).restarting = true) ∧ delivers interrupted t0 = true ∧ CanTrap interrupted t0 ∧
    Calm interrupted t0 :=
  ⟨by decide +kernel, by decide +kernel, by decide +kernel, by decide +kernel, by decide +kernel, by decide +kernel, by decide +kernel,
    by unfold CanTrap; decide +kernel, calm_of (by decide +kernel)⟩

end Sys2Proof.Machine
end

