-- ==== Sys2Proof/Tests/WitnessEvents.lean ====
section
/-! SUPPORT. Witnesses of the statements about engines, teams, swaps and Pergola. -/

namespace Sys2Proof.Machine

set_option Elab.async false

/-! ## Copies -/

theorem lies_of {s : State} {i : Issuer} {k : Access} {va n pa : Nat}
    (h : ∀ j < n, (match translate s i ((va + j) % 2 ^ 64) k with
      | .ok p => decide (p = (pa + j, .wb))
      | .error _ => false) = true ∧ placeOf (pa + j) = .hbm) : Lies s i k va n pa := by
  intro j hj
  have x := (h j hj).1
  refine ⟨?_, (h j hj).2⟩
  revert x
  cases translate s i ((va + j) % 2 ^ 64) k with
  | error _ => intro x; exact absurd x (by simp)
  | ok p =>
    intro x
    have e : p = (pa + j, .wb) := of_decide_eq_true x
    rw [e]
theorem no_bar_wait {s : State} (h : ∀ p ∈ s.threads, (match p.2.wait with
    | .barrier _ _ => false
    | _ => true) = true) (u : TId) : ∀ (a : Nat) (q : Bool), (s.thread u).wait ≠ .barrier a q := by
  intro a q e
  have := each_thread (fun _ x => (match x.wait with
    | .barrier _ _ => false
    | _ => true) = true) (fun _ => rfl) h u
  simp [e] at this
/-- No thread waits at a barrier, in place or in a save area. -/
theorem no_bars {s : State} (h : (∀ p ∈ s.threads, (match p.2.wait with
    | .barrier _ _ => false
    | _ => true) = true) ∧ spilledThreads s = []) :
    (∀ u a q, (s.thread u).wait ≠ .barrier a q) ∧ ∀ p ∈ spilledThreads s, ∀ a q, p.2.wait ≠ .barrier a q :=
  ⟨no_bar_wait h.1, by simp [h.2]⟩
theorem apart_of {s : State} {i : Issuer} {l : List Nat} {d m : Nat}
    (h : (l.all fun a => match translate s i a .load with
      | .ok p => decide (p.1 < d ∨ d + m ≤ p.1)
      | .error _ => true) = true) :
    ∀ a ∈ l, ∀ pa ty, translate s i a .load = .ok (pa, ty) → pa < d ∨ d + m ≤ pa := by
  intro a ha pa ty e
  have := List.all_eq_true.1 h a ha
  rw [e] at this
  exact of_decide_eq_true this

/-- 8 bytes from 0x5000 to 0x6000, the barrier at 0x3000. -/
def flat0 : CopyCmd :=
  { kind := .flat, dst := 0x6000, src := 0x5000, count := 0x400000008, idx := 0, bar := 0x3000, group := g0, slots := [0, 1], pc := 0x200000 }
/-- The command waits for a number. -/
def copyHeld : State := stateOf [{ thread0 with wait := .copySlot }, { thread0 with wait := .copySlot }] { group0 with copyWait := [flat0] }
/-- It is accepted as command 0; and commands of two elements of 4 bytes, the first of a `cpys` and of a `cpyg`, and the
last of a `cpyg`, whose index words are 1 and 0. -/
def running (c : CopyCmd) : State :=
  let s := barred 16 8 1 2 0 []
  { s with cores := [(0, { copies := [(0, c)] })], mem := writeLE (writeLE s.mem 0x5000 8 0x1122334455667788) 0x5100 8 1 }
def copyRuns : State := running flat0
def elements (kind : CopyKind) : CopyCmd := { flat0 with kind := kind, count := 0x400000002, idx := 0x5100 }
def lastElement : CopyCmd := { elements .gather with landed := [1], bytesLanded := 4 }
theorem witness_CopiesLand :
    ((copyHeld.group g0).copyWait = flat0 :: [] ∧ flat0.group = g0 ∧ flat0.slots.Nodup ∧ flat0.total ≠ 0 ∧ Stored copyHeld 0 flat0.threads ∧
      Tbl.find (copyHeld.core 0).copies 0 = none ∧
      ∀ p ∈ copyHeld.groups, p.1.core = g0.core → ∀ d ∈ p.2.copyWait, flat0.seq ≤ d.seq) ∧
    OneChunk copyRuns 0 0 flat0 0 8 0x5000 0x6000 0x5000 0x6000 8 1 2 0 ∧ Memory.wf copyRuns.mem = true ∧ flat0.chunk 0 = some (0, 8) :=
  ⟨by unfold Stored; decide +kernel,
    ⟨by decide +kernel, by decide +kernel, by decide +kernel, by decide +kernel,
      lies_of (by decide +kernel), lies_of (by decide +kernel), apart_of (by decide +kernel), by decide +kernel, no_bars (by decide +kernel),
      ⟨⟨by decide +kernel, by decide +kernel, by decide +kernel, by decide +kernel, by decide +kernel⟩, by decide +kernel⟩, by decide⟩,
    by decide +kernel, by decide +kernel⟩
theorem witness_CopiesLand_elements :
    (∀ c ∈ [elements .gather, lastElement],
      Lies (running c) (issuerOf (running c) g0) .load 0x5100 4 0x5100 ∧ readLE (running c).mem 0x5100 4 = 1 ∧
      memPoisoned (running c) 0x5100 4 = false ∧ Memory.wf (running c).mem = true ∧
      OneChunk (running c) 0 0 c 0 4 (0x5000 + 1 * 4) (0x6000 + 0 * 4) 0x5004 0x6000 8 1 2 0) ∧
    Lies (running (elements .scatter)) (issuerOf (running (elements .scatter)) g0) .load 0x5100 4 0x5100 ∧
    readLE (running (elements .scatter)).mem 0x5100 4 = 1 ∧
    OneChunk (running (elements .scatter)) 0 0 (elements .scatter) 0 4 (0x5000 + 0 * 4) (0x6000 + 1 * 4) 0x5000 0x6004 8 1 2 0 := by
  refine ⟨fun c hc => ⟨lies_of (by revert c; decide +kernel), by revert c; decide +kernel, by revert c; decide +kernel,
      by revert c; decide +kernel, by revert c; decide +kernel, by revert c; decide +kernel, by revert c; decide +kernel,
      by revert c; decide +kernel, lies_of (by revert c; decide +kernel), lies_of (by revert c; decide +kernel),
      apart_of (by revert c; decide +kernel), by revert c; decide +kernel, no_bars (by revert c; decide +kernel),
      ⟨⟨by revert c; decide +kernel, by revert c; decide +kernel, by revert c; decide +kernel, by revert c; decide +kernel,
        by revert c; decide +kernel⟩, by revert c; decide +kernel⟩, by decide⟩,
    lies_of (by decide +kernel), by decide +kernel,
    ⟨by decide +kernel, by decide +kernel, by decide +kernel, by decide +kernel,
      lies_of (by decide +kernel), lies_of (by decide +kernel), apart_of (by decide +kernel), by decide +kernel, no_bars (by decide +kernel),
      ⟨⟨by decide +kernel, by decide +kernel, by decide +kernel, by decide +kernel, by decide +kernel⟩, by decide +kernel⟩, by decide⟩⟩

/-! ## Matrix and tile operations -/

/-- Quarter 0 has an `mma` of E4M3 lanes of 1 by 1 by 1 whose lanes 0 and 1 were live, or an `acczero`. -/
def mma0 : MatOp := { acc := 0, kind := .mma (.lanes 1 3) (.lanes 2 3) 0x00010101 none false, lanes := [0, 1] }
def performing (op : MatOp) : State :=
  stateOf [{ thread0 with v := (thread0.v.set! 1 0x38).set! 2 0x40 }, thread0] { group0 with accFirst := 4, accCount := 2, mq := [(0, [op])] }
/-- A thread that waits at an `mfence` or an `mwait`. -/
def matrixWaits (fence : Bool) : State := stateOf [{ thread0 with wait := .matrix fence }] { group0 with accFirst := 4, accCount := 2 }
theorem witness_MatrixPerforms :
    (∀ op ∈ [mma0, pendingOp], Tbl.getD ((performing op).group g0).mq 0 [] = [] ++ op :: [] ∧ op.performed = false ∧
      ((performing op).group g0).live = true ∧ Memory.wf (performing op).mem = true) ∧
    mma0.kind = .mma (.lanes 1 3) (.lanes 2 3) 0x00010101 none false ∧ shapeM 0x00010101 ≤ 8 ∧ shapeN 0x00010101 ≤ 8 ∧
    pendingOp.kind = .zero ∧
    ∀ fence : Bool, ((liveThreads (matrixWaits fence) g0).filter fun t =>
        homeLane (matrixWaits fence) t / 8 == 0 && ((matrixWaits fence).thread t).wait == .matrix fence) = [t0] ∧
      ((matrixWaits fence).thread t0).outs = [] ∧ ((matrixWaits fence).thread t0).sb = [] ∧ groupOf (matrixWaits fence) t0 = g0 ∧
      Tbl.getD ((matrixWaits fence).group g0).mq 0 [] = [] := by
  decide +kernel

/-- An `mma` of BF16 by descriptors: A keeps 4 of its 16 elements, whose places ascend; and quarter 0 has performed its
operations while a thread waits for them. -/
def sparseOp : MatOp :=
  { acc := 0, kind := .mma (.desc 0 (2 * 2 ^ 19)) (.desc 0x2000000200 (2 * 2 ^ 19 + 0x20)) 0x00100101 (some 0x0200000200000400) false }
def sparsePerforms : State :=
  let s := performing sparseOp
  { s with mem := writeLE s.mem (spadAddr 0 0x400) 2 0x3210 }
def performedWaits : State :=
  stateOf [{ thread0 with wait := .matrix false }] { group0 with accFirst := 4, accCount := 2, mq := [(0, [doneOp])] }
theorem witness_MatrixPerforms_descriptors :
    Tbl.getD (sparsePerforms.group g0).mq 0 [] = [] ++ sparseOp :: [] ∧ sparseOp.performed = false ∧
    (sparsePerforms.group g0).live = true ∧ Memory.wf sparsePerforms.mem = true ∧ shapeM 0x00100101 ≤ 8 ∧ shapeN 0x00100101 ≤ 64 ∧
    (∀ r < shapeM 0x00100101,
      (rowSources sparsePerforms (issuerOf sparsePerforms g0) g0 0 (.desc 0 (2 * 2 ^ 19)) (some 0x0200000200000400) 16 r).isSome = true ∧
        positionsAscend sparsePerforms g0 (some 0x0200000200000400) 16 r) ∧
    (∀ j < shapeN 0x00100101,
      (colSources sparsePerforms (issuerOf sparsePerforms g0) g0 0 (.desc 0x2000000200 (2 * 2 ^ 19 + 0x20)) 16 j).isSome = true) ∧
    arePerformed (Tbl.getD (performedWaits.group g0).mq 0 []) ∧ Memory.wf performedWaits.mem = true ∧
    ((liveThreads performedWaits g0).filter fun t =>
      homeLane performedWaits t / 8 == 0 && (performedWaits.thread t).wait == .matrix false) = [t0] := by
  refine ⟨by decide +kernel, by decide +kernel, by decide +kernel, by decide +kernel, by decide, by decide, ?_, by decide +kernel,
    by unfold arePerformed; decide +kernel, by decide +kernel, by decide +kernel⟩
  intro r hr
  refine ⟨by revert r; decide +kernel, fun w hw _ => ?_⟩
  cases hw
  revert r
  decide +kernel

theorem ok_all {ε α : Type} {x : Except ε α} {p : α → Bool} (h : (match x with
    | .ok a => p a
    | .error _ => false) = true) : ∃ a, x = .ok a ∧ p a = true := by
  cases x with
  | error e => simp at h
  | ok a => exact ⟨a, rfl, by simpa using h⟩

/-- The tile operation of a word of `tiled` runs, at a step. -/
def tileRuns (o : TileOp) (k : Nat) : State :=
  { tiled with groups := [(g0, { tiled.group g0 with busy := true, tile := some o, stepNo := k })] }
/-- A step of an operation, with the bytes that it reads and those that it writes. -/
structure TileCase where
  op : TileOp
  step : Nat
  src : List (Nat × Nat)
  dst : List (Nat × Nat)
/-- The bytes of rows, by their first addresses and lengths. -/
def spans (l : List (Nat × Nat)) : List (Nat × MemTy) := l.flatMap fun r => (List.range r.2).map fun j => (r.1 + j, .wb)
/-- The only step of the multiply, the first of the quantisation and, of the copy, the first and the last. -/
def tileCases : List TileCase :=
  [⟨tileOp0 .gemm 1 2 3, 0, [(0x21000, 8), (0x21040, 8), (0x21080, 8), (0x22000, 8), (0x22040, 8), (0x22080, 8), (0x220C0, 8), (0x22100, 8)],
      [(0x20000, 20), (0x20040, 20), (0x20080, 20)]⟩,
    ⟨tileOp0 .quant 4 2 2, 0, [(0x21000, 8)], [(0x23000, 4), (0x24000, 4)]⟩,
    ⟨tileOp0 (.copy .rn false) 5 2 2, 0, [(0x21000, 8)], [(0x24000, 8)]⟩,
    ⟨tileOp0 (.copy .rn false) 5 2 2, 2, [(0x21080, 8)], [(0x24080, 8)]⟩]
theorem bar_low (s : State) (g : GId) (r c : Nat) {bar : Nat} (h : bar + 16 ≤ windowBase) : bar + 16 ≤ gemmAcc s g r c :=
  Nat.le_trans h (by unfold gemmAcc elemAddr accAddr windowAddr; omega)
theorem witness_TileStepsAdvance (c : TileCase) (h : c ∈ tileCases) :
    TileMoves (tileRuns c.op c.step) g0 c.op (spans c.src) (spans c.dst) ∧ TileWrites (tileRuns c.op c.step) g0 c.op (spans c.dst) ∧
      Memory.wf (tileRuns c.op c.step).mem = true := by
  refine ⟨⟨?_, ?_, ?_, ?_, ?_, ok_of ?_, ?_, ok_of ?_, ?_, no_bars ?_⟩, ⟨?_, ?_, ?_, ?_, fun r x => .inr (bar_low _ g0 r x ?_)⟩, ?_⟩
  all_goals (revert c; decide +kernel)

/-! ## Teams and bins -/

theorem some_all {α : Type} {x : Option α} {p : α → Bool} (h : (match x with
    | some a => p a
    | none => false) = true) : ∃ a, x = some a ∧ p a = true := by
  cases x with
  | none => simp at h
  | some a => exact ⟨a, rfl, by simpa using h⟩

/-- A launch of kernel 0 with a team that waits. -/
def launch1 : Launch := { graph := 0, node := 1, part := 0, kernel := { entry := 0x200000, group := 16, team := 16 } }
def teamed : State := { base with launches := base.launches ++ [(1, launch1)] }
/-- The schedule table of launch 0 on core 0, of which the first of three entries is written. -/
def scheduled : State :=
  { base with
    launches := [(0, { graph := 0, node := 0, part := 0, tables := [[7, 8, 9]], placedCores := [0] })]
    cores := [(0, { tables := [(0, { entries := [some 7, none, none] })] })] }
/-- A bin of one record, its time ended or not; and no counter sets free for kernels that take one. -/
def bin1 (due : Bool) : Bin := { bin0 with recs := [⟨5, 3⟩], due := due }
def binRuns (due room : Bool) : State :=
  { base with
    launches := [(0, { graph := 0, node := 0, part := 0, kernel := { entry := 0x200000, group := 16, ncset := 1 } })]
    cores := [(0, { bins := [(2, bin1 due)], sets := if room then [] else (List.range 16).map fun k => (k, 9, 9) })] }
/-- The overflow queue of team 0 holds one record, at 0x7000. -/
def ring0 : Overflow := { base := 0x7000, cap := 4, count := 1 }
def overflowing : State :=
  { base with
    launches := [(0, { graph := 0, node := 0, part := 0, kernel := { entry := 0x200000, group := 16 }, placedCores := [0]
                       overflow := [(0, ring0)] })]
    mem := writeBytes base.mem 0x7000 (overflowBytes 0x200004 ⟨5, 3⟩) }
theorem witness_TeamsAndBins :
    (teamWaits teamed (teamed.launch 1) = true ∧ (∀ a ∈ aheadOf teamed 1, placement teamed a = none) ∧
      ∃ p, placement teamed 1 = some p ∧ (!(teamed.cluster (p.1 / 2)).gated) = true) ∧
    ((scheduled.core 0).tables = [(0, { entries := [some 7, none, none] })] ∧ ∃ e ∈ ([some 7, none, none] : List (Option W32)), e = none) ∧
    (∀ due room : Bool, Tbl.find ((binRuns due room).core 0).bins 2 = some (bin1 due) ∧ ((binRuns due room).core 0).swap = none) ∧
    binSeat (wakeCore (binRuns false false) 0) 0 (bin1 false) = none ∧
    (∃ seat, binSeat (wakeCore (binRuns false true) 0) 0 (bin1 false) = some seat ∧ true = true) ∧
    (∃ seat, binSeat (binRuns true true) 0 (bin1 true) = some seat ∧ true = true) ∧
    queueFor overflowing 0 = some (0, 0, 1) ∧ Tbl.find (overflowing.launch 0).overflow 0 = some ring0 ∧ ring0.count = 1 ∧
    Tbl.find (overflowing.core 0).bins 0 = none ∧
    headBin overflowing 0 0 0 = some (ring0, 0x200004, ⟨5, 3⟩, 0) ∧ 1 < (overflowing.launch 0).kernel.group := by
  refine ⟨⟨by decide +kernel, by decide +kernel, some_all (by decide +kernel)⟩, by decide +kernel, by decide +kernel, by decide +kernel,
    some_all (p := fun _ => true) (by decide +kernel), some_all (p := fun _ => true) (by decide +kernel), by decide +kernel⟩

/-! ## Swaps and banks -/

/-- Every thread of the core waits, and a bin of its launch is held back. -/
def stall0 : State :=
  { stateOf [{ thread0 with wait := .bound 2 false, b := thread0.b.set! 1 bound1 }] group0 with cores := [(0, { bins := [(2, bin1 true)] })] }
/-- A launch of a higher priority that needs a counter set where none is free; one cluster. -/
def outranked : State :=
  { base with
    clusters := [(0, { owner := some 0, gated := false })]
    launches := base.launches ++ [(1, { launch1 with prio := 3, kernel := { launch1.kernel with ncset := 1 } })]
    cores := [0, 1].map fun c => (c, { sets := (List.range 16).map fun k => (k, 9, 9) }) }
/-- The only context of the core is displaced. -/
def aside (swap : Option SwapKind) : State :=
  { base with ctxs := [(0, { displaced := some 7, byProgress := true })], cores := [(0, { swap := swap })] }
/-- A displaced context owns bank 0, which an active one waits to have back; then no other context does. -/
def bankWaits (owned : Bool) : State :=
  { base with
    groups := if owned then base.groups else []
    threads := if owned then base.threads else []
    ctxs := (if owned then [(0, { displaced := some 7, save := 1 })] else [])
      ++ [(1, { save := 2, spilled := [(0, { groups := [(g0, { group0 with ctx := 1 })] })] })] }
theorem ok_exists {ε α : Type} {x : Except ε α} (h : (match x with
    | .ok _ => true
    | .error _ => false) = true) : ∃ a, x = .ok a := by
  cases x with
  | error e => simp at h
  | ok a => exact ⟨a, rfl⟩
theorem witness_SwapsAndBanks :
    (stalled stall0 0 = true ∧ coupled stall0 0 = false ∧ coupled stall0 (partner 0) = false ∧ nonResident stall0 0 = some (.bins 0) ∧
      preemptDue stall0 0 = false ∧ heldStores stall0 0 = []) ∧
    (teamWaits outranked (outranked.launch 1) = true ∧ (∀ a ∈ aheadOf outranked 1, placement outranked a = none ∧ preemptCore outranked a = none) ∧
      (placement outranked 1).isNone = true ∧ preemptCore outranked 1 = some 0 ∧
      isTwoCore (outranked.launch 1).kernel = false ∧ coupled outranked 0 = false ∧ heldStores outranked 0 = []) ∧
    (returnChoice (aside none) 0 = some 7 ∧ orderCoupled (aside none) 0 7 = false ∧ coupled (aside none) 0 = false ∧ heldStores (aside none) 0 = []) ∧
    (((aside (some (.returning 7))).core 0).swap = some (.returning 7) ∧ orderCoupled (aside (some (.returning 7))) 0 7 = false ∧
      recordHolds (aside (some (.returning 7))) 0 (.spill 0 0 16) = false ∧ ofOrder (aside (some (.returning 7))) 0 7 = [0] ∧
      ((aside (some (.returning 7))).ctx 0).spilledSpad = [] ∧ ((aside (some (.returning 7))).ctx 0).spilledSets = []) ∧
    (bankOwners (bankWaits true) 0 0 0 = [0] ∧ wantsBank (bankWaits true) 0 0 0 = true ∧ bankQuiet (bankWaits true) 0 0 0 = true ∧
      recordHolds (bankWaits true) 0 (.spill 0 0 0) = false ∧ ∃ s1, spillBank (bankWaits true) 0 0 0 0 = .ok s1) ∧
    (((bankWaits false).core 0).swap = none ∧ ((bankWaits false).part 0).state = 1 ∧
      recordHolds (bankWaits false) 0 (.spill 0 0 0) = false ∧ bankOwners (bankWaits false) 0 0 0 = []) ∧
    (activeCtxs (bankWaits false) 0).find? (fun c => ((bankWaits false).ctx c).bank == 0 && bankSpilled (bankWaits false) c 0) = some 1 ∧
    ∃ s1, reloadBank (bankWaits false) 0 0 0 1 (Tbl.getD ((bankWaits false).ctx 1).spilled 0 {}) = .ok s1 :=
  ⟨by decide +kernel, by decide +kernel, by decide +kernel, by decide +kernel,
    ⟨by decide +kernel, by decide +kernel, by decide +kernel, by decide +kernel, ok_exists (by decide +kernel)⟩, by decide +kernel,
    by decide +kernel, ok_exists (by decide +kernel)⟩

/-! ## Submissions -/

/-- Queue 0 of partition 0, whose ring at 0x408000 holds one record. -/
def queue0 : Queue := { part := 0, ring := 0x408000, logn := 6, root1 := 0, asn := 0, prod := 1 }
/-- Bytes of a submission record: kind, graph, patch words, completion record, value and tag (R56). -/
def submissionBytes (kind graph npatch : Nat) : List Byte :=
  toBytes 8 kind ++ toBytes 8 graph ++ toBytes 8 0 ++ toBytes 8 npatch ++ toBytes 8 0x409000 ++ toBytes 8 0x55 ++ toBytes 8 0x77 ++ toBytes 8 0
/-- A binary of one event node before its signature: its header and its sections of nodes and of code (R77, R79). -/
def unsigned : List Byte :=
  toBytes 4 0x31475644 ++ toBytes 2 1 ++ toBytes 2 3 ++ toBytes 8 266
    ++ toBytes 8 1 ++ toBytes 4 64 ++ toBytes 4 64 ++ toBytes 8 6 ++ toBytes 4 128 ++ toBytes 4 16 ++ toBytes 8 8 ++ toBytes 4 144 ++ toBytes 4 122
    ++ toBytes 16 5 ++ toBytes 8 0x3000 ++ toBytes 8 1 ++ List.replicate 32 0 ++ List.replicate 16 0
/-- Its signature and the identifier of its key, whatever the digest of the key is (R83). -/
def signature0 : List Byte := List.replicate 114 0
def binaryBytes : List Byte := unsigned ++ signature0 ++ keyId [7]
def submitting (kind graph npatch : Nat) : State :=
  { base with
    mem := writeBytes (writeBytes base.mem 0x408000 (submissionBytes kind graph npatch)) 0x40A000 (if graph = 0x40A000 then binaryBytes else [])
    queues := [(0, queue0)]
    device := { keys := [⟨0, [7]⟩], signed := [([7], Config.shake256 unsigned, signature0)] } }
def submission (kind graph npatch : Nat) : Submission :=
  { kind := kind, prio := 0, graph := graph, patch := 0, npatch := npatch, done := 0x409000, value := 0x55, tag := 0x77 }
theorem submitting_wf (kind graph npatch : Nat) : Memory.wf (submitting kind graph npatch).mem = true :=
  wf_writeBytes _ _ (wf_writeBytes _ _ (by decide +kernel))
theorem submitting_heads (c : Nat × Nat × Nat) (h : c ∈ [(7, 0, 0), (2, 0, 0), (1, 0x40A001, 0), (1, 0x40A000, 0)]) :
    Heads (submitting c.1 c.2.1 c.2.2) 0 queue0 (submission c.1 c.2.1 c.2.2) 0x409000 :=
  ⟨by revert c; decide +kernel, lies_of (by revert c; decide +kernel), by revert c; decide +kernel,
    unbound_unwatched (by revert c; decide +kernel) _ _, submitting_wf ..⟩

/-- Bytes written to HBM at the address that an engine translates them to are what it reads there. -/
theorem readAll_written {s : State} {i : Issuer} {va : Nat} {m : List Host.Cell} {bs : List Byte} (hm : s.mem = writeBytes m va bs)
    (wf : Memory.wf m = true) (h : reachBytes s i .load va bs.length = .ok ((List.range bs.length).map fun j => (va + j, .wb)))
    (hbm : ∀ j < bs.length, placeOf (va + j) = .hbm) : readAll s i va bs.length = some bs := by
  rw [readAll, h]
  refine congrArg some (List.ext_getElem (by simp) fun j h1 h2 => ?_)
  simp [engineByte, placeByte, hbm j h2, hm, readCell_writeBytes va _ bs wf, h2]

/-- An unknown kind, a fence, a malformed record, and a submission of the binary. -/
theorem witness_SubmissionsCompleteOrStart :
    Heads (submitting 7 0 0) 0 queue0 (submission 7 0 0) 0x409000 ∧ Heads (submitting 2 0 0) 0 queue0 (submission 2 0 0) 0x409000 ∧
    (submitting 2 0 0).graphs = [] ∧ Heads (submitting 1 0x40A001 0) 0 queue0 (submission 1 0x40A001 0) 0x409000 ∧ 0x40A001 % 256 ≠ 0 ∧
    Heads (submitting 1 0x40A000 0) 0 queue0 (submission 1 0x40A000 0) 0x409000 ∧
    ∃ b, checkSubmission (submitting 1 0x40A000 0) queue0 (submission 1 0x40A000 0) = some (.ok b) ∧ b.patches = [] := by
  refine ⟨submitting_heads (7, 0, 0) (by decide), submitting_heads (2, 0, 0) (by decide), by decide +kernel,
    submitting_heads (1, 0x40A001, 0) (by decide), by decide, submitting_heads (1, 0x40A000, 0) (by decide), ?_⟩
  let xs : List Section := [⟨1, 64, 64⟩, ⟨6, 128, 16⟩, ⟨8, 144, 122⟩]
  have head : readAll (submitting 1 0x40A000 0) (queueIssuer queue0) 0x40A000 16 = some (unsigned.take 16) := by decide +kernel
  have table : readAll (submitting 1 0x40A000 0) (queueIssuer queue0) 0x40A000 64 = some (unsigned.take 64) := by decide +kernel
  have len : binaryBytes.length = 266 := by decide +kernel
  have whole : readAll (submitting 1 0x40A000 0) (queueIssuer queue0) 0x40A000 266 = some binaryBytes := by
    have := readAll_written (s := submitting 1 0x40A000 0) (i := queueIssuer queue0) (va := 0x40A000) (bs := binaryBytes)
      (m := writeBytes base.mem 0x408000 (submissionBytes 1 0x40A000 0)) (by simp [submitting]) (wf_writeBytes _ _ (by decide +kernel))
    rw [len] at this
    exact this (ok_of (by decide +kernel)) (by decide +kernel)
  have valid : signed (submitting 1 0x40A000 0) 0 binaryBytes ⟨8, 144, 122⟩ = true := by
    have a : binaryBytes.take 144 = unsigned := rfl
    have b : ((binaryBytes.drop 144).take 122).take 114 = signature0 := rfl
    have c : ((binaryBytes.drop 144).take 122).drop 114 = keyId [7] := rfl
    simp [signed, submitting, a, b, c]
  obtain ⟨p, hp, h⟩ := some_all (x := parseImage (submitting 1 0x40A000 0).tick ⟨0x40A000, binaryBytes, xs⟩ [])
    (p := fun p => p.patches.isEmpty && !p.nodes.any (teamTooLarge p.parts)) (by decide +kernel)
  simp only [Bool.and_eq_true, Bool.not_eq_true', List.isEmpty_iff] at h
  refine ⟨p, ?_, h.1⟩
  have hd : bytesAt (unsigned.take 16) 6 2 = 3 ∧ bytesAt (unsigned.take 16) 8 8 = 266 ∧ bytesAt (unsigned.take 16) 0 4 = 0x31475644 ∧
      bytesAt (unsigned.take 16) 4 2 = 1 ∧ sectionTable (unsigned.take 64) 3 = xs ∧ signatureAt xs 266 = some ⟨8, 144, 122⟩ ∧
      sectionsOk xs 266 = true := by decide +kernel
  have ok : recordOk (submission 1 0x40A000 0) = true := by decide +kernel
  show (if !recordOk (submission 1 0x40A000 0) then some (.error 2)
    else checkBinary (submitting 1 0x40A000 0) (queueIssuer queue0) 0x40A000 []) = _
  rw [ok, checkBinary]
  simp [head, hd, table, whole, valid, hp, show (queueIssuer queue0).part = 0 from rfl]
  simpa using h.2

/-! ## Nodes -/

/-- A graph of queue 0 whose first node is the given one, with an edge to its second; its word at 0x3000 holds 1. -/
def graph0 (x : Node) (e : EdgeKind) : Graph :=
  { queue := 0, prio := 2, addr := 0, done := 0x9000, value := 0x55, tag := 0x77
    nodes := [x, { kind := .event 0x3000 1, phase := .waiting }], edges := [⟨0, 1, e, none⟩]
    templates := [(2, entry0 2 0x21000 4 3 0), (5, entry0 1 0x24000 4 3 0)] }
def noded (x : Node) (e : EdgeKind) : State :=
  { base with mem := writeLE base.mem 0x3000 8 1, queues := [(0, queue0)], graphs := [(0, graph0 x e)] }
def admitted (k : NodeKind) : Node := { kind := k, phase := .admitted }
theorem noded_at (k : NodeKind) (e : EdgeKind) (a : Access) (h : admittedNode (noded (admitted k) e) 0 0 = some (graph0 (admitted k) e, admitted k))
    (l : ∀ j < 8, (match translate (noded (admitted k) e) (graphIssuer (noded (admitted k) e) (graph0 (admitted k) e)) ((0x3000 + j) % 2 ^ 64) a with
      | .ok p => decide (p = (0x3000 + j, .wb))
      | .error _ => false) = true ∧ placeOf (0x3000 + j) = .hbm) :
    NodeAt (noded (admitted k) e) 0 0 (graph0 (admitted k) e) (admitted k) a 0x3000 0x3000 :=
  ⟨h, lies_of l, by decide, rfl⟩
/-- A launch whose one team has gone; a copy under way; a ready node with a region; a graph whose nodes are done. -/
def launchRuns : State :=
  { noded { kind := .launch {} 1, phase := .running } .order with
    launches := [(5, { graph := 0, node := 0, part := 0, nextTeam := 1 })], groups := [], threads := [] }
def copyNode : State := { noded { kind := .tileCopy 2 5, phase := .running } .order with nodeCopies := [⟨0, 0⟩] }
def region0 : Region := { lo := 0x3000, hi := 0x30FF, empty := false, rd := true, wr := true }
def readyNode : State := noded { kind := .event 0x3000 1, regions := [region0], phase := .ready } .order
def graphEnds : State :=
  { noded { kind := .event 0x3000 1, phase := .done } .order with
    graphs := [(0, { graph0 { kind := .event 0x3000 1, phase := .done } .order with nodes := [{ kind := .event 0x3000 1, phase := .done }] })] }
theorem witness_NodesRun :
    admittedNode (noded (admitted (.launch {} 3)) .order) 0 0 = some (graph0 (admitted (.launch {} 3)) .order, admitted (.launch {} 3)) ∧
    (launchRuns.launch? 5 = some { graph := 0, node := 0, part := 0, nextTeam := 1 } ∧ launchBusy launchRuns 5 = false ∧
      (launchRuns.graph 0).nodes.length = 2) ∧
    NodeAt (noded (admitted (.cond 0x3000)) .ifTrue) 0 0 (graph0 (admitted (.cond 0x3000)) .ifTrue) (admitted (.cond 0x3000)) .load 0x3000 0x3000 ∧
    NodeAt (noded (admitted (.loop 0x3000 4)) .body) 0 0 (graph0 (admitted (.loop 0x3000 4)) .body) (admitted (.loop 0x3000 4)) .load 0x3000 0x3000 ∧
    (NodeAt (noded (admitted (.event 0x3000 1)) .order) 0 0 (graph0 (admitted (.event 0x3000 1)) .order) (admitted (.event 0x3000 1)) .load 0x3000
      0x3000 ∧ 1 ≤ readLE (noded (admitted (.event 0x3000 1)) .order).mem 0x3000 8) ∧
    (NodeAt (noded (admitted (.signal 0x3000 9 4)) .order) 0 0 (graph0 (admitted (.signal 0x3000 9 4)) .order) (admitted (.signal 0x3000 9 4)) .store
      0x3000 0x3000 ∧ Unwatched (noded (admitted (.signal 0x3000 9 4)) .order) 0x3000 8) ∧
    (⟨0, 0⟩ ∈ copyNode.nodeCopies ∧ ∃ x, (copyNode.graph 0).nodes[0]? = some x) ∧
    (readyNode.queue? 0 = some queue0 ∧ admissible readyNode 0 = some ⟨0, 0, 0, { kind := .event 0x3000 1, regions := [region0], phase := .ready }⟩ ∧
      (readyNode.part 0).state = 1 ∧ dieStopped readyNode 0 0 = false ∧ regionsOnDie readyNode 0 0 + 1 ≤ 4096) ∧
    ((graphEnds.graph 0).complete = false ∧ (∀ x ∈ (graphEnds.graph 0).nodes, x.phase = .done) ∧
      Lies graphEnds (graphIssuer graphEnds (graphEnds.graph 0)) .store 0x9000 16 0x9000 ∧ Unwatched graphEnds 0x9000 16 ∧
      Memory.wf graphEnds.mem = true) :=
  ⟨by decide +kernel, by decide +kernel, noded_at _ _ _ (by decide +kernel) (by decide +kernel), noded_at _ _ _ (by decide +kernel) (by decide +kernel),
    ⟨noded_at _ _ _ (by decide +kernel) (by decide +kernel), by decide +kernel⟩,
    ⟨noded_at _ _ _ (by decide +kernel) (by decide +kernel), unbound_unwatched (by decide +kernel) _ _⟩,
    ⟨by decide +kernel, _, rfl⟩, by decide +kernel, by decide +kernel, by decide +kernel, lies_of (by decide +kernel),
    unbound_unwatched (by decide +kernel) _ _, by decide +kernel⟩
/-- A tile copy of BF16 to FP16, of 4 by 3. -/
theorem witness_NodesRun_copy :
    let s := noded (admitted (.tileCopy 2 5)) .order
    let g := graph0 (admitted (.tileCopy 2 5)) .order
    let es := Tbl.getD g.templates 2 (Vector.replicate 4 0)
    let ed := Tbl.getD g.templates 5 (Vector.replicate 4 0)
    let i := graphIssuer s g
    let vecs := List.range (tVecs es)
    admittedNode s 0 0 = some (g, admitted (.tileCopy 2 5)) ∧ tileCopyOk ed es .rn false = true ∧
    (∃ src, reachRanges s i .load (vecs.map fun k => vecRange es (vecAt es k).1 (vecAt es k).2.1 (vecAt es k).2.2) = .ok src ∧
      (src.all fun p => p.2 != .hb && !memPoisoned s p.1 1) = true) ∧
    ∃ dst, reachRanges s i .store ((vecs.flatMap fun k => (copyVec s i ed es ⟨TileRm.mode .rn, false, 0, false⟩ k).1).map fun y => (y.1, 1))
      = .ok dst := by
  refine ⟨?_, ?_, ok_all ?_, ok_exists ?_⟩ <;> decide +kernel

end Sys2Proof.Machine
end

