-- ==== Sys2Proof/Tests/WitnessPackage.lean ====
section
/-! SUPPORT. Witnesses of the statements about answers, hosts, Preley's calls, the debugger, power and links. -/

namespace Sys2Proof.Machine

set_option Elab.async false

/-! ## Answers and errors -/

/-- Thread 0 waits for the answer to record 3, whose severity is given; graph 0 is its launch's. -/
def record0 (sev : Nat) : Rec := { kind := 0x03, sev := sev, graph := some 0, seq := 9 }
def faulted (sev : Nat) : State :=
  { stateOf [{ thread0 with wait := .fault 0 3 }] group0 with
    parts := [(0, { part0 with tqprod := 5, tqcons := 2, opened := [(3, record0 sev, .thread t0)] })]
    queues := [(0, queue0)]
    graphs := [(0, graph0 { kind := .launch {} 1, phase := .running } .order)] }
/-- Every answer of partition 0 is in, and its consumer index is three behind. -/
def passing : State := { base with parts := [(0, { part0 with tqprod := 5, tqcons := 2 })] }
/-- An outstanding load of second-tier memory. -/
def farOut : Out := { id := 3, dest := .lane 2 false, left := 2, val := .load 0x8000000001000 4 .wb none }
def awayState : State := stateOf [{ thread0 with outs := [farOut] }] group0
theorem witness_AnswersAndErrors :
    (∀ sev ∈ [0, 1], openRecord (faulted sev) 0 3 = some (record0 sev, .thread t0) ∧ ((faulted sev).thread t0).wait = .fault 0 3 ∧
      ((faulted sev).thread t0).outs = [] ∧ (∀ q ∈ (faulted sev).threads, q.2.wait = .fault 0 3 → q.1 = t0) ∧ CanTrap (faulted sev) t0 ∧
      (record0 sev).graph = some 0 ∧ (∀ p ∈ (faulted sev).threads, p.2.sb = []) ∧ ((faulted sev).graph 0).complete = false ∧
      (record0 sev).req = 0) ∧
    (∃ ps, reachBytes (faulted 1) (graphIssuer (faulted 1) ((faulted 1).graph 0)) .store ((faulted 1).graph 0).done.toNat 16 = .ok ps) ∧
    (((faulted 0).part 0).tqprod - ((faulted 0).part 0).tqcons < 4 ∧ 1 ≤ ((faulted 0).part 0).tqprod - ((faulted 0).part 0).tqcons ∧
      ((faulted 0).part 0).waiting = [] ∧ Tbl.find ((faulted 0).part 0).opened 2 = none) ∧
    (findOut awayState 3 = some (t0, farOut) ∧ secondTier farOut = some 0x8000000001000 ∧ FilesIn awayState 0 0 ∧
      recordHolds awayState 0 (.outload 3) = false) := by
  refine ⟨by unfold CanTrap; decide +kernel, ok_exists (by decide +kernel), by decide +kernel, by decide +kernel, by decide +kernel,
    ⟨by decide +kernel, by decide +kernel, by decide +kernel⟩, by decide +kernel⟩

/-! ## Hosts and peers -/

/-- The package holds a line in M; the host maps the first 64 KiB and holds page 3; peer 4 is mapped; every partition is
enabled. -/
def hosting : State :=
  { base with
    parts := (List.range 20).map fun p => (p, { part0 with peers := [(4, ⟨7, 0, 1⟩)] })
    hbLines := [(0x1000000003000 / 128, .m)], hostBias := [3], device := { hdmSize := 0x10000 }
    links := [(16, { down := false })] }
/-- The snoop filter holds the line that the host reads. -/
def filtering : State := { hosting with snoopFilter := [(0x3000 / 128, false)] }
theorem unbuffered_of {s : State} (h : Empty s) (line : Nat) : Unbuffered s line :=
  ⟨fun p hp e he => by simp [h.1 p hp] at he, by simp [h.2.1]⟩
/-- What holds for every partition's number holds for the one that a peer's request acts for. -/
theorem peerPart_of {P : Nat → Prop} (s : State) (h : ∀ p < 20, P p) : P (peerPart s) := h _ (Nat.mod_lt _ (by decide))
/-- Thread 0 waits for peer 4, whose port has trained again. -/
def record8 : Rec := { kind := 0x08, sev := 0, pa := 0x2000000000000 + 4 * 2 ^ 40 }
def peered : State :=
  { stateOf [{ thread0 with wait := .fault 0 3 }] group0 with
    parts := [(0, { part0 with peers := [(4, ⟨7, 0, 1⟩)], opened := [(3, record8, .thread t0)] })], links := [(16, { down := false })] }
theorem witness_HostAndPeers :
    (hostLine hosting (0x1000000003000 / 128) = true ∧ Memory.wf hosting.mem = true ∧
      [(0x1000000003001, (5 : Byte))].Pairwise (fun a b => a.1 ≠ b.1) ∧ ∀ c ∈ [(0x1000000003001, (5 : Byte))], c.1 / 128 = 0x1000000003000 / 128) ∧
    Unbuffered hosting (0x1000000003000 / 128) ∧
    (filtering.device.hostPorts.contains 0 = true ∧ filtering.device.hdmSize ≤ 0x10000 ∧ 0x3000 + 128 ≤ filtering.device.hdmSize ∧
      filtering.hostBias.contains (0x3000 / 4096) = true ∧ Tbl.has filtering.snoopFilter (0x3000 / 128) = true) ∧
    Unbuffered filtering (0x3000 / 128) ∧
    ((hosting.part (peerPart hosting)).state = 1 ∧ (∀ i < 8, placeOf (0x3000 + i) = .hbm ∧ inRanges hosting (peerPart hosting) (0x3000 + i) = true) ∧
      inRanges hosting (peerPart hosting) 0x7000000000 = false) ∧ hosting.snoopFilter = [] ∧
    (peered.link 16).down = false ∧ (∃ x, peered.parts = [(0, x)] ∧ x.opened = [(3, record8, .thread t0)] ∧ x.waiting = [] ∧
      Tbl.find x.peers 4 = some ⟨7, 0, 1⟩) ∧
    placeOf record8.pa = .peer 4 ∧ (1 : BitVec 12).getLsbD (16 - 16) = true ∧ (peered.thread t0).wait = .fault 0 3 :=
  ⟨by decide +kernel, unbuffered_of (by decide +kernel) _, by decide +kernel, unbuffered_of (by decide +kernel) _,
    peerPart_of (P := fun p => (hosting.part p).state = 1 ∧ (∀ i < 8, placeOf (0x3000 + i) = .hbm ∧ inRanges hosting p (0x3000 + i) = true) ∧
      inRanges hosting p 0x7000000000 = false) hosting (by decide +kernel),
    by decide +kernel, by decide +kernel, ⟨_, rfl, rfl, rfl, by decide +kernel⟩, by decide +kernel, by decide +kernel, by decide +kernel⟩

/-! ## Preley's calls -/

/-- Mailbox 0, of partitions 0 and 1, holds one call at 0x500000. -/
def calling (s : State) (code part : Nat) (args : List Nat) : State :=
  { s with
    mem := writeBytes s.mem 0x500000 (toBytes 2 code ++ toBytes 6 part ++ args.flatMap (toBytes 8))
    mailboxes := [(0, { base := 0x500000, en := true, logn := 2, prod := 1, parts := 3 })] }
def callOf (code part : Nat) (args : List Nat) : Call := { code := code, part := part, arg := (List.range 5).map fun i => args.getD i 0 }
/-- What a call that is asked meets. -/
abbrev Stood (s : State) (c : Call) : Prop :=
  headCall s 0 = some c ∧ (s.mailbox 0).parts.getLsbD c.part = true ∧ s.snoopFilter = [] ∧ Memory.wf s.mem = true ∧
    ∀ p ∈ s.threads, ∀ k : Reg8, (p.2.b.get k).bound = true → overlaps (callAddr (s.mailbox 0)) 64 ((p.2.b.get k).pa / 4 * 4) 4 = false
theorem asks_of {s : State} {c : Call} (h : Stood s c) : Asks s 0 c.code c :=
  ⟨h.1, rfl, h.2.1, h.2.2.1, unwatched_of h.2.2.2.2, h.2.2.2.1⟩

/-- A page of device memory, a peer's identity, a queue with a doorbell, and a launch. -/
def served : State :=
  { tied with
    device := { hdmSize := 0x8000000, peerIdentity := [(4, 0x99)] }, queues := [(6, { queue0 with doorbell := 0x770 })]
    parts := [(0, part0), (1, { clusters := 0xF00, allot := 40, ranges := (Vector.replicate 16 {}).set! 0 { en := true, base := 0x4000000, limit := 0x4FFF000 } })]
    boot := { firmwareOk := true, preleyOk := true } }
/-- Thread 0 has bound a word at 0x3000 that nothing maps there. -/
def unwritable : State :=
  { served with threads := [(t0, { thread0 with b := thread0.b.set! 0 { bound1 with va := 0x3000, pa := 0x7000 } })] }
theorem witness_PreleyCalls :
    (headCall (calling served 4 7 []) 0 = some (callOf 4 7 []) ∧ ((calling served 4 7 []).mailbox 0).parts.getLsbD 7 = false ∧
      headCall (calling served 16 0 []) 0 = some (callOf 16 0 []) ∧ (calling served 16 0 []).snoopFilter = [] ∧
      Memory.wf (calling served 4 7 []).mem = true ∧ Memory.wf (calling served 16 0 []).mem = true) ∧
    (Asks (calling served 1 0 [0x400000, 6, 0, 5]) 0 1 (callOf 1 0 [0x400000, 6, 0, 5]) ∧ 0x400000 % (64 * 2 ^ 6) = 0 ∧
      ((calling served 1 0 [0x400000, 6, 0, 5]).part 0).state = 1 ∧
      ringInDevice (calling served 1 0 [0x400000, 6, 0, 5]) { part := 0, ring := BitVec.ofNat 64 0x400000, logn := 6, root1 := 0, asn := 5 } = true) ∧
    (Asks (calling served 2 0 [0x770]) 0 2 (callOf 2 0 [0x770]) ∧
      (calling served 2 0 [0x770]).queues.find? (fun q => q.2.part == 0 && q.2.doorbell == 0x770 && !q.2.destroyed) =
        some (6, { queue0 with doorbell := 0x770 }) ∧ (calling served 2 0 [0x770]).graphs = []) ∧
    (Asks (calling served 3 0 [0xFFFF]) 0 3 (callOf 3 0 [0xFFFF]) ∧
      (∀ p ∈ (calling served 3 0 [0xFFFF]).threads, p.2.outs = [] ∧ p.2.sb = []) ∧
      Asks (calling unwritable 3 0 [0, 0x3000, 0x1000, 0]) 0 3 (callOf 3 0 [0, 0x3000, 0x1000, 0]) ∧
      (∀ p ∈ (calling unwritable 3 0 [0, 0x3000, 0x1000, 0]).threads, p.2.outs = [] ∧ p.2.sb = []) ∧
      let b := ((calling unwritable 3 0 [0, 0x3000, 0x1000, 0]).thread t0).b.get 0
      let i := issuerOf (calling unwritable 3 0 [0, 0x3000, 0x1000, 0]) g0
      partOfCore (calling unwritable 3 0 [0, 0x3000, 0x1000, 0]) 0 = some 0 ∧ i.part = 0 ∧ i.asn = 0 ∧ b.bound = true ∧
        givesW (calling unwritable 3 0 [0, 0x3000, 0x1000, 0]) i b.va.toNat b.pa = false ∧
        overlaps (b.va.toNat / 4096 * 4096) 4096 0x3000 0x1000 = true ∧ overlaps (b.va.toNat / 2 ^ 30 * 2 ^ 30) (2 ^ 30) 0x80000000 0x1000 = false) ∧
    Asks (calling served 4 0 [0x3000, 1]) 0 4 (callOf 4 0 [0x3000, 1]) ∧
    (Asks (calling served 7 0 [4, 0x99, 0, 1]) 0 7 (callOf 7 0 [4, 0x99, 0, 1]) ∧
      Tbl.find (calling served 7 0 [4, 0x99, 0, 1]).device.peerIdentity 4 = some (BitVec.ofNat 64 0x99)) ∧
    (Asks (calling served 9 0 [0, 0]) 0 9 (callOf 9 0 [0, 0]) ∧
      launchNumbered (calling served 9 0 [0, 0]) 0 = some (0, (calling served 9 0 [0, 0]).launch 0) ∧
      ((calling served 9 0 [0, 0]).launch 0).part = 0 ∧ groupNamed (calling served 9 0 [0, 0]) 0 0 0 = some g0) :=
  ⟨by decide +kernel, ⟨asks_of (c := callOf 1 0 [0x400000, 6, 0, 5]) (by decide +kernel), by decide +kernel⟩,
    ⟨asks_of (c := callOf 2 0 [0x770]) (by decide +kernel), by decide +kernel⟩,
    ⟨asks_of (c := callOf 3 0 [0xFFFF]) (by decide +kernel), by decide +kernel,
      asks_of (c := callOf 3 0 [0, 0x3000, 0x1000, 0]) (by decide +kernel), by decide +kernel, by decide +kernel⟩,
    asks_of (c := callOf 4 0 [0x3000, 1]) (by decide +kernel),
    ⟨asks_of (c := callOf 7 0 [4, 0x99, 0, 1]) (by decide +kernel), by decide +kernel⟩,
    asks_of (c := callOf 9 0 [0, 0]) (by decide +kernel), by decide +kernel⟩

/-- Partition 0 runs nothing, in a state. -/
def idle (st : Nat) : State :=
  { calling served 6 0 [] with groups := [], threads := [], ctxs := [], cores := [], parts := [(0, { part0 with state := st })] }
theorem witness_PartitionsComeAndGo :
    (Asks (calling served 5 1 []) 0 5 (callOf 5 1 []) ∧ ((calling served 5 1 []).part 1).state = 0 ∧
      (∀ n < 80, ((calling served 5 1 []).part 1).clusters.getLsbD n = true → ((calling served 5 1 []).cluster n).owner = none) ∧
      (calling served 5 1 []).boot.firmwareOk = true ∧ (calling served 5 1 []).boot.preleyOk = true ∧
      (grantOf ((calling served 5 1 []).part 1)).length = 4 ∧ ((calling served 5 1 []).part 1).allot = 40 ∧
      otherAllot (calling served 5 1 []) 1 + 40 ≤ 3600) ∧
    (Asks (calling served 6 1 []) 0 6 (callOf 6 1 []) ∧ ((calling served 6 1 []).part 1).state = 0 ∧
      ∀ n < 80, ((calling served 6 1 []).cluster n).owner ≠ some 1) ∧
    ((idle 0).cluster 0).owner = some 0 ∧
    ∀ st ∈ [0, 1, 2], Asks (idle st) 0 6 (callOf 6 0 []) ∧ ((idle st).part 0).state = st ∧ partBusy (idle st) 0 = false ∧ (idle st).graphs = [] := by
  refine ⟨⟨asks_of (c := callOf 5 1 []) (by decide +kernel), by decide +kernel⟩,
    ⟨asks_of (c := callOf 6 1 []) (by decide +kernel), by decide +kernel⟩, by decide +kernel, fun st h => ?_⟩
  exact ⟨asks_of (c := callOf 6 0 []) (by revert st; decide +kernel), by revert st; decide +kernel⟩

/-! ## The debugger -/

/-- A debugger of partition 0 that has halted group 0. -/
def debugging : State :=
  { served with parts := [(0, { part0 with debugger := some { debugger0 .group with halted := [.group g0] } })] }
theorem witness_DebuggerCalls :
    (Asks (calling served 8 0 [0, 0x5000, 3]) 0 8 (callOf 8 0 [0, 0x5000, 3]) ∧ ((calling served 8 0 [0, 0x5000, 3]).part 0).debugger = none ∧
      bufferOk (calling served 8 0 [0, 0x5000, 3]) 0 0x5000 4096 = true) ∧
    (Asks (calling debugging 10 0 [1, 0, 0]) 0 10 (callOf 10 0 [1, 0, 0]) ∧
      namedScope (calling debugging 10 0 [1, 0, 0]) 0 { debugger0 .group with halted := [.group g0] } 0 0 0 = some (.group g0)) ∧
    (∀ code ∈ [11, 12, 15], Asks (calling debugging code 0 [1, 1]) 0 code (callOf code 0 [1, 1]) ∧
      attachedPart (calling debugging code 0 [1, 1]) 0 1 = some (0, { debugger0 .group with halted := [.group g0] })) ∧
    (Asks (calling debugging 13 0 [1, 5, 0, 0x6000, 16]) 0 13 (callOf 13 0 [1, 5, 0, 0x6000, 16]) ∧
      bufferOk (calling debugging 13 0 [1, 5, 0, 0x6000, 16]) 0 0x6000 16 = true ∧
      ∃ bs, debugRead (calling debugging 13 0 [1, 5, 0, 0x6000, 16]) 0 { debugger0 .group with halted := [.group g0] } 5 0 16 = some bs ∧
        true = true) ∧
    (Asks (calling debugging 14 0 [1, spadAddr 0 0x100, 0x6000, 8]) 0 14 (callOf 14 0 [1, spadAddr 0 0x100, 0x6000, 8]) ∧
      bufferOk (calling debugging 14 0 [1, spadAddr 0 0x100, 0x6000, 8]) 0 0x6000 8 = true ∧
      ∀ k < 8, debugMayWrite (calling debugging 14 0 [1, spadAddr 0 0x100, 0x6000, 8]) 0 (spadAddr 0 0x100 + k) = true ∧
        (spadCore (spadAddr 0 0x100 + k)).isSome = true) := by
  refine ⟨⟨asks_of (c := callOf 8 0 [0, 0x5000, 3]) (by decide +kernel), by decide +kernel⟩,
    ⟨asks_of (c := callOf 10 0 [1, 0, 0]) (by decide +kernel), by decide +kernel⟩, fun code h => ?_,
    ⟨asks_of (c := callOf 13 0 [1, 5, 0, 0x6000, 16]) (by decide +kernel), by decide +kernel, some_all (p := fun _ => true) (by decide +kernel)⟩,
    asks_of (c := callOf 14 0 [1, spadAddr 0 0x100, 0x6000, 8]) (by decide +kernel), by decide +kernel⟩
  exact ⟨asks_of (c := callOf code 0 [1, 1]) (by revert code; decide +kernel), by revert code; decide +kernel⟩

/-! ## Power, attestation and links -/

theorem witness_BootAndAttestation :
    State.reset.boot.started = false ∧ State.reset.device.hostPorts.contains 0 = true := by decide
/-- Cluster 1 settles, cluster 2 runs with nothing on it, and a request of thread 0 is held for cluster 3. -/
def powered : State :=
  { stateOf [{ thread0 with wait := .remote 3 true }] group0 with
    clusters := [(0, { owner := some 0, gated := false }), (1, { owner := some 0, settling := some 5 }), (2, { owner := some 0, gated := false }),
      (3, { owner := some 0, heldReqs := [{ who := .thread t0 }] })]
    queues := [(6, { queue0 with doorbell := 0x770, prod := 3, cons := 1 })] }
/-- The boot has passed, and partition 1, disabled, has its grant free. -/
def waiting1 : State := { served with cur := none }
/-- It has been halted since a start that measured it. -/
def halted1 : State := { waiting1 with parts := [(0, part0), (1, { served.part 1 with state := 2, measured := some [] })] }
/-- What a write of STATE asks of a partition's descriptor (R165, R168, R190). -/
abbrev Fits (s : State) (p : Nat) : Prop :=
  bootOk s = true ∧ 4 ≤ (grantOf (s.part p)).length ∧ 10 * (grantOf (s.part p)).length ≤ (s.part p).allot ∧ otherAllot s p + (s.part p).allot ≤ 3600
theorem witness_PowerAndLinks :
    (powered.part 0).state = 1 ∧ (powered.cluster 1).settling = some 5 ∧
    ((powered.cluster 2).gated = false ∧ coreHolds powered 4 = false ∧ coreHolds powered 5 = false ∧
      flushWaits powered 4 = false ∧ flushWaits powered 5 = false) ∧
    ((powered.cluster 3).gated = true ∧ (powered.cluster 3).owner ≠ none ∧ (powered.cluster 3).heldReqs.map Held.who = [t0].map .thread ∧
      ∀ t ∈ [t0], (powered.thread t).wait = .remote 3 true) ∧
    (∀ port < 28, (powered.link port).down = true) ∧ (hosting.link 16).down = false ∧
    (powered.part 0).state ≠ 0 ∧ (powered.part 1).state = 0 ∧ bootOk State.reset = false ∧
    (Fits waiting1 1 ∧ grantFree waiting1 (waiting1.part 1) = true ∧ (waiting1.part 1).state = 0) ∧
    (Fits halted1 1 ∧ (halted1.part 1).state = 2 ∧ (halted1.part 1).measured ≠ none) ∧
    (enabledParts State.reset = [] ∧ pickOne powered 60008 (enabledParts powered) = some 0 ∧
      (powered.part 0).tqprod - (powered.part 0).tqcons < 4096) ∧
    (powered.queues.find? (fun q => q.2.doorbell == 0x770) = some (6, { queue0 with doorbell := 0x770, prod := 3, cons := 1 }) ∧
      ((powered.part 0).state ≠ 2 ∧ 3 ≤ 5 ∧ 5 ≤ 1 + 2 ^ queue0.logn)) := by
  decide +kernel

/-! ## Events that run -/

/-- A schedule table of one entry, not yet written. -/
def oneEntry : State :=
  { scheduled with cores := [(0, { tables := [(0, { entries := [none] })] })] }
/-- Power, links, teams, bins and copies. -/
theorem witness_PackageEventsRun :
    (powered.cluster 1).settling = some 5 ∧
    ((powered.cluster 2).gated = false ∧ coreHolds powered 4 = false ∧ coreHolds powered 5 = false ∧
      flushWaits powered 4 = false ∧ flushWaits powered 5 = false) ∧
    ((powered.cluster 3).gated = true ∧ (powered.cluster 3).owner ≠ none ∧ (powered.cluster 3).heldReqs.map Held.who = [.thread t0]) ∧
    (powered.link 3).down = true ∧ (hosting.link 16).down = false ∧
    (teamWaits teamed (teamed.launch 1) = true ∧ (∀ a ∈ aheadOf teamed 1, placement teamed a = none) ∧
      ∃ p, placement teamed 1 = some p ∧ (!(teamed.cluster (p.1 / 2)).gated) = true) ∧
    (oneEntry.core 0).tables = [(0, { entries := [none] })] ∧
    (Tbl.find ((binRuns false false).core 0).bins 2 = some (bin1 false) ∧ ((binRuns false false).core 0).swap = none ∧
      binSeat (wakeCore (binRuns false false) 0) 0 (bin1 false) = none) ∧
    (Tbl.find ((binRuns true true).core 0).bins 2 = some (bin1 true) ∧ ((binRuns true true).core 0).swap = none ∧
      ∃ seat, binSeat (binRuns true true) 0 (bin1 true) = some seat ∧ true = true) ∧
    (queueFor overflowing 0 = some (0, 0, 1) ∧ headBin overflowing 0 0 0 = some (ring0, 0x200004, ⟨5, 3⟩, 0) ∧
      Tbl.find (overflowing.core 0).bins 1 = none ∧ Tbl.find (overflowing.core 0).bins 0 = none ∧ 1 < (overflowing.launch 0).kernel.group) ∧
    ((copyHeld.group g0).copyWait = [flat0] ∧ flat0.group = g0 ∧ flat0.slots.Nodup ∧ flat0.total ≠ 0 ∧ Stored copyHeld 0 flat0.threads ∧
      Tbl.find (copyHeld.core 0).copies 0 = none ∧ ∀ p ∈ copyHeld.groups, p.1.core = g0.core → ∀ d ∈ p.2.copyWait, flat0.seq ≤ d.seq) ∧
    OneChunk copyRuns 0 0 flat0 0 8 0x5000 0x6000 0x5000 0x6000 8 1 2 0 ∧ Memory.wf copyRuns.mem = true ∧ flat0.chunk 0 = some (0, 8) :=
  ⟨by decide +kernel, by decide +kernel, by decide +kernel, by decide +kernel, by decide +kernel, witness_TeamsAndBins.1, by decide +kernel,
    by decide +kernel, ⟨by decide +kernel, by decide +kernel, some_all (p := fun _ => true) (by decide +kernel)⟩, by decide +kernel,
    witness_CopiesLand.1, witness_CopiesLand.2⟩
/-- Matrix and tile operations, answers and errors. -/
theorem witness_PackageEventsRun_engines :
    (∀ op ∈ [mma0, pendingOp], ((performing op).group g0).live = true ∧ Tbl.getD ((performing op).group g0).mq 0 [] = [op] ∧
      op.performed = false) ∧
    (mma0.kind = .mma (.lanes 1 3) (.lanes 2 3) 0x00010101 none false ∧ shapeM 0x00010101 ≤ 8 ∧ shapeN 0x00010101 ≤ 8 ∧ pendingOp.kind = .zero) ∧
    (∀ fence : Bool, ((liveThreads (matrixWaits fence) g0).filter fun t =>
        homeLane (matrixWaits fence) t / 8 == 0 && ((matrixWaits fence).thread t).wait == .matrix fence) = [t0] ∧
      ((matrixWaits fence).thread t0).outs = [] ∧ ((matrixWaits fence).thread t0).sb = [] ∧ groupOf (matrixWaits fence) t0 = g0 ∧
      Tbl.getD ((matrixWaits fence).group g0).mq 0 [] = []) ∧
    (∃ src dst, TileMoves (tileRuns (tileOp0 .gemm 1 2 3) 0) g0 (tileOp0 .gemm 1 2 3) src dst) ∧
    (∀ sev ∈ [0, 1], openRecord (faulted sev) 0 3 = some (record0 sev, .thread t0) ∧ ((faulted sev).thread t0).wait = .fault 0 3 ∧
      ((faulted sev).thread t0).outs = [] ∧ (∀ q ∈ (faulted sev).threads, q.2.wait = .fault 0 3 → q.1 = t0) ∧ CanTrap (faulted sev) t0 ∧
      (record0 sev).graph = some 0 ∧ (∀ p ∈ (faulted sev).threads, p.2.sb = []) ∧ ((faulted sev).graph 0).complete = false ∧
      (record0 sev).req = 0) ∧
    (∃ ps, reachBytes (faulted 1) (graphIssuer (faulted 1) ((faulted 1).graph 0)) .store ((faulted 1).graph 0).done.toNat 16 = .ok ps) ∧
    (1 ≤ (passing.part 0).tqprod - (passing.part 0).tqcons ∧ (passing.part 0).opened = [] ∧ (passing.part 0).waiting = []) ∧
    (findOut awayState 3 = some (t0, farOut) ∧ secondTier farOut = some 0x8000000001000 ∧ FilesIn awayState 0 0 ∧
      recordHolds awayState 0 (.outload 3) = false) :=
  ⟨by decide +kernel, by decide +kernel, by decide +kernel, ⟨_, _, (witness_TileStepsAdvance _ (.head _)).1⟩,
    witness_AnswersAndErrors.1, witness_AnswersAndErrors.2.1, by decide +kernel, witness_AnswersAndErrors.2.2.2⟩
/-- Preley's calls and the debugger's, boot and SPDM. -/
theorem witness_PackageEventsRun_calls :
    (Asks (calling served 1 0 [0x400000, 6, 0, 5]) 0 1 (callOf 1 0 [0x400000, 6, 0, 5]) ∧ ((calling served 1 0 [0x400000, 6, 0, 5]).part 0).state = 1 ∧
      ringInDevice (calling served 1 0 [0x400000, 6, 0, 5]) { part := 0, ring := BitVec.ofNat 64 0x400000, logn := 6, root1 := 0, asn := 5 } = true) ∧
    (Asks (calling served 2 0 [0x770]) 0 2 (callOf 2 0 [0x770]) ∧
      (calling served 2 0 [0x770]).queues = [(6, { queue0 with doorbell := 0x770 })] ∧ (calling served 2 0 [0x770]).graphs = []) ∧
    (Asks (calling served 3 0 [0xFFFF]) 0 3 (callOf 3 0 [0xFFFF]) ∧ ∀ p ∈ (calling served 3 0 [0xFFFF]).threads, p.2.outs = [] ∧ p.2.sb = []) ∧
    Asks (calling served 4 0 [0x3000, 1]) 0 4 (callOf 4 0 [0x3000, 1]) ∧
    (Asks (calling served 5 1 []) 0 5 (callOf 5 1 []) ∧ ((calling served 5 1 []).part 1).state = 0 ∧
      grantFree (calling served 5 1 []) ((calling served 5 1 []).part 1) = true ∧ bootOk (calling served 5 1 []) = true ∧
      (grantOf ((calling served 5 1 []).part 1)).length = 4 ∧ ((calling served 5 1 []).part 1).allot = 40 ∧
      otherAllot (calling served 5 1 []) 1 + 40 ≤ 3600) ∧
    (Asks (idle 1) 0 6 (callOf 6 0 []) ∧ ((idle 1).part 0).state = 1 ∧ partBusy (idle 1) 0 = false) ∧
    (Asks (calling served 7 0 [4, 0x99, 0, 1]) 0 7 (callOf 7 0 [4, 0x99, 0, 1]) ∧
      Tbl.find (calling served 7 0 [4, 0x99, 0, 1]).device.peerIdentity 4 = some (BitVec.ofNat 64 0x99)) ∧
    (Asks (calling served 9 0 [0, 0]) 0 9 (callOf 9 0 [0, 0]) ∧
      launchNumbered (calling served 9 0 [0, 0]) 0 = some (0, (calling served 9 0 [0, 0]).launch 0) ∧
      ((calling served 9 0 [0, 0]).launch 0).part = 0) ∧
    (headCall (calling served 16 0 []) 0 = some (callOf 16 0 []) ∧ (calling served 16 0 []).snoopFilter = [] ∧
      Memory.wf (calling served 16 0 []).mem = true) ∧
    (Asks (calling served 8 0 [0, 0x5000, 3]) 0 8 (callOf 8 0 [0, 0x5000, 3]) ∧ ((calling served 8 0 [0, 0x5000, 3]).part 0).debugger = none ∧
      bufferOk (calling served 8 0 [0, 0x5000, 3]) 0 0x5000 4096 = true) ∧
    State.reset.boot.started = false ∧ State.reset.device.hostPorts.contains 0 = true :=
  have p := witness_PreleyCalls
  have q := witness_PartitionsComeAndGo
  ⟨⟨p.2.1.1, p.2.1.2.2⟩, ⟨p.2.2.1.1, by decide +kernel⟩, ⟨p.2.2.2.1.1, p.2.2.2.1.2.1⟩, p.2.2.2.2.1, ⟨q.1.1, by decide +kernel⟩,
    ⟨(q.2.2.2 1 (by decide)).1, by decide +kernel⟩, p.2.2.2.2.2.1, ⟨p.2.2.2.2.2.2.1, by decide +kernel⟩, by decide +kernel,
    witness_DebuggerCalls.1, by decide⟩
/-- The calls of an attached debugger. -/
theorem witness_PackageEventsRun_debugger :
    (Asks (calling debugging 10 0 [1, 0, 0]) 0 10 (callOf 10 0 [1, 0, 0]) ∧
      attachedPart (calling debugging 10 0 [1, 0, 0]) 0 1 = some (0, { debugger0 .group with halted := [.group g0] }) ∧
      namedScope (calling debugging 10 0 [1, 0, 0]) 0 { debugger0 .group with halted := [.group g0] } 0 0 0 = some (.group g0)) ∧
    (∀ code ∈ [11, 12, 15], Asks (calling debugging code 0 [1, 1]) 0 code (callOf code 0 [1, 1]) ∧
      attachedPart (calling debugging code 0 [1, 1]) 0 1 = some (0, { debugger0 .group with halted := [.group g0] })) ∧
    (Asks (calling debugging 13 0 [1, 5, 0, 0x6000, 16]) 0 13 (callOf 13 0 [1, 5, 0, 0x6000, 16]) ∧
      attachedPart (calling debugging 13 0 [1, 5, 0, 0x6000, 16]) 0 1 = some (0, { debugger0 .group with halted := [.group g0] }) ∧
      bufferOk (calling debugging 13 0 [1, 5, 0, 0x6000, 16]) 0 0x6000 16 = true ∧
      ∃ bs, debugRead (calling debugging 13 0 [1, 5, 0, 0x6000, 16]) 0 { debugger0 .group with halted := [.group g0] } 5 0 16 = some bs ∧
        true = true) ∧
    (Asks (calling debugging 14 0 [1, spadAddr 0 0x100, 0x6000, 8]) 0 14 (callOf 14 0 [1, spadAddr 0 0x100, 0x6000, 8]) ∧
      attachedPart (calling debugging 14 0 [1, spadAddr 0 0x100, 0x6000, 8]) 0 1 = some (0, { debugger0 .group with halted := [.group g0] }) ∧
      bufferOk (calling debugging 14 0 [1, spadAddr 0 0x100, 0x6000, 8]) 0 0x6000 8 = true ∧
      ∀ k < 8, debugMayWrite (calling debugging 14 0 [1, spadAddr 0 0x100, 0x6000, 8]) 0 (spadAddr 0 0x100 + k) = true) :=
  have d := witness_DebuggerCalls
  ⟨⟨d.2.1.1, by decide +kernel, d.2.1.2⟩, d.2.2.1, ⟨d.2.2.2.1.1, by decide +kernel, d.2.2.2.1.2⟩,
    d.2.2.2.2.1, by decide +kernel, d.2.2.2.2.2.1, fun k h => (d.2.2.2.2.2.2 k h).1⟩

end Sys2Proof.Machine
end

section
/-! SUPPORT. Words of one thread that write registers: what they do to the thread, for `mad` to `cmp` (R251 to R258). -/

namespace Sys2Proof.Machine

/-! ## A state in which one thread has acted -/

/-- Thread `t` has become `x`, and nothing else has changed but the model's numbering and what happens before what. -/
structure ActsOn (s : State) (t : TId) (x : Thread) (s' : State) : Prop where
  self : s'.thread t = x
  others : ∀ u, u ≠ t → s'.thread u = s.thread u
  frame : s' = { s with threads := s'.threads, fresh := s'.fresh, order := s'.order }

theorem ActsOn.refl (s : State) (t : TId) : ActsOn s t (s.thread t) s := ⟨rfl, fun _ _ => rfl, rfl⟩
theorem ActsOn.trans {s s' s'' : State} {t : TId} {x y : Thread} (h : ActsOn s t x s') (h' : ActsOn s' t y s'') :
    ActsOn s t y s'' where
  self := h'.self
  others u hu := (h'.others u hu).trans (h.others u hu)
  frame := by rw [h'.frame, h.frame]
theorem ActsOn.tick {s s' : State} {t : TId} {x : Thread} (h : ActsOn s t x s') : s'.tick = s.tick := by rw [h.frame]

theorem modThread_acts {s s' : State} {t : TId} {x : Thread} (h : ActsOn s t x s') (f : Thread → Thread) :
    ActsOn s t (f x) (s'.modThread t f) :=
  h.trans { self := by simp [h.self], others := fun _ hu => s'.modThread_thread_ne f hu, frame := rfl }

/-- A thread at its next word. -/
def Thread.seq (x : Thread) : Thread :=
  { x with pc := x.pc + 4, walked := false, again := false, snap := none, owed := false, portion := none, beyond := false }

theorem seqPc_acts {s s' : State} {t : TId} {x : Thread} (h : ActsOn s t x s') : ActsOn s t x.seq (seqPc s' t) :=
  modThread_acts h Thread.seq
theorem writeV_acts {s s' : State} {t : TId} {x : Thread} (h : ActsOn s t x s') (ho : x.outs = []) (d : Reg) (y : W32) :
    ActsOn s t (x.withV s.tick d y) (writeV s' t d y) := by
  have e : writeV s' t d y = s'.modThread t fun _ => x.withV s.tick d y := by
    simp [writeV, State.modThread, h.self, h.tick, Thread.withV, ho]
  exact e ▸ modThread_acts h fun _ => x.withV s.tick d y
theorem writePair_acts {s s' : State} {t : TId} {x : Thread} (h : ActsOn s t x s') (ho : x.outs = []) (d : Reg) (y : W64) :
    ActsOn s t (x.withPair s.tick d y) (writePair s' t d y) :=
  writeV_acts (writeV_acts h ho d _) ho (oddOf d) _

theorem Thread.withP_eq (x : Thread) (k : Reg8) (y : Bool) (hk : k.val ≠ 0) :
    x.withP k y = { x with p := putBit x.p k y, pPoison := putBit x.pPoison k false } := if_neg hk

theorem writeP_acts {s s' : State} {t : TId} {x : Thread} (h : ActsOn s t x s') (k : Reg8) (y : Bool) :
    ActsOn s t (x.withP k y) (writeP s' t k y) := by
  by_cases hk : k.val = 0
  · rwa [writeP, if_pos hk, Thread.withP, if_pos hk]
  · rw [writeP, if_neg hk, Thread.withP_eq _ k y hk]
    exact modThread_acts h fun x => { x with p := putBit x.p k y, pPoison := putBit x.pPoison k false }

theorem writeP_order (s : State) (t : TId) (k : Reg8) (y : Bool) : (writeP s t k y).order = s.order := by
  unfold writeP; split <;> rfl

/-! ## The state in which a word of one thread acts -/

section
variable (s : State) (m : Tbl Nat (Vector W64 16)) (t : TId)

@[simp] theorem noted_thread : ((s.setPmcs m).noted t).thread t = (s.thread t).noted := by simp [State.noted]

theorem noted_acts : ActsOn ((s.setPmcs m).noted t) t (s.thread t).noted ((s.setPmcs m).noted t) :=
  noted_thread s m t ▸ ActsOn.refl ((s.setPmcs m).noted t) t

@[simp] theorem readV_noted (r : Reg) : readV ((s.setPmcs m).noted t) t r = readV s t r := by
  simp [readV, State.noted, Thread.noted]
@[simp] theorem readPair_noted (r : Reg) : readPair ((s.setPmcs m).noted t) t r = readPair s t r := by
  simp [readPair]
@[simp] theorem readB_noted (k : Reg8) : readB ((s.setPmcs m).noted t) t k = readB s t k := by
  simp [readB, State.noted, Thread.noted]
@[simp] theorem readP_noted (k : Reg8) : readP ((s.setPmcs m).noted t) t k = readP s t k := by
  simp [readP, Thread.noted]
@[simp] theorem readL_noted (a : LOp) : readL ((s.setPmcs m).noted t) t a = readL s t a := by
  cases a
  · exact readV_noted ..
  · exact readB_noted ..
@[simp] theorem readL64_noted (a : LOp) : readL64 ((s.setPmcs m).noted t) t a = readL64 s t a := by
  cases a
  · exact readPair_noted ..
  · exact congrArg (BitVec.setWidth 64) (readB_noted ..)
end

theorem Thread.noted_withV_seq (x : Thread) (tick : Nat) (d : Reg) (y : W32) :
    (x.noted.withV tick d y).seq = (x.withV tick d y).onward := rfl
theorem Thread.noted_withPair_seq (x : Thread) (tick : Nat) (d : Reg) (y : W64) :
    (x.noted.withPair tick d y).seq = (x.withPair tick d y).onward := rfl
theorem Thread.noted_withP_seq (x : Thread) (k : Reg8) (y : Bool) : (x.noted.withP k y).seq = (x.withP k y).onward := by
  by_cases hk : k.val = 0
  · rw [Thread.withP, Thread.withP, if_pos hk, if_pos hk]; rfl
  · rw [Thread.withP_eq _ _ _ hk, Thread.withP_eq _ _ _ hk]; rfl

/-- A word of one thread that leaves a state in which that thread alone has acted has exactly that effect. -/
theorem effect_of_acts {i : Instr} {f : TId → State → Except Stop State} {s : State} {t : TId} {x : Thread} (h : Alone s t i)
    (he : exec i s = laneExec i f s)
    (hf : ∀ m, ∃ s₁, f t ((s.setPmcs m).noted t) = .ok s₁ ∧ ActsOn ((s.setPmcs m).noted t) t x s₁ ∧ s₁.order = s.order) :
    Effect i s (only s t x) s.group := by
  obtain ⟨m, hm⟩ := laneExec_alone (f := f) h
  obtain ⟨s₁, h₁, ha, ho⟩ := hf m
  obtain ⟨m', pl, hx⟩ := hm s₁ h₁
  refine ⟨_, he.trans hx, fun u => ?_, fun g => ?_, ?_⟩
  · by_cases hu : u = t
    · subst hu; exact ha.self.trans (if_pos rfl).symm
    · exact ((ha.others u hu).trans (State.setThread_thread_ne _ _ hu)).trans (if_neg hu).symm
  · rw [ha.frame]; rfl
  · rw [ha.frame, ho]; rfl

section
variable {i : Instr} {r : Reg} {f : TId → State → Except Stop State} (he : ∀ s, exec i s = laneExec i f s)
include he

/-- A word that writes one lane register and goes on. -/
theorem writesV_gives32 {y : State → TId → W32}
    (hf : ∀ s t m, f t ((s.setPmcs m).noted t) = .ok (seqPc (writeV ((s.setPmcs m).noted t) t r (y s t)) t)) : Gives32 i (.v r) y := by
  intro s t h _
  refine effect_of_acts h (he s) fun m => ⟨_, hf s t m, ?_, rfl⟩
  rw [landsIn, ← Thread.noted_withV_seq]
  exact seqPc_acts (writeV_acts (noted_acts s m t) h.ready.own r _)

/-- A word that writes a lane pair and goes on. -/
theorem writesPair_gives64 {y : State → TId → W64}
    (hf : ∀ s t m, f t ((s.setPmcs m).noted t) = .ok (seqPc (writePair ((s.setPmcs m).noted t) t r (y s t)) t)) : Gives64 i r y := by
  intro s t h
  refine effect_of_acts h (he s) fun m => ⟨_, hf s t m, ?_, rfl⟩
  rw [← Thread.noted_withPair_seq]
  exact seqPc_acts (writePair_acts (noted_acts s m t) h.ready.own r _)

/-- A word that writes a predicate and goes on. -/
theorem writesP_givesP {pd : Reg8} {y : State → TId → Bool}
    (hf : ∀ s t m, f t ((s.setPmcs m).noted t) = .ok (seqPc (writeP ((s.setPmcs m).noted t) t pd (y s t)) t)) : GivesP i pd y := by
  intro s t h
  refine effect_of_acts h (he s) fun m => ⟨_, hf s t m, ?_, writeP_order ..⟩
  rw [← Thread.noted_withP_seq]
  exact seqPc_acts (writeP_acts (noted_acts s m t) pd _)
end

/-- A word that computes one lane register. -/
theorem setLane_gives32 {i : Instr} {d : Reg} {f y : State → TId → W32} (he : ∀ s, exec i s = laneExec i (setLane d f) s)
    (hf : ∀ s t m, f ((s.setPmcs m).noted t) t = y s t) : Gives32 i (.v d) y :=
  writesV_gives32 he fun s t m => by rw [setLane, hf]

/-! ## Constants, bit fields and tables of bits (R252, R255, R256) -/

theorem getLsbD_bitsFrom {w : Nat} (f : Fin w → Bool) {i : Nat} (h : i < w) : (bitsFrom w f).getLsbD i = f ⟨i, h⟩ :=
  BitVec.iunfoldr_getLsbD (state := fun _ => ()) (i := ⟨i, h⟩) fun _ => rfl

theorem append_low_eq (imm : BitVec 16) (x : W32) :
    imm ++ x.setWidth 16 = BitVec.ofNat 32 (imm.toNat * 2 ^ 16 + x.toNat % 2 ^ 16) := by
  apply BitVec.eq_of_toNat_eq
  rw [BitVec.toNat_append, ← Nat.shiftLeft_add_eq_or_of_lt (x.setWidth 16).isLt]
  simp only [BitVec.toNat_setWidth, BitVec.toNat_ofNat, Nat.shiftLeft_eq]
  omega

theorem clipWidth_eq (p l : Fin 32) : clipWidth p l = min (l.val + 1) (32 - p.val) := rfl

theorem bitField_unsigned (a : W32) (p e : Nat) : bitField a p e false = BitVec.ofNat 32 (a.toNat / 2 ^ p % 2 ^ e) := by
  simp [bitField]

/-- The upper half of the field's values stands for the negative ones. -/
theorem bitField_signed (a : W32) (p e : Nat) (he : 0 < e) :
    bitField a p e true = (BitVec.ofNat e (a.toNat / 2 ^ p)).signExtend 32 := by
  have h2 : 2 ^ e = 2 * 2 ^ (e - 1) := by rw [Nat.mul_comm, Nat.two_pow_pred_mul_two he]
  rw [BitVec.signExtend, BitVec.toInt_eq_toNat_cond, BitVec.toNat_ofNat, bitField]
  generalize a.toNat / 2 ^ p % 2 ^ e = f
  by_cases h : 2 ^ (e - 1) ≤ f
  · have : ¬ 2 * f < 2 ^ e := by omega
    simp [h, this]
  · have : 2 * f < 2 ^ e := by omega
    simp [h, this]

/-- The mask of `bfi` holds just the bits of its field, so that each bit comes from one of the two words. -/
theorem bitInsert_eq (a old : W32) (p e : Nat) :
    bitInsert a old p e = bitsFrom 32 fun j => if p ≤ j.val ∧ j.val < p + e then a.getLsbD (j.val - p) else old.getLsbD j.val := by
  apply BitVec.eq_of_getLsbD_eq
  intro j hj
  have hm : (BitVec.ofNat 32 ((2 ^ e - 1) * 2 ^ p)).getLsbD j = decide (p ≤ j ∧ j < p + e) := by
    rw [BitVec.getLsbD_ofNat, Nat.testBit_mul_two_pow, Nat.testBit_two_pow_sub_one]
    by_cases h1 : p ≤ j <;> simp [hj, h1]; omega
  rw [getLsbD_bitsFrom _ hj]
  simp only [bitInsert, BitVec.getLsbD_or, BitVec.getLsbD_and, BitVec.getLsbD_not, BitVec.getLsbD_shiftLeft, hm, hj]
  by_cases hb : p ≤ j ∧ j < p + e
  · simp [hb, Nat.not_lt.mpr hb.1]
  · simp [hb]

theorem getLsbD_litOf (x : W32) (one : Bool) {j : Nat} (hj : j < 32) : (litOf x one).getLsbD j = (x.getLsbD j == one) := by
  cases one <;> simp [litOf, hj]

/-- Of the eight terms of `tri`, the one of the three bits' own number decides each bit. -/
theorem triOf_eq (tt : Byte) (a b o : W32) :
    triOf tt a b o = bitsFrom 32 fun j =>
      tt.getLsbD (4 * (a.getLsbD j.val).toNat + 2 * (b.getLsbD j.val).toNat + (o.getLsbD j.val).toNat) := by
  apply BitVec.eq_of_getLsbD_eq
  intro j hj
  have fold (l : List Nat) (acc : W32) :
      (l.foldl (fun acc k => if tt.getLsbD k then
        acc ||| (litOf a (k / 4 % 2 == 1) &&& litOf b (k / 2 % 2 == 1) &&& litOf o (k % 2 == 1)) else acc) acc).getLsbD j =
      (acc.getLsbD j || l.any fun k => tt.getLsbD k &&
        (a.getLsbD j == (k / 4 % 2 == 1) && b.getLsbD j == (k / 2 % 2 == 1) && o.getLsbD j == (k % 2 == 1))) := by
    induction l generalizing acc with
    | nil => simp
    | cons k l ih =>
      rw [List.foldl_cons, ih, List.any_cons]
      cases tt.getLsbD k <;> simp [getLsbD_litOf _ _ hj, Bool.or_assoc]
  rw [getLsbD_bitsFrom _ hj, triOf, fold]
  cases a.getLsbD j <;> cases b.getLsbD j <;> cases o.getLsbD j <;> simp [List.range_succ]

/-! ## mad, addi, movi, mvh, bfx, bfi, tri (O6) -/

theorem madB32_gives (d a b c : Reg) :
    Gives32 (.mad d a b c .b32) (.v d) (fun s t => readV s t a * readV s t b + readV s t c) :=
  writesV_gives32 (fun _ => rfl) fun s t m => by simp [madLane]
theorem madI64_gives (d a b c : Reg) :
    Gives64 (.mad d a b c .i64) d (fun s t => BitVec.ofInt 64 ((readV s t a).toInt * (readV s t b).toInt) + readPair s t c) :=
  writesPair_gives64 (fun _ => rfl) fun s t m => by simp [madLane, BitVec.ofInt_mul, BitVec.signExtend]
theorem madN64_gives (d a b c : Reg) :
    Gives64 (.mad d a b c .n64) d (fun s t => BitVec.ofNat 64 ((readV s t a).toNat * (readV s t b).toNat) + readPair s t c) :=
  writesPair_gives64 (fun _ => rfl) fun s t m => by simp [madLane, BitVec.ofNat_mul, BitVec.ofNat_toNat]

/-- Settles O6: each word's result is formed from the registers as they stand before it, and the arithmetic of R251, R252,
R255 and R256 agrees with the statement's. -/
theorem laneWords : Obligations.LaneWords := by
  refine ⟨fun d a b c => ⟨madB32_gives d a b c, madI64_gives d a b c, madN64_gives d a b c⟩, fun d a imm => ?addi,
    fun d imm => ?movi, fun d imm => ?mvh, fun d a p l => ⟨?bfxUnsigned, ?bfxSigned, ?bfi⟩, fun d a b tt => ?tri⟩
  all_goals refine setLane_gives32 (fun _ => rfl) fun s t m => ?_
  case addi => rw [readV_noted, BitVec.signExtend]
  case movi => rw [BitVec.signExtend]
  case mvh => rw [readV_noted, append_low_eq]
  case bfxUnsigned => rw [readV_noted, bitField_unsigned, clipWidth_eq]
  case bfxSigned => rw [readV_noted, bitField_signed _ _ _ (by rw [clipWidth_eq]; omega), clipWidth_eq]
  case bfi => rw [readV_noted, readV_noted, bitInsert_eq, clipWidth_eq]
  case tri => simp only [readV_noted, triOf_eq]

end Sys2Proof.Machine
end

section
/-! SUPPORT. The one-operand words, `rand`, `sel` and `cmp` (R254, R257, R258): what they give in a lane register, and why the
statement about every destination fails. -/

namespace Sys2Proof.Machine

/-! ## The functions of R254 and the conditions of R258 -/

theorem popNat_eq_filter (n x : Nat) : popNat n x = ((List.range n).filter x.testBit).length := by
  induction n generalizing x with
  | zero => rfl
  | succ n ih =>
    have hs : x.testBit ∘ Nat.succ = (x / 2).testBit := by funext i; simp [Nat.testBit_succ]
    rw [popNat, ih, List.range_succ_eq_map, List.filter_cons, List.filter_map, hs]
    rcases Nat.mod_two_eq_zero_or_one x with h | h <;> simp [Nat.testBit_zero, h, Nat.add_comm]

theorem popcount_eq_onesOf {w : Nat} (x : BitVec w) : popcount x = onesOf x := popNat_eq_filter w x.toNat

theorem length_takeWhile_range {p : Nat → Bool} {k w : Nat} (hk : k ≤ w) (hp : ∀ i < k, p i = true) (hn : k < w → p k = false) :
    ((List.range w).takeWhile p).length = k := by
  obtain ⟨n, rfl⟩ := Nat.exists_eq_add_of_le hk
  rw [List.range_add, List.takeWhile_append_of_pos fun i hi => hp i (List.mem_range.mp hi)]
  cases n with
  | zero => simp
  | succ n => simp [List.range_succ_eq_map, hn (by omega)]

/-- The highest one bit of a word that is not zero is that of its logarithm. -/
theorem leadingZeros_eq_zerosAhead {w : Nat} (x : BitVec w) : leadingZeros x = zerosAhead x := by
  unfold leadingZeros zerosAhead
  symm
  by_cases h : x.toNat = 0
  · obtain rfl : x = 0#w := BitVec.eq_of_toNat_eq (by simpa using h)
    exact length_takeWhile_range (Nat.le_refl _) (by simp) (by simp)
  · have hlog : x.toNat.log2 < w := (Nat.log2_lt h).mpr x.isLt
    rw [if_neg h]
    refine length_takeWhile_range (by omega) (fun i hi => ?_) fun _ => ?_
    · have : x.toNat.testBit (w - 1 - i) = false := Nat.testBit_lt_two_pow ((Nat.log2_lt h).mp (by omega))
      simp [BitVec.getMsbD, BitVec.getLsbD, this]
    · have e : w - 1 - (w - 1 - x.toNat.log2) = x.toNat.log2 := by omega
      have hb : x.toNat.testBit x.toNat.log2 = true := Nat.testBit_log2 h
      simp [BitVec.getMsbD, BitVec.getLsbD, e, hb]
      omega

theorem abs_eq_natAbs {w : Nat} (x : BitVec w) : (if x.slt (0 : BitVec w) then -x else x) = BitVec.ofNat w x.toInt.natAbs := by
  have hs : x.slt 0 = decide (x.toInt < 0) := by rw [BitVec.slt_eq_decide]; exact congrArg (fun n => decide (x.toInt < n)) BitVec.toInt_zero
  rw [← BitVec.ofInt_natCast, hs]
  by_cases h : x.toInt < 0
  · rw [if_pos (decide_eq_true h), Int.ofNat_natAbs_of_nonpos (Int.le_of_lt h), BitVec.ofInt_neg, BitVec.ofInt_toInt]
  · rw [if_neg (by rwa [decide_eq_true_eq]), Int.natAbs_of_nonneg (Int.not_lt.mp h), BitVec.ofInt_toInt]

theorem reverse_eq_bitsFrom {w : Nat} (x : BitVec w) : x.reverse = bitsFrom w fun j => x.getLsbD (w - 1 - j.val) := by
  apply BitVec.eq_of_getLsbD_eq
  intro j hj
  rw [getLsbD_bitsFrom _ hj, BitVec.getLsbD_reverse, BitVec.getMsbD_eq_getLsbD]
  simp [hj]

/-- The number that a comparison reads in a word, signed or unsigned. -/
def valueIn (signed : Bool) {w : Nat} (x : BitVec w) : Int := if signed then x.toInt else x.toNat

theorem below_eq (signed : Bool) {w : Nat} (x y : BitVec w) : below signed x y = decide (valueIn signed x < valueIn signed y) := by
  cases signed <;> simp [below, valueIn, BitVec.slt, BitVec.ult]
theorem valueIn_inj (signed : Bool) {w : Nat} (x y : BitVec w) : valueIn signed x = valueIn signed y ↔ x = y := by
  cases signed
  · exact Int.ofNat_inj.trans BitVec.toNat_inj
  · exact BitVec.toInt_inj
/-- Whether a condition holds of two numbers. -/
def condHolds (c : Cond) (x y : Int) : Bool :=
  match c with
  | .eq => decide (x = y)
  | .ne => decide (x ≠ y)
  | .lt => decide (x < y)
  | .le => decide (x ≤ y)
  | .gt => decide (y < x)
  | .ge => decide (y ≤ x)
theorem condInt_eq (c : Cond) (signed : Bool) {w : Nat} (x y : BitVec w) :
    condInt c signed x y = condHolds c (valueIn signed x) (valueIn signed y) := by
  cases c <;> simp only [condInt, condHolds, below_eq, ne_eq, valueIn_inj, ← decide_not, Int.not_lt]
  case eq => exact Bool.beq_eq_decide_eq x y
  case ne => exact (congrArg not (Bool.beq_eq_decide_eq x y)).trans decide_not.symm

/-! ## What holds: results in lane registers, and predicates -/

section
variable {i : Instr} {r : Reg} {a : LOp} {ty : ITy}

theorem intUn_gives {f g : (w : Nat) → BitVec w → BitVec w} (he : ∀ s, exec i s = laneExec i (intUn ty (.v r) a f) s)
    (hfg : ∀ w (x : BitVec w), f w x = g w x) : GivesUn i (.v r) a ty (fun _ _ w x => g w x) := by
  unfold GivesUn GivesInt
  split
  · next hw =>
    rintro _ ⟨⟩
    exact writesPair_gives64 he fun s t m => by rw [intUn, if_pos hw, readL64_noted, hfg]; rfl
  · next hw => exact writesV_gives32 he fun s t m => by rw [intUn, if_neg hw, readL_noted, hfg]; rfl

theorem countBits_gives {f g : (w : Nat) → BitVec w → Nat} (he : ∀ s, exec i s = laneExec i (countBits ty (.v r) a f) s)
    (hfg : ∀ w (x : BitVec w), f w x = g w x) :
    Gives32 i (.v r) (fun s t => BitVec.ofNat 32 (if ty.wide then g 64 (readL64 s t a) else g 32 (readL s t a))) :=
  writesV_gives32 he fun s t m => by simp only [countBits, readL_noted, readL64_noted, hfg]; rfl
end

/-- R254 with a lane register as destination. -/
theorem unaryWords_lane (r : Reg) (a : LOp) (ty : ITy) :
    GivesUn (.mov (.v r) a ty) (.v r) a ty (fun _ _ _ x => x) ∧
    GivesUn (.abs (.v r) a ty) (.v r) a ty (fun _ _ w x => BitVec.ofNat w x.toInt.natAbs) ∧
    Gives32 (.popc (.v r) a ty) (.v r) (fun s t =>
      BitVec.ofNat 32 (if ty.wide then onesOf (readL64 s t a) else onesOf (readL s t a))) ∧
    Gives32 (.clz (.v r) a ty) (.v r) (fun s t =>
      BitVec.ofNat 32 (if ty.wide then zerosAhead (readL64 s t a) else zerosAhead (readL s t a))) ∧
    GivesUn (.brev (.v r) a ty) (.v r) a ty (fun _ _ w x => bitsFrom w fun j => x.getLsbD (w - 1 - j.val)) := by
  refine ⟨?mov, ?abs, ?popc, ?clz, ?brev⟩
  case mov => exact intUn_gives (g := fun _ x => x) (fun _ => rfl) fun _ _ => rfl
  case abs => exact intUn_gives (g := fun w x => BitVec.ofNat w x.toInt.natAbs) (fun _ => rfl) fun _ => abs_eq_natAbs
  case popc => exact countBits_gives (g := fun _ x => onesOf x) (fun _ => rfl) fun _ => popcount_eq_onesOf
  case clz => exact countBits_gives (g := fun _ x => zerosAhead x) (fun _ => rfl) fun _ => leadingZeros_eq_zerosAhead
  case brev =>
    exact intUn_gives (g := fun w x => bitsFrom w fun j => x.getLsbD (w - 1 - j.val)) (fun _ => rfl) fun _ => reverse_eq_bitsFrom

/-- `rand` with a lane register as destination: the generator steps once, and its state or low half lands. -/
theorem rand_lane {r : Reg} {ty : ITy} {s : State} {t : TId} (h : Alone s t (.rand (.v r) ty)) :
    let x := rngStep (s.thread t).rng
    let y : Thread := { s.thread t with rng := x }
    Effect (.rand (.v r) ty) s
      (only s t (if ty.wide then y.withPair s.tick r x else y.withV s.tick r (x.setWidth 32)).onward) s.group := by
  intro x y
  refine effect_of_acts h rfl fun m => ?_
  have ha := modThread_acts (noted_acts s m t) fun th => { th with rng := x }
  rw [randLane, noted_thread]
  cases ty.wide
  · exact ⟨_, rfl, seqPc_acts (writeV_acts ha h.ready.own r _), rfl⟩
  · exact ⟨_, rfl, seqPc_acts (writePair_acts ha h.ready.own r _), rfl⟩

/-- R257 with a lane register as destination. -/
theorem sel_lane (r : Reg) (a b : LOp) (p : Reg8) :
    Gives32 (.sel (.v r) a b p false) (.v r) (fun s t => if readP s t p then readL s t a else readL s t b) ∧
    Gives64 (.sel (.v r) a b p true) r (fun s t => if readP s t p then readL64 s t a else readL64 s t b) := by
  constructor
  · exact writesV_gives32 (fun _ => rfl) fun s t m => by
      simp only [selLane, readP_noted, readL_noted]
      cases readP s t p <;> rfl
  · exact writesPair_gives64 (fun _ => rfl) fun s t m => by
      simp only [selLane, readP_noted, readL64_noted]
      cases readP s t p <;> rfl

/-- R258. -/
theorem cmp_gives (pd : Reg8) (a b : LOp) (c : Cond) (ty : ITy) :
    GivesP (.cmp pd a b c ty) pd fun s t => condHolds c
      (if ty.wide then valueIn ty.signed (readL64 s t a) else valueIn ty.signed (readL s t a))
      (if ty.wide then valueIn ty.signed (readL64 s t b) else valueIn ty.signed (readL s t b)) := by
  refine writesP_givesP (fun _ => rfl) fun s t m => ?_
  simp only [cmpLane, readL_noted, readL64_noted, condInt_eq]
  cases ty.wide <;> rfl

/-! ## What fails: the first store through a binding after a wide release fence -/

/-- The state after a bound thread's release fence at device scope. -/
def afterFence : State :=
  match exec (.fence .rel .dev) tied with
  | .next s => s
  | _ => tied

theorem afterFence_alone (i : Instr) : Alone afterFence t0 i :=
  alone_of (by decide +kernel) (by decide +kernel) (by decide +kernel) i
theorem afterFence_takes : Takes afterFence t0 (.b 1) := by unfold Takes Older; decide +kernel

/-- Whether an instruction answers a next state in which the same happens before the same. -/
def keepsOrder (i : Instr) (s : State) : Bool :=
  match exec i s with
  | .next s' => decide (s'.order = s.order)
  | _ => false

theorem keepsOrder_of_effect {i : Instr} {s : State} {th : TId → Thread} {gr : GId → Group} (h : Effect i s th gr) :
    keepsOrder i s = true := by
  obtain ⟨s', he, -, -, hf⟩ := h
  have ho : s'.order = s.order := by rw [hf]
  simp [keepsOrder, he, ho]

/-- Refutes O7: `Takes` asks that no narrow release fence waits for the thread's first store, but a fence at `.dev` or `.sys`
waits for it too (R127), in `State.order` alone. A `mov` to a bound register makes that first store, which hands on what the
fence put before it, and `Effect` lets no order change. For results in lane registers, and for `cmp`, the statement holds:
`unaryWords_lane`, `rand_lane`, `sel_lane`, `cmp_gives`. -/
theorem not_oneOperandAndSelect : ¬ Obligations.OneOperandAndSelect := by
  rintro ⟨unary, -, -⟩
  have hmov : Gives32 (.mov (.b 1) (.v 1) .i32) (.b 1) _ := (unary (.b 1) (.v 1) .i32).1
  have hkeeps := keepsOrder_of_effect (hmov afterFence t0 (afterFence_alone _) afterFence_takes)
  have hchanges : keepsOrder (.mov (.b 1) (.v 1) .i32) afterFence = false := by decide +kernel
  exact absurd hkeeps (by rw [hchanges]; decide)

end Sys2Proof.Machine
end

section
/-! SUPPORT. The issue of a collective of a group (R52, R53), and `shfl` (R268): what it gives, and why the statement about every
gathered group fails. -/

namespace Sys2Proof.Machine

/-! ## Tables and threads -/

theorem Tbl.mem_of_find {κ α : Type} [DecidableEq κ] {m : Tbl κ α} {x : κ} {a : α} (h : Tbl.find m x = some a) : (x, a) ∈ m := by
  induction m with
  | nil => simp at h
  | cons p m ih =>
    obtain ⟨k, b⟩ := p
    by_cases e : k = x
    · simp [Tbl.find, e] at h; simp [e, h]
    · simp [Tbl.find, e] at h; simp [ih h]

theorem Tbl.put_put {κ α : Type} [DecidableEq κ] (m : Tbl κ α) (x : κ) (a b : α) : Tbl.put (Tbl.put m x a) x b = Tbl.put m x b := by
  induction m with
  | nil => simp [Tbl.put]
  | cons p m ih => obtain ⟨k, c⟩ := p; by_cases h : k = x <;> simp [Tbl.put, h, ih]

theorem modThread_congr {s : State} {t : TId} {f f' : Thread → Thread} (h : f (s.thread t) = f' (s.thread t)) :
    s.modThread t f = s.modThread t f' := congrArg (s.setThread t) h

theorem modThread_modThread (s : State) (t : TId) (f f' : Thread → Thread) :
    (s.modThread t f).modThread t f' = s.modThread t fun x => f' (f x) := by
  unfold State.modThread
  rw [State.setThread_thread_self]
  simp [State.setThread, Tbl.put_put]

/-! ## A word applied to each thread of a list -/

/-- States that differ in their threads and in the counters of R189 alone. -/
def SameBut (s s' : State) : Prop := s' = { s with threads := s'.threads, pmcs := s'.pmcs }

theorem SameBut.refl (s : State) : SameBut s s := rfl
theorem SameBut.trans {s s' s'' : State} (h : SameBut s s') (h' : SameBut s' s'') : SameBut s s'' := by
  unfold SameBut at *
  rw [h', h]
theorem SameBut.group {s s' : State} (h : SameBut s s') (g : GId) : s'.group g = s.group g := by rw [h]; rfl
theorem SameBut.groupOf {s s' : State} (h : SameBut s s') (t : TId) : groupOf s' t = groupOf s t :=
  groupOf_congr (by rw [h]) t
theorem SameBut.homeLane {s s' : State} (h : SameBut s s') (t : TId) : homeLane s' t = homeLane s t := by
  simp only [Machine.homeLane, h.groupOf, h.group]
theorem SameBut.groupThreads {s s' : State} (h : SameBut s s') (g : GId) : groupThreads s' g = groupThreads s g := by
  simp only [Machine.groupThreads, h.group]
theorem SameBut.tick {s s' : State} (h : SameBut s s') : s'.tick = s.tick := by rw [h]

/-- A thread changed `n` times. -/
def Thread.times (f : Thread → Thread) : Nat → Thread → Thread
  | 0, x => x
  | n + 1, x => Thread.times f n (f x)

theorem Thread.times_fixed {f : Thread → Thread} {x : Thread} (h : f x = x) (n : Nat) : Thread.times f n x = x := by
  induction n with
  | zero => rfl
  | succ n ih => rw [Thread.times, h, ih]

/-- What a list of threads acts on one by one: each takes `G` as often as the list names it. -/
theorem foldl_modThread {op : State → TId → State} {G : TId → Thread → Thread} {s : State}
    (hop : ∀ s' u, SameBut s s' → ∃ m, op s' u = (s'.setPmcs m).modThread u (G u)) (ts : List TId) :
    SameBut s (ts.foldl op s) ∧ ∀ v, (ts.foldl op s).thread v = Thread.times (G v) (ts.count v) (s.thread v) := by
  suffices h : ∀ s', SameBut s s' → SameBut s (ts.foldl op s') ∧
      ∀ v, (ts.foldl op s').thread v = Thread.times (G v) (ts.count v) (s'.thread v) from h s (.refl s)
  induction ts with
  | nil => exact fun s' h => ⟨h, fun _ => rfl⟩
  | cons u us ih =>
    intro s' hs
    obtain ⟨m, hm⟩ := hop s' u hs
    obtain ⟨hf, ht⟩ := ih (op s' u) (hs.trans (by rw [hm]; rfl))
    refine ⟨hf, fun v => ?_⟩
    rw [List.foldl_cons, ht v, hm, State.modThread_thread]
    by_cases hv : v = u
    · subst hv; rw [if_pos rfl, List.count_cons_self, Thread.times]; rfl
    · rw [if_neg hv, List.count_cons_of_ne (Ne.symm hv)]; rfl

theorem foldl_modThread_nodup {op : State → TId → State} {G : TId → Thread → Thread} {s : State}
    (hop : ∀ s' u, SameBut s s' → ∃ m, op s' u = (s'.setPmcs m).modThread u (G u)) {ts : List TId} (hn : ts.Nodup) :
    SameBut s (ts.foldl op s) ∧ ∀ v, (ts.foldl op s).thread v = if v ∈ ts then G v (s.thread v) else s.thread v := by
  obtain ⟨hf, ht⟩ := foldl_modThread hop ts
  refine ⟨hf, fun v => ?_⟩
  rw [ht v, hn.count]
  split <;> rfl

/-- A thread changed in how it waits alone. -/
def SameRegs (x y : Thread) : Prop := y = { x with wait := y.wait, since := y.since, woken := y.woken, beyond := y.beyond }

theorem liveThreads_congr {s s' : State} (hs : SameBut s s') (ht : ∀ u, SameRegs (s.thread u) (s'.thread u)) (g : GId) :
    liveThreads s' g = liveThreads s g := by
  have hl (u : TId) : (s'.thread u).live = (s.thread u).live := by rw [ht u]
  simp only [liveThreads, hs.groupThreads, hl]

theorem readV_congr {s s' : State} (hs : SameBut s s') {u : TId} (ht : SameRegs (s.thread u) (s'.thread u)) (r : Reg) :
    readV s' u r = readV s u r := by
  simp only [readV, hs.tick]
  rw [ht]

theorem Ready.congr {s s' : State} {t : TId} {i : Instr} (h : Ready s t i) (hs : SameBut s s')
    (ht : ∀ u, SameRegs (s.thread u) (s'.thread u)) : Ready s' t i := by
  have ho (u : TId) : (s'.thread u).outs = (s.thread u).outs := by rw [ht u]
  have hv : vBad s' t = vBad s t := by funext r; simp only [vBad, hs.tick]; rw [ht t]
  have hb : bBad s' t = bBad s t := by funext r; simp only [bBad, hs.tick]; rw [ht t]
  have hp : (s'.thread t).pPoison = (s.thread t).pPoison := by rw [ht t]
  have hsb : sBad s' t = sBad s t := by funext r; simp [sBad, hs.tick, hs.group, hs.groupOf, ho, h.own]
  have hhb : hBad s' t = hBad s t := by funext r; simp [hBad, hs.group, hs.groupOf, ho, h.own]
  refine ⟨by rw [ht t]; exact h.fresh, (ho t).trans h.own, fun u hu => (ho u).trans (h.others u ?_), ?_, ?_⟩
  · rwa [hs.groupOf, hs.groupThreads] at hu
  · rw [← h.lane]; simp only [laneBad, hv, hb, hp]
  · rw [← h.group]; simp only [groupBad, hsb, hhb, hs.group, hs.groupOf]

/-! ## A group that gathers (R52 to R54) -/

/-- A thread that arrives at a collective; one that has gone past its loads stays before it. -/
def Thread.arrived (dom : Domain) (x : Thread) : Thread :=
  if x.beyond then { x with beyond := false } else { x with wait := .collective dom, since := 0 }

theorem arrive_eq (i : Instr) (dom : Domain) (s : State) (u : TId) :
    ∃ m, arrive i dom anyGroup s u = (s.setPmcs m).modThread u (Thread.arrived dom) := by
  have hc : Counted s (if kindOf i == .lane && !(s.thread u).again then countCore s u.core 1 1 else s) := by
    split
    · exact counted_core ..
    · exact .refl s
  obtain ⟨m, hm⟩ := hc
  by_cases hb : (s.thread u).beyond = true
  · refine ⟨s.pmcs, ?_⟩
    rw [arrive, if_pos hb]
    exact modThread_congr (by rw [Thread.arrived, if_pos hb])
  · refine ⟨m, ?_⟩
    have ha : Thread.arrived dom (s.thread u) = { s.thread u with wait := .collective dom, since := 0 } := by
      rw [Thread.arrived, if_neg hb]
    rw [arrive, if_neg hb]
    simp only [hm, anyGroup]
    exact modThread_congr (s := s.setPmcs m) ha.symm

theorem arrived_times {dom : Domain} {x : Thread} (hb : x.beyond = false) (n : Nat) :
    Thread.times (Thread.arrived dom) (n + 1) x = { x with wait := .collective dom, since := 0 } := by
  have ha (y : Thread) (hy : y.beyond = false) : Thread.arrived dom y = { y with wait := .collective dom, since := 0 } :=
    if_neg (by rw [hy]; decide)
  rw [Thread.times, ha x hb]
  exact Thread.times_fixed (ha { x with wait := .collective dom, since := 0 } hb) n

/-- The live threads of a group stand at one collective and wait in it. -/
structure Waiting (s : State) (g : GId) (i : Instr) : Prop where
  alive : (s.group g).live = true
  wait : ∀ u ∈ liveThreads s g, (s.thread u).wait = .collective .group
  together : ∀ u ∈ liveThreads s g, ∀ v ∈ liveThreads s g, (s.thread u).pc = (s.thread v).pc
  member : ∀ u ∈ liveThreads s g, groupOf s u = g ∧ Ready s u i

/-- A live group is listed among the groups of its team. -/
theorem mem_groupsOfTeam {s : State} {g : GId} (h : (s.group g).live = true) :
    g ∈ groupsOfTeam s (s.group g).launch (s.group g).team := by
  have hf : Tbl.find s.groups g = some (s.group g) := by
    cases e : Tbl.find s.groups g with
    | none => simp [State.group, Tbl.getD, e] at h
    | some x => simp [State.group, Tbl.getD, e]
  simp only [groupsOfTeam, List.mem_map, List.mem_filter]
  exact ⟨_, ⟨Tbl.mem_of_find hf, by simp [h]⟩, rfl⟩

theorem samePc_of {s : State} {t : TId} {ts : List TId} (h : ∀ u ∈ ts, (s.thread u).pc = (s.thread t).pc) :
    samePc s t ts = true := by
  rw [samePc, List.all_eq_true]
  intro u hu
  simp [h u hu]

/-- No domain of a thread conflicts where its group waits at one collective: its group and quarter stand at one address,
and its team does not wait for itself (R54). -/
theorem Waiting.noConflict {s : State} {g : GId} {i : Instr} (h : Waiting s g i) {t : TId} (ht : t ∈ liveThreads s g) :
    collConflict s t = none := by
  obtain ⟨hg, -⟩ := h.member t ht
  have team : t ∈ domainThreads s .team t := by
    simp only [domainThreads, hg, teamThreads, List.mem_flatMap]
    exact ⟨g, mem_groupsOfTeam h.alive, ht⟩
  have narrow (d : Domain) (hd : ∀ u ∈ domainThreads s d t, u ∈ liveThreads s g) : samePc s t (domainThreads s d t) = true :=
    samePc_of fun u hu => h.together u (hd u hu) t ht
  have hteam : (domainThreads s .team t).all (waitsIn s .team) = false := by
    rw [List.all_eq_false]
    exact ⟨t, team, by simp [waitsIn, h.wait t ht, Domain.rank]⟩
  have hgroup := narrow .group fun u hu => by simpa [domainThreads, hg] using hu
  have hquarter := narrow .quarter fun u hu => by
    simp only [domainThreads, hg, List.mem_filter] at hu
    exact hu.1
  simp only [collConflict, List.map_cons, List.map_nil, List.findSome?_cons, List.findSome?_nil, hteam, hgroup, hquarter,
    Bool.not_true, Bool.false_and, Bool.and_false, Bool.false_eq_true, if_false]

/-- A thread whose collective executes: its wait has ended (R151). -/
def Thread.called (x : Thread) : Thread :=
  { x with wait := .none, since := if x.wait.isArch then 0 else x.since, woken := false
           outs := x.outs.map fun o => { o with left := o.left - 1 } }

theorem called_eq (s : State) (u : TId) : ∃ m, noteOuts (endWait s u) u = (s.setPmcs m).modThread u Thread.called :=
  ⟨s.pmcs, modThread_modThread ..⟩

/-- Where the whole group waits, any thread of it that is looked at makes the collective execute (R53). -/
theorem Waiting.runs {s : State} {g : GId} {i : Instr} {f : GId → TId → List TId → State → Except Stop State} (h : Waiting s g i)
    (hk : kindOf i = .lane) (hq : ∀ s t, queueWaits i s t = false) {t u : TId} {us : List TId} (hl : liveThreads s g = u :: us)
    (ht : t ∈ u :: us) {s₁ : State} (h₁ : f g u (u :: us) ((u :: us).foldl (fun s u => noteOuts (endWait s u) u) s) = .ok s₁) :
    settle1 i .group f t s = .next s₁ := by
  have hm := h.member
  have hc := h.noConflict (hl ▸ ht)
  have hw := h.wait
  have hp := h.together
  rw [hl] at hm hw hp
  have hg := (hm t ht).1
  have hd : domainThreads s .group t = u :: us := by rw [domainThreads, hg]; exact hl
  have hall : (u :: us).all (fun v => (s.thread v).wait == .collective .group) = true := by
    rw [List.all_eq_true]; intro v hv; simp [hw v hv]
  have hpc : samePc s t (u :: us) = true := samePc_of fun v hv => hp v hv t ht
  have hrun : settle1 i .group f t s = collRun i f u (u :: us) s := by
    simp [settle1, hw t ht, hc, hd, hall, hpc, domainSpilled]
  have hsat : (u :: us).foldl (fun s v => satisfyBefore s v i (srcsOf i)) s = s :=
    satisfyAllBefore_none fun v hv => (hm v hv).2.own
  have hu : (u :: us).any (fun v => heldUniform s v i) = false := by
    rw [List.any_eq_false]; intro v hv; simp [heldUniform_none (i := i) (hm v hv).2.others]
  have hb : (u :: us).any (fun v => laneBad s v (srcsOf i)) = false := by
    rw [List.any_eq_false]; intro v hv; simp [(hm v hv).2.lane]
  have hgu : groupOf s u = g := (hm u (by simp)).1
  have hgb : groupBad s u (srcsOf i) = false := (hm u (by simp)).2.group
  rw [hrun, collRun]
  simp only [hsat, hq, hu, hgb, hb, hgu, h₁, hk, Bool.or_false, Bool.false_eq_true, if_false, beq_self_eq_true, if_true]

theorem settleAll_done {i : Instr} {dom : Domain} {f : GId → TId → List TId → State → Except Stop State} {s : State}
    {ts : List TId} (h : ∀ t ∈ ts, (s.thread t).wait ≠ .collective dom) : settleAll i dom f ts s = .next s := by
  induction ts with
  | nil => rfl
  | cons t ts ih =>
    have h1 : settle1 i dom f t s = .next s := by simp [settle1, h t (by simp)]
    rw [settleAll, h1]
    exact ih fun u hu => h u (by simp [hu])

/-- A thread whose collective executes after it has arrived. -/
def Thread.free (x : Thread) : Thread := { x with wait := .none, since := 0, woken := false }

theorem called_of_waiting {x : Thread} {dom : Domain} (hw : x.wait = .collective dom) (ho : x.outs = []) : x.called = x.free := by
  simp [Thread.called, Thread.free, hw, ho, Wait.isArch]

theorem liveThreads_nodup (s : State) (g : GId) : (liveThreads s g).Nodup := by
  refine List.Pairwise.filter _ (List.Pairwise.map _ (fun i j hij h => hij ?_) List.nodup_range)
  have hslot : gidFirst g + i = gidFirst g + j := congrArg TId.slot h
  omega

/-- The state in which every arriving thread waits at its collective. -/
def gatheredState (i : Instr) (s : State) : State :=
  (packThreads s).foldl (arrive i .group anyGroup) (if kindOf i == .lane then countPack s (packThreads s) else s)

section
variable {s : State} {g : GId} {i : Instr}

theorem gatheredState_threads (hb : ∀ u ∈ packThreads s, (s.thread u).beyond = false) :
    SameBut s (gatheredState i s) ∧ ∀ v, (gatheredState i s).thread v =
      if v ∈ packThreads s then { s.thread v with wait := .collective .group, since := 0 } else s.thread v := by
  have hc : Counted s (if kindOf i == .lane then countPack s (packThreads s) else s) := by
    split
    · exact counted_pack ..
    · exact .refl s
  obtain ⟨m, hm⟩ := hc
  obtain ⟨hf, ht⟩ := foldl_modThread (s := s.setPmcs m) (G := fun _ => Thread.arrived .group)
    (fun s' u _ => arrive_eq i .group s' u) (packThreads s)
  rw [gatheredState, hm]
  refine ⟨SameBut.trans (s' := s.setPmcs m) rfl hf, fun v => ?_⟩
  rw [ht v]
  split
  · next hv =>
    obtain ⟨n, hn⟩ := Nat.exists_eq_add_of_lt (List.count_pos_iff.mpr hv)
    rw [hn, Nat.zero_add]
    exact arrived_times (hb v hv) n
  · next hv => rw [List.count_eq_zero.mpr hv]; rfl

theorem gatheredState_regs (hb : ∀ u ∈ packThreads s, (s.thread u).beyond = false) (v : TId) :
    SameRegs (s.thread v) ((gatheredState i s).thread v) := by
  rw [(gatheredState_threads hb).2 v]
  split <;> rfl

theorem Gathered.waiting_all (h : Gathered s g i) (hb : ∀ u ∈ packThreads s, (s.thread u).beyond = false) :
    Waiting (gatheredState i s) g i := by
  obtain ⟨hs, ht⟩ := gatheredState_threads (i := i) hb
  have hr := gatheredState_regs (i := i) hb
  have hpc (v : TId) : ((gatheredState i s).thread v).pc = (s.thread v).pc := by rw [hr v]
  constructor
  · rw [hs.group]; exact h.alive
  all_goals rw [liveThreads_congr hs hr g]
  · intro u hu
    rw [ht u]
    split
    · rfl
    · next hn => exact (h.waiting u hu).resolve_left hn
  · intro u hu v hv
    rw [hpc, hpc]; exact h.together u hu v hv
  · intro u hu
    rw [hs.groupOf]
    exact ⟨(h.member u hu).1, (h.member u hu).2.congr hs hr⟩

/-- A collective of a group that meets no obstacle: its effect is taken once, in the state in which every wait has ended. -/
theorem collExec_gathered {f : GId → TId → List TId → State → Except Stop State} (h : Gathered s g i) (hk : kindOf i = .lane)
    (hq : ∀ s t, queueWaits i s t = false) (hb : ∀ u ∈ packThreads s, (s.thread u).beyond = false) :
    ∃ t s₀, SameBut s s₀ ∧ (∀ v, s₀.thread v = if v ∈ liveThreads s g then (s.thread v).free else s.thread v) ∧
      ∀ s₁, f g t (liveThreads s g) s₀ = .ok s₁ → (∀ v ∈ liveThreads s g, (s₁.thread v).wait = .none) →
        ∃ pl, collExec i .group anyGroup f s = .next { s₁ with plan := pl } := by
  obtain ⟨hs, ht⟩ := gatheredState_threads (i := i) hb
  have hl := liveThreads_congr hs (gatheredState_regs hb) g
  have hw := h.waiting_all hb
  obtain ⟨t, ts, hp⟩ := List.exists_cons_of_ne_nil h.some'
  have htl : t ∈ liveThreads s g := h.arriving t (by simp [hp])
  obtain ⟨u, us, hu⟩ := List.exists_cons_of_ne_nil (List.ne_nil_of_mem htl)
  obtain ⟨hc, hct⟩ := foldl_modThread_nodup (s := gatheredState i s) (G := fun _ => Thread.called)
    (fun s' u _ => called_eq s' u) (liveThreads_nodup s g)
  refine ⟨u, _, hs.trans hc, fun v => ?_, fun s₁ h₁ hn => ?_⟩
  · rw [hct v]
    split
    · next hv =>
      have hv' := hl ▸ hv
      rw [called_of_waiting (hw.wait v hv') (hw.member v hv').2.own, ht v]
      split <;> rfl
    · next hv => rw [ht v, if_neg fun hp => hv (h.arriving v hp)]
  · rw [hu] at h₁ hn
    have hrun := hw.runs hk hq (hl.trans hu) (t := t) (hu ▸ htl) h₁
    have hrest : settleAll i .group f ts s₁ = .next s₁ :=
      settleAll_done fun v hv => by
        rw [hn v (hu ▸ h.arriving v (by simp [hp, hv]))]; simp
    have e : collExec i .group anyGroup f s = spendWalk (packEntry (if kindOf i == .lane then countPack s (packThreads s) else s))
        (settleAll i .group f (t :: ts) (gatheredState i s)) := by
      simp only [collExec, gatheredState, hp]
    rw [e, settleAll, hrun]
    simp only [hrest]
    exact spendWalk_next _ s₁

end

/-! ## shfl (R268) -/

/-- The value that `shfl` brings a thread from the lane that its mode picks, if a participant stands there. -/
def shflTaken (s : State) (g : GId) (m : ShflMode) (a b : Reg) (u : TId) : Option W32 :=
  let w := (s.group g).width
  let i := homeLane s u
  let k := readV s u b
  match m with
  | .pick => laneOf s g (k.toNat % w) a
  | .rot => laneOf s g ((i + k.toNat) % w) a
  | .flip => laneOf s g (i ^^^ (k.toNat % w)) a
  | .shift => if 0 ≤ (i : Int) + k.toInt ∧ (i : Int) + k.toInt < w then laneOf s g ((i : Int) + k.toInt).toNat a else none

theorem shflTaken_eq_bind (s : State) (g : GId) (m : ShflMode) (a b : Reg) (u : TId) :
    shflTaken s g m a b u = (shflSource m (s.group g).width (homeLane s u) (readV s u b)).bind fun j => laneOf s g j a := by
  cases m
  case shift => simp only [shflTaken, shflSource, Bool.and_eq_true, decide_eq_true_eq]; split <;> rfl
  all_goals rfl

theorem shflValue_eq_taken (s : State) (g : GId) (m : ShflMode) (a b : Reg) (u : TId) :
    shflValue s (liveThreads s g) (s.group g).width m a b u = (shflTaken s g m a b u).getD (readV s u a) := by
  rw [shflTaken_eq_bind, shflValue]
  cases shflSource m (s.group g).width (homeLane s u) (readV s u b) with
  | none => rfl
  | some j =>
    change (match atLane s (liveThreads s g) j with | some u => readV s u a | none => readV s u a) =
      ((atLane s (liveThreads s g) j).map fun u => readV s u a).getD (readV s u a)
    cases atLane s (liveThreads s g) j <;> rfl

theorem shflValue_congr {s s' : State} (hs : SameBut s s') (ht : ∀ u, SameRegs (s.thread u) (s'.thread u)) (ts : List TId) (w : Nat)
    (m : ShflMode) (a b : Reg) (u : TId) : shflValue s' ts w m a b u = shflValue s ts w m a b u := by
  simp only [shflValue, atLane, hs.homeLane, readV_congr hs (ht _)]

/-- A thread as `shfl` leaves it before it is released. -/
def shuffled (s : State) (g : GId) (d a b : Reg) (m : ShflMode) (u : TId) : Thread :=
  (s.thread u).withV s.tick d ((shflTaken s g m a b u).getD (readV s u a))

theorem writeEach_map (s : State) (d : Reg) (ts : List TId) (y : TId → W32) :
    writeEach s d (ts.map fun t => (t, y t)) = ts.foldl (fun s t => writeV s t d (y t)) s := by
  rw [writeEach, List.foldl_map]

/-- A lane register of every thread of a list is written, and the threads go to their next word. -/
theorem writeEach_seqAll {s : State} {ts : List TId} (hn : ts.Nodup) (ho : ∀ u ∈ ts, (s.thread u).outs = []) (d : Reg) (y : TId → W32) :
    SameBut s (seqAll (writeEach s d (ts.map fun t => (t, y t))) ts) ∧
      ∀ v, (seqAll (writeEach s d (ts.map fun t => (t, y t))) ts).thread v =
        if v ∈ ts then ((s.thread v).withV s.tick d (y v)).seq else s.thread v := by
  rw [writeEach_map]
  obtain ⟨hw, hwt⟩ := foldl_modThread_nodup (s := s) (op := fun s t => writeV s t d (y t))
    (G := fun v x => { x.withV s.tick d (y v) with outs := contest (laneDest d.val) d.val x.outs })
    (fun s' u h => ⟨s'.pmcs, by rw [← h.tick]; rfl⟩) hn
  obtain ⟨hq, hqt⟩ := foldl_modThread_nodup (op := seqPc) (G := fun _ => Thread.seq)
    (s := ts.foldl (fun s t => writeV s t d (y t)) s) (fun s' u _ => ⟨s'.pmcs, rfl⟩) hn
  refine ⟨hw.trans hq, fun v => ?_⟩
  rw [seqAll, hqt v, hwt v]
  split
  · next hv => simp [ho v hv, Thread.withV]
  · rfl

/-- What R268 says of `shfl` where no arriving thread is marked as gone past its loads. -/
theorem shfl_gathered {s : State} {g : GId} {d a b : Reg} {m : ShflMode} (h : Gathered s g (.shfl d a b m))
    (hb : ∀ u ∈ packThreads s, (s.thread u).beyond = false) :
    Effect (.shfl d a b m) s (releasedOn s g (shuffled s g d a b m)) s.group := by
  obtain ⟨t, s₀, hs, ht, hrun⟩ := collExec_gathered (f := shflColl d a b m) h rfl (fun _ _ => rfl) hb
  have hr (u : TId) : SameRegs (s.thread u) (s₀.thread u) := by rw [ht u]; split <;> rfl
  have ho (u : TId) (hu : u ∈ liveThreads s g) : (s₀.thread u).outs = [] := by
    rw [hr u]; exact (h.member u hu).2.own
  obtain ⟨hf, hft⟩ := writeEach_seqAll (liveThreads_nodup s g) ho d fun u => (shflTaken s g m a b u).getD (readV s u a)
  have hcoll : shflColl d a b m g t (liveThreads s g) s₀ = .ok (seqAll (writeEach s₀ d ((liveThreads s g).map fun u =>
      (u, (shflTaken s g m a b u).getD (readV s u a)))) (liveThreads s g)) := by
    simp only [shflColl, hs.group, shflValue_congr hs hr, shflValue_eq_taken]
  have hfree (v : TId) (hv : v ∈ liveThreads s g) : s₀.thread v = (s.thread v).free := (ht v).trans (if_pos hv)
  obtain ⟨pl, he⟩ := hrun _ hcoll fun v hv => by rw [hft v, if_pos hv, hfree v hv]; rfl
  refine ⟨_, he, fun v => ?_, fun g' => ((hs.trans hf).group g' :), ?_⟩
  · refine (hft v).trans ?_
    rw [releasedOn]
    split
    · next hv => rw [hfree v hv, hs.tick]; rfl
    · next hv => exact (ht v).trans (if_neg hv)
  · rw [hs.trans hf]

/-- The hypotheses of `shfl_gathered` are met where two threads arrive. -/
theorem duo_arrives (i : Instr) : Gathered duo g0 i ∧ ∀ u ∈ packThreads duo, (duo.thread u).beyond = false :=
  ⟨duo_gathered i, by decide +kernel⟩

/-! ## What fails: a thread marked as gone past its loads -/

/-- Two threads that arrive, the first of them marked as gone past its loads though no result is outstanding. -/
def strayed : State := stateOf [{ thread0 with beyond := true }, thread0] group0

theorem strayed_gathered (i : Instr) : Gathered strayed g0 i := gathered_of (by decide +kernel) i

/-- Where a thread stands after an instruction. -/
def pcAfter (i : Instr) (s : State) (t : TId) : Option W64 :=
  match exec i s with
  | .next s' => some (s'.thread t).pc
  | _ => none

theorem pcAfter_of_effect {i : Instr} {s : State} {th : TId → Thread} {gr : GId → Group} (h : Effect i s th gr) (t : TId) :
    pcAfter i s t = some (th t).pc := by
  obtain ⟨s', he, ht, -, -⟩ := h
  simp [pcAfter, he, ht]

theorem releasedOn_pc {s : State} {g : GId} {f : TId → Thread} {u : TId} (hu : u ∈ liveThreads s g) :
    (releasedOn s g f u).pc = (f u).pc + 4 := by
  rw [releasedOn, if_pos hu]; rfl

/-- Refutes O11: `Gathered` does not say that no arriving thread is marked `beyond`, and a marked thread stays before the
collective (R50, R126), so that its group goes on waiting where the statement releases it. No run is known to set the mark
with no result outstanding; `shfl_gathered` shows that the statement lacks this hypothesis and no other. -/
theorem not_shuffleMovesLanes : ¬ Obligations.ShuffleMovesLanes := by
  intro h
  have hmoves := pcAfter_of_effect (h 6 4 1 .flip strayed g0 (strayed_gathered _)) t0
  rw [releasedOn_pc (by decide +kernel)] at hmoves
  have hstays : pcAfter (.shfl 6 4 1 .flip) strayed t0 = some 0x200000 := by decide +kernel
  rw [hstays] at hmoves
  exact absurd hmoves (by decide +kernel)

end Sys2Proof.Machine
end

section
/-! SUPPORT. Where a store of one thread goes: what its access reaches, and the buffer it joins (R118, R125, R131, R177). -/

namespace Sys2Proof.Machine

/-! ## Tables and states in which one thread has been replaced -/

theorem foldl_eq_self {α β : Type} {f : β → α → β} {b : β} {xs : List α} (h : ∀ a ∈ xs, f b a = b) : xs.foldl f b = b :=
  List.foldlRecOn (motive := (· = b)) xs f rfl fun _ hc a ha => hc ▸ h a ha

theorem Tbl.mem_put {κ α : Type} [DecidableEq κ] {m : Tbl κ α} {x : κ} {a : α} {p : κ × α} (h : p ∈ Tbl.put m x a) :
    p = (x, a) ∨ p ∈ m := by
  induction m with
  | nil => simpa [Tbl.put] using h
  | cons q m ih =>
    obtain ⟨k, b⟩ := q
    by_cases hk : k = x
    · rw [Tbl.put, if_pos hk] at h
      subst hk
      exact (List.mem_cons.mp h).imp_right (List.mem_cons_of_mem _)
    · rw [Tbl.put, if_neg hk] at h
      rcases List.mem_cons.mp h with rfl | h
      · exact .inr List.mem_cons_self
      · exact (ih h).imp_right (List.mem_cons_of_mem _)

theorem Tbl.mem_put_self {κ α : Type} [DecidableEq κ] (m : Tbl κ α) (x : κ) (a : α) : (x, a) ∈ Tbl.put m x a :=
  Tbl.mem_of_find (Tbl.find_put_self m x a)

@[simp] theorem State.setThread_setThread (s : State) (t : TId) (x y : Thread) : (s.setThread t x).setThread t y = s.setThread t y := by
  simp [State.setThread, Tbl.put_put]
@[simp] theorem State.setThread_modThread (s : State) (t : TId) (x : Thread) (f : Thread → Thread) :
    (s.setThread t x).modThread t f = s.setThread t (f x) := by
  simp [State.modThread]

/-! ## Translation in states that differ in their threads (R177) -/

section
variable {s s' : State} (hs : SameBut s s')
include hs

theorem SameBut.walk2 (die part a level table : Nat) : walk2 s' die part a level table = walk2 s die part a level table := by
  induction level generalizing table with
  | zero => rw [hs]; rfl
  | succ level ih => simp only [Machine.walk2, ih]; rw [hs]; rfl

theorem SameBut.stage2 (die part ipa : Nat) : stage2 s' die part ipa = stage2 s die part ipa := by
  rw [Machine.stage2, hs.walk2, hs]; rfl

theorem SameBut.walk1 (i : Issuer) (va level table : Nat) : walk1 s' i va level table = walk1 s i va level table := by
  induction level generalizing table with
  | zero => simp only [Machine.walk1, hs.stage2]; rw [hs]; rfl
  | succ level ih => simp only [Machine.walk1, ih, hs.stage2]; rw [hs]; rfl

theorem SameBut.translate (i : Issuer) (va : Nat) (k : Access) : translate s' i va k = translate s i va k := by
  have h1 : stage1 s' i va = stage1 s i va := by simp only [stage1, hs.walk1]
  simp only [Machine.translate, h1, hs.stage2]; rw [hs]; rfl

theorem SameBut.issuerOf (g : GId) : issuerOf s' g = issuerOf s g := by rw [hs]; rfl

/-- Where a store reaches its address, the same store reaches it in a state that differs in its threads alone. -/
theorem Reaches.reach_store {t : TId} {va : W64} {pa : Nat} {ty : MemTy} (h : Reaches s t va .store pa ty)
    (hw : s.plan.headD .now ≠ .walk) : reach s' t va .store = .ok (pa, ty) := by
  have hi : Machine.issuerOf s' (Machine.groupOf s' t) = Machine.issuerOf s (Machine.groupOf s t) := by
    rw [hs.groupOf, hs.issuerOf]
  have hx := h.xlat
  have hl := h.answers
  have hg := h.open'
  have hn : needsWalk s' t va.toNat = false := by
    have hplan : walksNext s' = false := by rw [walksNext, hs]; simpa using hw
    simp [needsWalk, hplan]
  have hp : peerStop s' (Machine.issuerOf s (Machine.groupOf s t)) t.core va.toNat pa 1 .store = none := by
    unfold peerStop; cases placeOf pa <;> rfl
  have hl' : lostStop s' (Machine.issuerOf s (Machine.groupOf s t)) va.toNat pa .store = none := by rw [← hl, hs]; rfl
  have hg' : gatedTarget s' t.core pa = none := by rw [← hg, hs]; rfl
  have hk : struckStop s' t (Machine.issuerOf s (Machine.groupOf s t)) va.toNat pa .store = none := by
    unfold struckStop; cases (s'.thread t).struck <;> simp
  have hm : reachMem s' t va .store = .ok (pa, ty) := by simp [reachMem, hn, hi, hs.translate, hx]
  simp only [reach, hm, hi, hp, hl', hk, hg']; rfl

/-- No such store is kept for the service cores (R167). -/
theorem Reaches.deviceStop_store {t : TId} {va : W64} {pa : Nat} {ty : MemTy} (h : Reaches s t va .store pa ty) :
    deviceStop s' (Machine.issuerOf s' (Machine.groupOf s' t)) pa va.toNat .store = none := by
  rw [hs.groupOf, hs.issuerOf, ← h.place, hs]; rfl
end

/-! ## Marks that a store does not make (R135, R289) -/

theorem marksThread_eq_false {x : Thread} {word : Nat} (h : ∀ k : Reg8, (x.b.get k).bound = true → (x.b.get k).pa / 4 ≠ word)
    (skip : Option Reg8) : marksThread x word skip = false := by
  rw [marksThread, List.any_eq_false]
  intro i hi
  have hk := h ⟨i, List.mem_range.mp hi⟩
  have e : x.b.getD i {} = x.b.get ⟨i, List.mem_range.mp hi⟩ := by
    simp [Vector.getD, Vector.get, List.mem_range.mp hi]
  rw [e, watches]
  cases hb : (x.b.get ⟨i, List.mem_range.mp hi⟩).bound
  · simp
  · simp [hk hb]

/-- A store to bytes that no register is bound to marks none. -/
theorem markBytes_unwatched {s : State} {pa n : Nat} (h : Unwatched s pa n) (part : Option Nat) (via : Option (TId × Reg8))
    (who : TId → Bool) : markBytes s part pa n via who = s := by
  have word (i : Nat) (hi : i < (pa + n + 3) / 4 - pa / 4) : markWord s part (pa / 4 + i) via who = s := by
    refine foldl_eq_self fun p _ => ?_
    have hm (skip : Option Reg8) : marksThread (s.thread p.1) (pa / 4 + i) skip = false := by
      refine marksThread_eq_false (fun k hb he => ?_) skip
      have hapart := h p.1 k hb
      simp only [overlaps, he, Bool.and_eq_false_iff, decide_eq_false_iff_not] at hapart
      omega
    simp [hm]
  exact foldl_eq_self fun i hi => word i (List.mem_range.mp hi)

theorem markSeen_unwatched {s : State} {e : StoreEnt} (h : Unwatched s e.pa e.bytes.length) (t : TId) (was : TId → Bool) :
    markSeen s t e was = s := by
  unfold markSeen
  cases e.ty <;> simp [markBytes_unwatched h]

/-! ## Stores that a cluster holds back (R131) -/

theorem prefixThrough_eq_zero_iff (f : StoreEnt → Bool) (sb : List StoreEnt) : prefixThrough f sb = 0 ↔ ∀ e ∈ sb, f e = false := by
  have hsub := List.takeWhile_sublist (fun e => !f e) (l := sb.reverse)
  have hle := hsub.length_le
  have hall : prefixThrough f sb = 0 ↔ (sb.reverse.takeWhile fun e => !f e).length = sb.reverse.length := by
    rw [List.length_reverse] at hle ⊢
    rw [prefixThrough]; omega
  rw [hall]
  constructor
  · intro h e he
    have hkept := List.all_takeWhile (p := fun e => !f e) (l := sb.reverse)
    rw [hsub.eq_of_length h, List.all_eq_true] at hkept
    simpa using hkept e (List.mem_reverse.mpr he)
  · intro h
    have hkept := List.takeWhile_append_of_pos (p := fun e => !f e) (l₁ := sb.reverse) (l₂ := [])
      fun e he => by simp [h e (List.mem_reverse.mp he)]
    rw [List.append_nil, List.takeWhile_nil, List.append_nil] at hkept
    rw [hkept]

theorem take_heldCount_eq_nil_iff (x : Thread) : x.sb.take (heldCount x) = [] ↔ ∀ e ∈ x.sb, e.held = none := by
  have hcount := prefixThrough_eq_zero_iff (fun e => e.held.isSome) x.sb
  simp only [Option.isSome_eq_false_iff, Option.isNone_iff_eq_none] at hcount
  rw [List.take_eq_nil_iff, heldCount, hcount]
  constructor
  · rintro (h | h)
    · exact h
    · simp [h]
  · exact .inl

theorem insertStore_ne_nil (x : TId × StoreEnt) (ys : List (TId × StoreEnt)) : insertStore x ys ≠ [] := by
  cases ys with
  | nil => simp [insertStore]
  | cons y ys => rw [insertStore]; split <;> simp

/-- A cluster has stores to publish (R132) just where a thread of it holds one back. -/
theorem heldStores_eq_nil_iff (s : State) (core : Nat) :
    heldStores s core = [] ↔ ∀ p ∈ s.threads, p.1.core / 2 = core / 2 → ∀ e ∈ p.2.sb, e.held = none := by
  have fold (xs : List (TId × StoreEnt)) : xs.foldr insertStore [] = [] ↔ xs = [] := by
    cases xs with
    | nil => simp
    | cons x xs => simp [insertStore_ne_nil]
  simp only [heldStores, fold, List.flatMap_eq_nil_iff]
  refine forall₂_congr fun p _ => ?_
  split
  · next h => rw [List.map_eq_nil_iff, take_heldCount_eq_nil_iff]; simp [h]
  · next h => simp [h]

theorem held_of_heldStores {s : State} {core : Nat} (h : heldStores s core = []) {u : TId} (hu : u.core / 2 = core / 2) :
    ∀ e ∈ (s.thread u).sb, e.held = none :=
  each_thread (fun v x => v.core / 2 = core / 2 → ∀ e ∈ x.sb, e.held = none) (fun _ _ e he => absurd he (by simp))
    ((heldStores_eq_nil_iff s core).mp h) u hu

/-! ## Operations around a buffered store that leave the state as it is -/

theorem groupOf_core (s : State) (t : TId) : (groupOf s t).core = t.core := by
  simp only [groupOf]
  split
  · rfl
  · split <;> rfl

theorem heldStores_setThread {s : State} {t : TId} {x : Thread} {core : Nat} (h : heldStores s core = [])
    (hx : ∀ e ∈ x.sb, e.held = none) : heldStores (s.setThread t x) core = [] := by
  rw [heldStores_eq_nil_iff] at h ⊢
  intro p hp hc
  rcases Tbl.mem_put hp with rfl | hp
  · exact hx
  · exact h p hp hc

theorem Unwatched.setThread {s : State} {pa n : Nat} (h : Unwatched s pa n) {t : TId} {x : Thread} (hx : x.b = (s.thread t).b) :
    Unwatched (s.setThread t x) pa n := by
  intro u k
  rw [State.setThread_thread]
  split
  · next hu => subst hu; rw [hx]; exact h u k
  · exact h u k

theorem satisfyIf_setThread {x : Thread} (h : x.outs = []) (s : State) (t : TId) (f : Out → Bool) :
    satisfyIf (s.setThread t x) t f = s.setThread t x := by
  simp [satisfyIf, h]

theorem dropEarly_setThread (s : State) (t : TId) (x : Thread) (pa n : Nat) :
    dropEarly (s.setThread t x) t pa n = s.setThread t (x.past pa n) := by
  unfold dropEarly
  split
  · next h =>
    have hnil : x.early = [] := by simpa using h
    rw [Thread.past, hnil, List.filter_nil, ← hnil]
  · exact State.setThread_modThread ..

/-- Where a cluster holds no store back, no mate of a thread has one to widen. -/
theorem widenMates_none {s : State} {t : TId} (h : heldStores s t.core = []) : widenMates s t = s := by
  refine foldl_eq_self fun u _ => if_neg ?_
  simp only [Bool.and_eq_true, not_and, beq_iff_eq, List.any_eq_true, not_exists]
  rintro ⟨_, hg⟩ e he hh
  have hc : u.core = t.core := by rw [← groupOf_core s u, hg, groupOf_core]
  rw [held_of_heldStores h (by rw [hc]) e he] at hh
  cases hh

/-! ## A release at `.team` (R123, R127, R131) -/

/-- A thread whose stores have been released at its team. -/
def Thread.heldForTeam (x : Thread) : Thread := { x with sb := releasedStores x.sb true .team }

/-- A thread whose stores are all of narrow scopes holds them for its team, and no binding is marked. -/
theorem holdStores_team {s : State} {t : TId} {x : Thread} (hsc : ∀ e ∈ x.sb, Sc.isWide e.sc = false)
    (hb : x.b = (s.thread t).b) (hm : ∀ e ∈ x.sb, Unwatched s e.pa e.bytes.length) :
    holdStores (s.setThread t x) t .team = s.setThread t x.heldForTeam := by
  have hp : prefixThrough (fun e => Sc.isWide e.sc) x.sb = 0 := (prefixThrough_eq_zero_iff _ _).mpr hsc
  have hh (e : StoreEnt) : heldScope e .team = .team := by unfold heldScope; split <;> rfl
  have hr : x.heldForTeam = { x with sb := x.sb.map fun e => { e with held := some .team } } := by
    simp [Thread.heldForTeam, releasedStores]
  have hn : publishN (s.setThread t x) t 0 = s.setThread t x := by simp [publishN, sendN]
  simp only [holdStores, State.setThread_thread_self, hp, hn, hh, State.setThread_modThread, ← hr]
  exact foldl_eq_self fun e he =>
    markSeen_unwatched (e := { e with held := some .team }) ((hm e he).setThread (x := x.heldForTeam) hb) t _

/-- Every other thread of a pack has buffered its stores in earlier steps. -/
theorem packBefore_older {s : State} (h : Older s) (t : TId) (x : Thread) (pa n : Nat) :
    packBefore (s.setThread t x) t pa n = s.setThread t x := by
  refine foldl_eq_self fun u _ => if_neg ?_
  simp only [Bool.and_eq_true, not_and, decide_eq_true_eq, beq_iff_eq, List.any_eq_true, not_exists]
  rintro ⟨hu, _⟩ e he hs
  rw [State.setThread_thread_ne _ _ hu] at he
  have hlt := each_thread (fun _ x => ∀ e ∈ x.sb, e.step < s.tick) (fun _ e he => absurd he (by simp)) h u e he
  exact absurd hs (Nat.ne_of_lt hlt)

theorem releasedStores_held {sb : List StoreEnt} {e : StoreEnt} (h : e ∈ releasedStores sb true .team) : e.held ≠ none := by
  simp only [releasedStores, Bool.true_and, List.mem_map, beq_self_eq_true, Bool.or_true, if_true] at h
  obtain ⟨f, -, rfl⟩ := h
  simp

/-- The narrow-held lines replaced. -/
def State.setNarrow (s : State) (nar : List (Nat × TId × Sc)) : State := { s with narrow := nar }

theorem State.setThread_setNarrow (s : State) (t : TId) (x : Thread) (nar : List (Nat × TId × Sc)) :
    (s.setThread t x).setNarrow nar = (s.setNarrow nar).setThread t x := rfl

/-- The line of a store is narrow-held just where the thread has stores that its release orders (R131). -/
theorem recordNarrow_released {s : State} {t : TId} (h : heldStores s t.core = []) {x : Thread} (hx : x.sb = (s.thread t).sb) (pa : Nat) :
    recordNarrow (s.setThread t x.heldForTeam) t pa .team =
      (s.setThread t x.heldForTeam).setNarrow (narrowAfter s t [t] pa true .team) := by
  have hn : narrowAfter s t [t] pa true .team = if x.sb.isEmpty then s.narrow else (pa / 128, t, .team) :: s.narrow := by
    cases hsb : x.sb <;> simp [narrowAfter, ← hx, hsb]
  rw [hn]
  cases hsb : x.sb with
  | nil =>
    have hnone : heldStores (s.setThread t x.heldForTeam) t.core = [] :=
      heldStores_setThread h (by simp [Thread.heldForTeam, hsb, releasedStores])
    simp only [recordNarrow, hnone, List.isEmpty_nil, if_true]
    rfl
  | cons e es =>
    have hsome : heldStores (s.setThread t x.heldForTeam) t.core ≠ [] := by
      rw [ne_eq, heldStores_eq_nil_iff]
      intro hnone
      obtain ⟨f, hf⟩ := List.exists_mem_of_ne_nil x.heldForTeam.sb (by simp [Thread.heldForTeam, hsb, releasedStores])
      exact releasedStores_held hf (hnone _ (Tbl.mem_put_self s.threads t x.heldForTeam) rfl f hf)
    simp only [recordNarrow, List.isEmpty_iff, hsome, if_false, reduceCtorEq]
    rfl

/-- A release at `.team` before a buffered store. -/
theorem releaseBefore_team {s : State} {t : TId} {x : Thread} (ho : x.outs = []) (hsb : x.sb = (s.thread t).sb)
    (hb : x.b = (s.thread t).b) (hr : Releases s t .team) :
    releaseBefore (s.setThread t x) t .team false = s.setThread t x.heldForTeam := by
  obtain ⟨hheld, -, hmarks, hscope⟩ := hr
  have hnone : ∀ e ∈ x.sb, e.held = none := hsb ▸ held_of_heldStores hheld rfl
  simp only [releaseBefore, satisfyAll, satisfyIf_setThread ho, holdNarrow]
  rw [widenMates_none (heldStores_setThread hheld hnone)]
  refine holdStores_team (fun e he => ?_) hb fun e he => hmarks e (hsb ▸ he)
  rcases hscope (.inr rfl) e (hsb ▸ he) with h | h <;> rw [h] <;> rfl

/-- The line of a store that releases at `.team`, with no release fence before it. -/
theorem noteRelease_team {s : State} {t : TId} {x : Thread} (hf : x.fence = none) (hsb : x.sb = (s.thread t).sb)
    (hheld : heldStores s t.core = []) (pa : Nat) :
    noteRelease (s.setThread t x.heldForTeam) t pa true .team =
      (s.setThread t x.heldForTeam).setNarrow (narrowAfter s t [t] pa true .team) := by
  have hn : narrowOf (s.setThread t x.heldForTeam) t true .team = some .team := rfl
  simp only [noteRelease, hn]
  rw [recordNarrow_released hheld hsb]
  have hfence : ((s.setThread t x.heldForTeam).thread t).fence = none := by rw [State.setThread_thread_self]; exact hf
  exact if_pos (Option.isNone_iff_eq_none.mpr hfence)

/-- A store that releases at `.team`, in a buffer. -/
def teamStore (pa : Nat) (bs : List Byte) (ty : MemTy) (seq step : Nat) : StoreEnt :=
  { pa := pa, bytes := bs, ty := ty, sc := .team, rel := true, held := some .team, seq := seq, step := step }

/-- A thread with one more store in its buffer. -/
def Thread.queued (x : Thread) (e : StoreEnt) : Thread := { x with sb := x.sb ++ [e] }

/-- Such a store joins its thread's buffer, its release made. -/
def bufferTeam (s : State) (t : TId) (pa : Nat) (bs : List Byte) (ty : MemTy) : State :=
  let s' := carryStore s.takeFresh.2 t true false [.buffered s.fresh]
  let e := teamStore pa bs ty s.fresh s'.tick
  markSeen (s'.modThread t fun x => x.queued e) t e fun _ => false

theorem memWrite_eq_bufferTeam {ty : MemTy} (h : ty = .wb ∨ ty = .hb ∨ ty = .spad) (s : State) (t : TId) (pa : Nat) (bs : List Byte) :
    memWrite s t pa bs ty true .team false none =
      bufferTeam (noteRelease (packBefore (releaseBefore (dropEarly (satisfyFor s t pa bs.length) t pa bs.length) t .team false)
        t pa bs.length) t pa true .team) t pa bs ty := by
  rcases h with rfl | rfl | rfl <;> rfl

theorem bufferTeam_unwatched {s : State} {t : TId} {x : Thread} {pa : Nat} {bs : List Byte} (hb : x.b = (s.thread t).b)
    (hu : Unwatched s pa bs.length) (ty : MemTy) :
    ∃ o, bufferTeam (s.setThread t x) t pa bs ty =
      (s.takeFresh.2.setOrder o).setThread t (x.queued (teamStore pa bs ty s.fresh s.tick)) := by
  obtain ⟨o, ho⟩ := carryStore_reordered (s.setThread t x).takeFresh.2 t true false [.buffered s.fresh]
  refine ⟨o, ?_⟩
  have hs : (s.setThread t x).takeFresh.2.setOrder o = (s.takeFresh.2.setOrder o).setThread t x := rfl
  have hu' : Unwatched (s.takeFresh.2.setOrder o) pa bs.length := hu
  have hf : (s.setThread t x).fresh = s.fresh := rfl
  simp only [bufferTeam, hf, ho, hs, State.setThread_modThread]
  exact markSeen_unwatched (e := teamStore pa bs ty s.fresh s.tick) (hu'.setThread (x := x.queued _) hb) t _

/-- A store that releases at `.team` joins its thread's buffer behind the stores that it orders. -/
theorem memWrite_team {s : State} {t : TId} {x : Thread} {pa : Nat} {bs : List Byte} {ty : MemTy} (ho : x.outs = []) (hf : x.fence = none)
    (hsb : x.sb = (s.thread t).sb) (hb : x.b = (s.thread t).b) (hr : Releases s t .team) (hu : Unwatched s pa bs.length) (hold : Older s)
    (hty : ty = .wb ∨ ty = .hb ∨ ty = .spad) :
    ∃ o, memWrite (s.setThread t x) t pa bs ty true .team false none =
      ((s.setNarrow (narrowAfter s t [t] pa true .team)).takeFresh.2.setOrder o).setThread t
        ((x.past pa bs.length).heldForTeam.queued (teamStore pa bs ty s.fresh s.tick)) := by
  rw [memWrite_eq_bufferTeam hty, satisfyFor, satisfyIf_setThread ho, dropEarly_setThread,
    releaseBefore_team (x := x.past pa bs.length) ho hsb hb hr, packBefore_older hold,
    noteRelease_team (x := x.past pa bs.length) hf hsb hr.held, State.setThread_setNarrow]
  exact bufferTeam_unwatched (s := s.setNarrow (narrowAfter s t [t] pa true .team)) (x := (x.past pa bs.length).heldForTeam) hb hu ty

/-! ## A thread that has stored -/

theorem touchLine_lines (s : State) (c : CacheId) (line p : Nat) : ∃ ls, touchLine s c line p = { s with lines := ls } := by
  unfold touchLine; split <;> exact ⟨_, rfl⟩

theorem hintLine_lines (s : State) (core pa : Nat) (ty : MemTy) (h : Hint) : ∃ ls, hintLine s core pa ty h = { s with lines := ls } := by
  have two (c c' : CacheId) (l l' p p' : Nat) : ∃ ls, touchLine (touchLine s c l p) c' l' p' = { s with lines := ls } := by
    obtain ⟨ls, h1⟩ := touchLine_lines s c l p
    obtain ⟨ls', h2⟩ := touchLine_lines (touchLine s c l p) c' l' p'
    exact ⟨ls', h2.trans (by rw [h1])⟩
  cases ty
  case uc | spad => exact ⟨s.lines, rfl⟩
  all_goals exact two ..

theorem popPlan_plan (s : State) : ∃ pl, popPlan s = { s with plan := pl } := by
  unfold popPlan; split <;> exact ⟨_, rfl⟩

/-- Thread `t` has become `x` as it stored, `nar` being the narrow-held lines; beside them only the counters of R189, the
replacement priorities, what happens before what, and the model's numbering and plan may have changed. -/
def QueuedOn (s : State) (t : TId) (x : Thread) (nar : List (Nat × TId × Sc)) (s' : State) : Prop :=
  s' = { s.setThread t x with
    pmcs := s'.pmcs, fresh := s'.fresh, plan := s'.plan, narrow := nar, lines := s'.lines, order := s'.order }

section
variable {s s' : State} {t : TId} {x : Thread} {nar : List (Nat × TId × Sc)} (h : QueuedOn s t x nar s')
include h

theorem QueuedOn.stackOwner (va : Nat) : stackOwner s' t va = stackOwner s t va := by rw [h]; rfl

theorem QueuedOn.seqPc : QueuedOn s t x.seq nar (seqPc s' t) := by
  have hx : Machine.seqPc (s.setThread t x) t = s.setThread t x.seq := State.setThread_modThread s t x Thread.seq
  have ht : (Machine.seqPc s' t).threads = (Machine.seqPc (s.setThread t x) t).threads := by rw [h]; rfl
  have hr : Machine.seqPc s' t = { s' with threads := (Machine.seqPc s' t).threads } := rfl
  rw [QueuedOn, hr, ht, hx, h]; rfl

theorem QueuedOn.hintLine (core pa : Nat) (ty : MemTy) (hint : Hint) : QueuedOn s t x nar (hintLine s' core pa ty hint) := by
  obtain ⟨ls, hls⟩ := hintLine_lines s' core pa ty hint
  rw [QueuedOn, hls, h]

theorem QueuedOn.spoilStack {va : Nat} (ho : Machine.stackOwner s t va = none) (n : Nat) : QueuedOn s t x nar (spoilStack s' t va n) := by
  have hs : stackSpot s' t va = none := Option.map_eq_none_iff.mp ((h.stackOwner va).trans ho)
  simpa only [Machine.spoilStack, hs] using h
end

/-- A word of one thread that leaves a state in which that thread has stored has exactly that effect. -/
theorem buffers_of_queued {i : Instr} {f : TId → State → Except Stop State} {s : State} {t : TId} {x : Thread}
    {nar : List (Nat × TId × Sc)} (h : Alone s t i) (he : exec i s = laneExec i f s)
    (hf : ∀ m, ∃ s₁, f t ((s.setPmcs m).noted t) = .ok s₁ ∧ QueuedOn s t x nar s₁) : Buffers i s (only s t x) nar := by
  obtain ⟨m, hm⟩ := laneExec_alone (f := f) h
  obtain ⟨s₁, h₁, hq⟩ := hf m
  obtain ⟨m', pl, hx⟩ := hm _ h₁
  refine ⟨_, he.trans hx, fun u => ?_, fun g => ?_, ?_⟩
  · rw [hq]; exact State.setThread_thread s t u x
  · rw [hq]; rfl
  · rw [hq]; rfl

/-- A store that reaches its address is performed (R277). -/
theorem storeLane_reached {s : State} {t : TId} {sz : Sz} {va : W64} {pa : Nat} {ty : MemTy} (hal : va.toNat % sz.bytes = 0)
    (hr : reach s t va .store = .ok (pa, ty)) (hd : deviceStop s (issuerOf s (groupOf s t)) pa va.toNat .store = none)
    (x : W64) (rel : Bool) (sc : Sc) (hint : Hint) :
    storeLane sz va x rel sc hint t s = .ok (seqPc (hintLine (spoilStack
      (memWrite (popPlan s) t pa (toBytes sz.bytes x.toNat) ty rel sc false none) t va.toNat sz.bytes) t.core pa ty hint) t) := by
  have hm : misaligned va sz.bytes = false := by simpa [misaligned] using hal
  simp only [storeLane, hm, hr, Bool.false_eq_true, if_false]
  change (match deviceStop s (issuerOf s (groupOf s t)) pa va.toNat .store with
    | some f => _
    | none => _) = _
  rw [hd]

end Sys2Proof.Machine
end

section
/-! SUPPORT. The search words `try`, `cut`, `cpd` and `prune` (R313, R315 to R317). -/

namespace Sys2Proof.Machine

/-! ## A word of one thread that takes a trap (R198) -/

/-- A trap of a word that has issued, where nothing of the thread is outstanding and its handler can take it. -/
theorem issueTrap_taken {s : State} {t : TId} {cause : Nat} {info : W32} (hv : (s.group (groupOf s t)).trapvec ≠ 0)
    (ha : (s.thread t).trapcause.getLsbD 16 = false) (ho : (s.thread t).outs = []) (hc : cause < 256) :
    issueTrap s t cause info = s.setThread t ((s.thread t).counted.trapped (s.group (groupOf s t)).trapvec cause info) := by
  let x : Thread := (s.thread t).counted
  have hs : s.modThread t (fun x => { x with since := countIssue x }) = s.setThread t x := rfl
  have hx : (s.setThread t x).thread t = x := State.setThread_thread_self s t x
  have hdue : nothingDue ((s.setThread t x).thread t) = true := by rw [hx, nothingDue, show x.outs = [] from ho]; rfl
  have hcause : causeWord cause 0 info = BitVec.ofNat 64 (info.toNat * 2 ^ 32 + 2 ^ 16 + cause) := by
    simp [causeWord, Nat.mod_eq_of_lt hc]
  rw [issueTrap, hs, trapThread, if_pos hdue]
  rcases takeTrap_cases (s.setThread t x) t cause 0 info with ⟨-, -, he⟩ | ⟨hz, -⟩ | ⟨-, hh, -⟩
  · rw [he, hx, hcause, State.setThread_setThread]; rfl
  · exact absurd hz hv
  · rw [hx, isHandling, show x.trapcause = (s.thread t).trapcause from rfl, ha] at hh; cases hh

/-- A word of one thread that stops for a trap, which its group's handler can take. -/
theorem traps_of_error {i : Instr} {f : TId → State → Except Stop State} {s : State} {t : TId} {cause : Nat} {info : W32}
    (h : Alone s t i) (he : exec i s = laneExec i f s) (hcan : CanTrap s t) (hc : cause < 256)
    (hf : ∀ m, f t ((s.setPmcs m).noted t) = .error (.trap cause info)) : Traps i s t cause info := by
  obtain ⟨m, hm⟩ := laneExec_stops (f := f) h
  obtain ⟨m', hm'⟩ := counted_core (s.setPmcs m) t.core 1 1
  have htaken : issueTrap ((s.setPmcs m).setPmcs m') t cause info = _ := issueTrap_taken hcan.1 hcan.2 h.ready.own hc
  have hrun : exec i s = spendWalk (packEntry s) (.next (issueTrap ((s.setPmcs m).setPmcs m') t cause info)) := by
    rw [he, hm _ (hf m), ← hm']; rfl
  rw [htaken] at hrun
  obtain ⟨pl, hpl⟩ := spendWalk_next (packEntry s) _
  exact ⟨_, hrun.trans hpl, fun u => State.setThread_thread s t u _, fun _ => rfl, rfl⟩

/-! ## The state in which a search word acts -/

theorem noted_sameBut (s : State) (m : Tbl Nat (Vector W64 16)) (t : TId) : SameBut s ((s.setPmcs m).noted t) := rfl

theorem readS_noted {s : State} {t : TId} (hs : (s.thread t).snap = none) (ho : (s.thread t).outs = [])
    (m : Tbl Nat (Vector W64 16)) (r : Reg) : readS ((s.setPmcs m).noted t) t r = readS s t r := by
  rw [readS_plain hs ho, readS_plain (by rwa [noted_thread]) (by rwa [noted_thread])]
  rfl

theorem readBase_noted {s : State} {t : TId} (hs : (s.thread t).snap = none) (ho : (s.thread t).outs = [])
    (m : Tbl Nat (Vector W64 16)) (b : Base) : readBase ((s.setPmcs m).noted t) t b = readBase s t b := by
  cases b with
  | v r => simp only [readBase, readV_noted]
  | s r => exact readS_noted hs ho m r

/-- No soft error of its search state stops the word (R207). -/
theorem searchStep_noted {s : State} {t : TId} (h : (s.thread t).trellisError = false) (f : TId → State → Except Stop State)
    (m : Tbl Nat (Vector W64 16)) : searchStep f t ((s.setPmcs m).noted t) = f t ((s.setPmcs m).noted t) := by
  rw [searchStep, noted_thread]
  exact if_neg (by rw [Thread.noted, h]; decide)

/-! ## try (R313) -/

/-- The choice point that `try` pushes for a count word and a mask. -/
def choiceOf (s : State) (t : TId) (d : Reg) (c mask : W64) : Choice :=
  { saved := savedOf (s.thread t) mask, mask := mask, rpc := resumeWord s t, dreg := d, tmark := (s.thread t).trl.length, stolen := false
    owner := (s.thread t).tti, nxt := 1, fin := c.toNat % 2 ^ 24, pw := c.toNat / 2 ^ 24, madeAt := s.tick
    savedBad := (List.finRange 64).filter fun r => mask.getLsbD r.val && (s.thread t).vPoison.getLsbD r.val }

theorem vBad_plain {s : State} {t : TId} (ho : (s.thread t).outs = []) (r : Reg) :
    vBad s t r = (s.thread t).vPoison.getLsbD r.val := by
  simp [vBad, ho]

theorem maskRegs_readV {s : State} {t : TId} (hs : (s.thread t).snap = none) (ho : (s.thread t).outs = []) (mask : W64) :
    ((maskRegs mask).map fun r => readV s t r) = savedOf (s.thread t) mask := by
  simp only [readV_plain hs ho]; rfl

theorem maskRegs_vBad {s : State} {t : TId} (ho : (s.thread t).outs = []) (mask : W64) :
    (maskRegs mask).filter (vBad s t) =
      (List.finRange 64).filter fun r => mask.getLsbD r.val && (s.thread t).vPoison.getLsbD r.val := by
  rw [maskRegs, List.filter_filter]
  exact List.filter_congr fun r _ => by rw [vBad_plain ho, Bool.and_comm]

section
variable {s : State} {t : TId} {d c m : Reg} (h : Searches s t (.try_ d c m))
  (hframe : (s.launch (launchOf s t)).kernel.frame ≠ 0) (hmask : onesOf (readS s t m) ≤ 16) (pm : Tbl Nat (Vector W64 16))
include h hframe hmask

/-- `try` with a frame and a mask of at most 16 registers goes by its count and the room in the choice stack. -/
theorem tryLane_noted :
    let b := (s.setPmcs pm).noted t
    searchStep (tryLane d c m) t b =
      if tryCount (readS s t c) = 0 then .ok (seqPc (writeV b t d 0xFFFFFFFF) t)
      else if tryCount (readS s t c) = 1 then .ok (seqPc (writeV b t d 0) t)
      else if (s.thread t).stk.length = 128 then .error (.trap cFRAME 0)
      else .ok (seqPc (writeV (b.modThread t fun x => { x with stk := choiceOf s t d (readS s t c) (readS s t m) :: x.stk }) t d 0) t) := by
  intro b
  obtain ⟨ha, herr⟩ := h
  have hb : b.thread t = (s.thread t).noted := noted_thread s pm t
  have hf : frameBytes b t ≠ 0 := hframe
  have hp : ¬ 16 < popcount (readS s t m) := by rw [popcount_eq_onesOf]; omega
  have hsaved : ((maskRegs (readS s t m)).map fun r => readV b t r) = savedOf (s.thread t) (readS s t m) := by
    rw [maskRegs_readV (by rw [hb]; exact ha.ready.fresh) (by rw [hb]; exact ha.ready.own), hb]; rfl
  have hbad := maskRegs_vBad (s := b) (t := t) (by rw [hb]; exact ha.ready.own) (readS s t m)
  rw [searchStep_noted herr, tryLane]
  simp only [readS_noted ha.ready.fresh ha.ready.own, b, if_neg hf, if_neg hp, hsaved, hbad]
  rw [hb]
  rfl
end

/-- The count of alternatives and the room in the choice stack decide what `try` does (R313). -/
theorem try_pushes : tryPushesChoice := by
  intro d c m s t h x n mask cp hframe hmask
  have hrun := tryLane_noted h hframe hmask
  have gives (pm : Tbl Nat (Vector W64 16)) (y : W32) :
      ActsOn ((s.setPmcs pm).noted t) t (x.withV s.tick d y).onward (seqPc (writeV ((s.setPmcs pm).noted t) t d y) t) :=
    seqPc_acts (writeV_acts (noted_acts s pm t) h.1.ready.own d y)
  refine ⟨fun h0 => ?none, fun h1 => ?one, fun h2 hroom => ?many, fun h2 hfull hcan => ?full⟩
  case none => exact effect_of_acts h.1 rfl fun pm => ⟨_, (hrun pm).trans (if_pos h0), gives pm _, rfl⟩
  case one =>
    have h0 : ¬ n = 0 := by omega
    exact effect_of_acts h.1 rfl fun pm => ⟨_, (hrun pm).trans ((if_neg h0).trans (if_pos h1)), gives pm _, rfl⟩
  all_goals
    have h0 : ¬ n = 0 := by omega
    have h1 : ¬ n = 1 := by omega
  case many =>
    refine effect_of_acts h.1 rfl fun pm =>
      ⟨_, (hrun pm).trans ((if_neg h0).trans ((if_neg h1).trans (if_neg (Nat.ne_of_lt hroom)))), ?_, rfl⟩
    exact seqPc_acts (writeV_acts (modThread_acts (noted_acts s pm t) fun x => { x with stk := cp :: x.stk }) h.1.ready.own d 0)
  case full =>
    exact traps_of_error h.1 rfl hcan (by decide) fun pm => (hrun pm).trans ((if_neg h0).trans ((if_neg h1).trans (if_pos hfull)))

/-! ## cut and cpd (R315, R316) -/

/-- A thread whose choice points above a depth are dropped; with the last of them goes the trail. -/
def Thread.cutTo (x : Thread) (k : Nat) : Thread :=
  { x with stk := x.stk.drop (x.stk.length - k), trl := if k = 0 ∧ x.stk ≠ [] then [] else x.trl }

/-- A depth that the stack does not pass leaves the thread as it is. -/
theorem cut_eq_cutTo (x : Thread) (k : Nat) :
    (if k < x.stk.length then { x with stk := x.stk.drop (x.stk.length - k), trl := if k = 0 then [] else x.trl } else x) = x.cutTo k := by
  unfold Thread.cutTo
  by_cases hk : k < x.stk.length
  · have hne : x.stk ≠ [] := List.ne_nil_of_length_pos (by omega)
    simp only [hk, if_true, ne_eq, hne, not_false_iff, and_true]
  · have hkeep : ¬ (k = 0 ∧ x.stk ≠ []) := by
      rintro ⟨rfl, hne⟩
      exact hk (List.length_pos_iff.mpr hne)
    have hdrop : x.stk.length - k = 0 := by omega
    rw [if_neg hk, if_neg hkeep, hdrop, List.drop_zero]

theorem cut_drops {a : Reg} {s : State} {t : TId} (h : Searches s t (.cut a)) :
    Effect (.cut a) s (only s t ((s.thread t).cutTo (readV s t a).toNat).onward) s.group := by
  refine effect_of_acts h.1 rfl fun pm => ⟨_, searchStep_noted h.2 _ pm, ?_, rfl⟩
  simp only [readV_noted, cut_eq_cutTo]
  exact seqPc_acts (modThread_acts (noted_acts s pm t) (Thread.cutTo · (readV s t a).toNat))

theorem cpd_gives {d : Reg} {s : State} {t : TId} (h : Searches s t (.cpd d)) :
    Effect (.cpd d) s (only s t ((s.thread t).withV s.tick d (BitVec.ofNat 32 (s.thread t).stk.length)).onward) s.group := by
  refine effect_of_acts h.1 rfl fun pm => ⟨_, searchStep_noted h.2 _ pm, ?_, rfl⟩
  simp only [noted_thread]
  exact seqPc_acts (writeV_acts (noted_acts s pm t) h.1.ready.own d _)

/-! ## prune (R317) -/

theorem prune_buffers {base : Base} {imm : BitVec 16} {s : State} {t : TId} {pa : Nat} {ty : MemTy}
    (h : Searches s t (.prune base imm)) (hal : (laneAddr base (imm.toInt * 8) s t).toNat % 8 = 0)
    (hr : Reaches s t (laneAddr base (imm.toInt * 8) s t) .store pa ty) (hw : s.plan.headD .now ≠ .walk)
    (hty : ty = .wb ∨ ty = .hb ∨ ty = .spad) (hu : Unwatched s pa 8) (hrel : Releases s t .team) (hold : Older s)
    (hf : (s.thread t).fence = none) :
    Buffers (.prune base imm) s (only s t
      { ((s.thread t).past pa 8).onward with
          sb := releasedStores (s.thread t).sb true .team ++ [bufferedStore s pa 8 1 ty true .team] })
      (narrowAfter s t [t] pa true .team) := by
  obtain ⟨ha, herr⟩ := h
  refine buffers_of_queued ha rfl fun m => ?_
  have hs := noted_sameBut s m t
  have haddr : effAddr (readBase ((s.setPmcs m).noted t) t base) 0 (imm.toInt * 8) = laneAddr base (imm.toInt * 8) s t := by
    rw [readBase_noted ha.ready.fresh ha.ready.own]; rfl
  rw [searchStep_noted herr, pruneLane, haddr, storeLane_reached (sz := .b64) hal (hr.reach_store hs hw) (hr.deviceStop_store hs)]
  refine ⟨_, rfl, ?_⟩
  obtain ⟨pl, hpl⟩ := popPlan_plan ((s.setPmcs m).noted t)
  have hpop : popPlan ((s.setPmcs m).noted t) = State.setThread { s.setPmcs m with plan := pl } t (s.thread t).noted := hpl
  obtain ⟨hheld, hlines, hmarks, hscope⟩ := hrel
  obtain ⟨o, ho⟩ := memWrite_team (s := { s.setPmcs m with plan := pl }) (x := (s.thread t).noted) (bs := toBytes Sz.b64.bytes (1 : W64).toNat)
    ha.ready.own hf rfl rfl ⟨hheld, hlines, hmarks, hscope⟩ hu hold hty
  have hq : QueuedOn s t (((s.thread t).noted.past pa 8).heldForTeam.queued (bufferedStore s pa 8 1 ty true .team))
      (narrowAfter s t [t] pa true .team)
      (memWrite (popPlan ((s.setPmcs m).noted t)) t pa (toBytes Sz.b64.bytes (1 : W64).toNat) ty true .team false none) := by
    rw [hpop, ho]; rfl
  exact ((hq.spoilStack hr.own 8).hintLine t.core pa ty .normal).seqPc

/-- Settles O24: `try`, `cut` and `cpd` act on their thread alone, and the store of `prune` joins its buffer behind the stores
that its release orders, which mark no binding. -/
theorem choicePoints : Obligations.ChoicePoints := by
  refine ⟨try_pushes, fun a s t h => cut_drops h, fun d s t h => cpd_gives h, ?_⟩
  intro base imm s t pa ty i a h hal hr hw hty hu hrel hold hf
  exact prune_buffers h hal hr hw hty hu hrel hold hf

end Sys2Proof.Machine
end

section
/-! SUPPORT. Words of a portion (R321 to R323): what their issue does to its threads and its group, for `bru`, `loop` and
`nexttile` (R326 to R328). -/

namespace Sys2Proof.Machine

/-! ## A state in which a portion has acted -/

/-- Threads have become what `th` gives and groups what `gr` gives; all else is as in `b`. -/
structure Became (b : State) (th : TId → Thread) (gr : GId → Group) (s' : State) : Prop where
  thread : ∀ u, s'.thread u = th u
  group : ∀ g, s'.group g = gr g
  frame : s' = { b with threads := s'.threads, groups := s'.groups }

/-- The threads of a portion whose word has issued; the others are as before. -/
def notedOn (s : State) (ts : List TId) (u : TId) : Thread := if u ∈ ts then (s.thread u).noted else s.thread u

section
variable {b s s' : State} {ts : List TId} {th : TId → Thread} {gr : GId → Group}

/-- Each thread of a portion changed by itself. -/
theorem Became.foldl {op : State → TId → State} {f : Thread → Thread} (hop : ∀ s u, op s u = s.modThread u f)
    (h : Became b th gr s') (hn : ts.Nodup) : Became b (fun u => if u ∈ ts then f (th u) else th u) gr (ts.foldl op s') := by
  obtain ⟨hs, ht⟩ := foldl_modThread_nodup (s := s') (G := fun _ => f) (fun s'' u _ => ⟨s''.pmcs, hop s'' u⟩) hn
  have hp : (ts.foldl op s').pmcs = s'.pmcs :=
    List.foldlRecOn (motive := fun x => x.pmcs = s'.pmcs) ts op rfl fun x hx u _ => by rw [hop]; exact hx
  exact ⟨fun u => by rw [ht, h.thread], fun g => by rw [hs.group, h.group], by rw [hs, hp, h.frame]⟩

theorem Became.seqAll (h : Became b (notedOn s ts) gr s') (hn : ts.Nodup) : Became b (seqOn s ts) gr (seqAll s' ts) := by
  have hf := h.foldl (op := seqPc) (f := Thread.seq) (fun _ _ => rfl) hn
  refine ⟨fun u => (hf.thread u).trans ?_, hf.group, hf.frame⟩
  simp only [notedOn, seqOn]
  split <;> rfl

theorem Became.jumpAll (h : Became b (notedOn s ts) gr s') (hn : ts.Nodup) (pc : W64) :
    Became b (jumpOn s ts pc) gr (jumpAll s' ts pc) := by
  have hf := h.foldl (op := fun s t => jumpPc s t pc) (fun _ _ => rfl) hn
  refine ⟨fun u => (hf.thread u).trans ?_, hf.group, hf.frame⟩
  simp only [notedOn, jumpOn]
  split <;> rfl

theorem Became.modCore (h : Became b th gr s') (c : Nat) (f : Core → Core) :
    Became (b.modCore c f) th gr (s'.modCore c f) where
  thread := h.thread
  group := h.group
  frame := by rw [h.frame]; rfl

/-- No result of a group is contested where none is outstanding. -/
theorem contestGroup_none {g : GId} (h : ∀ u ∈ groupThreads s g, (s.thread u).outs = []) (f : Out → Bool) (r : Nat) :
    contestGroup s g f r = s :=
  foldl_eq_self fun u hu => if_neg (by simp [h u hu])

/-- A uniform register written, where no thread of the group has a result outstanding. -/
theorem Became.writeS {g : GId} (h : Became b th s.group s') (ho : ∀ u ∈ groupThreads s g, (th u).outs = []) (r : Reg) (x : W64) :
    Became b th (onlyG s g ((s.group g).withS r x)) (writeS s' g r x) := by
  have hw : groupThreads (s'.modGroup g (·.withS r x)) g = groupThreads s g := by
    simp only [groupThreads, State.modGroup_group_self, h.group]; rfl
  have e : Machine.writeS s' g r x = s'.modGroup g (·.withS r x) :=
    contestGroup_none (s := s'.modGroup g (·.withS r x)) (fun u hu => by
      rw [hw] at hu; exact (congrArg Thread.outs (h.thread u)).trans (ho u hu)) _ _
  rw [e]
  refine ⟨h.thread, fun k => ?_, by rw [h.frame]; rfl⟩
  rw [State.modGroup_group, onlyG, h.group, h.group]
end

/-! ## The state in which a word of a portion acts -/

section
variable {i : Instr} {s : State} {g : GId} {t : TId} {ts : List TId} (h : Portion s g t ts i)
include h

theorem Portion.first_mem : t ∈ ts := List.mem_of_head? h.first
theorem Portion.groupOf_first : groupOf s t = g := (h.member t h.first_mem).1
theorem Portion.own {u : TId} (hu : u ∈ ts) : (s.thread u).outs = [] := (h.member u hu).2.2.own

/-- No thread of the portion's group has a result outstanding. -/
theorem Portion.noted_outs : ∀ u ∈ groupThreads s g, (notedOn s ts u).outs = [] := by
  intro u hu
  have ho : (s.thread u).outs = [] := (h.member t h.first_mem).2.2.others u (by rwa [h.groupOf_first])
  rw [notedOn]
  split <;> exact ho

theorem Portion.issued : Became s (notedOn s ts) s.group (ts.foldl noteIssue s) := by
  have hf := (Became.mk (fun _ => rfl) (fun _ => rfl) rfl : Became s s.thread s.group s).foldl (op := noteIssue)
    (f := fun x => { x.noted with outs := x.outs.map fun o => { o with left := o.left - 1 } }) (fun _ _ => rfl) h.distinct
  refine ⟨fun u => (hf.thread u).trans ?_, hf.group, hf.frame⟩
  rw [notedOn]
  split
  · next hu => rw [h.own hu, List.map_nil, ← h.own hu]; rfl
  · rfl

theorem Portion.readS_issued (r : Reg) : readS (ts.foldl noteIssue s) t r = readS s t r := by
  have hb := h.issued
  have hr := (h.member t h.first_mem).2.2
  have ht : (ts.foldl noteIssue s).thread t = (s.thread t).noted := by rw [hb.thread, notedOn, if_pos h.first_mem]
  have hg : groupOf (ts.foldl noteIssue s) t = groupOf s t := by simp only [groupOf, hb.group]
  rw [readS_plain (by rw [ht]; exact hr.fresh) (by rw [ht]; exact hr.own), readS_plain hr.fresh hr.own, hg, hb.group]

/-- A branch of the portion goes where its first thread's does. -/
theorem Portion.branchTarget_issued (off : Int) : branchTarget (ts.foldl noteIssue s) t off = targetOf s t off := by
  rw [branchTarget, h.issued.thread, notedOn, if_pos h.first_mem]; rfl

/-- A word of the portion answers the state that it leaves, but for the counters of R189 and the plan. -/
theorem Portion.next {f : GId → TId → List TId → State → Except Stop State} {s₁ : State} (he : exec i s = groupExec i f s)
    (h₁ : f g t ts (ts.foldl noteIssue s) = .ok s₁) : ∃ m pl, exec i s = .next { s₁.setPmcs m with plan := pl } := by
  obtain ⟨m, pl, hx⟩ := (groupExec_portion h).1 s₁ h₁
  exact ⟨m, pl, he.trans hx⟩

/-- A word that leaves a state in which the portion has acted has exactly that effect. -/
theorem Portion.effect {f : GId → TId → List TId → State → Except Stop State} {s₁ : State} {th : TId → Thread} {gr : GId → Group}
    (he : exec i s = groupExec i f s) (h₁ : f g t ts (ts.foldl noteIssue s) = .ok s₁) (hb : Became s th gr s₁) : Effect i s th gr := by
  obtain ⟨m, pl, hx⟩ := h.next he h₁
  exact ⟨_, hx, hb.thread, hb.group, by rw [hb.frame]; rfl⟩
end

/-! ## bru and loop (R326, R327) -/

theorem bru_moves {q : Reg8} {off : BitVec 22} {s : State} {g : GId} {t : TId} {ts : List TId} (h : Portion s g t ts (.bru q off)) :
    Effect (.bru q off) s (if readQ s g q then jumpOn s ts (targetOf s t off.toInt) else seqOn s ts) s.group := by
  have hq : readQ (ts.foldl noteIssue s) g q = readQ s g q := by rw [readQ, readQ, h.issued.group]
  refine h.effect rfl rfl ?_
  rw [hq, h.branchTarget_issued]
  cases readQ s g q
  case true => exact h.issued.jumpAll h.distinct _
  case false => exact h.issued.seqAll h.distinct

theorem loop_counts {c : Reg} {off : BitVec 19} {s : State} {g : GId} {t : TId} {ts : List TId} (h : Portion s g t ts (.loop c off)) :
    let n := readS s t c - 1
    Effect (.loop c off) s (if n ≠ 0 then jumpOn s ts (targetOf s t off.toInt) else seqOn s ts)
      (onlyG s g ((s.group g).withS c n)) := by
  intro n
  have hw := h.issued.writeS h.noted_outs c n
  refine h.effect rfl rfl ?_
  rw [h.readS_issued, h.branchTarget_issued]
  by_cases hn : n = 0
  · rw [if_neg (by simpa using hn), if_neg (by simpa [n] using hn)]
    exact hw.seqAll h.distinct
  · rw [if_pos hn, if_pos (by simpa [n] using hn)]
    exact hw.jumpAll h.distinct _

/-! ## nexttile (R328) -/

/-- The schedule table of a group's launch on its core. -/
def groupTable (s : State) (g : GId) : Schedule := Tbl.getD (s.core g.core).tables (s.group g).launch { entries := [] }
/-- A schedule table that has moved on takes its place. -/
def withTable (s : State) (g : GId) (y : Schedule) : State :=
  if groupTable s g = y then s else s.modCore g.core fun c => { c with tables := Tbl.put c.tables (s.group g).launch y }

theorem Schedule.take_entry {x : Schedule} {e : W32} (h : x.entries[x.cursor]? = some (some e)) :
    x.take = some (e, { x with cursor := x.cursor + 1 }) := by rw [Schedule.take, h]
theorem Schedule.take_end {x : Schedule} (h : x.entries.length ≤ x.cursor) : x.take = some (0xFFFFFFFF, x) := by
  rw [Schedule.take, List.getElem?_eq_none h]

theorem groupTable_withTable (s : State) (g : GId) (y : Schedule) :
    Tbl.getD ((withTable s g y).core g.core).tables (s.group g).launch { entries := [] } = y := by
  unfold withTable
  split
  · next h => exact h
  · simp
theorem withTable_mem (s : State) (g : GId) (y : Schedule) : (withTable s g y).mem = s.mem := by unfold withTable; split <;> rfl

section
variable {d : Reg} {s : State} {g : GId} {t : TId} {ts : List TId} (h : Portion s g t ts (.nexttile d))
include h

theorem Portion.groupTable_issued : groupTable (ts.foldl noteIssue s) g = groupTable s g := by
  rw [groupTable, h.issued.group, h.issued.frame]; rfl

theorem Portion.withTable_issued (y : Schedule) :
    Became (withTable s g y) (notedOn s ts) s.group (withTable (ts.foldl noteIssue s) g y) := by
  simp only [withTable, h.groupTable_issued, h.issued.group]
  split
  · exact h.issued
  · exact h.issued.modCore _ _

/-- `nexttile` writes what its table gives, and the table after it takes the table's place. -/
theorem nexttile_takes {e : W32} {y : Schedule} (hx : (groupTable s g).take = some (e, y)) :
    ∃ s₁ m pl, exec (.nexttile d) s = .next { s₁.setPmcs m with plan := pl } ∧
      Became (withTable s g y) (seqOn s ts) (onlyG s g ((s.group g).withS d (e.setWidth 64))) s₁ := by
  obtain ⟨m, pl, hm⟩ := h.next (s₁ := seqAll (writeS (withTable (ts.foldl noteIssue s) g y) g d (e.setWidth 64)) ts) rfl (by
    rw [← h.groupTable_issued, groupTable] at hx
    simp only [hx]; rfl)
  exact ⟨_, m, pl, hm, ((h.withTable_issued y).writeS h.noted_outs d _).seqAll h.distinct⟩
end

theorem nexttile_takesEntry : nexttileTakesEntry := by
  intro d s g t ts h l table
  constructor
  · intro e he
    obtain ⟨s₁, m, pl, hx, hb⟩ := nexttile_takes h (Schedule.take_entry (x := groupTable s g) he)
    refine ⟨_, hx, hb.group, ?_, hb.thread, ?_⟩
    · rw [hb.frame]; exact groupTable_withTable s g _
    · rw [hb.frame]; exact withTable_mem s g _
  · intro hend
    obtain ⟨s₁, m, pl, hx, hb⟩ := nexttile_takes h (Schedule.take_end (x := groupTable s g) hend)
    rw [withTable, if_pos rfl] at hb
    exact ⟨_, hx, hb.thread, hb.group, by rw [hb.frame]; rfl⟩

/-- Settles O28: a portion branches or goes on together, `loop` counts down once for it, and `nexttile` takes the entry at its
table's cursor or reads the end. -/
theorem uniformControl : Obligations.UniformControl :=
  ⟨⟨fun _ _ _ _ _ _ h => bru_moves h, fun _ _ _ _ _ _ h => loop_counts h⟩, nexttile_takesEntry⟩

end Sys2Proof.Machine
end

section
/-! SUPPORT. The trap of a portion (R198) and what a waking event can do to a thread (R155), for `trap` and `uint` (R332, R334). -/

namespace Sys2Proof.Machine

/-! ## A portion that takes a trap (R198) -/

/-- Each thread of a portion takes a trap of a word that has issued. -/
theorem issueTrap_foldl {g : GId} {cause : Nat} {info : W32} (hc : cause < 256) {ts : List TId} (hn : ts.Nodup) {s : State}
    (h : ∀ u ∈ ts, groupOf s u = g ∧ CanTrap s u ∧ (s.thread u).outs = []) :
    Became s (trapOn s g ts cause info) s.group (ts.foldl (fun s u => issueTrap s u cause info) s) := by
  induction ts generalizing s with
  | nil => exact ⟨fun _ => rfl, fun _ => rfl, rfl⟩
  | cons u us ih =>
    obtain ⟨hu, hus⟩ := List.nodup_cons.mp hn
    obtain ⟨hg, ⟨hvec, hact⟩, ho⟩ := h u List.mem_cons_self
    rw [List.foldl_cons, issueTrap_taken hvec hact ho hc, hg]
    let x : Thread := (s.thread u).counted.trapped (s.group g).trapvec cause info
    have hrest : ∀ v ∈ us, groupOf (s.setThread u x) v = g ∧ CanTrap (s.setThread u x) v ∧ ((s.setThread u x).thread v).outs = [] := by
      intro v hv
      have hne : v ≠ u := fun e => hu (e ▸ hv)
      have := h v (List.mem_cons_of_mem _ hv)
      unfold CanTrap at *
      rwa [State.setThread_thread_ne _ _ hne]
    obtain ⟨ht, hgr, hf⟩ := ih hus hrest
    refine ⟨fun v => (ht v).trans ?_, hgr, by rw [hf]; rfl⟩
    simp only [trapOn, List.mem_cons, State.setThread_thread]
    by_cases hv : v = u
    · subst hv; simp [hu, x]
    · simp [hv]

section
variable {i : Instr} {s : State} {g : GId} {t : TId} {ts : List TId} (h : Portion s g t ts i)
include h

/-- A word that stops for a trap, which the group's handler can take in every thread of the portion. -/
theorem Portion.traps {f : GId → TId → List TId → State → Except Stop State} {cause : Nat} {info : W32}
    (he : exec i s = groupExec i f s) (hf : f g t ts (ts.foldl noteIssue s) = .error (.trap cause info)) (hc : cause < 256)
    (hcan : ∀ u ∈ ts, CanTrap s u) : Effect i s (trapOn s g ts cause info) s.group := by
  obtain ⟨m, hm⟩ := counted_core s g.core 2 1
  have hb := issueTrap_foldl (s := s.setPmcs m) (g := g) (info := info) hc h.distinct
    fun u hu => ⟨(h.member u hu).1, hcan u hu, h.own hu⟩
  obtain ⟨pl, hpl⟩ := spendWalk_next (packEntry s) (ts.foldl (fun s u => issueTrap s u cause info) (s.setPmcs m))
  have hx : exec i s = spendWalk (packEntry s) (.next (ts.foldl (fun s u => issueTrap s u cause info) (s.setPmcs m))) := by
    rw [he, (groupExec_portion h).2 _ hf, ← hm]; rfl
  exact ⟨_, hx.trans hpl, hb.thread, hb.group, by rw [hb.frame]; rfl⟩
end

theorem trap_everyThread : trapEveryThread := fun _ _ _ _ _ h hcan => h.traps rfl rfl (by decide) hcan

/-! ## Waking events (R155) -/

/-- Threads may have ended their yield intervals, and cores may have begun to restart; all else is as before. -/
structure Roused (s s' : State) : Prop where
  thread : ∀ u, s'.thread u = s.thread u ∨ ((s.thread u).wait = .yield ∧ s'.thread u = endYield (s.thread u))
  frame : s' = { s with threads := s'.threads, cores := s'.cores }

theorem Roused.refl (s : State) : Roused s s := ⟨fun _ => .inl rfl, rfl⟩
theorem Roused.trans {s s' s'' : State} (h : Roused s s') (h' : Roused s' s'') : Roused s s'' where
  thread u := by
    rcases h'.thread u with e' | ⟨hw, e'⟩ <;> rw [e']
    · exact h.thread u
    · rcases h.thread u with e | ⟨-, e⟩
      · rw [e] at hw ⊢; exact .inr ⟨hw, rfl⟩
      · rw [e] at hw; cases hw
  frame := by rw [h'.frame, h.frame]
theorem Roused.foldl {α : Type} {f : State → α → State} (h : ∀ s a, Roused s (f s a)) (xs : List α) (s : State) :
    Roused s (xs.foldl f s) :=
  List.foldlRecOn (motive := Roused s) xs f (.refl s) fun _ hs a _ => hs.trans (h _ a)

theorem Roused.thread_eq {s s' : State} (h : Roused s s') {u : TId} (hw : (s.thread u).wait ≠ .yield) : s'.thread u = s.thread u :=
  (h.thread u).resolve_right fun hy => hw hy.1
theorem Roused.uint {s s' : State} (h : Roused s s') (u : TId) : (s'.thread u).uint = (s.thread u).uint := by
  rcases h.thread u with e | ⟨-, e⟩ <;> rw [e]; rfl
theorem Roused.bound {s s' : State} (h : Roused s s') (u : TId) : (s'.thread u).b = (s.thread u).b := by
  rcases h.thread u with e | ⟨-, e⟩ <;> rw [e]; rfl

/-- What a key reads in a table whose values have been changed one by one. -/
theorem Tbl.find_map {κ α : Type} [DecidableEq κ] (f : κ → α → α) (m : Tbl κ α) (x : κ) :
    Tbl.find (m.map fun p => (p.1, f p.1 p.2)) x = (Tbl.find m x).map (f x) := by
  induction m with
  | nil => rfl
  | cons p m ih =>
    obtain ⟨k, a⟩ := p
    by_cases hk : k = x
    · subst hk; simp [Tbl.find]
    · simpa [Tbl.find, hk] using ih

theorem wakeCore_roused (s : State) (c : Nat) : Roused s (wakeCore s c) := by
  let wake (u : TId) (x : Thread) : Thread := if u.core = c && x.wait == .yield && !interruptDue x then endYield x else x
  have hw : (fun p : TId × Thread => if p.1.core = c && p.2.wait == .yield && !interruptDue p.2 then (p.1, endYield p.2) else p) =
      fun p => (p.1, wake p.1 p.2) := by
    funext p; simp only [wake]; split <;> rfl
  have hthreads : (wakeCore s c).threads = s.threads.map fun p => (p.1, wake p.1 p.2) := by
    rw [← hw, wakeCore]; simp only; split <;> rfl
  constructor
  · intro u
    have hf : (wakeCore s c).thread u = ((Tbl.find s.threads u).map (wake u)).getD {} := by
      rw [State.thread, hthreads, Tbl.getD, Tbl.find_map]
    have hs : s.thread u = (Tbl.find s.threads u).getD {} := rfl
    rw [hf, hs]
    cases Tbl.find s.threads u with
    | none => exact .inl rfl
    | some x =>
      simp only [Option.map_some, Option.getD_some, wake]
      split
      · next hy => simp only [Bool.and_eq_true, beq_iff_eq] at hy; exact .inr ⟨hy.1.2, rfl⟩
      · exact .inl rfl
  · rw [wakeCore]; simp only; split <;> rfl

/-! ## uint (R334, R209) -/

theorem publishHeld_none {s : State} {c : Nat} (h : heldStores s c = []) : ∃ nar, publishHeld s c = s.setNarrow nar := by
  have hn (nar : List (Nat × TId × Sc)) : heldStores (s.setNarrow nar) c = [] := h
  unfold publishHeld
  split
  · exact ⟨s.narrow, by simp only [h]; rfl⟩
  · exact ⟨_, by simp only [show heldStores { s with narrow := s.narrow.filter fun e => e.2.1.core / 2 != c / 2 } c = [] from h]; rfl⟩

/-- A release beyond the cluster of threads that have nothing in their buffers, nor their cluster anything held back. -/
theorem releaseAll_none {c : Nat} {ts : List TId} {s : State} (hh : heldStores s c = [])
    (h : ∀ u ∈ ts, u.core = c ∧ (s.thread u).outs = [] ∧ (s.thread u).sb = []) :
    ∃ nar, releaseAll s ts true .dev = s.setNarrow nar := by
  have key (nar : List (Nat × TId × Sc)) (u : TId) (hu : u ∈ ts) :
      ∃ nar', releaseBefore (s.setNarrow nar) u .dev true = s.setNarrow nar' := by
    obtain ⟨hc, ho, hsb⟩ := h u hu
    obtain ⟨nar', hp⟩ := publishHeld_none (s := s.setNarrow nar) (c := u.core) (by rw [hc]; exact hh)
    have hsat : satisfyAll (s.setNarrow nar) u = s.setNarrow nar :=
      if_pos (by rw [show (s.setNarrow nar).thread u = s.thread u from rfl, ho]; rfl)
    have hs : (((s.setNarrow nar).setNarrow nar').thread u).sb = [] := hsb
    refine ⟨nar', ?_⟩
    simp only [releaseBefore, hsat, hp, if_true, publishAll, hs, publishN, List.length_nil, List.take_nil, List.any_nil,
      Bool.false_eq_true, if_false, sendN]
    rfl
  rw [releaseAll, if_pos rfl]
  exact List.foldlRecOn (motive := fun x => ∃ nar, x = s.setNarrow nar) ts _ ⟨s.narrow, rfl⟩
    fun x ⟨nar, hx⟩ u hu => by rw [hx]; exact key nar u hu

theorem Became.liveThreads {b s s' : State} {th : TId → Thread} (h : Became b th s.group s') (hl : ∀ u, (th u).live = (s.thread u).live)
    (g : GId) : liveThreads s' g = liveThreads s g := by
  simp only [Machine.liveThreads, groupThreads, h.group, h.thread, hl]

theorem foldl_modThread_groups {op : State → TId → State} {f : Thread → Thread} (hop : ∀ s u, op s u = s.modThread u f) (ts : List TId)
    (s : State) : (ts.foldl op s).groups = s.groups :=
  List.foldlRecOn (motive := fun x => x.groups = s.groups) ts op rfl fun x hx u _ => by rw [hop]; exact hx
theorem groupNamed_congr {s s' : State} (h : s'.groups = s.groups) (l team tgi : Nat) :
    groupNamed s' l team tgi = groupNamed s l team tgi := by rw [groupNamed, h]; rfl

theorem seqOn_live (s : State) (ts : List TId) (u : TId) : (seqOn s ts u).live = (s.thread u).live := by
  unfold seqOn; split <;> rfl
theorem seqOn_uint (s : State) (ts : List TId) (u : TId) : (seqOn s ts u).uint = (s.thread u).uint := by
  unfold seqOn; split <;> rfl

theorem raiseUint_isSome (u : Uint) (x : Thread) : (raiseUint u x).uint.isSome = true := rfl

/-- An interrupt at a group that stands is pending in its live threads, and a waking event of its core. -/
theorem raiseAt_named {b s s' : State} {th : TId → Thread} (hb : Became b th s.group s') (hl : ∀ u, (th u).live = (s.thread u).live)
    {l team tgi : Nat} {k : GId} (hk : groupNamed s' l team tgi = some k) (u : Uint) :
    ∃ s₂, Became b (fun v => if v ∈ liveThreads s k then raiseUint u (th v) else th v) s.group s₂ ∧
      Roused s₂ (raiseAt s' l team tgi u) := by
  rw [raiseAt, hk]
  simp only [hb.liveThreads hl]
  exact ⟨_, hb.foldl (op := fun s t => s.modThread t (raiseUint u)) (fun _ _ => rfl) (liveThreads_nodup s k), wakeCore_roused _ _⟩

theorem heldStores_issued {s : State} {c : Nat} {ts : List TId} (hheld : heldStores s c = []) (hsb : ∀ u ∈ ts, (s.thread u).sb = []) :
    heldStores (ts.foldl noteIssue s) c = [] := by
  refine (List.foldlRecOn (motive := fun x => heldStores x c = [] ∧ ∀ u ∈ ts, (x.thread u).sb = []) ts noteIssue ⟨hheld, hsb⟩
    fun x ⟨hx, hxs⟩ u hu => ⟨heldStores_setThread hx ?_, fun v hv => ?_⟩).1
  · change ∀ e ∈ (x.thread u).sb, e.held = none
    simp [hxs u hu]
  · rw [noteIssue, State.modThread_thread]
    split
    · exact hxs u hu
    · exact hxs v hv

section
variable {r : Reg} {s : State} {g : GId} {t : TId} {ts : List TId} (h : Portion s g t ts (.uint r))
include h

/-- The release of a portion that has nothing to publish changes nothing but what is narrow-held. -/
theorem Portion.uint_releases (hheld : heldStores s g.core = []) (hsb : ∀ u ∈ ts, (s.thread u).sb = []) :
    ∃ nar, releaseAll (ts.foldl noteIssue s) ts true .dev = (ts.foldl noteIssue s).setNarrow nar := by
  refine releaseAll_none (heldStores_issued hheld hsb) fun u hu => ?_
  rw [h.issued.thread, notedOn, if_pos hu]
  exact ⟨by rw [← groupOf_core s u, (h.member u hu).1], h.own hu, hsb u hu⟩

/-- Its interrupt is raised where the portion is at its next word. -/
theorem Portion.uint_runs {x : Nat} (hx : (readS s t r).toNat = x) (hrsvd : x / 2 ^ 48 = 0) (hheld : heldStores s g.core = [])
    (hsb : ∀ u ∈ ts, (s.thread u).sb = []) :
    ∃ b s₁, uintPortion r g t ts (ts.foldl noteIssue s) =
        .ok (raiseAt s₁ (s.group g).launch (x / 2 ^ 16 % 2 ^ 32) (x % 2 ^ 16) .program) ∧
      Became b (seqOn s ts) s.group s₁ ∧ s₁.groups = s.groups ∧ b.mem = s.mem := by
  obtain ⟨nar, hnar⟩ := h.uint_releases hheld hsb
  have hteam : bitsOf x 47 16 = x / 2 ^ 16 % 2 ^ 32 := rfl
  have htgi : bitsOf x 15 0 = x % 2 ^ 16 := by simp [bitsOf]
  obtain ⟨o, ho⟩ := carryMore_reordered ((ts.foldl noteIssue s).setNarrow nar)
    (.interrupt (s.group g).launch (bitsOf x 47 16) (bitsOf x 15 0)) (knownToAll ((ts.foldl noteIssue s).setNarrow nar) ts)
  have hb := h.issued
  have hgroup : (((ts.foldl noteIssue s).setNarrow nar).group g).launch = (s.group g).launch := congrArg Group.launch (hb.group g)
  have hr : Became ((s.setNarrow nar).setOrder o) (notedOn s ts) s.group (((ts.foldl noteIssue s).setNarrow nar).setOrder o) :=
    ⟨hb.thread, hb.group, by rw [hb.frame]; rfl⟩
  refine ⟨_, _, ?_, hr.seqAll h.distinct, ?_, rfl⟩
  · rw [uintPortion, h.readS_issued, hx, hnar]
    simp only [hgroup, ho, ← hteam, ← htgi]
    rw [if_neg (not_not_intro hrsvd), show ((((ts.foldl noteIssue s).setNarrow nar).setOrder o).group g).launch = _ from hgroup]
  · exact (foldl_modThread_groups (op := seqPc) (fun _ _ => rfl) ts _).trans
      (foldl_modThread_groups (op := noteIssue) (fun _ _ => rfl) ts s)
end

theorem uint_raised : userInterruptRaised := by
  intro r s g t ts h x
  constructor
  · intro hrsvd hcan
    refine h.traps rfl ?_ (by decide) hcan
    rw [uintPortion, h.readS_issued]
    exact if_pos hrsvd
  · intro k hrsvd hheld hsb hk
    obtain ⟨b, s₁, hok, hb, hgroups, hmem⟩ := h.uint_runs rfl hrsvd hheld hsb
    obtain ⟨s₂, hraised, hroused⟩ := raiseAt_named hb (seqOn_live s ts) ((groupNamed_congr hgroups ..).trans hk) .program
    obtain ⟨m, pl, hnext⟩ := h.next rfl hok
    refine ⟨_, hnext, fun u hu => ?pending, fun u hu => ?others, fun u hu => ?onward, ?memory, fun j => ?groups⟩
    case pending =>
      refine Option.isSome_iff_ne_none.mp ((congrArg Option.isSome (hroused.uint u)).trans ?_)
      rw [hraised.thread, if_pos hu]
      exact raiseUint_isSome ..
    case others =>
      refine (hroused.uint u).trans ?_
      rw [hraised.thread, if_neg hu, seqOn_uint]
    case onward =>
      have hpc : (s₂.thread u).pc = (s.thread u).pc + 4 ∧ (s₂.thread u).wait = (s.thread u).wait := by
        rw [hraised.thread, seqOn, if_pos hu]
        split <;> exact ⟨rfl, rfl⟩
      have hwait : (s₂.thread u).wait ≠ .yield := by rw [hpc.2, (h.member u hu).2.1]; exact Wait.noConfusion
      exact (congrArg Thread.pc (hroused.thread_eq hwait)).trans hpc.1
    case memory =>
      refine Eq.trans ?_ hmem
      rw [hroused.frame, hraised.frame]; rfl
    case groups =>
      refine Eq.trans ?_ (hraised.group j)
      rw [hroused.frame]; rfl

end Sys2Proof.Machine
end

section
/-! SUPPORT. `bkpt` (R333): its trap without a debugger, its halt and its event record with one, and `trap`, `bkpt` and `uint` together
for a host that returns nothing. -/

namespace Sys2Proof.Machine

/-! ## The halt of a scope (R155, R217) -/

/-- A debugger that has halted a scope. -/
def Debugger.halting (d : Debugger) (k : Halted) : Debugger :=
  if d.halted.contains k then d else { d with halted := d.halted ++ [k] }

theorem Debugger.halting_mem (d : Debugger) (k : Halted) : k ∈ (d.halting k).halted := by
  unfold Debugger.halting
  split
  · next h => exact List.contains_iff_mem.mp h
  · simp
theorem Debugger.halting_keeps (d : Debugger) (k : Halted) {j : Halted} (hj : j ∈ d.halted) : j ∈ (d.halting k).halted := by
  unfold Debugger.halting
  split
  · exact hj
  · exact List.mem_append_left _ hj
theorem Debugger.halting_events (d : Debugger) (k : Halted) : (d.halting k).events = d.events := by
  unfold Debugger.halting; split <;> rfl
theorem Debugger.halting_area (d : Debugger) (k : Halted) : (d.halting k).area = d.area := by
  unfold Debugger.halting; split <;> rfl

/-- The debugger of a partition has halted a scope. -/
def State.halting (s : State) (p : Nat) (k : Halted) : State :=
  s.modPart p fun x => { x with debugger := x.debugger.map (Debugger.halting · k) }

/-- A halt is a waking event of the scope's cores. -/
theorem haltScope_roused (s : State) (p : Nat) (k : Halted) : Roused (s.halting p k) (haltScope s p k) :=
  Roused.foldl wakeCore_roused _ _

theorem haltScope_debugger {s : State} {p : Nat} {d : Debugger} (hd : (s.part p).debugger = some d) (k : Halted) :
    ((haltScope s p k).part p).debugger = some (d.halting k) := by
  have hp : (haltScope s p k).parts = (s.halting p k).parts := by rw [(haltScope_roused s p k).frame]
  rw [State.part, hp]
  change ((s.halting p k).part p).debugger = _
  rw [State.halting, State.modPart_part_self, hd]; rfl

/-! ## The event record (R220) and its snoops (R395) -/

/-- The host returns nothing it may have modified in the step (log 56 gives its choice a free value). -/
def HostQuiet (tick : Nat) : Prop := ∀ line, Config.freeBit tick (2 ^ 67 + line) = false

/-- States that differ in what the host holds of the device's lines and in what has been sent alone. -/
def Snooped (s s' : State) : Prop := s' = { s with snoopFilter := s'.snoopFilter, outputs := s'.outputs }

theorem Snooped.refl (s : State) : Snooped s s := rfl
theorem Snooped.trans {s s' s'' : State} (h : Snooped s s') (h' : Snooped s' s'') : Snooped s s'' := by
  unfold Snooped at *
  rw [h', h]

theorem snoopWrite_quiet {s : State} (h : HostQuiet s.tick) (pa : Nat) : Snooped s (snoopWrite s pa) := by
  have hr : hostReturns s (pa / 128) = s := by rw [hostReturns, h]; rfl
  unfold snoopWrite
  split
  · exact .refl s
  · simp only [hr, ite_self]; rfl

theorem snoopWrites_quiet {s : State} (h : HostQuiet s.tick) (pa n : Nat) : Snooped s (snoopWrites s pa n) :=
  List.foldlRecOn (motive := Snooped s) _ _ (.refl s) fun x hx i _ => by
    have ht : x.tick = s.tick := by rw [hx]
    exact hx.trans (snoopWrite_quiet (ht ▸ h) _)

/-- Where the next event record of a debugger goes (R220). -/
def Debugger.recordAt (d : Debugger) : Nat := d.area + d.events % 64 * 64
theorem Debugger.halting_recordAt (d : Debugger) (k : Halted) : (d.halting k).recordAt = d.recordAt := by
  rw [recordAt, d.halting_area, d.halting_events]; rfl

/-- A vector raised is one output. -/
theorem raise_outputs (s : State) (port vector : Nat) : ∃ o, s.raise port vector = { s with outputs := o } := by
  unfold State.raise; split <;> exact ⟨_, rfl⟩

/-- A debugger of a partition has one event more. -/
def State.withEvent (s : State) (p : Nat) (d : Debugger) : State :=
  s.modPart p fun x => { x with debugger := some { d with events := d.events + 1 } }

section
variable {s : State} {p : Nat} {d : Debugger} (hd : (s.part p).debugger = some d) (e : DbgEvent)
include hd

/-- An event record touches threads and groups through the snoops of its bytes alone. -/
theorem debugEvent_written :
    ∃ m o, debugEvent s p e = { (((snoopWrites s d.recordAt 64).setMem m).withEvent p d) with outputs := o } := by
  have hx : ∃ m port, debugEvent s p e = (((snoopWrites s d.recordAt 64).setMem m).withEvent p d).raise port d.vector := by
    unfold debugEvent
    rw [hd]
    exact ⟨_, _, rfl⟩
  obtain ⟨m, port, hx⟩ := hx
  obtain ⟨o, ho⟩ := raise_outputs (((snoopWrites s d.recordAt 64).setMem m).withEvent p d) port d.vector
  exact ⟨m, o, hx.trans ho⟩

theorem debugEvent_thread (u : TId) : (debugEvent s p e).thread u = (snoopWrites s d.recordAt 64).thread u := by
  obtain ⟨m, o, h⟩ := debugEvent_written hd e
  rw [h]; rfl
theorem debugEvent_groups : (debugEvent s p e).groups = (snoopWrites s d.recordAt 64).groups := by
  obtain ⟨m, o, h⟩ := debugEvent_written hd e
  rw [h]; rfl
theorem debugEvent_debugger : ((debugEvent s p e).part p).debugger = some { d with events := d.events + 1 } := by
  obtain ⟨m, o, h⟩ := debugEvent_written hd e
  rw [h]
  change ((State.withEvent _ p d).part p).debugger = _
  rw [State.withEvent, State.modPart_part_self]
end

/-! ## The word (R333) -/

section
variable {imm : BitVec 16} {s : State} {g : GId} {t : TId} {ts : List TId} {p : Nat} (h : Portion s g t ts (.bkpt imm))
  (hp : partOfCore s g.core = some p)
include h hp

theorem Portion.part_issued : partOfCore (ts.foldl noteIssue s) g.core = some p := by
  rw [← hp, h.issued.frame]; rfl

/-- `bkpt` traps where no debugger is attached. -/
theorem bkpt_traps (hd : (s.part p).debugger = none) (hcan : ∀ u ∈ ts, CanTrap s u) :
    Effect (.bkpt imm) s (trapOn s g ts 0x0C 0) s.group := by
  have hnone : ((ts.foldl noteIssue s).part p).debugger = none := by rw [← hd, h.issued.frame]; rfl
  refine h.traps (f := bkptPortion imm) rfl ?_ (by decide) hcan
  rw [bkptPortion, h.part_issued hp]
  simp only [hnone]; rfl

/-- With a debugger, the portion is at its next word after the halt and its event record. -/
theorem bkpt_runs {d : Debugger} (hd : (s.part p).debugger = some d) :
    ∃ e m pl, exec (.bkpt imm) s = .next { (seqAll (debugEvent (haltScope (ts.foldl noteIssue s) p (haltScopeOf s d g)) p e) ts).setPmcs m
      with plan := pl } := by
  have hsome : ((ts.foldl noteIssue s).part p).debugger = some d := by rw [← hd, h.issued.frame]; rfl
  have hscope : haltScopeOf (ts.foldl noteIssue s) d g = haltScopeOf s d g := by simp only [haltScopeOf, h.issued.group]
  obtain ⟨m, pl, hx⟩ := h.next (f := bkptPortion imm) rfl (by
    rw [bkptPortion, h.part_issued hp]
    simp only [hsome, hscope]
    rfl)
  exact ⟨_, m, pl, hx⟩
end

theorem seqAll_became (s : State) {ts : List TId} (hn : ts.Nodup) :
    Became s (fun u => if u ∈ ts then (s.thread u).seq else s.thread u) s.group (seqAll s ts) :=
  Became.foldl (op := seqPc) (fun _ _ => rfl) ⟨fun _ => rfl, fun _ => rfl, rfl⟩ hn

/-- The state in which a portion's `bkpt` has halted a scope, before its event record: threads in no yield interval have at most
issued the word. -/
structure HaltedAt (s : State) (ts : List TId) (s₁ : State) : Prop where
  tick : s₁.tick = s.tick
  filter : s₁.snoopFilter = s.snoopFilter
  group : ∀ k, s₁.group k = s.group k
  thread : ∀ u, (s.thread u).wait ≠ .yield → s₁.thread u = notedOn s ts u

/-- What `bkpt` does with a debugger: the snoops of its event record come between the halt and the portion's next word. -/
theorem bkpt_halts {imm : BitVec 16} {s : State} {g : GId} {t : TId} {ts : List TId} {p : Nat} (h : Portion s g t ts (.bkpt imm))
    (hp : partOfCore s g.core = some p) {d : Debugger} (hd : (s.part p).debugger = some d) :
    ∃ s₁ s', exec (.bkpt imm) s = .next s' ∧ HaltedAt s ts s₁ ∧
      (s'.part p).debugger = some { d.halting (haltScopeOf s d g) with events := d.events + 1 } ∧
      (∀ u, s'.thread u = if u ∈ ts then ((snoopWrites s₁ d.recordAt 64).thread u).seq else (snoopWrites s₁ d.recordAt 64).thread u) ∧
      ∀ k, s'.group k = (snoopWrites s₁ d.recordAt 64).group k := by
  obtain ⟨e, m, pl, hx⟩ := bkpt_runs h hp hd
  let k := haltScopeOf s d g
  let s₁ := haltScope (ts.foldl noteIssue s) p k
  have hb := h.issued
  have hroused : Roused ((ts.foldl noteIssue s).halting p k) s₁ := haltScope_roused ..
  have hd₁ : (s₁.part p).debugger = some (d.halting k) := haltScope_debugger (by rw [← hd, hb.frame]; rfl) k
  have hseq := seqAll_became (debugEvent s₁ p e) h.distinct
  refine ⟨s₁, _, hx, ⟨?tick, ?filter, ?group, ?thread⟩, ?debugger, ?threads, ?groups⟩
  case tick => rw [hroused.frame, hb.frame]; rfl
  case filter => rw [hroused.frame, hb.frame]; rfl
  case group =>
    intro j
    rw [hroused.frame]
    exact hb.group j
  case thread =>
    intro u hu
    refine (hroused.thread_eq ?_).trans (hb.thread u)
    rw [show ((ts.foldl noteIssue s).halting p k).thread u = _ from hb.thread u, notedOn]
    split <;> exact hu
  case debugger =>
    have hpart : (seqAll (debugEvent s₁ p e) ts).parts = (debugEvent s₁ p e).parts := by rw [hseq.frame]
    have hevent := debugEvent_debugger hd₁ e
    rw [Debugger.halting_events] at hevent
    refine Eq.trans ?_ hevent
    rw [State.part, State.part, ← hpart]; rfl
  case threads =>
    intro u
    refine (hseq.thread u).trans ?_
    rw [debugEvent_thread hd₁, d.halting_recordAt]
  case groups =>
    intro j
    refine (hseq.group j).trans ?_
    rw [State.group, debugEvent_groups hd₁, d.halting_recordAt]; rfl

/-- R333, R155, for a step in which the host returns nothing: the event record then touches no thread. -/
theorem bkpt_halts_quiet {imm : BitVec 16} {s : State} {g : GId} {t : TId} {ts : List TId} {p : Nat} (h : Portion s g t ts (.bkpt imm))
    (hp : partOfCore s g.core = some p) {d : Debugger} (hd : (s.part p).debugger = some d) (hq : HostQuiet s.tick) :
    ∃ s' d', exec (.bkpt imm) s = .next s' ∧ (s'.part p).debugger = some d' ∧ d'.events = d.events + 1 ∧
      haltScopeOf s d g ∈ d'.halted ∧ (∀ k ∈ d.halted, k ∈ d'.halted) ∧
      (∀ u, (s.thread u).wait ≠ .yield → s'.thread u = seqOn s ts u) ∧ ∀ k, s'.group k = s.group k := by
  obtain ⟨s₁, s', hx, h₁, hdebugger, hthread, hgroup⟩ := bkpt_halts h hp hd
  have hw : Snooped s₁ (snoopWrites s₁ d.recordAt 64) := snoopWrites_quiet (h₁.tick ▸ hq) _ _
  refine ⟨s', _, hx, hdebugger, rfl, d.halting_mem _, fun k hk => d.halting_keeps _ hk, fun u hu => ?_, fun k => ?_⟩
  · have hu₁ : (snoopWrites s₁ d.recordAt 64).thread u = notedOn s ts u := by rw [hw]; exact h₁.thread u hu
    rw [hthread, hu₁, notedOn, seqOn]
    split <;> rfl
  · rw [hgroup, hw]; exact h₁.group k

/-- R332 to R334, were the host to return nothing in any step. -/
theorem systemTraps_of_quiet (hq : ∀ n, HostQuiet n) : Obligations.SystemTraps := by
  refine ⟨trap_everyThread, fun imm s g t ts p h hp => ⟨fun hd hcan => bkpt_traps h hp hd hcan, fun d hd => ?_⟩, uint_raised⟩
  obtain ⟨s', d', hrest⟩ := bkpt_halts_quiet h hp hd (hq s.tick)
  exact ⟨s', d', hrest⟩

end Sys2Proof.Machine
end

section
/-! SUPPORT. Why O29 is unsettled: what a host returns beside an event record marks bindings, and whether it returns anything is a free
value of the model. -/

namespace Sys2Proof.Machine

/-! ## Marks that the host's values set (R135, R395) -/

/-- A binding as it was, or marked changed. -/
def Remarked (b c : Bound) : Prop := c = b ∨ c = { b with changed := true }

theorem Remarked.trans {a b c : Bound} (h : Remarked a b) (h' : Remarked b c) : Remarked a c := by
  rcases h' with rfl | rfl
  · exact h
  · exact .inr (by rcases h with rfl | rfl <;> rfl)
theorem Remarked.watches {b c : Bound} (h : Remarked b c) (word : Nat) : watches c word = watches b word := by
  rcases h with rfl | rfl <;> rfl
theorem Remarked.changed {b c : Bound} (h : Remarked b c) (hb : b.changed = true) : c.changed = true := by
  rcases h with rfl | rfl
  · exact hb
  · rfl

/-- Bindings have been marked, at most. -/
def Marking (s s' : State) : Prop := ∀ u k, Remarked ((s.thread u).b.get k) ((s'.thread u).b.get k)

theorem Marking.refl (s : State) : Marking s s := fun _ _ => .inl rfl
theorem Marking.trans {s s' s'' : State} (h : Marking s s') (h' : Marking s' s'') : Marking s s'' :=
  fun u k => (h u k).trans (h' u k)

theorem foldl_marking {α : Type} {op : State → α → State} (hop : ∀ s a, Marking s (op s a)) (xs : List α) (s : State) :
    Marking s (xs.foldl op s) :=
  List.foldlRecOn (motive := Marking s) xs op (.refl s) fun _ hs a _ => hs.trans (hop _ a)

/-- A binding is marked where one of many operations that mark bindings marks it. -/
theorem foldl_marks {α : Type} {op : State → α → State} (hop : ∀ s a, Marking s (op s a)) {xs : List α} {a : α} (ha : a ∈ xs)
    {s : State} {u : TId} {k : Reg8} (h : ∀ s', Marking s s' → (((op s' a).thread u).b.get k).changed = true) :
    (((xs.foldl op s).thread u).b.get k).changed = true := by
  obtain ⟨l, r, rfl⟩ := List.append_of_mem ha
  rw [List.foldl_append, List.foldl_cons]
  exact (foldl_marking hop r _ u k).changed (h _ (foldl_marking hop l s))

theorem bound_get (v : Vector Bound 8) (k : Reg8) : v.get k = v[k.val] := rfl

theorem markThread_get (x : Thread) (word : Nat) (k : Reg8) :
    (markThread x word none).b.get k = if watches (x.b.get k) word then { x.b.get k with changed := true } else x.b.get k := by
  have hskip (i : Nat) : (!((none : Option Reg8).map Fin.val == some i)) = true := rfl
  rw [bound_get, bound_get, markThread]
  simp only [Vector.getElem_mapIdx, hskip, Bool.and_true]

theorem marksThread_of_watches {x : Thread} {word : Nat} {k : Reg8} (h : watches (x.b.get k) word = true) :
    marksThread x word none = true := by
  refine List.any_eq_true.mpr ⟨k.val, List.mem_range.mpr k.isLt, ?_⟩
  have hk : x.b.getD k.val {} = x.b.get k := by
    rw [bound_get]
    simp only [Vector.getD, BitVec.ofNat_eq_ofNat, Array.getD_eq_getD_getElem?, Vector.size_toArray, Fin.is_lt, getElem?_pos,
      Vector.getElem_toArray, Option.getD_some]
  rw [hk, h]; rfl

/-- The bindings of a word marked in one thread, by a store of no partition. -/
def markIn (word : Nat) (s : State) (u : TId) : State :=
  if marksThread (s.thread u) word none then
    wakeCore (countCore (s.modThread u (markThread · word none)) u.core 11 (newMarks (s.thread u) word none)) u.core
  else s

theorem markWord_eq_foldl (s : State) (word : Nat) : markWord s none word none = (s.threads.map Prod.fst).foldl (markIn word) s := by
  rw [markWord, List.foldl_map]
  simp [markIn]

theorem markIn_bound (word : Nat) (s : State) (u v : TId) : ((markIn word s u).thread v).b =
    if marksThread (s.thread u) word none ∧ v = u then (markThread (s.thread u) word none).b else (s.thread v).b := by
  unfold markIn
  split
  · next hm =>
    obtain ⟨m, hcount⟩ := counted_core (s.modThread u (markThread · word none)) u.core 11 (newMarks (s.thread u) word none)
    rw [(wakeCore_roused _ _).bound, hcount, State.setPmcs_thread_at, State.modThread_thread]
    simp only [hm, true_and]
    split <;> rfl
  · next hm => simp [hm]

theorem markIn_marking (word : Nat) (s : State) (u : TId) : Marking s (markIn word s u) := by
  intro v k
  rw [markIn_bound]
  split
  · next h =>
    rw [markThread_get, h.2]
    split
    · exact .inr rfl
    · exact .inl rfl
  · exact .inl rfl

theorem markIn_marks {word : Nat} {s : State} {u : TId} {k : Reg8} (h : watches ((s.thread u).b.get k) word = true) :
    (((markIn word s u).thread u).b.get k).changed = true := by
  rw [markIn_bound, if_pos ⟨marksThread_of_watches h, rfl⟩, markThread_get, if_pos h]

/-- A thread with a bound register is one that the state lists. -/
theorem mem_threads_of_watches {s : State} {u : TId} {k : Reg8} {word : Nat} (h : watches ((s.thread u).b.get k) word = true) :
    u ∈ s.threads.map Prod.fst := by
  cases hf : Tbl.find s.threads u with
  | some x => exact List.mem_map.mpr ⟨_, Tbl.mem_of_find hf, rfl⟩
  | none =>
    have hu : s.thread u = {} := by rw [State.thread, Tbl.getD, hf]; rfl
    rw [hu, watches, free_bound] at h
    cases h

theorem markWord_marking (s : State) (word : Nat) : Marking s (markWord s none word none) := by
  rw [markWord_eq_foldl]
  exact foldl_marking (markIn_marking word) _ _

theorem markWord_marks {s : State} {word : Nat} {u : TId} {k : Reg8} (h : watches ((s.thread u).b.get k) word = true) :
    (((markWord s none word none).thread u).b.get k).changed = true := by
  rw [markWord_eq_foldl]
  exact foldl_marks (markIn_marking word) (mem_threads_of_watches h) fun s' hs => markIn_marks (by rw [(hs u k).watches, h])

theorem markBytes_marks {s : State} {pa n word : Nat} {u : TId} {k : Reg8} (h : watches ((s.thread u).b.get k) word = true)
    (hlo : pa / 4 ≤ word) (hhi : word < (pa + n + 3) / 4) : (((markBytes s none pa n none).thread u).b.get k).changed = true := by
  refine foldl_marks (fun s i => markWord_marking s (pa / 4 + i)) (a := word - pa / 4) (List.mem_range.mpr (by omega)) fun s' hs => ?_
  refine markWord_marks ?_
  rw [(hs u k).watches, show pa / 4 + (word - pa / 4) = word by omega, h]

theorem hostReturns_marks {s : State} {line word : Nat} {u : TId} {k : Reg8} (hr : Config.freeBit s.tick (2 ^ 67 + line) = true)
    (h : watches ((s.thread u).b.get k) word = true) (hw : word / 32 = line) :
    (((hostReturns s line).thread u).b.get k).changed = true := by
  have hx : ∃ m, hostReturns s line = markBytes (s.setMem m) none (line * 128) 128 none := by
    unfold hostReturns
    rw [hr]
    exact ⟨_, rfl⟩
  obtain ⟨m, hm⟩ := hx
  rw [hm]
  exact markBytes_marks (s := s.setMem m) h (by omega) (by omega)

/-- Where the host returns a line that it may have modified, an event record in that line marks the bindings of its words. -/
theorem snoopWrites_marks {s : State} {line word : Nat} {u : TId} {k : Reg8} (hf : Tbl.find s.snoopFilter line = some true)
    (hr : Config.freeBit s.tick (2 ^ 67 + line) = true) (h : watches ((s.thread u).b.get k) word = true) (hw : word / 32 = line) :
    (((snoopWrites s (line * 128) 64).thread u).b.get k).changed = true := by
  have hrange : List.range ((line * 128 + 64 + 127) / 128 - line * 128 / 128) = [0] := by
    rw [show (line * 128 + 64 + 127) / 128 - line * 128 / 128 = 1 by omega]; rfl
  have hpa : (line * 128 / 128 + 0) * 128 / 128 = line := by omega
  have hone : (snoopWrites s (line * 128) 64).threads = (hostReturns s line).threads := by
    rw [snoopWrites, hrange, List.foldl_cons, List.foldl_nil, snoopWrite, hpa, hf]
    simp only [if_true, State.emit]
  rw [State.thread, hone]
  exact hostReturns_marks hr h hw

/-! ## A step in which the host returns a bound word -/

/-- A thread of another core, with a register bound to a word of a line. -/
def farT : TId := ⟨2, 0, 0⟩
def farThread (line : Nat) : Thread := { b := ({} : Thread).b.set 1 { bound := true, pa := line * 128, va := 0 } }
theorem farThread_bound (line : Nat) : (farThread line).b.get 1 = { bound := true, pa := line * 128, va := 0 } := rfl
/-- Two threads issue a `bkpt` under a debugger whose event records go to a line that the host may have modified. -/
def recorded (n line : Nat) : State :=
  { duo with
    tick := n
    snoopFilter := [(line, true)]
    parts := [(0, { part0 with debugger := some { debugger0 .group with area := line * 128 } })]
    threads := duo.threads ++ [(farT, farThread line)] }

theorem recorded_portion (n line : Nat) (i : Instr) : Portion (recorded n line) g0 t0 [t0, t1] i := by
  have hd : Stands duo g0 t0 [t0, t1] := by decide +kernel
  obtain ⟨hpack, hfirst, hdistinct, hmember⟩ := hd
  have hduo : ∀ p ∈ duo.threads, p.2.outs = [] := by decide +kernel
  have houts (u : TId) : ((recorded n line).thread u).outs = [] := by
    refine each_thread (fun _ x => x.outs = []) (fun _ => rfl) (fun p hp => ?_) u
    rcases List.mem_append.mp hp with hp | hp
    · exact hduo p hp
    · rw [List.mem_singleton.mp hp]; rfl
  refine portion_of (s := recorded n line) ⟨hpack, hfirst, hdistinct, fun u hu => ?_⟩ i
  have ht : (recorded n line).thread u = duo.thread u := by
    rcases List.mem_cons.mp hu with rfl | hu
    · rfl
    · rw [List.mem_singleton.mp hu]; rfl
  obtain ⟨hgroup, hwait, hsnap, -, -, hpoison, hgpoison⟩ := hmember u hu
  exact ⟨hgroup, ht ▸ hwait, ht ▸ hsnap, houts u, fun v _ => houts v, ht ▸ hpoison, hgpoison⟩

/-- Were the host to return a modified line in some step, a binding of a word beside the event record would be marked. -/
theorem hostQuiet_of_systemTraps (h : Obligations.SystemTraps) (n : Nat) : HostQuiet n := by
  intro line
  rw [Bool.eq_false_iff]
  intro hr
  obtain ⟨-, hbkpt, -⟩ := h
  have hp : partOfCore (recorded n line) g0.core = some 0 := rfl
  have hd : ((recorded n line).part 0).debugger = some { debugger0 .group with area := line * 128 } := rfl
  obtain ⟨s', d', hx, -, -, -, -, hthread, -⟩ := (hbkpt 0 _ _ _ _ _ (recorded_portion n line _) hp).2 _ hd
  obtain ⟨s₁, s'', hx', h₁, -, hthread', -⟩ := bkpt_halts (recorded_portion n line _) hp hd
  obtain rfl : s' = s'' := by rw [hx] at hx'; injection hx'
  have hfar : (recorded n line).thread farT = farThread line := rfl
  have hidle : ((recorded n line).thread farT).wait ≠ .yield := by rw [hfar]; exact Wait.noConfusion
  have hout : farT ∉ [t0, t1] := by decide
  have hsame : s'.thread farT = farThread line := by rw [hthread _ hidle, seqOn, if_neg hout, hfar]
  have hb₁ : s₁.thread farT = farThread line := by rw [h₁.thread _ hidle, notedOn, if_neg hout, hfar]
  have hword : watches ((s₁.thread farT).b.get 1) (line * 32) = true := by
    rw [hb₁, farThread_bound]
    exact beq_iff_eq.mpr (show line * 128 / 4 = line * 32 by omega)
  have hheld : Tbl.find s₁.snoopFilter line = some true := by rw [h₁.filter]; simp [recorded, Tbl.find]
  have hmarks := snoopWrites_marks hheld (by rw [h₁.tick]; exact hr) hword (by omega)
  have hchanged : ((s'.thread farT).b.get 1).changed = true := by
    rw [hthread', if_neg hout]; exact hmarks
  rw [hsame, farThread_bound] at hchanged
  cases hchanged

/-- O29 is not settled: it holds exactly if the host returns nothing in any step, and the model leaves that to `Config.freeBit`, an
opaque constant of which neither is provable. What fails it otherwise is the event record of `bkpt`: where the host may have modified
its line (R395), what the host returns marks the bindings of that line (R135) in threads that the statement wants as before. -/
theorem systemTraps_iff_hostQuiet : Obligations.SystemTraps ↔ ∀ n, HostQuiet n :=
  ⟨hostQuiet_of_systemTraps, systemTraps_of_quiet⟩

end Sys2Proof.Machine
end

section
/-! SUPPORT. The entries of a context (R353, R354): `tidget` and `tidset`. -/

namespace Sys2Proof.Machine

theorem tidEntry_eq_tensorOf (s : State) (g : GId) (k : Reg) : tidEntry s g k = tensorOf s g k := rfl

theorem tensorOf_congr {s s' : State} {g : GId} (hc : s'.ctxs = s.ctxs) (hg : s'.group g = s.group g) (k : Reg) :
    tensorOf s' g k = tensorOf s g k := by
  simp only [tensorOf, State.ctx, hc, hg]

theorem entry_get_set (v : Vector W64 4) (i j : Reg4) (x : W64) : (v.set i.val x i.isLt).get j = if j = i then x else v.get j := by
  change (v.set i.val x i.isLt)[j.val] = if j = i then x else v[j.val]
  rw [Vector.getElem_set]
  simp only [Fin.val_inj, eq_comm]

/-- A word of an entry set, and every other word as before. -/
theorem tensorOf_setTid (s : State) (g : GId) (k k' : Reg) (w w' : Reg4) (x : W64) :
    (tensorOf (setTid s g k w x) g k').get w' = if k' = k ∧ w' = w then tidMask w.val x else (tensorOf s g k').get w' := by
  have hctx : ((setTid s g k w x).ctx (s.group g).ctx).tid =
      Tbl.put (s.ctx (s.group g).ctx).tid k.val ((tensorOf s g k).set w.val (tidMask w.val x) w.isLt) :=
    congrArg Ctx.tid (State.setCtx_ctx_self ..)
  rw [tensorOf, show (setTid s g k w x).group g = s.group g from rfl, hctx, Tbl.getD_put]
  by_cases hk : k' = k
  · subst hk
    rw [if_pos rfl]
    simp only [entry_get_set, true_and]
  · rw [if_neg (fun e => hk (Fin.ext e)), if_neg fun e => hk e.1]; rfl

theorem setTid_ctx_ne (s : State) (g : GId) (k : Reg) (w : Reg4) (x : W64) {c : Nat} (h : c ≠ (s.group g).ctx) :
    (setTid s g k w x).ctx c = s.ctx c := State.setCtx_ctx_ne s _ h

theorem Became.setCtx {b s : State} {th : TId → Thread} {gr : GId → Group} (h : Became b th gr s) (c : Nat) (x : Ctx) :
    Became (b.setCtx c x) th gr (s.setCtx c x) where
  thread := h.thread
  group := h.group
  frame := by rw [h.frame]; rfl

theorem Portion.ctxs_issued {i : Instr} {s : State} {g : GId} {t : TId} {ts : List TId} (h : Portion s g t ts i) :
    (ts.foldl noteIssue s).ctxs = s.ctxs := by rw [h.issued.frame]

theorem Portion.setTid_issued {i : Instr} {s : State} {g : GId} {t : TId} {ts : List TId} (h : Portion s g t ts i) (k : Reg) (w : Reg4)
    (x : W64) : Became (setTid s g k w x) (notedOn s ts) s.group (setTid (ts.foldl noteIssue s) g k w x) := by
  have hctx (c : Nat) : (ts.foldl noteIssue s).ctx c = s.ctx c := by rw [State.ctx, State.ctx, h.ctxs_issued]
  simp only [setTid, ctxOf, tidEntry_eq_tensorOf, tensorOf_congr h.ctxs_issued (h.issued.group g), h.issued.group, hctx]
  exact h.issued.setCtx _ _

/-- R353: `tidget` reads a word of an entry. -/
theorem tidget_gives (x k : Reg) (w : Reg4) : GivesS (.tidget x k w) x fun s t => (tensorOf s (groupOf s t) k).get w := by
  intro s g t ts h
  have hgroup : groupOf (ts.foldl noteIssue s) t = groupOf s t := by simp only [groupOf, h.issued.group]
  refine h.effect rfl rfl ?_
  simp only [hgroup, tidEntry_eq_tensorOf]
  rw [tensorOf_congr h.ctxs_issued (h.issued.group _)]
  exact (h.issued.writeS h.noted_outs x _).seqAll h.distinct

/-- R353, R354: `tidget` reads and `tidset` writes one word of an entry. -/
theorem tensorEntries_hold : tensorEntries := by
  refine ⟨tidget_gives, fun k w x s g t ts h => ?_⟩
  let s₁ := seqAll (setTid (ts.foldl noteIssue s) g k w (readS s t x)) ts
  have hb : Became (setTid s g k w (readS s t x)) (seqOn s ts) s.group s₁ := (h.setTid_issued k w _).seqAll h.distinct
  obtain ⟨m, pl, hx⟩ := h.next (s₁ := s₁) rfl (by simp only [h.readS_issued]; rfl)
  have hctxs : s₁.ctxs = (setTid s g k w (readS s t x)).ctxs := by rw [hb.frame]
  have hgroups : s₁.groups = s.groups :=
    (foldl_modThread_groups (op := seqPc) (fun _ _ => rfl) ts _).trans
      (foldl_modThread_groups (op := noteIssue) (fun _ _ => rfl) ts s)
  refine ⟨_, hx, hb.thread, hgroups, fun k' w' => ?entry, fun c hc => ?others, ?frame⟩
  case entry =>
    refine (congrArg (·.get w') (tensorOf_congr (s := setTid s g k w (readS s t x)) hctxs (hb.group g) k')).trans ?_
    exact tensorOf_setTid ..
  case others => exact (congrArg (fun x : Tbl Nat Ctx => Tbl.getD x c {}) hctxs).trans (setTid_ctx_ne s g k w (readS s t x) hc)
  case frame => rw [hb.frame, hgroups]; rfl

end Sys2Proof.Machine
end

section
/-! SUPPORT. The issue of a collective of a group for words that act on its threads once (R52, R53): it may wait for room. -/

namespace Sys2Proof.Machine

/-! ## Threads listed with the stores that they hold -/

/-- Every thread has the stores in its buffer that it had, and every listing of a thread is an old one or has those stores. -/
structure SameStores (s s' : State) : Prop where
  thread : ∀ u, (s'.thread u).sb = (s.thread u).sb
  listed : ∀ p ∈ s'.threads, p ∈ s.threads ∨ p.2.sb = (s.thread p.1).sb

theorem SameStores.trans {s s' s'' : State} (h : SameStores s s') (h' : SameStores s' s'') : SameStores s s'' where
  thread u := (h'.thread u).trans (h.thread u)
  listed p hp := by
    rcases h'.listed p hp with hp | hp
    · exact h.listed p hp
    · exact .inr (hp.trans (h.thread p.1))

theorem SameStores.congr {s s' s'' : State} (h : SameStores s s') (ht : s''.threads = s'.threads) : SameStores s s'' where
  thread u := by rw [State.thread, ht]; exact h.thread u
  listed p hp := h.listed p (ht ▸ hp)

theorem SameStores.modThread {s s' : State} (h : SameStores s s') (u : TId) {f : Thread → Thread} (hf : ∀ x, (f x).sb = x.sb) :
    SameStores s (s'.modThread u f) := by
  refine h.trans ⟨fun v => ?_, fun p hp => ?_⟩
  · rw [State.modThread_thread]
    split
    · next hv => rw [hv, hf]
    · rfl
  · rcases Tbl.mem_put hp with rfl | hp
    · exact .inr (hf _)
    · exact .inl hp

theorem SameStores.foldl {op : State → TId → State} {f : Thread → Thread} (hf : ∀ x, (f x).sb = x.sb)
    (hop : ∀ s u, ∃ m, op s u = (s.setPmcs m).modThread u f) (ts : List TId) (s : State) : SameStores s (ts.foldl op s) :=
  List.foldlRecOn (motive := SameStores s) ts op ⟨fun _ => rfl, fun _ => .inl⟩ fun s' hs u _ => by
    obtain ⟨m, hm⟩ := hop s' u
    rw [hm]
    exact SameStores.modThread (s' := s'.setPmcs m) ⟨hs.thread, hs.listed⟩ u hf

/-- A cluster that holds no store back holds none after it (R131). -/
theorem SameStores.heldStores {s s' : State} (h : SameStores s s') {c : Nat} (hc : heldStores s c = []) : heldStores s' c = [] := by
  rw [heldStores_eq_nil_iff]
  intro p hp hcore
  rcases h.listed p hp with hp | hp
  · exact (heldStores_eq_nil_iff s c).mp hc p hp hcore
  · rw [hp]; exact held_of_heldStores hc hcore

theorem gatheredState_stores (i : Instr) (s : State) : SameStores s (gatheredState i s) := by
  have hcount : Counted s (if kindOf i == .lane then countPack s (packThreads s) else s) := by
    split
    · exact counted_pack ..
    · exact .refl s
  obtain ⟨m, hm⟩ := hcount
  rw [gatheredState, hm]
  have hf (x : Thread) : (Thread.arrived .group x).sb = x.sb := by unfold Thread.arrived; split <;> rfl
  have h := SameStores.foldl hf (fun s' u => arrive_eq i .group s' u) (packThreads s) (s.setPmcs m)
  exact ⟨h.thread, h.listed⟩

/-! ## A group that waits at one collective -/

section
variable {s : State} {g : GId} {i : Instr} {f : GId → TId → List TId → State → Except Stop State} {u : TId} {us : List TId}

/-- Where the whole group waits, any thread of it that is looked at makes the collective run (R53). -/
theorem Waiting.settle1_eq (h : Waiting s g i) (hl : liveThreads s g = u :: us) {t : TId} (ht : t ∈ u :: us) :
    settle1 i .group f t s = collRun i f u (u :: us) s := by
  have ht' : t ∈ liveThreads s g := hl ▸ ht
  have hd : domainThreads s .group t = u :: us := by rw [domainThreads, (h.member t ht').1]; exact hl
  have hall : (u :: us).all (fun v => (s.thread v).wait == .collective .group) = true := by
    rw [List.all_eq_true]; intro v hv; simp [h.wait v (hl ▸ hv)]
  have hpc : samePc s t (u :: us) = true := samePc_of fun v hv => h.together v (hl ▸ hv) t ht'
  simp [settle1, h.wait t ht', h.noConflict ht', hd, hall, hpc, domainSpilled]

/-- A collective that need not wait for room runs in the state in which every wait has ended. -/
theorem Waiting.collRun_next (h : Waiting s g i) (hl : liveThreads s g = u :: us) (hq : queueWaits i s u = false) {s₁ : State}
    (h₁ : f g u (u :: us) ((u :: us).foldl (fun s u => noteOuts (endWait s u) u) s) = .ok s₁) :
    ∃ m, collRun i f u (u :: us) s = .next (s₁.setPmcs m) := by
  have hm := h.member
  rw [hl] at hm
  obtain ⟨hg, hready⟩ := hm u (by simp)
  have hsat : (u :: us).foldl (fun s v => satisfyBefore s v i (srcsOf i)) s = s :=
    satisfyAllBefore_none fun v hv => (hm v hv).2.own
  have hheld : (u :: us).any (fun v => heldUniform s v i) = false := by
    rw [List.any_eq_false]; intro v hv; simp [heldUniform_none (i := i) (hm v hv).2.others]
  have hbad : (u :: us).any (fun v => laneBad s v (srcsOf i)) = false := by
    rw [List.any_eq_false]; intro v hv; simp [(hm v hv).2.lane]
  obtain ⟨m, hcount⟩ := counted_core s₁ g.core 2 1
  have hrun : collRun i f u (u :: us) s = .next (if kindOf i == .lane then s₁ else countCore s₁ g.core 2 1) := by
    simp only [collRun, hsat, hq, hheld, hready.group, hbad, hg, h₁, Bool.or_false, Bool.false_eq_true, if_false]
  rw [hrun]
  split
  · exact ⟨s₁.pmcs, rfl⟩
  · exact ⟨m, by rw [hcount]⟩
end

/-! ## The state in which the waits of a group have ended -/

/-- Threads whose waits have ended; the others are as before. -/
def freedOn (s : State) (ts : List TId) (v : TId) : Thread := if v ∈ ts then (s.thread v).free else s.thread v

section
variable (s : State) (ts : List TId) (u : TId)

theorem freedOn_wait {w : Wait} (hw : (freedOn s ts u).wait = w) (hn : w ≠ .none) : (s.thread u).wait = w := by
  unfold freedOn at hw
  split at hw
  · exact absurd hw.symm hn
  · exact hw
theorem freedOn_regs : SameRegs (s.thread u) (freedOn s ts u) := by unfold freedOn; split <;> rfl
theorem freedOn_bound : (freedOn s ts u).b = (s.thread u).b := by rw [freedOn_regs s ts u]
theorem freedOn_outs : (freedOn s ts u).outs = (s.thread u).outs := by rw [freedOn_regs s ts u]
theorem freedOn_struck : (freedOn s ts u).struck = (s.thread u).struck := by rw [freedOn_regs s ts u]
theorem freedOn_pc : (freedOn s ts u).pc = (s.thread u).pc := by rw [freedOn_regs s ts u]
end

/-! ## Threads of a group that meet -/

section
variable {s : State} {t : TId} {ts : List TId} {i : Instr} (h : Meets s .group t ts i)
include h

theorem Meets.first_mem : t ∈ ts := List.mem_of_head? h.first
theorem Meets.live_eq : liveThreads s (groupOf s t) = ts := (h.domain t h.first_mem).1
theorem Meets.group_eq {u : TId} (hu : u ∈ ts) : groupOf s u = groupOf s t := h.one (by decide) u hu

/-- Where no arriving thread is marked as gone past its loads, every thread of the group waits once all have arrived. -/
theorem Meets.waiting_all (hb : ∀ u ∈ packThreads s, (s.thread u).beyond = false) : Waiting (gatheredState i s) (groupOf s t) i := by
  obtain ⟨hs, ht⟩ := gatheredState_threads (i := i) hb
  have hr := gatheredState_regs (i := i) hb
  have hpc (v : TId) : ((gatheredState i s).thread v).pc = (s.thread v).pc := by rw [hr v]
  constructor
  · rw [hs.group]; exact (h.own t h.first_mem).2
  all_goals rw [liveThreads_congr hs hr, h.live_eq]
  · intro u hu
    rw [ht u]
    split
    · rfl
    · next hn => exact (h.waiting u hu).resolve_left hn
  · intro u hu v hv
    rw [hpc, hpc, h.together u hu, h.together v hv]
  · intro u hu
    rw [hs.groupOf]
    exact ⟨h.group_eq hu, (h.ready u hu).congr hs hr⟩

/-- A collective that need not wait for room: its effect is taken once, in the state in which every wait has ended. -/
theorem Meets.collExec_next {f : GId → TId → List TId → State → Except Stop State}
    (hb : ∀ u ∈ packThreads s, (s.thread u).beyond = false) (hq : ∀ s', SameBut s s' → queueWaits i s' t = false) :
    ∃ s₀, SameBut s s₀ ∧ SameStores s s₀ ∧ (∀ v, s₀.thread v = freedOn s ts v) ∧
      ∀ s₁, f (groupOf s t) t ts s₀ = .ok s₁ → (∀ v ∈ ts, (s₁.thread v).wait = .none) →
        ∃ m pl, collExec i .group anyGroup f s = .next { s₁.setPmcs m with plan := pl } := by
  obtain ⟨hs, ht⟩ := gatheredState_threads (i := i) hb
  have hw := h.waiting_all hb
  have hl : liveThreads (gatheredState i s) (groupOf s t) = ts :=
    (liveThreads_congr hs (gatheredState_regs hb) _).trans h.live_eq
  obtain ⟨us, rfl⟩ : ∃ us, ts = t :: us := List.head?_eq_some_iff.mp h.first
  obtain ⟨v, vs, hp⟩ := List.exists_cons_of_ne_nil h.some'
  obtain ⟨hc, hct⟩ := foldl_modThread_nodup (s := gatheredState i s) (G := fun _ => Thread.called)
    (fun s' u _ => called_eq s' u) h.distinct
  have hstores : SameStores s ((t :: us).foldl (fun s u => noteOuts (endWait s u) u) (gatheredState i s)) :=
    (gatheredState_stores i s).trans (.foldl (f := Thread.called) (fun _ => rfl) (fun s' u => called_eq s' u) _ _)
  refine ⟨_, hs.trans hc, hstores, fun v => ?_, fun s₁ h₁ hn => ?_⟩
  · rw [hct v, freedOn]
    split
    · next hv =>
      have hv' := hl ▸ hv
      rw [called_of_waiting (hw.wait v hv') (hw.member v hv').2.own, ht v]
      split <;> rfl
    · next hv => rw [ht v, if_neg fun hp => hv (h.arriving v hp)]
  · obtain ⟨m, hrun⟩ := hw.collRun_next hl (hq _ hs) h₁
    have hfirst : settle1 i .group f v (gatheredState i s) = .next (s₁.setPmcs m) :=
      (hw.settle1_eq hl (h.arriving v (by simp [hp]))).trans hrun
    have hrest : settleAll i .group f vs (s₁.setPmcs m) = .next (s₁.setPmcs m) :=
      settleAll_done fun u hu => by
        rw [State.setPmcs_thread_at, hn u (h.arriving u (by simp [hp, hu]))]; simp
    have e : collExec i .group anyGroup f s = spendWalk (packEntry (if kindOf i == .lane then countPack s (packThreads s) else s))
        (settleAll i .group f (v :: vs) (gatheredState i s)) := by
      simp only [collExec, gatheredState, hp]
    rw [e, settleAll, hfirst]
    simp only [hrest]
    exact ⟨m, spendWalk_next _ _⟩
end

end Sys2Proof.Machine
end

section
/-! SUPPORT. A barrier's record that expects more bytes, where nobody waits at it and nothing watches it (R367, R370). -/

namespace Sys2Proof.Machine

/-! ## Numbers in memory -/

theorem readBytes_congr {m m' : List Host.Cell} {a n : Nat} (h : ∀ b, a ≤ b → b < a + n → readCell m' b = readCell m b) :
    readBytes m' a n = readBytes m a n := by
  induction n generalizing a with
  | zero => rfl
  | succ n ih =>
    rw [readBytes, readBytes, h a (by omega) (by omega), ih fun b hb hn => h b (by omega) (by omega)]

/-- A number outside a write reads as before. -/
theorem readLE_writeLE_ne {m : List Host.Cell} {a n b k : Nat} (x : Nat) (h : Memory.wf m = true) (hb : b + k ≤ a ∨ a + n ≤ b) :
    readLE (writeLE m a n x) b k = readLE m b k :=
  congrArg ofBytes (readBytes_congr fun c hc hk => readCell_writeBytes_ne _ h (by rw [toBytes_length]; omega))

/-! ## A write at home that nothing watches (R118, R119) -/

/-- Only memory, what is cached of it and its stamps, and the records' bytes may have changed. -/
def AtHome (s s' : State) : Prop :=
  s' = { s with mem := s'.mem, poison := s'.poison, spadStamps := s'.spadStamps, lines := s'.lines, bars := s'.bars }

theorem AtHome.thread {s s' : State} (h : AtHome s s') (u : TId) : s'.thread u = s.thread u := by rw [h]; rfl
theorem AtHome.spilled {s s' : State} (h : AtHome s s') : spilledThreads s' = spilledThreads s := by rw [h]; rfl

/-- A line that the host does not hold is not snooped (R395). -/
theorem snoopWrite_none {s : State} {pa : Nat} (h : Tbl.find s.snoopFilter (pa / 128) = none) : snoopWrite s pa = s := by
  rw [snoopWrite, h]
theorem snoopWrites_none {s : State} {pa n : Nat} (h : Tbl.find s.snoopFilter (pa / 128) = none) (hn : pa % 128 + n ≤ 128) :
    snoopWrites s pa n = s := by
  refine foldl_eq_self fun i hi => snoopWrite_none ?_
  have hi' := List.mem_range.mp hi
  rw [show (pa / 128 + i) * 128 / 128 = pa / 128 by omega]
  exact h

theorem homeWrite_unwatched {s : State} {pa : Nat} {bs : List Byte} {ty : MemTy} (hty : ty = .wb ∨ ty = .spad)
    (hback : Tbl.find s.snoopFilter (pa / 128) = none) (hn : pa % 128 + bs.length ≤ 128) (hu : Unwatched s pa bs.length)
    (part : Option Nat) :
    AtHome s (homeWrite s part pa bs ty false none) ∧ (homeWrite s part pa bs ty false none).mem = writeBytes s.mem pa bs ∧
      (homeWrite s part pa bs ty false none).bars = s.bars := by
  unfold homeWrite
  rw [snoopWrites_none hback hn]
  rcases hty with rfl | rfl
  · have hmark (x : State) (hx : ∀ v, x.thread v = s.thread v) : markBytes x part pa bs.length none = x :=
      markBytes_unwatched (s := x) (fun v => by rw [hx v]; exact hu v) part none _
    simp only
    rw [hmark]
    · exact ⟨rfl, rfl, rfl⟩
    · exact fun _ => rfl
  · refine List.foldlRecOn (motive := fun x => AtHome s x ∧ x.mem = writeBytes s.mem pa bs ∧ x.bars = s.bars) _ _ ⟨rfl, rfl, rfl⟩ ?_
    rintro x ⟨hx, hm, hb⟩ i -
    exact ⟨by rw [hx]; rfl, hm, hb⟩

/-! ## The update of a record (R367) -/

/-- Where no thread waits at a barrier, nothing happens to any as it is updated. -/
theorem wakeBar_none {s : State} {pa : Nat} (hwait : ∀ u a q, (s.thread u).wait = .barrier a q → a ≠ pa)
    (haway : ∀ p ∈ spilledThreads s, ∀ a q, p.2.wait = .barrier a q → a ≠ pa) : wakeBar s pa = s := by
  have hin (r : BarRec) : (s.threads.map Prod.fst).foldl (wakeBarThread pa r) s = s := by
    refine foldl_eq_self fun u _ => ?_
    unfold wakeBarThread
    split
    · next a q hw => exact if_pos (hwait u a q hw)
    · rfl
  have hout (r : BarRec) : ((spilledThreads s).filter fun p => wakeBarSpilled pa r p.2 != p.2) = [] := by
    rw [List.filter_eq_nil_iff]
    intro p hp
    have hp' : wakeBarSpilled pa r p.2 = p.2 := by
      unfold wakeBarSpilled
      split
      · next a q hw => exact if_pos (by simp [haway p hp a q hw])
      · rfl
    simp [hp']
  simp only [wakeBar, hin, hout, List.isEmpty_nil, if_true]

theorem readBar_pend {s : State} {pa : Nat} (h : barOpen s pa = false) : (readBar s pa).pend = readLE s.mem pa 4 := by
  rw [readBar, h]; rfl

/-- The fields of a record are defined after an update that keeps its bytes, or where nothing has initialised it. -/
theorem barOpen_keepBar {s : State} {pa : Nat} {defined : Bool} (h : defined = Tbl.has s.bars pa) :
    barOpen (keepBar s pa defined) pa = false := by
  subst h
  rw [barOpen, keepBar]
  cases hb : Tbl.find s.bars pa with
  | none => simp [Tbl.has, hb]
  | some bs => simp [Tbl.has, hb]

theorem keepBar_atHome {b s : State} (h : AtHome b s) (pa : Nat) (defined : Bool) :
    AtHome b (keepBar s pa defined) ∧ (keepBar s pa defined).mem = s.mem := by
  cases defined
  · exact ⟨h, rfl⟩
  · exact ⟨by rw [h]; rfl, rfl⟩

/-- An update that sets no ERR, completes no phase and writes no FLAGS: its words, and no more. -/
theorem updateBar_moves {s : State} {b : BarPlace} {words : List Nat} {sets : BarRec → Bool} {f : BarRec → BarRec} {r : BarRec}
    (hback : Tbl.find s.snoopFilter (b.pa / 128) = none) (hopen : barOpen s b.pa = false) (hsets : sets (readBar s b.pa) = false)
    (hf : f (readBar s b.pa) = r) (hr : completes r = false) (hwords : words.contains 2 = false) :
    updateBar s b words sets f = wakeBar (keepBar (words.foldl (putBarWord b r) s) b.pa (Tbl.has s.bars b.pa)) b.pa := by
  simp only [updateBar, snoopWrite_none hback, hsets, hf, hr, hopen, hwords, Bool.not_false, Bool.and_true, Bool.or_false,
    Bool.false_eq_true, if_false]

section
variable {s : State} {b : BarPlace} {p l n f : Nat} (hbar : BarIs s b.pa p l n f)
include hbar

/-- A record that goes on expecting bytes: one number of it changes. -/
theorem barExpect_eq {k : Nat} (hback : Tbl.find s.snoopFilter (b.pa / 128) = none) (hlt : p + k < 2 ^ 32) (hne : p + k ≠ 0) :
    barExpect s b k = wakeBar (keepBar (homeWrite s b.part b.pa (toBytes 4 (p + k)) b.ty false none) b.pa (Tbl.has s.bars b.pa)) b.pa := by
  have hpend : (readBar s b.pa).pend = p := (readBar_pend hbar.defined).trans hbar.pend
  refine updateBar_moves (r := { readBar s b.pa with pend := p + k }) hback hbar.defined ?_ ?_ ?_ rfl
  · rw [hpend]; exact decide_eq_false (by omega)
  · rw [hpend, Nat.mod_eq_of_lt hlt]
  · simp only [completes, beq_eq_false_iff_ne.mpr hne, Bool.and_false, Bool.false_and]

/-- R370: the record expects more bytes, and only its bytes change. -/
theorem barExpect_raises {k : Nat} (hty : b.ty = .wb ∨ b.ty = .spad) (hal : b.pa % 16 = 0)
    (hback : Tbl.find s.snoopFilter (b.pa / 128) = none) (hu : Unwatched s b.pa 16)
    (hwait : ∀ u a q, (s.thread u).wait = .barrier a q → a ≠ b.pa)
    (haway : ∀ p ∈ spilledThreads s, ∀ a q, p.2.wait = .barrier a q → a ≠ b.pa) (hwf : Memory.wf s.mem = true)
    (hlt : p + k < 2 ^ 32) (hne : p + k ≠ 0) :
    AtHome s (barExpect s b k) ∧ BarIs (barExpect s b k) b.pa (p + k) l n f ∧
      ∀ a, a < b.pa ∨ b.pa + 9 ≤ a → readCell (barExpect s b k).mem a = readCell s.mem a := by
  have hu4 : Unwatched s b.pa (toBytes 4 (p + k)).length := by
    intro u j hj
    have := hu u j hj
    simp only [overlaps, toBytes_length, Bool.and_eq_false_iff, decide_eq_false_iff_not] at this ⊢
    omega
  obtain ⟨hhome, hmem, hbars⟩ := homeWrite_unwatched hty hback (by rw [toBytes_length]; omega) hu4 b.part
  obtain ⟨hkept, hkmem⟩ := keepBar_atHome hhome b.pa (Tbl.has s.bars b.pa)
  rw [barExpect_eq hbar hback hlt hne, wakeBar_none (fun u => by rw [hkept.thread]; exact hwait u) (by rw [hkept.spilled]; exact haway)]
  have hm : (keepBar (homeWrite s b.part b.pa (toBytes 4 (p + k)) b.ty false none) b.pa (Tbl.has s.bars b.pa)).mem =
      writeLE s.mem b.pa 4 (p + k) := hkmem.trans hmem
  refine ⟨hkept, ⟨?pend, ?left, ?init, ?flags, barOpen_keepBar (by rw [hbars])⟩, fun a ha => ?_⟩
  all_goals rw [hm]
  case pend => rw [readLE_writeLE _ _ _ hwf]; exact Nat.mod_eq_of_lt hlt
  case left => rw [readLE_writeLE_ne _ hwf (by omega), hbar.left]
  case init => rw [readLE_writeLE_ne _ hwf (by omega), hbar.init]
  case flags => rw [readLE_writeLE_ne _ hwf (by omega), hbar.flags]
  · exact readCell_writeBytes_ne _ hwf (by rw [toBytes_length]; omega)
end

end Sys2Proof.Machine
end

section
/-! SUPPORT. The issue of the tile words (R355, R361). -/

namespace Sys2Proof.Machine

/-! ## The barrier that a word reaches (R355) -/

/-- Where an access reaches its address, it does so in a state that differs in its threads alone, if its thread has been struck by no
other soft error. -/
theorem Reaches.reach_eq {s s' : State} {t : TId} {va : W64} {k : Access} {pa : Nat} {ty : MemTy} (h : Reaches s t va k pa ty)
    (hs : SameBut s s') (hstruck : (s'.thread t).struck = (s.thread t).struck) (hw : s.plan.headD .now ≠ .walk) :
    reach s' t va k = .ok (pa, ty) := by
  have hi : Machine.issuerOf s' (Machine.groupOf s' t) = Machine.issuerOf s (Machine.groupOf s t) := by
    rw [hs.groupOf, hs.issuerOf]
  have hn : needsWalk s' t va.toNat = false := by
    have hplan : walksNext s' = false := by rw [walksNext, hs]; simpa using hw
    simp [needsWalk, hplan]
  have hm : reachMem s' t va k = .ok (pa, ty) := by simp [reachMem, hn, hi, hs.translate, h.xlat]
  have hdown : peerDown s' (Machine.issuerOf s (Machine.groupOf s t)).part pa = false := by rw [← h.up, hs]; rfl
  have hrefuse : peerRefuses s' (Machine.issuerOf s (Machine.groupOf s t)).part pa = false := by rw [← h.accepts, hs]; rfl
  have hp : peerStop s' (Machine.issuerOf s (Machine.groupOf s t)) t.core va.toNat pa 1 k = none := by
    simp only [peerStop, hdown, hrefuse, Bool.false_eq_true, if_false, ite_self]
  have hl : lostStop s' (Machine.issuerOf s (Machine.groupOf s t)) va.toNat pa k = none := by rw [← h.answers, hs]; rfl
  have hg : gatedTarget s' t.core pa = none := by rw [← h.open', hs]; rfl
  have hk : struckStop s' t (Machine.issuerOf s (Machine.groupOf s t)) va.toNat pa k = none := by
    have hsound := h.sound
    rw [← hstruck] at hsound
    rw [struckStop]
    cases hline : (s'.thread t).struck with
    | none => rfl
    | some line => rw [hline, ne_eq, Option.some.injEq] at hsound; simp [hsound]
  simp only [reach, hm, hi, hp, hl, hk, hg]; rfl

theorem ReachesBar.reachBar_eq {s s' : State} {t : TId} {va : W64} {pa : Nat} {ty : MemTy} (h : ReachesBar s t va pa ty)
    (hs : SameBut s s') (hstruck : (s'.thread t).struck = (s.thread t).struck) :
    reachBar s' t va = .ok ⟨pa, ty, partOfCore s' t.core⟩ := by
  have hal : misaligned va 16 = false := by simp [misaligned, h.aligned.1]
  have hty : (ty == .wb || ty == .spad) = true := by rcases h.kind with rfl | rfl <;> rfl
  rw [reachBar, hal, if_neg Bool.false_ne_true, h.at'.reach_eq hs hstruck h.now]
  exact if_pos hty

/-! ## A release of engine work with nothing to publish (R138) -/

theorem publishHeld_quiet {s : State} {c : Nat} (h : heldStores s c = []) (hn : ∀ e ∈ s.narrow, e.2.1.core / 2 ≠ c / 2) :
    publishHeld s c = s := by
  have hkeep : (s.narrow.filter fun e => e.2.1.core / 2 != c / 2) = s.narrow := by
    rw [List.filter_eq_self]; intro e he; simpa using hn e he
  have hcut : (if s.narrow.isEmpty then s else { s with narrow := s.narrow.filter fun e => e.2.1.core / 2 != c / 2 }) = s := by
    rw [hkeep]; split <;> rfl
  rw [publishHeld, hcut, h]

theorem releaseBefore_quiet {s : State} {t : TId} (hh : heldStores s t.core = []) (hn : ∀ e ∈ s.narrow, e.2.1.core / 2 ≠ t.core / 2)
    (ho : (s.thread t).outs = []) (hsb : (s.thread t).sb = []) : releaseBefore s t .dev true = s := by
  have hsat : satisfyAll s t = s := if_pos (by rw [ho]; rfl)
  simp only [releaseBefore, hsat, publishHeld_quiet hh hn, if_true, publishAll, hsb, publishN, List.length_nil, List.take_nil,
    List.any_nil, Bool.false_eq_true, if_false, sendN]

theorem engineRelease_quiet {s : State} {c : Nat} {ts : List TId} (hh : heldStores s c = [])
    (hn : ∀ e ∈ s.narrow, e.2.1.core / 2 ≠ c / 2) (h : ∀ u ∈ ts, u.core = c ∧ (s.thread u).outs = [] ∧ (s.thread u).sb = [])
    (pa : Nat) : Reordered s (engineRelease s pa ts) := by
  have hrel : ts.foldl (fun s t => releaseBefore s t .dev true) s = s := by
    refine foldl_eq_self fun u hu => ?_
    obtain ⟨rfl, ho, hsb⟩ := h u hu
    exact releaseBefore_quiet hh hn ho hsb
  rw [engineRelease, hrel]
  exact carryMore_reordered ..

/-! ## The operation that a tile word starts -/

/-- The operation of a tile word, its entries read as it executes (R354). -/
def tileOpOf (s : State) (g : GId) (t : TId) (kind : TileKind) (d a b : Reg) (pa : Nat) : TileOp :=
  { kind := kind, dst := tensorOf s g d, srcA := tensorOf s g a, srcB := tensorOf s g b, bar := pa, nbv1 := (s.group g).nbv1
    pc := (s.thread t).pc }

/-- A group whose sequencer has an operation before it. -/
def Group.tiling (y : Group) (o : TileOp) : Group := { y with tile := some o, stepNo := 0, busy := true }

/-- The sequencer of a group takes an operation; `tgemm` is matrix work of its cluster (R414). -/
def startTile (s : State) (g : GId) (o : TileOp) : State :=
  (if o.kind == .gemm then noteMatrix s g.core else s).modGroup g (·.tiling o)

theorem tileColl_accepts {kind : TileKind} {d a b : Reg} {bar : Fin 16} {la : La} {g : GId} {t : TId} {ts : List TId} {s : State}
    {p : BarPlace} (hp : reachBar s t (readS s t (highReg bar)) = .ok p)
    (hgemm : kind = .gemm → (s.group g).width ≠ 16 ∧ (s.group g).accCount ≠ 0) (hok : tileOk (tileOpOf s g t kind d a b p.pa) = true) :
    let o := tileOpOf s g t kind d a b p.pa
    tileColl kind d a b bar la g t ts s =
      .ok (seqAll (awaitAccept (engineRelease (startTile (barExpect (popPlan s) p (tileTotal o)) g o) p.pa ts) g ts la) ts) := by
  have hundef : (kind == .gemm && ((s.group g).width == 16 || (s.group g).accCount == 0)) = false := by
    cases hk : kind == .gemm
    · rfl
    · obtain ⟨hw, hc⟩ := hgemm (by simpa using hk)
      simp [hw, hc]
  have htid : (!tileOk (tileOpOf s g t kind d a b p.pa)) = false := by rw [hok]; rfl
  rw [tileColl, hp]
  exact (if_neg (Bool.eq_false_iff.mp hundef)).trans (if_neg (Bool.eq_false_iff.mp htid))

/-- A `tgemm` is accepted at once where every operation of the quarters has been performed (R357). -/
theorem gemmQueued_performed {x : Group} (h : ∀ q ∈ x.mq, ∀ op ∈ q.2, op.performed = true) : gemmQueued x = false := by
  have hall (q : Nat) : allPerformed x q = true := by
    rw [allPerformed, queueOf, Tbl.getD, List.all_eq_true]
    cases hq : Tbl.find x.mq q with
    | none => simp
    | some ops => exact h _ (Tbl.mem_of_find hq)
  rw [gemmQueued, List.any_eq_false]
  intro q _
  simp [hall]

theorem awaitAccept_performed {s : State} {g : GId} (h : ∀ q ∈ (s.group g).mq, ∀ op ∈ q.2, op.performed = true)
    (ts : List TId) (la : La) : awaitAccept s g ts la = s := if_neg (by rw [gemmQueued_performed h]; simp)

end Sys2Proof.Machine
end

section
/-! SUPPORT. The tile words (R355, R361): what their issue does where no arriving thread is marked as gone past its loads, and why the
statement about every group that meets fails. -/

namespace Sys2Proof.Machine

/-! ## A barrier that has been set -/

/-- Beside what `SetsBar` gives, nothing but these fields has changed. -/
def BarFrame (s s' : State) : Prop :=
  s' = { s with mem := s'.mem, poison := s'.poison, spadStamps := s'.spadStamps, threads := s'.threads, groups := s'.groups
                pmcs := s'.pmcs, clusters := s'.clusters, plan := s'.plan, lines := s'.lines, bars := s'.bars, order := s'.order }

theorem BarFrame.trans {s s' s'' : State} (h : BarFrame s s') (h' : BarFrame s' s'') : BarFrame s s'' := by
  unfold BarFrame at *
  rw [h', h]
theorem SameBut.barFrame {s s' : State} (h : SameBut s s') : BarFrame s s' := by rw [h]; rfl
theorem AtHome.barFrame {s s' : State} (h : AtHome s s') : BarFrame s s' := by rw [h]; rfl
theorem Reordered.barFrame {s s' : State} (h : Reordered s s') : BarFrame s s' := by rw [h.frame]; rfl

/-- A record is as its bytes, and the bytes kept of it, say. -/
theorem BarIs.congr {s s' : State} {pa p l n f : Nat} (h : BarIs s pa p l n f) (hm : s'.mem = s.mem) (hb : s'.bars = s.bars) :
    BarIs s' pa p l n f := by
  obtain ⟨hp, hl, hn, hf, ho⟩ := h
  rw [← hm] at hp hl hn hf
  exact ⟨hp, hl, hn, hf, by rw [barOpen, hm, hb]; exact ho⟩

/-- Threads have become what `th` gives and groups what `gr` gives, and the barrier at `pa` holds the given fields. -/
structure BarSet (s : State) (th : TId → Thread) (gr : GId → Group) (pa p l n f : Nat) (s' : State) : Prop where
  thread : ∀ u, s'.thread u = th u
  group : ∀ g, s'.group g = gr g
  bar : BarIs s' pa p l n f
  rest : ∀ a, a < pa ∨ pa + 9 ≤ a → readCell s'.mem a = readCell s.mem a
  frame : BarFrame s s'

/-- A thread that goes on after the collective for which it waited. -/
theorem Thread.free_seq (x : Thread) : x.free.seq = x.released := rfl

section
variable {s s₁ : State} {th : TId → Thread} {gr : GId → Group} {pa p l n f : Nat}

theorem BarSet.reordered (h : BarSet s th gr pa p l n f s₁) {s₂ : State} (ho : Reordered s₁ s₂) : BarSet s th gr pa p l n f s₂ where
  thread u := (ho.thread u).trans (h.thread u)
  group g := (ho.group g).trans (h.group g)
  bar := h.bar.congr ho.mem (by rw [ho.frame])
  rest a ha := by rw [ho.mem]; exact h.rest a ha
  frame := h.frame.trans ho.barFrame

/-- Threads whose waits have ended go on to the word after the collective. -/
theorem BarSet.released {ts : List TId} (h : BarSet s (freedOn s ts) gr pa p l n f s₁) (hn : ts.Nodup) :
    BarSet s (metOn s ts s.thread) gr pa p l n f (seqAll s₁ ts) := by
  obtain ⟨hs, ht⟩ := foldl_modThread_nodup (op := seqPc) (G := fun _ => Thread.seq) (s := s₁) (fun s' u _ => ⟨s'.pmcs, rfl⟩) hn
  refine ⟨fun v => ?_, fun g => (hs.group g).trans (h.group g), h.bar.congr (by rw [seqAll, hs]) (by rw [seqAll, hs]), fun a ha => ?_,
    h.frame.trans hs.barFrame⟩
  · rw [seqAll, ht, h.thread, metOn, freedOn]
    split
    · exact Thread.free_seq _
    · rfl
  · rw [seqAll, hs]; exact h.rest a ha

theorem BarSet.setsBar {i : Instr} (h : BarSet s th gr pa p l n f s₁) {m : Tbl Nat (Vector W64 16)} {pl : List Delay}
    (hx : exec i s = .next { s₁.setPmcs m with plan := pl }) : SetsBar i s th gr pa p l n f := fun _ =>
  ⟨_, hx, h.thread, h.group, h.bar.congr rfl rfl, h.rest, h.frame.trans (s' := s₁) rfl⟩
end

/-! ## The start of an operation -/

section
variable (s : State) (g : GId) (o : TileOp)

theorem startTile_barFrame : BarFrame s (startTile s g o) := by unfold startTile; split <;> rfl
theorem startTile_threads : (startTile s g o).threads = s.threads := by unfold startTile; split <;> rfl
theorem startTile_mem : (startTile s g o).mem = s.mem := by unfold startTile; split <;> rfl
theorem startTile_bars : (startTile s g o).bars = s.bars := by unfold startTile; split <;> rfl
theorem startTile_group (h : GId) : (startTile s g o).group h = onlyG s g ((s.group g).tiling o) h := by
  unfold startTile onlyG
  split <;> exact State.modGroup_group ..
end

theorem BarSet.startTile {s s₁ : State} {th : TId → Thread} {pa p l n f : Nat} (h : BarSet s th s.group pa p l n f s₁) (g : GId)
    (o : TileOp) :
    BarSet s th (onlyG s g ((s.group g).tiling o)) pa p l n f (startTile s₁ g o) where
  thread u := by rw [State.thread, startTile_threads]; exact h.thread u
  group k := by rw [startTile_group]; simp only [onlyG, h.group]
  bar := h.bar.congr (startTile_mem ..) (startTile_bars ..)
  rest a ha := by rw [startTile_mem]; exact h.rest a ha
  frame := h.frame.trans (startTile_barFrame ..)

/-! ## A tile word's operands where the waits of its group have ended -/

section
variable {s s₀ : State} {t : TId} {ts : List TId} (hs : SameBut s s₀) (ht : ∀ v, s₀.thread v = freedOn s ts v)
include hs ht

theorem Ready.readS_freed {i : Instr} (hr : Ready s t i) (r : Reg) : readS s₀ t r = readS s t r := by
  have hx : SameRegs (s.thread t) (s₀.thread t) := ht t ▸ freedOn_regs s ts t
  rw [readS_plain (by rw [hx]; exact hr.fresh) (by rw [hx]; exact hr.own), readS_plain hr.fresh hr.own, hs.groupOf, hs.group]

theorem tileOpOf_freed (g : GId) (kind : TileKind) (d a b : Reg) (pa : Nat) :
    tileOpOf s₀ g t kind d a b pa = tileOpOf s g t kind d a b pa := by
  have hctxs : s₀.ctxs = s.ctxs := by rw [hs]
  simp only [tileOpOf, tensorOf_congr hctxs (hs.group g), hs.group, ht, freedOn_pc]

/-- The barrier of a word of the group expects more bytes. -/
theorem barExpect_freed {va : W64} {pa p l n f k : Nat} {ty : MemTy} (hr : ReachesBar s t va pa ty) (hbar : BarIs s pa p l n f)
    (hwf : Memory.wf s.mem = true) (hlt : p + k < 2 ^ 32) (hne : p + k ≠ 0) (part : Option Nat) :
    BarSet s (freedOn s ts) s.group pa (p + k) l n f (barExpect (popPlan s₀) ⟨pa, ty, part⟩ k) ∧
      (barExpect (popPlan s₀) ⟨pa, ty, part⟩ k).threads = s₀.threads := by
  obtain ⟨pl, hpl⟩ := popPlan_plan s₀
  have hmem : (popPlan s₀).mem = s.mem := by rw [hpl, hs]
  have hthread (u : TId) : (popPlan s₀).thread u = freedOn s ts u := by rw [hpl]; exact ht u
  obtain ⟨hhome, hset, hrest⟩ := barExpect_raises (s := popPlan s₀) (b := ⟨pa, ty, part⟩) (hbar.congr hmem (by rw [hpl, hs]))
    hr.kind hr.aligned.2 (by rw [hpl, hs]; exact hr.at'.back) (fun u j => by rw [hthread, freedOn_bound]; exact hr.unwatched u j)
    (fun u a q hw => hr.quiet u a q (freedOn_wait s ts u (hthread u ▸ hw) Wait.noConfusion))
    (fun x hx => hr.away x (by rw [hpl, hs] at hx; exact hx)) (hmem ▸ hwf) hlt hne
  have hplan : BarFrame s₀ (popPlan s₀) := by rw [hpl]; rfl
  refine ⟨⟨fun u => (hhome.thread u).trans (hthread u), fun g => ?_, hset, fun a ha => (hrest a ha).trans (by rw [hmem]), ?_⟩, ?_⟩
  · rw [hhome, hpl, hs]; rfl
  · exact (hs.barFrame.trans hplan).trans hhome.barFrame
  · rw [hhome, hpl]
end

/-- A group that meets with nothing to publish releases nothing as its engine's work issues (R138). -/
theorem Meets.release_quiet {s s₁ : State} {t : TId} {ts : List TId} {i : Instr} (h : Meets s .group t ts i)
    (hst : Stored s (groupOf s t).core ts) (hstores : SameStores s s₁) (hn : s₁.narrow = s.narrow)
    (ho : ∀ u ∈ ts, (s₁.thread u).outs = (s.thread u).outs) (pa : Nat) : Reordered s₁ (engineRelease s₁ pa ts) := by
  obtain ⟨hsb, hheld, hlines⟩ := hst
  refine engineRelease_quiet (hstores.heldStores hheld) (by rw [hn]; exact hlines) (fun u hu => ⟨?_, ?_, ?_⟩) pa
  · rw [← groupOf_core s u, h.group_eq hu]
  · rw [ho u hu]; exact (h.ready u hu).own
  · rw [hstores.thread]; exact hsb u hu

/-! ## The issue of a tile word -/

/-- R355, R361: a tile word of a group in which no arriving thread is marked as gone past its loads. -/
theorem tileWord_sets {s : State} {t : TId} {ts : List TId} {i : Instr} {pa p l n f : Nat} {ty : MemTy} {bar : Fin 16} {la : La}
    {kind : TileKind} {d a b : Reg} (hi : ∀ s, exec i s = collExec i .group anyGroup (tileColl kind d a b bar la) s)
    (hq : ∀ s t, queueWaits i s t = (s.group (groupOf s t)).busy)
    (h : Meets s .group t ts i) (hb : ∀ u ∈ packThreads s, (s.thread u).beyond = false)
    (hr : ReachesBar s t (readS s t (highReg bar)) pa ty) (hbar : BarIs s pa p l n f) :
    let g := groupOf s t
    let o := tileOpOf s g t kind d a b pa
    (s.group g).busy = false → tileOk o = true → (kind = .gemm → (s.group g).width ≠ 16 ∧ (s.group g).accCount ≠ 0) →
    (∀ q ∈ (s.group g).mq, ∀ op ∈ q.2, op.performed = true) → Stored s g.core ts →
    p + tileTotal o < 2 ^ 32 → p + tileTotal o ≠ 0 →
    SetsBar i s (metOn s ts s.thread) (onlyG s g ((s.group g).tiling o)) pa (p + tileTotal o) l n f := by
  intro g o hbusy hok hgemm hmq hst hlt hne hwf
  obtain ⟨s₀, hs, hstores, ht, hrun⟩ := h.collExec_next (f := tileColl kind d a b bar la) hb fun s' hs => by
    rw [hq, hs.groupOf, hs.group]; exact hbusy
  have hop : tileOpOf s₀ g t kind d a b pa = o := tileOpOf_freed hs ht ..
  have hreach : reachBar s₀ t (readS s₀ t (highReg bar)) = .ok ⟨pa, ty, partOfCore s₀ t.core⟩ := by
    rw [(h.ready t h.first_mem).readS_freed hs ht]
    exact hr.reachBar_eq hs (by rw [ht, freedOn_struck])
  have hcoll := tileColl_accepts (la := la) (ts := ts) hreach (by rw [hs.group]; exact hgemm) (by rw [hop]; exact hok)
  simp only [hop] at hcoll
  obtain ⟨hset, hthreads⟩ := barExpect_freed hs ht hr hbar hwf hlt hne (partOfCore s₀ t.core)
  generalize barExpect (popPlan s₀) ⟨pa, ty, partOfCore s₀ t.core⟩ (tileTotal o) = s₁ at hcoll hset hthreads
  have hstart := hset.startTile g o
  have hkept : SameStores s (startTile s₁ g o) := hstores.congr ((startTile_threads ..).trans hthreads)
  have hrel := hstart.reordered (h.release_quiet hst hkept (by rw [hstart.frame]) (fun u _ => by rw [hstart.thread, freedOn_outs]) pa)
  rw [awaitAccept_performed (by rw [hrel.group, onlyG, if_pos rfl]; exact hmq) ts la] at hcoll
  have hfinal := hrel.released h.distinct
  obtain ⟨m, pl, hx⟩ := hrun _ hcoll fun v hv => by rw [hfinal.thread, metOn, if_pos hv]; rfl
  exact hfinal.setsBar ((hi s).trans hx) hwf

/-- What R355 and R361 say of `tgemm`, `tquant` and `tcopy` where no arriving thread is marked as gone past its loads: the statement
`tileWordsIssue` with that hypothesis. -/
theorem tileWords_issue {s : State} {t : TId} {ts : List TId} {i : Instr} {pa p l n f : Nat} {ty : MemTy} {bar : Fin 16} {la : La}
    {kind : TileKind} {d a b : Reg}
    (hi : (i = .tgemm d a b bar la ∧ kind = .gemm) ∨ (i = .tquant d a bar la ∧ b = a ∧ kind = .quant) ∨
      ∃ rm sat, i = .tcopy d a rm sat bar la ∧ b = a ∧ kind = .copy rm sat)
    (h : Meets s .group t ts i) (hb : ∀ u ∈ packThreads s, (s.thread u).beyond = false)
    (hr : ReachesBar s t (readS s t (highReg bar)) pa ty) (hbar : BarIs s pa p l n f) :
    let g := groupOf s t
    let o := tileOpOf s g t kind d a b pa
    (s.group g).busy = false → tileOk o = true → (kind = .gemm → (s.group g).width ≠ 16 ∧ (s.group g).accCount ≠ 0) →
    (∀ q ∈ (s.group g).mq, ∀ op ∈ q.2, op.performed = true) → Stored s g.core ts →
    p + tileTotal o < 2 ^ 32 → p + tileTotal o ≠ 0 →
    SetsBar i s (metOn s ts s.thread) (onlyG s g ((s.group g).tiling o)) pa (p + tileTotal o) l n f := by
  obtain ⟨rfl, rfl⟩ | ⟨rfl, rfl, rfl⟩ | ⟨rm, sat, rfl, rfl, rfl⟩ := hi
  all_goals exact tileWord_sets (la := la) (fun _ => rfl) (fun _ _ => rfl) h hb hr hbar

/-- The hypotheses of `tileWords_issue` on those who arrive are met where two threads do; `witness_TileWords` meets the others. -/
theorem tiled_arrives (i : Instr) : Meets tiled .group t0 [t0, t1] i ∧ ∀ u ∈ packThreads tiled, (tiled.thread u).beyond = false :=
  ⟨meets_of (by decide +kernel) i, by decide +kernel⟩

/-! ## What fails: a thread marked as gone past its loads -/

/-- The state of the tile words' witness, its first arriving thread marked as gone past its loads though no result is outstanding. -/
def strayedTile : State := tiled.modThread t0 fun x => { x with beyond := true }

theorem strayedTile_meets (i : Instr) : Meets strayedTile .group t0 [t0, t1] i := meets_of (by decide +kernel) i
theorem strayedTile_reaches : ReachesBar strayedTile t0 (readS strayedTile t0 (highReg 0)) 0x3000 .wb :=
  reachesBar_of (reaches_of (by rfl) (by decide +kernel)) (by decide +kernel) (unbound_unwatched (by decide +kernel) _ _)
theorem strayedTile_bar : BarIs strayedTile 0x3000 0 1 2 0 :=
  ⟨by decide +kernel, by decide +kernel, by decide +kernel, by decide +kernel, by decide +kernel⟩

theorem pcAfter_of_setsBar {i : Instr} {s : State} {th : TId → Thread} {gr : GId → Group} {pa p l n f : Nat}
    (h : SetsBar i s th gr pa p l n f) (hwf : Memory.wf s.mem = true) (t : TId) : pcAfter i s t = some (th t).pc := by
  obtain ⟨s', he, ht, -⟩ := h hwf
  simp [pcAfter, he, ht]

/-- Refutes O32: `Meets` does not say that no arriving thread is marked `beyond`, and a marked thread stays before the collective
(R50, R126), so that its group goes on waiting where the statement releases it and starts the operation. No run is known to set the
mark with no result outstanding; `tensorEntries_hold` and `tileWords_issue` show that the statement lacks this hypothesis and no other. -/
theorem not_tileWords : ¬ Obligations.TileWords := by
  rintro ⟨-, h⟩
  have hsets : SetsBar (.tcopy 5 2 .rn false 0 0) strayedTile (metOn strayedTile [t0, t1] strayedTile.thread) _ _ _ _ _ _ :=
    h 5 2 2 0 0 (.copy .rn false) _ strayedTile t0 [t0, t1] 0x3000 .wb 0 1 2 0 (.inr (.inr ⟨_, _, rfl, rfl, rfl⟩))
      (strayedTile_meets _) strayedTile_reaches strayedTile_bar (by decide +kernel) (by decide +kernel) (by decide +kernel)
      (by decide +kernel) (by unfold Stored; decide +kernel) (by decide +kernel) (by decide +kernel)
  have hmoves := pcAfter_of_setsBar hsets (by decide +kernel) t0
  have hstays : pcAfter (.tcopy 5 2 .rn false 0 0) strayedTile t0 = some 0x200000 := by decide +kernel
  rw [hstays] at hmoves
  exact absurd hmoves (by decide +kernel)

end Sys2Proof.Machine
end

section
/-! SUPPORT. Words of a portion on hypervectors (R376 to R379, R382): the bits that each operation gives, and what it does to the
group. -/

namespace Sys2Proof.Machine

/-! ## Bits of vectors (R376 to R379) -/

theorem rotateLeft_eq_bitsFrom {w n : Nat} (x : BitVec w) (hn : n < w) :
    x.rotateLeft n = bitsFrom w fun j => x.getLsbD ((j.val + w - n) % w) := by
  apply BitVec.eq_of_getLsbD_eq
  intro j hj
  rw [getLsbD_bitsFrom _ hj, BitVec.getLsbD_rotateLeft, Nat.mod_eq_of_lt hn]
  by_cases h : j < n
  · have hi : (j + w - n) % w = w - n + j := by rw [Nat.mod_eq_of_lt (by omega)]; omega
    simp [h, hi]
  · have hi : (j + w - n) % w = j - n := by
      rw [show j + w - n = j - n + w by omega, Nat.add_mod_right, Nat.mod_eq_of_lt (by omega)]
    simp [h, hi, hj]

theorem getLsbD_triTerm {w : Nat} (tt : Byte) (a b o acc : BitVec w) (k : Nat) {j : Nat} (hj : j < w) :
    (if tt.getLsbD k then
        acc ||| (litOf a (k / 4 % 2 == 1) &&& litOf b (k / 2 % 2 == 1) &&& litOf o (k % 2 == 1)) else acc).getLsbD j =
      (acc.getLsbD j || (tt.getLsbD k && (a.getLsbD j == (k / 4 % 2 == 1)) && (b.getLsbD j == (k / 2 % 2 == 1)) &&
        (o.getLsbD j == (k % 2 == 1)))) := by
  have lit (x : BitVec w) (one : Bool) : (litOf x one).getLsbD j = (x.getLsbD j == one) := by cases one <;> simp [litOf, hj]
  cases tt.getLsbD k <;> simp [lit]

/-- `triOf_eq` for words of every width. -/
theorem triOf_eq_bitsFrom {w : Nat} (tt : Byte) (a b o : BitVec w) :
    triOf tt a b o = bitsFrom w fun j =>
      tt.getLsbD (4 * (a.getLsbD j.val).toNat + 2 * (b.getLsbD j.val).toNat + (o.getLsbD j.val).toNat) := by
  apply BitVec.eq_of_getLsbD_eq
  intro j hj
  have hr : List.range 8 = [0, 1, 2, 3, 4, 5, 6, 7] := rfl
  rw [getLsbD_bitsFrom _ hj, triOf, hr]
  simp only [List.foldl_cons, List.foldl_nil, getLsbD_triTerm tt a b o _ _ hj]
  cases a.getLsbD j <;> cases b.getLsbD j <;> cases o.getLsbD j <;> simp

theorem hvSlice_eq_bitsFrom (x : HVec) (m : Nat) : hvSlice x m = bitsFrom 32 fun j => x.getLsbD (32 * m + j.val) := by
  apply BitVec.eq_of_getLsbD_eq
  intro j hj
  rw [getLsbD_bitsFrom _ hj]
  simp [hvSlice, hj]

/-! ## Slices written (R376) -/

theorem getLsbD_putSlice (x : HVec) (m : Nat) (y : W32) {j : Nat} (hj : j < 4096) :
    (putSlice x m y).getLsbD j = if j / 32 = m then y.getLsbD (j % 32) else x.getLsbD j := by
  have hshift : j - 32 * m < 4096 := by omega
  simp only [putSlice, BitVec.getLsbD_or, BitVec.getLsbD_and, BitVec.getLsbD_not, BitVec.getLsbD_shiftLeft, BitVec.getLsbD_setWidth,
    BitVec.getLsbD_ofNat, Nat.testBit_two_pow_sub_one, hj, hshift]
  by_cases hbelow : j < 32 * m
  · have hne : j / 32 ≠ m := by omega
    simp [hbelow, hne]
  by_cases hin : j - 32 * m < 32
  · have heq : j / 32 = m ∧ j - 32 * m = j % 32 := by omega
    simp [hbelow, heq.1, heq.2, Nat.mod_lt]
  · have hne : j / 32 ≠ m := by omega
    simp [hbelow, hin, hne, BitVec.getLsbD_of_ge y (j - 32 * m) (by omega)]

/-- A vector with slices replaced one after another. -/
def putSlices (x : HVec) (ws : List (Nat × W32)) : HVec := ws.foldl (fun x w => putSlice x w.1 w.2) x

theorem putSlices_untouched {x : HVec} {ws : List (Nat × W32)} {j : Nat} (hj : j < 4096) (h : ∀ w ∈ ws, w.1 ≠ j / 32) :
    (putSlices x ws).getLsbD j = x.getLsbD j :=
  List.foldlRecOn (motive := fun y : HVec => y.getLsbD j = x.getLsbD j) ws _ rfl fun y hy w hw => by
    rw [getLsbD_putSlice y w.1 w.2 hj, if_neg (h w hw).symm, hy]

theorem putSlices_written {x : HVec} {ws : List (Nat × W32)} (hn : (ws.map Prod.fst).Nodup) {w : Nat × W32} (hw : w ∈ ws) {j : Nat}
    (hj : j < 4096) (hs : j / 32 = w.1) : (putSlices x ws).getLsbD j = w.2.getLsbD (j % 32) := by
  induction ws generalizing x with
  | nil => cases hw
  | cons v vs ih =>
    obtain ⟨hv, hvs⟩ := List.nodup_cons.mp hn
    change (putSlices (putSlice x v.1 v.2) vs).getLsbD j = _
    rcases List.mem_cons.mp hw with rfl | hw
    · rw [putSlices_untouched hj fun u hu he => hv (List.mem_map.mpr ⟨u, hu, he.trans hs⟩), getLsbD_putSlice _ _ _ hj, if_pos hs]
    · exact ih hvs hw

/-- A group with slices of a hypervector written and some of its marks cleared. -/
def Group.withSlices (y : Group) (k : Reg8) (ws : List (Nat × W32)) (c : BitVec 512) : Group :=
  { y with h := y.h.set k.val (putSlices (y.h.get k) ws) k.isLt, hPoison := y.hPoison &&& c }

theorem writeSlices_eq_modGroup (s : State) (g : GId) (k : Reg8) (ws : List (Nat × W32)) :
    ∃ c, hypPending (s.modGroup g (·.withSlices k ws c)) g k = false →
      writeSlices s g k ws = s.modGroup g (·.withSlices k ws c) :=
  ⟨_, fun hquiet => if_neg (Bool.not_eq_true _ ▸ hquiet)⟩

/-! ## A seeded vector (R379) -/

theorem rngAfter_rngStep (n : Nat) (x : W64) : rngAfter n (rngStep x) = rngAfter (n + 1) x := by
  induction n with
  | zero => rfl
  | succ n ih => rw [rngAfter, ih]; rfl

theorem seedWords_getElem? {n k : Nat} (x : W64) (hk : k < n) : (seedWords n x)[k]? = some (rngAfter (k + 1) x) := by
  induction n generalizing x k with
  | zero => omega
  | succ n ih =>
    rw [seedWords]
    cases k with
    | zero => rfl
    | succ k => rw [List.getElem?_cons_succ, ih _ (by omega), rngAfter_rngStep]

theorem getLsbD_joinWords {ws : List W64} {j : Nat} (hj : j < 4096) {w : W64} (hw : ws[j / 64]? = some w) :
    (joinWords ws).getLsbD j = w.getLsbD (j % 64) := by
  rw [joinWords, BitVec.getLsbD_ofNat, decide_eq_true hj, Bool.true_and]
  clear hj
  induction ws generalizing j with
  | nil => simp at hw
  | cons v vs ih =>
    rw [List.foldr_cons, Nat.add_comm, Nat.mul_comm, Nat.testBit_two_pow_mul_add _ v.isLt]
    by_cases hlow : j < 64
    · rw [Nat.div_eq_of_lt hlow] at hw
      obtain rfl : v = w := Option.some.inj hw
      rw [if_pos hlow, Nat.mod_eq_of_lt hlow]; rfl
    · obtain ⟨i, rfl⟩ := Nat.exists_eq_add_of_le (Nat.not_lt.mp hlow)
      rw [Nat.add_div_left _ (by decide), List.getElem?_cons_succ] at hw
      rw [if_neg hlow, Nat.add_sub_cancel_left, ih hw, Nat.add_mod_left]

theorem joinWords_seedWords (x : W64) :
    joinWords (seedWords 64 x) = bitsFrom 4096 fun j => (rngAfter (j.val / 64 + 1) x).getLsbD (j.val % 64) := by
  apply BitVec.eq_of_getLsbD_eq
  intro j hj
  rw [getLsbD_bitsFrom _ hj, getLsbD_joinWords hj (seedWords_getElem? x (by omega))]

/-! ## A portion that changes its group or each of its threads -/

section
variable {b s s' : State} {ts : List TId} {th : TId → Thread} {gr : GId → Group} {g : GId}

theorem Became.modGroup (h : Became b th s.group s') (f : Group → Group) :
    Became b th (onlyG s g (f (s.group g))) (s'.modGroup g f) where
  thread := h.thread
  group k := by rw [State.modGroup_group, onlyG, h.group, h.group]
  frame := by rw [h.frame]; rfl

/-- No result of a group goes to a vector where none is outstanding. -/
theorem hypPending_none (hw : (s'.group g).width = (s.group g).width) (ht : ∀ u, s'.thread u = th u)
    (ho : ∀ u ∈ groupThreads s g, (th u).outs = []) (k : Reg8) : hypPending s' g k = false := by
  rw [hypPending, groupThreads, hw, List.any_eq_false]
  intro u hu
  simp [ht u, ho u hu]

/-- A hypervector written, where no thread of the group has a result outstanding. -/
theorem Became.writeH (h : Became b th s.group s') (ho : ∀ u ∈ groupThreads s g, (th u).outs = []) (k : Reg8) (x : HVec) :
    Became b th (onlyG s g ((s.group g).withH k x)) (writeH s' g k x) := by
  rw [Machine.writeH, hypPending_none (congrArg Group.width (h.group g)) h.thread ho k]
  exact h.modGroup (g := g) (·.withH k x)

/-- Slices of a hypervector written, where no thread of the group has a result outstanding. -/
theorem Became.writeSlices (h : Became b th s.group s') (ho : ∀ u ∈ groupThreads s g, (th u).outs = []) (k : Reg8)
    (ws : List (Nat × W32)) : ∃ c, Became b th (onlyG s g ((s.group g).withSlices k ws c)) (writeSlices s' g k ws) := by
  obtain ⟨c, hc⟩ := writeSlices_eq_modGroup s' g k ws
  have hquiet := hypPending_none (s := s) (s' := s'.modGroup g (·.withSlices k ws c)) (g := g)
    (by rw [State.modGroup_group_self, h.group]; rfl) h.thread ho k
  exact ⟨c, hc hquiet ▸ h.modGroup (g := g) (·.withSlices k ws c)⟩

/-- Each thread of a portion changed as its number says. -/
theorem Became.foldlEach {op : State → TId → State} {f : TId → Thread → Thread}
    (hop : ∀ x u, SameBut s' x → op x u = x.modThread u (f u)) (h : Became b th gr s') (hn : ts.Nodup) :
    Became b (fun u => if u ∈ ts then f u (th u) else th u) gr (ts.foldl op s') := by
  obtain ⟨hs, ht⟩ := foldl_modThread_nodup (s := s') (G := f) (fun x u hx => ⟨x.pmcs, hop x u hx⟩) hn
  have hp : SameBut s' (ts.foldl op s') ∧ (ts.foldl op s').pmcs = s'.pmcs :=
    List.foldlRecOn (motive := fun x => SameBut s' x ∧ x.pmcs = s'.pmcs) ts op ⟨.refl s', rfl⟩ fun x ⟨hx, hm⟩ u _ => by
      rw [hop x u hx]; exact ⟨hx.trans rfl, hm⟩
  exact ⟨fun u => by rw [ht, h.thread], fun g => by rw [hs.group, h.group], by rw [hs, hp.2, h.frame]⟩
end

/-! ## What a word of a portion reads -/

section
variable {i : Instr} {s : State} {g : GId} {t : TId} {ts : List TId} (h : Portion s g t ts i)
include h

theorem Portion.thread_issued {u : TId} (hu : u ∈ ts) : (ts.foldl noteIssue s).thread u = (s.thread u).noted := by
  rw [h.issued.thread, notedOn, if_pos hu]
theorem Portion.groupOf_issued (u : TId) : groupOf (ts.foldl noteIssue s) u = groupOf s u := by simp only [groupOf, h.issued.group]
theorem Portion.homeLane_issued (u : TId) : homeLane (ts.foldl noteIssue s) u = homeLane s u := by
  simp only [homeLane, h.groupOf_issued, h.issued.group]

theorem Portion.tick_issued : (ts.foldl noteIssue s).tick = s.tick := by rw [h.issued.frame]

theorem Portion.readH_issued (k : Reg8) : readH (ts.foldl noteIssue s) t k = readH s t k := by
  have ht := h.thread_issued h.first_mem
  obtain ⟨-, -, hr⟩ := h.member t h.first_mem
  rw [readH_plain (by rw [ht]; exact hr.fresh) (by rw [ht]; exact hr.own), readH_plain hr.fresh hr.own, h.groupOf_issued, h.issued.group]

theorem Portion.readV_issued {u : TId} (hu : u ∈ ts) (r : Reg) : readV (ts.foldl noteIssue s) u r = readV s u r := by
  have ht := h.thread_issued hu
  obtain ⟨-, -, hr⟩ := h.member u hu
  rw [readV_plain (by rw [ht]; exact hr.fresh) (by rw [ht]; exact hr.own), readV_plain hr.fresh hr.own, ht]
  rfl

theorem Portion.sliceOf_issued (x : W64) (u : TId) : sliceOf (ts.foldl noteIssue s) x u = sliceOf s x u := by
  rw [sliceOf, h.homeLane_issued, sliceOf]

/-- A thread's slice is poisoned where the mark of its 64-bit word says so. -/
theorem Portion.hWordBad_issued (k : Reg8) (m : Nat) :
    hWordBad (ts.foldl noteIssue s) t k m = (s.group g).hPoison.getLsbD (64 * k.val + m / 2) := by
  have ho : ((ts.foldl noteIssue s).thread t).outs = [] := by rw [h.thread_issued h.first_mem]; exact h.own h.first_mem
  simp only [hWordBad, ho, List.filter_nil, List.map_nil, pickWord_nil, h.groupOf_issued, h.groupOf_first, h.issued.group]
end

/-! ## Words that write a vector or a uniform register -/

/-- A word that computes one vector. -/
theorem setVector_gives {i : Instr} {d : Reg8} {f y : State → TId → HVec} (he : ∀ s, exec i s = groupExec i (setVector d f) s)
    (hf : ∀ {s g t ts}, Portion s g t ts i → f (ts.foldl noteIssue s) t = y s t) :
    GivesGroup i fun s g t => (s.group g).withH d (y s t) := by
  intro s g t ts h
  refine h.effect (he s) rfl ?_
  rw [hf h]
  exact (h.issued.writeH h.noted_outs d _).seqAll h.distinct

/-- A word that computes one uniform register. -/
theorem setUniform_gives {i : Instr} {d : Reg} {f y : State → TId → W64} (he : ∀ s, exec i s = groupExec i (setUniform d f) s)
    (hf : ∀ {s g t ts}, Portion s g t ts i → f (ts.foldl noteIssue s) t = y s t) : GivesS i d y := by
  intro s g t ts h
  refine h.effect (he s) rfl ?_
  rw [hf h]
  exact (h.issued.writeS h.noted_outs d _).seqAll h.distinct

/-! ## hvmov (R376) -/

/-- R376: each thread's lane register goes to its slice. -/
theorem hvmovToH_moves {d : Reg8} {v x : Reg} {s : State} {g : GId} {t : TId} {ts : List TId} (h : Portion s g t ts (.hvmovToH d v x)) :
    let ws := ts.map fun u => (sliceOf s (readS s t x) u, readV s u v)
    ∃ c, Effect (.hvmovToH d v x) s (seqOn s ts) (onlyG s g ((s.group g).withSlices d ws c)) := by
  intro ws
  obtain ⟨c, hb⟩ := h.issued.writeSlices h.noted_outs d ws
  refine ⟨c, h.effect rfl rfl ?_⟩
  have hws : ts.map (fun u => (sliceOf (ts.foldl noteIssue s) (readS (ts.foldl noteIssue s) t x) u,
      readV (ts.foldl noteIssue s) u v)) = ws :=
    List.map_congr_left fun u hu => by rw [h.readS_issued, h.sliceOf_issued, h.readV_issued hu]
  rw [hws]
  exact hb.seqAll h.distinct

/-- R376: each thread's lane register takes its slice. -/
theorem hvmovToV_moves {a : Reg8} {v x : Reg} {s : State} {g : GId} {t : TId} {ts : List TId} (h : Portion s g t ts (.hvmovToV a v x))
    (hclean : ∀ u ∈ ts, (s.group g).hPoison.getLsbD (64 * a.val + sliceOf s (readS s t x) u / 2) = false) :
    Effect (.hvmovToV a v x) s
      (fun u => if u ∈ ts then
          ((s.thread u).withV s.tick v (hvSlice (readH s t a) (sliceOf s (readS s t x) u))).onward
        else s.thread u) s.group := by
  let s₁ := ts.foldl noteIssue s
  let op (s' : State) (u : TId) : State := writeV s' u v (hvSlice (readH s t a) (sliceOf s' (readS s t x) u))
  let f (u : TId) (z : Thread) : Thread :=
    { z.withV s.tick v (hvSlice (readH s t a) (sliceOf s (readS s t x) u)) with outs := contest (laneDest v.val) v.val z.outs }
  have hop : ∀ s' u, SameBut s₁ s' → op s' u = s'.modThread u (f u) := by
    intro s' u hs
    have htick : s'.tick = s.tick := hs.tick.trans h.tick_issued
    have hslice : sliceOf s' (readS s t x) u = sliceOf s (readS s t x) u := by rw [sliceOf, hs.homeLane, h.homeLane_issued, sliceOf]
    simp only [op, writeV, hslice, htick]; rfl
  have hb := (h.issued.foldlEach hop h.distinct).foldl (op := seqPc) (f := Thread.seq) (fun _ _ => rfl) h.distinct
  have hbad : (ts.any fun u => hWordBad s₁ t a (sliceOf s₁ (readS s t x) u)) = false := by
    rw [List.any_eq_false]
    intro u hu
    rw [h.hWordBad_issued, h.sliceOf_issued, hclean u hu]
    exact Bool.false_ne_true
  refine h.effect (s₁ := seqAll (ts.foldl op s₁) ts) rfl ?runs ⟨fun u => (hb.thread u).trans ?_, hb.group, hb.frame⟩
  case runs =>
    simp only [h.readH_issued, h.readS_issued]
    rw [hbad, Bool.and_false]; rfl
  by_cases hu : u ∈ ts
  · have ho : (s.thread u).outs = [] := h.own hu
    simp only [hu, if_true, notedOn, f]
    rw [← Thread.noted_withV_seq, show (s.thread u).noted.outs = [] from ho, contest_nil, ← ho]; rfl
  · simp only [hu, if_false, notedOn]

/-- Settles O36: the vector words form each bit of their result as R377 to R379 and R382 say, and `hvmov` moves the slice of
each thread of its portion (R376). -/
theorem hypervectorWords : Obligations.HypervectorWords := by
  refine ⟨fun d a b => ?hvxor, fun d a n => ?hvrot, fun d a x => ?hvrotReg, fun d a b tt => ?hvtri,
    fun x a b => ⟨?hvpop, ?hvdist⟩, fun d x => ?hvseed, ?toH, ?toV⟩
  case hvxor => exact setVector_gives (fun _ => rfl) fun h => by rw [h.readH_issued, h.readH_issued]
  case hvrot => exact setVector_gives (fun _ => rfl) fun h => by rw [h.readH_issued, rotateLeft_eq_bitsFrom _ n.isLt]
  case hvrotReg =>
    exact setVector_gives (fun _ => rfl) fun h => by
      rw [h.readH_issued, h.readS_issued, rotateLeft_eq_bitsFrom _ (Nat.mod_lt _ (by decide))]
  case hvtri => exact setVector_gives (fun _ => rfl) fun h => by simp only [h.readH_issued, triOf_eq_bitsFrom]
  case hvpop => exact setUniform_gives (fun _ => rfl) fun h => by rw [h.readH_issued, popcount_eq_onesOf]
  case hvdist => exact setUniform_gives (fun _ => rfl) fun h => by rw [h.readH_issued, h.readH_issued, popcount_eq_onesOf]
  case hvseed => exact setVector_gives (fun _ => rfl) fun h => by rw [h.readS_issued, joinWords_seedWords]
  case toH =>
    intro d v x s g t ts h m y hinj
    let ws := ts.map fun u => (m u, readV s u v)
    have hm (u : TId) : m u < 128 := Nat.mod_lt _ (by decide)
    have hfst : (ws.map Prod.fst).Nodup := by
      rw [List.map_map]
      exact List.pairwise_map.mpr (h.distinct.imp_of_mem fun hu hw hne he => hne (hinj _ hu _ hw he))
    obtain ⟨c, heff⟩ := hvmovToH_moves h
    refine ⟨putSlices (y.h.get d) ws, y.hPoison &&& c, heff, fun hp => by rw [hp]; exact BitVec.zero_and,
      fun u hu j hj => ?written, fun j hj hne => ?untouched⟩
    case written =>
      have hlt := hm u
      rw [putSlices_written hfst (List.mem_map.mpr ⟨u, hu, rfl⟩) (by omega) (by simp only; omega)]
      congr 1; omega
    case untouched =>
      refine putSlices_untouched hj fun w hw => ?_
      obtain ⟨u, hu, rfl⟩ := List.mem_map.mp hw
      exact hne u hu
  case toV =>
    intro a v x s g t ts h m hclean
    have heff := hvmovToV_moves h hclean
    simp only [hvSlice_eq_bitsFrom] at heff
    exact heff

end Sys2Proof.Machine
end
